-- ==== Sys2Proof/Word.lean ====
section
/-! DEFINITION. The plainest types of the model: a byte, a byte sequence, the number of a station port. -/

namespace Sys2Proof

/-- One byte, as the ports, the reader line and the supervisor bus carry it (R190, R191). -/
abbrev Byte := BitVec 8

/-- Bytes in the order sent or stored (most significant byte of a field first, R190). -/
abbrev Bytes := List Byte

/-- A station port, S0 to S5 (R161). -/
abbrev PortId := Fin 6

end Sys2Proof
end

