-- ==== Sys2Proof/Syntax.lean ====
section
/-! DEFINITION. The commands of the FN6: one constructor for each row of spec/opcode_table.json. The table gives no operands;
those below are what the row's rule says the event carries. -/

namespace Sys2Proof

/-- The two moments at which a station port takes part of a transaction in (R161): its select, with the clock's idle level then, and
the moment its frame is taken, with what the frame brought. At the select no command is known yet, so every frame row's select is the
same event (log 9). -/
inductive Moment (α : Type) where
  /-- The select input goes active while the clock idles high or low. -/
  | select (clockHigh : Bool)
  /-- The frame is taken: at the deselect, or at the end of a FETCH's command byte. -/
  | taken (frame : α)
deriving DecidableEq, Repr

/-- A command: an event the part takes, whole and indivisible (spec/95). The docstring of each names its row and its rule. -/
inductive Instr where
  /-- POWER_ON_RESET (R178): RST goes low; `adr1`, `adr0` are the address pins at the end of reset (R177). -/
  | powerOnReset (adr1 adr0 : Bool)
  /-- RUN_RISE (R173). -/
  | runRise
  /-- RUN_FALL (R173). -/
  | runFall
  /-- PLAN (R4 to R10). Its parameter block, as that of every task, is PARAM (R180). -/
  | plan
  /-- LDJB (R107, R108). -/
  | ldjb
  /-- STRT (R110, R111). -/
  | strt
  /-- SWAP (R113, R114). -/
  | swap
  /-- STOP (R118). -/
  | stop
  /-- QUIT (R119). -/
  | quit
  /-- ADMT (R175). -/
  | admt
  /-- TALY (R157). -/
  | taly
  /-- NEXT (R152). -/
  | next
  /-- RLSE (R153). -/
  | rlse
  /-- PVOD (R158, R159). -/
  | pvod
  /-- VLRD (R137). -/
  | vlrd
  /-- VLCL (R138). -/
  | vlcl
  /-- RSET (R189). -/
  | rset
  /-- UNKNOWN_TASK_WORD (R180): four bytes written to TASK, first byte most significant, that name no task. -/
  | unknownTaskWord (word : BitVec 32)
  /-- TASK_END (R181). -/
  | taskEnd
  /-- TASK_OVERRUN (R183): four bytes written to TASK while a task is executing. -/
  | taskOverrun (word : BitVec 32)
  /-- MASK_WRITE (R186): four bytes written to MASK. -/
  | maskWrite (value : BitVec 32)
  /-- CLEAR_WRITE (R185): four bytes written to CLEAR. -/
  | clearWrite (value : BitVec 32)
  /-- STATE_READ (R187): a read of STATE of which the supervisor acknowledges `acked` bytes after the size byte. -/
  | stateRead (acked : Nat)
  /-- REGISTER_WRITE (R177, R179): a write transaction to slot number `slot` with byte count `count` and data `data`. -/
  | registerWrite (slot count : Byte) (data : Bytes)
  /-- PROBE (R166); when taken, whether all eight bits of the command byte were clocked in (R163). -/
  | probe (port : PortId) (moment : Moment Bool)
  /-- REQUEST (R167); when taken, what was clocked in after the command byte, its check byte with it (R161). -/
  | request (port : PortId) (moment : Moment Bytes)
  /-- WASTE (R168). -/
  | waste (port : PortId) (moment : Moment Bytes)
  /-- MISFIRE (R169). -/
  | misfire (port : PortId) (moment : Moment Bytes)
  /-- FETCH (R171), taken at the end of its command byte. -/
  | fetch (port : PortId) (moment : Moment Bool)
  /-- FETCH_COMPLETE (R171): the last bit of the answer's check byte has been clocked out. -/
  | fetchComplete (port : PortId)
  /-- FETCH_ENDED_SHORT (R171): the port is deselected before that. -/
  | fetchEndedShort (port : PortId)
  /-- UNKNOWN_COMMAND_FRAME (R163): its command byte, none when fewer than eight bits of it were clocked in, and, when taken, what
  followed. -/
  | unknownCommandFrame (port : PortId) (command : Option Byte) (moment : Moment Bytes)
  /-- SILENCE_EXPIRY (R174). -/
  | silenceExpiry (port : PortId)
  /-- RECORD_OPEN (R63). -/
  | recordOpen
  /-- ANSWER_READY (R70). -/
  | answerReady (port : PortId)
  /-- TAKE (R27). -/
  | take
  /-- MAKEUP_DRAW (R38): the whole draw, or, where other events come between its lookups (R133), at most `lookups` of them now. -/
  | makeupDraw (lookups : Option Nat := none)
  /-- FILL_COMPLETE (R46, R47). -/
  | fillComplete
  /-- READER_BYTE_RECEIVED (R85): the byte that arrived and whether its stop bit was high. -/
  | readerByteReceived (value : Byte) (stopHigh : Bool)
  /-- GAP_TIMEOUT (R87). -/
  | gapTimeout
  /-- ASSEMBLER_GAP_DISCARD (R90). -/
  | assemblerGapDiscard
  /-- ASSEMBLER_TAKE_BYTE (R88). -/
  | assemblerTakeByte
  /-- CLOSE_UNVERIFIED (R93): the whole closure, or, where other events come between its insertions (R132), at most `inserts` of them
  now. -/
  | closeUnverified (inserts : Option Nat := none)
  /-- FRAME_VERDICT (R94): its whole closure, or at most `inserts` of the insertions now (R132). -/
  | frameVerdict (inserts : Option Nat := none)
  /-- APPEND (R148). -/
  | append
  /-- READER_START_BIT (R87); `lowAtMiddle` is what the middle of the bit samples: when it is not low the edge was noise (R85). -/
  | readerStartBit (lowAtMiddle : Bool)
  /-- READER_LINE_RETURNS_HIGH (R85). -/
  | readerLineReturnsHigh
deriving DecidableEq, Repr

end Sys2Proof
end

