-- ==== Sys2Proof/Decode.lean ====
section
/-! DEFINITION. Reading a command from the bits of its row. spec/opcode_table.json gives no row any bits: its rows are events
(transactions, edges, internal steps), so no word spells a command. A station frame's bytes are read by `Machine.decodeFrame`, a task's
parameter block and word by `Machine.jobRules`, `Machine.planOf` and `Machine.runWord`. -/

namespace Sys2Proof

/-- The command that `nbits` bits `w` spell by the table: none, since no row has bits. -/
def decodeTableWord (_nbits _w : Nat) : Option Instr := none

end Sys2Proof
end

