-- ==== Sys2Proof/Config.lean ====
section
/-! DEFINITION. What the manual leaves to the surroundings of the part at reset. Each is a DESIGN CHOICE with a row of its own
in notes/assumptions. -/

namespace Sys2Proof

/-- What a byte of the account ring reads as before a record is placed on it. DESIGN CHOICE (log 7): R145 gives the ring's
offsets and counts after reset and no contents. Unsafe. -/
def Config.unwrittenByte : Byte := 0

/-- The level of RUN in `State.reset`. DESIGN CHOICE (log 5): RUN is an input and no rule gives its level at reset. Unsafe. -/
def Config.runAtReset : Bool := false

/-- The levels of ADR1 and ADR0 sampled in `State.reset`. DESIGN CHOICE (log 6): R177 lets the pins decide. Unsafe. -/
def Config.adrAtReset : Bool × Bool := (false, false)

end Sys2Proof
end

