-- ==== Sys2Proof/Machine/Codes.lean ====
section
/-! DEFINITION. Capacities, codes and byte order: the numbers of chapters 0 and 11 that the operations use, and the helpers that
lay fields out as bytes (R190, R191). -/

namespace Sys2Proof.Machine

/-! ### Largest values -/

/-- Largest value of a 32-bit counter (R1). -/
def max32 : Nat := 4294967295
/-- Largest value of a 16-bit counter (R1). -/
def max16 : Nat := 65535
/-- Largest repeat index (R11). -/
def maxRepeat : Nat := 4294967250
/-- Largest raw value the void list can hold (R127). -/
def maxRaw : Nat := 9999999999
/-- The span of the window: a record lies below oldest + 48 (R58). -/
def windowSpan : Nat := 48
/-- Most drafts held (R43). -/
def maxDrafts : Nat := 4
/-- Most ranges of the void list (R127). -/
def maxRanges : Nat := 256
/-- Bytes of the account ring (R146). -/
def ringSize : Nat := 8192
/-- Depth of the reader's receive FIFO (R86). -/
def fifoDepth : Nat := 32

/-- A counter increase that saturates at `top` (R1). -/
def satAdd (top a b : Nat) : Nat := min (a + b) top

/-! ### Bytes and fields -/

/-- The `k` bytes of `n`, most significant first (R190). -/
def beBytes : Nat → Nat → Bytes
  | 0, _ => []
  | k + 1, n => BitVec.ofNat 8 (n / 256 ^ k) :: beBytes k n

/-- The number whose bytes, most significant first, are `bs` (R190). -/
def beNat (bs : Bytes) : Nat := bs.foldl (fun acc b => acc * 256 + b.toNat) 0

/-- The field of `len` bytes at `offset` of a block (R191). -/
def field (bs : Bytes) (offset len : Nat) : Nat := beNat ((bs.drop offset).take len)

/-- The byte at `offset` of a block; zero beyond its end. -/
def byteAt (bs : Bytes) (offset : Nat) : Byte := bs.getD offset 0

/-- The byte sum of a frame or answer, mod 256 (R163, R171, R89). -/
def byteSum (bs : Bytes) : Byte := bs.foldl (· + ·) 0

/-- The check byte that makes the byte sum 0 mod 256. -/
def checkByte (bs : Bytes) : Byte := 0 - byteSum bs

/-- A block of `n` bytes that begins with `bs` and is zero beyond them (R181). -/
def padTo (n : Nat) (bs : Bytes) : Bytes := (bs ++ List.replicate n 0).take n

/-- One bit of a flags byte. -/
def flagBit (b : Bool) (place : Nat) : Byte := if b then BitVec.ofNat 8 (2 ^ place) else 0

/-! ### Station commands (R190) -/

def cmdProbe : Byte := 0x30
def cmdRequest : Byte := 0x31
def cmdWaste : Byte := 0x32
def cmdMisfire : Byte := 0x33
def cmdFetch : Byte := 0x34

/-- The five recognised command bytes (R163). -/
def stationCommands : List Byte := [cmdProbe, cmdRequest, cmdWaste, cmdMisfire, cmdFetch]

/-! ### The supervisor port (R177) -/

/-- The bus address that the pins select (R177). -/
def busAddress (adr1 adr0 : Bool) : BitVec 7 :=
  0x3A + (if adr1 then 2 else 0) + (if adr0 then 1 else 0)

def slotTask : Byte := 0x20
def slotParam : Byte := 0x21
def slotResult : Byte := 0x22
def slotEvents : Byte := 0x30
def slotMask : Byte := 0x31
def slotClear : Byte := 0x32
def slotState : Byte := 0x40

/-- The bytes of a write that the part acknowledges for a slot of `size` bytes (R177, data beyond the slot). -/
def deliveredBytes (size : Nat) (count : Byte) (data : Bytes) : Bytes := data.take (min count.toNat size)

/-! ### Task words (R180): four capital letters, the first in the most significant byte, in ASCII (PRESUMED, log 39) -/

def wordPlan : BitVec 32 := 0x504C414E
def wordLdjb : BitVec 32 := 0x4C444A42
def wordStrt : BitVec 32 := 0x53545254
def wordSwap : BitVec 32 := 0x53574150
def wordStop : BitVec 32 := 0x53544F50
def wordQuit : BitVec 32 := 0x51554954
def wordAdmt : BitVec 32 := 0x41444D54
def wordTaly : BitVec 32 := 0x54414C59
def wordNext : BitVec 32 := 0x4E455854
def wordRlse : BitVec 32 := 0x524C5345
def wordPvod : BitVec 32 := 0x50564F44
def wordVlrd : BitVec 32 := 0x564C5244
def wordVlcl : BitVec 32 := 0x564C434C
def wordRset : BitVec 32 := 0x52534554
/-- What TASK reads after a refusal and after an unrecognised word (R181): letters, in ASCII. PRESUMED (log 39). -/
def wordFail : BitVec 32 := 0x4641494C
def wordUnkn : BitVec 32 := 0x554E4B4E

/-- The fourteen task words of section 10.3, in ASCII. PRESUMED (log 39). -/
def taskWords : List (BitVec 32) :=
  [wordPlan, wordLdjb, wordStrt, wordSwap, wordStop, wordQuit, wordAdmt, wordTaly, wordNext, wordRlse, wordPvod, wordVlrd,
    wordVlcl, wordRset]

end Sys2Proof.Machine
end

