-- ==== Sys2Proof/Machine/State.lean ====
section
/-! DEFINITION. The state of the FN6 as plain data, block by block, its faults and refusals, and the state after power-on reset. -/

namespace Sys2Proof.Machine

/-! ### The web plan (R2) -/

/-- One plan ply: the station port that serves it and its lead (R2). -/
structure PlyEntry where
  port : PortId
  lead : Nat
deriving DecidableEq, Repr

/-- The plan table (R2). The ply count P is the number of entries; L_max is computed from them (log 20). -/
structure Plan where
  plies : List PlyEntry
  /-- Silence limit, in 10 ms units; 0 disables the timers. -/
  silence : Nat
  divisor : Nat
  winHigh : Nat
  bufHigh : Nat
deriving DecidableEq, Repr

/-! ### Job slots (R104) -/

inductive SlotId where
  | A | B
deriving DecidableEq, Repr

/-- The other job slot. -/
abbrev SlotId.other : SlotId → SlotId
  | .A => .B
  | .B => .A

inductive SlotState where
  | free | loaded | running | draining | ended
deriving DecidableEq, Repr

inductive Source where
  | series | makeup
deriving DecidableEq, Repr

/-- The position order of a job (R13). -/
inductive PosOrder where
  | acrossFirst | aroundFirst
deriving DecidableEq, Repr

inductive Mode where
  | sequential | stacked
deriving DecidableEq, Repr

/-- The check schemes of R29. -/
inductive Scheme where
  | none | mod7 | mod10w | mod11x | mod11skip
deriving DecidableEq, Repr

/-- The job rules of R17 and R18. A MAKEUP job leaves the series rules 0, a SERIES job leaves the window 0. -/
structure Rules where
  start : Nat
  step : Nat
  descending : Bool
  width : Nat
  wrap : Bool
  mode : Mode
  span : Nat
  skips : List (Nat × Nat)
  scheme : Scheme
  bookSize : Nat
  spaceFill : Bool
  lead : Bytes
  sepSpace : Bool
  wlo : Nat
  whi : Nat
deriving DecidableEq, Repr

/-- The geometry of a job: lanes A, around D, position order (R104). -/
structure Geometry where
  lanes : Nat
  around : Nat
  order : PosOrder
deriving DecidableEq, Repr

/-- One counter of a SERIES job (R19). -/
structure Counter where
  v : Nat
  o : Nat
  exhausted : Bool
  domainEnded : Bool
  /-- The domain event mark: RANGE_EXHAUSTED has been raised for this load. -/
  raised : Bool
deriving DecidableEq, Repr

/-- The draw state of a MAKEUP job (R19). -/
structure DrawState where
  exhausted : Bool
  raised : Bool
deriving DecidableEq, Repr

/-- What a before-state keeps of a counter; the event mark is not part of it (R23). -/
structure CounterSnap where
  v : Nat
  o : Nat
  exhausted : Bool
  domainEnded : Bool
deriving DecidableEq, Repr

/-- The before-state of a fill (R23). -/
structure Before where
  counters : List CounterSnap
  drawExhausted : Bool
deriving DecidableEq, Repr

/-- A final repeat or an exhaustion note: none, a repeat index, or EMPTY (R43, R104). -/
inductive Final where
  | unset
  | known (repeatIndex : Nat)
  | empty
deriving DecidableEq, Repr

/-- The ten tally counters, in the order of R155. -/
structure Tally where
  repeatsOpened : Nat
  issued : Nat
  delivered : Nat
  voidStation : Nat
  voidReader : Nat
  voidUnverified : Nat
  voidAborted : Nat
  postVoided : Nat
  blank : Nat
  skipped : Nat
deriving DecidableEq, Repr

/-- A job slot (R104), with the draft queue's exhaustion note for it (R43). -/
structure JobSlot where
  state : SlotState
  tag : Nat
  source : Source
  geometry : Geometry
  rules : Rules
  counters : List Counter
  draw : DrawState
  first : Option Nat
  final : Final
  change : Option Nat
  note : Final
  tally : Tally
deriving DecidableEq, Repr

/-! ### The draft queue (R41, R43) -/

/-- One position entry as a fill makes it (R24, R25). -/
structure Entry where
  value : Option Nat
  /-- The character code of the check character. -/
  check : Option Byte
  bookEnd : Bool
deriving DecidableEq, Repr

/-- A draft (R41). Its numbered and blank counts are counted from the entries (log 20). -/
structure Draft where
  repeatIndex : Nat
  slot : SlotId
  entries : List Entry
  /-- The skipped delta: the plain sum of R25 and R47, with no bound of its own (log 31). -/
  skipped : Nat
  drawn : List Nat
  before : Before
deriving DecidableEq, Repr

/-- The fill in flight (R43), with what it has made so far (R24, R25). -/
structure Fill where
  slot : SlotId
  target : Nat
  before : Before
  entries : List Entry
  /-- The skipped delta so far: a plain sum with no bound of its own (log 31). -/
  skipped : Nat
  drawn : List Nat
  /-- The floor of the next lookup of a draw in progress (R133); none between draws. -/
  floor : Option Nat
deriving DecidableEq, Repr

structure DraftQueue where
  drafts : List Draft
  fill : Option Fill
  passFloor : Option Nat
deriving DecidableEq, Repr

/-! ### The repeat window (R55 to R57) -/

/-- The outcomes of a position (R56). -/
inductive PosOutcome where
  | open | delivered | blank | waste | misfire | stationLost | unserved | plyMissing | mismatch | unreadable | noForm
  | unverified | aborted
deriving DecidableEq, Repr

/-- A position entry of a repeat record (R56). -/
structure Position where
  entry : Entry
  waste : Bool
  misfire : Bool
  outcome : PosOutcome
deriving DecidableEq, Repr

inductive Closure where
  | awaiting | verified | unverified | aborted
deriving DecidableEq, Repr

/-- A set of plies, bit k for ply k (R191). -/
abbrev PlySet := BitVec 6

/-- A repeat record (R55). A record held is UNAPPENDED; it leaves the window when it is appended (log 20). -/
structure Record where
  repeatIndex : Nat
  slot : SlotId
  positions : List Position
  served : PlySet
  lost : PlySet
  closure : Closure
deriving DecidableEq, Repr

/-- A closure in progress (R101, R132): the record it closed and the voided values not yet inserted into the void list. With the last
of them in, the record joins the pending queue (R102). -/
structure Closing where
  repeatIndex : Nat
  values : List Nat
deriving DecidableEq, Repr

/-- The repeat window (R57). Oldest and occupancy are computed from the records (log 20). -/
structure Window where
  records : List Record
  newest : Option Nat
  target : Option Nat
  high : Bool
  closing : Option Closing
deriving DecidableEq, Repr

/-! ### The verdict receiver (R83) -/

structure FifoEntry where
  value : Byte
  framing : Bool
  gapBefore : Bool
  lossAfter : Bool
deriving DecidableEq, Repr

/-- The line side of the receiver (R85): looking for a start bit, receiving a byte (with the gap-before mark carried onto it),
or waiting for the line to return high. -/
inductive LineSide where
  | idle
  | receiving (gapBefore : Bool)
  | waitHigh
deriving DecidableEq, Repr

inductive AsmState where
  | hunt | count | index | codes | check | handling
deriving DecidableEq, Repr

/-- The frame in progress (R83). -/
structure Frame where
  count : Nat
  indexBytes : Nat
  index : Nat
  codes : Bytes
  sum : Byte
  damaged : Bool
deriving DecidableEq, Repr

structure Receiver where
  fifo : List FifoEntry
  gapMark : Bool
  /-- Ticks since the last byte completed, while the silence is timed (R87). -/
  gapTicks : Option Nat
  line : LineSide
  asm : AsmState
  frame : Option Frame
  lastVerdict : Option Nat
  checksumFails : Nat
  framingFails : Nat
  duplicates : Nat
  shapeMismatches : Nat
  noRecords : Nat
deriving DecidableEq, Repr

/-! ### The void list (R127) -/

structure VoidList where
  ranges : List (Nat × Nat)
  incomplete : Bool
  dropped : Nat
  changes : Nat
deriving DecidableEq, Repr

/-! ### The account buffer (R143, R146) -/

/-- The bytes of the ring: cells with strictly rising offsets, none equal to what an unlisted offset reads as. -/
abbrev Memory := List Host.Cell

/-- An item of the pending queue (R143): a REPEAT item refers to its record, the small items are complete. -/
inductive Item where
  | repeatItem (repeatIndex : Nat)
  | jobStart (slot : SlotId) (bytes : Bytes)
  | jobEnd (slot : SlotId) (bytes : Bytes)
  | postVoid (bytes : Bytes)
deriving DecidableEq, Repr

structure Account where
  ring : Memory
  wo : Nat
  ro : Nat
  count : Nat
  tail : Option Nat
  high : Bool
  full : Bool
  queue : List Item
  /-- An append attempt is due by R148: an item joined an empty queue, or an append left items waiting. -/
  due : Bool
deriving DecidableEq, Repr

/-! ### The station ports (R164) -/

inductive PortState where
  | closed | active | lost
deriving DecidableEq, Repr

inductive ReqKind where
  | request | waste | misfire
deriving DecidableEq, Repr

/-- The request a slot holds (R164): its kind, impressions, mask, mapped repeats (none when not mapped) and new-impression flag. -/
structure Request where
  kind : ReqKind
  first : Nat
  last : Nat
  mask : BitVec 16
  repeats : Option (Nat × Nat)
  isNew : Bool
deriving DecidableEq, Repr

/-- The reasons of a REFUSED answer (R190). -/
inductive Reason where
  | order | range | idle | closed | lost
deriving DecidableEq, Repr

/-- One position of a NUMBERS answer (R70). -/
structure NumberPos where
  blank : Bool
  bookEnd : Bool
  text : Bytes
deriving DecidableEq, Repr

/-- The answers of R170, and the NONE answer of R171. -/
inductive Answer where
  | numbers (repeatIndex tag : Nat) (positions : List NumberPos)
  | leadIn (repeatIndex : Nat)
  | blank (repeatIndex : Nat)
  | late (repeatIndex : Nat)
  | ack (marked : Nat)
  | refused (reason : Reason) (cursor : Nat)
  | noAnswer (cursor late order rejected held : Nat)
deriving DecidableEq, Repr

/-- How far the window is with a request: waiting on an opening, or building the answer it has decided on (R66, R70, R72). -/
inductive Phase where
  | waiting
  | building (answer : Answer)
deriving DecidableEq, Repr

/-- The request slot (R170). -/
inductive ReqSlot where
  | none
  | preparing (request : Request) (phase : Phase)
  | held (request : Request) (phase : Phase)
  | ready (request : Request) (answer : Answer)
deriving DecidableEq, Repr

/-- A FETCH being clocked out (R171). -/
structure FetchOut where
  answer : Answer
  /-- The answer is the slot's READY answer, not a NONE answer. -/
  fromReady : Bool
  /-- It answers a new-impression REQUEST (R172). -/
  isNew : Bool
  /-- The record the NUMBERS answer was built from has closed during the clocking (R72). -/
  recordClosed : Bool
deriving DecidableEq, Repr

structure Port where
  state : PortState
  ply : Option Nat
  cursor : Nat
  slot : ReqSlot
  newRun : Bool
  reject : Bool
  /-- Silence timer: none when stopped, else the milliseconds remaining. -/
  timer : Option Nat
  late : Nat
  order : Nat
  rejected : Nat
  held : Nat
  fetch : Option FetchOut
  /-- A transaction is open whose frame has not been taken (R161). -/
  selected : Bool
  /-- The mode of the last transaction, from the clock's idle level at its select: true for mode 3 (R161). -/
  mode3 : Bool
  /-- The bytes chosen for the last transaction: its status byte, then a FETCH's answer (R162, R171, log 21). Beyond them the port
  clocks zeros out (R161). -/
  out : Bytes
deriving DecidableEq, Repr

/-! ### The supervisor port (R177) -/

/-- The outcome of a task (R181). -/
inductive TaskOutcome where
  | carriedOut (results : Bytes)
  | refusal (code : Nat)
  | unrecognised
deriving DecidableEq, Repr

/-- A task that is executing: its word, its copy of PARAM, and the outcome that TASK_END publishes, none until the task's effects have
been taken (R180, R181). -/
structure TaskRun where
  word : BitVec 32
  params : Bytes
  outcome : Option TaskOutcome
deriving DecidableEq, Repr

/-- A state summary snapshot: its two pages of 16 bytes (R187). -/
structure Snapshot where
  page0 : Bytes
  page1 : Bytes
deriving DecidableEq, Repr

/-- MODEL'S OWN (log 21): how the last write transaction was acknowledged (R177). -/
structure BusAck where
  slot : Bool
  data : Nat
deriving DecidableEq, Repr

structure Supervisor where
  address : BitVec 7
  task : BitVec 32
  param : Bytes
  result : Bytes
  events : BitVec 12
  mask : BitVec 12
  /-- The STATE page pointer is 1. -/
  onPage1 : Bool
  sequence : Nat
  snapshot : Option Snapshot
  running : Option TaskRun
  /-- MODEL'S OWN (log 21): the bytes of the last STATE read that the supervisor acknowledged. -/
  out : Bytes
  ack : BusAck
deriving DecidableEq, Repr

/-! ### The whole state -/

/-- The state of the FN6: one field for each block, the RUN level, and the commands waiting. -/
structure State where
  plan : Plan
  slotA : JobSlot
  slotB : JobSlot
  queue : DraftQueue
  window : Window
  receiver : Receiver
  voids : VoidList
  account : Account
  ports : Vector Port 6
  sup : Supervisor
  run : Bool
  pending : List Instr
deriving DecidableEq, Repr

/-- The reasons a command can stop the part with a fault. There are none: refusals of tasks, REFUSED answers, rejected frames and
discarded reader frames are effects on the state (R163, R170, R181, R89 to R94). -/
inductive Fault where
deriving DecidableEq, Repr

/-- The reasons a command can be refused by the model. -/
inductive Refusal where
  /-- The command has no meaning yet; raised only by an arm of `exec`. Safe. -/
  | notModelled (mnemonic : String)
deriving DecidableEq, Repr

/-! ### Power-on reset -/

/-- No rules (R20): every value field 0, every flag no. -/
def Rules.cleared : Rules :=
  { start := 0, step := 0, descending := false, width := 0, wrap := false, mode := .sequential, span := 0, skips := [],
    scheme := .none, bookSize := 0, spaceFill := false, lead := [], sepSpace := false, wlo := 0, whi := 0 }

def Tally.zero : Tally :=
  { repeatsOpened := 0, issued := 0, delivered := 0, voidStation := 0, voidReader := 0, voidUnverified := 0,
    voidAborted := 0, postVoided := 0, blank := 0, skipped := 0 }

/-- A FREE slot (R20, R106); the values of its source and geometry are the model's (log 34). -/
def JobSlot.cleared : JobSlot :=
  { state := .free, tag := 0, source := .series, geometry := { lanes := 0, around := 0, order := .acrossFirst },
    rules := .cleared, counters := [], draw := { exhausted := false, raised := false }, first := none, final := .unset,
    change := none, note := .unset, tally := .zero }

/-- The plan table after power-on reset (R3). -/
def Plan.reset : Plan := { plies := [], silence := 0, divisor := 130, winHigh := 48, bufHigh := 32 }

/-- The empty draft queue (R44). -/
def DraftQueue.empty : DraftQueue := { drafts := [], fill := none, passFloor := none }

/-- The empty window (R59). -/
def Window.empty : Window := { records := [], newest := none, target := none, high := false, closing := none }

/-- The verdict receiver after power-on reset (R84). -/
def Receiver.reset : Receiver :=
  { fifo := [], gapMark := false, gapTicks := none, line := .idle, asm := .hunt, frame := none, lastVerdict := none,
    checksumFails := 0, framingFails := 0, duplicates := 0, shapeMismatches := 0, noRecords := 0 }

/-- The void list after power-on reset (R128). -/
def VoidList.reset : VoidList := { ranges := [], incomplete := false, dropped := 0, changes := 0 }

/-- The account buffer after power-on reset (R145). -/
def Account.reset : Account :=
  { ring := [], wo := 0, ro := 0, count := 0, tail := none, high := false, full := false, queue := [], due := false }

/-- A station port after power-on reset (R164). -/
def Port.reset : Port :=
  { state := .closed, ply := none, cursor := 0, slot := .none, newRun := false, reject := false, timer := none, late := 0,
    order := 0, rejected := 0, held := 0, fetch := none, selected := false, mode3 := false, out := [] }

/-- The supervisor port after power-on reset with the sampled address pins (R177, R178). -/
def Supervisor.reset (adr1 adr0 : Bool) : Supervisor :=
  { address := busAddress adr1 adr0, task := 0, param := List.replicate 64 0, result := List.replicate 160 0, events := 0,
    mask := 0, onPage1 := false, sequence := 0, snapshot := none, running := none, out := [], ack := { slot := false, data := 0 } }

/-- The part after power-on reset (R178 and the reset rule of each block), with no command waiting. -/
def State.reset : State :=
  { plan := .reset, slotA := .cleared, slotB := .cleared, queue := .empty, window := .empty, receiver := .reset,
    voids := .reset, account := .reset, ports := Vector.replicate 6 .reset,
    sup := .reset Config.adrAtReset.1 Config.adrAtReset.2, run := Config.runAtReset, pending := [] }

end Sys2Proof.Machine
end

