-- ==== Sys2Proof/Machine/Flags.lean ====
section
/-! DEFINITION. The event flags (R184 to R186) and the access to blocks, slots and ports that every operation uses. -/

namespace Sys2Proof.Machine

/-! ### Access to slots and ports -/

/-- The job slot named `i`. -/
def State.slot (s : State) : SlotId → JobSlot
  | .A => s.slotA
  | .B => s.slotB

/-- `s` with job slot `i` changed by `f`. -/
def State.modSlot (s : State) (i : SlotId) (f : JobSlot → JobSlot) : State :=
  match i with
  | .A => { s with slotA := f s.slotA }
  | .B => { s with slotB := f s.slotB }

/-- The station port `p`. -/
def State.port (s : State) (p : PortId) : Port := s.ports[p]

/-- `s` with station port `p` changed by `f`. -/
def State.modPort (s : State) (p : PortId) (f : Port → Port) : State :=
  { s with ports := s.ports.set p (f s.ports[p]) }

/-- `s` with every station port changed by `f`. -/
def State.mapPorts (s : State) (f : Port → Port) : State := { s with ports := s.ports.map f }

/-- The six ports in ascending order. -/
def allPorts : List PortId := [0, 1, 2, 3, 4, 5]

/-- Run `f` for each port in ascending order (log 12). -/
def State.forPorts (s : State) (f : PortId → State → State) : State := allPorts.foldl (fun t p => f p t) s

/-! ### Events -/

/-- The twelve events, in the order of R184. -/
inductive Event where
  | taskDone | taskOverrun | windowHigh | windowHeld | bufferHigh | bufferFull | stationLost | readerDiscard | jobChanged
  | jobEnded | rangeExhausted | voidListIncomplete
deriving DecidableEq, Repr

/-- The place of an event's flag: order j at bit j - 1 (R191). -/
def Event.place : Event → Nat
  | .taskDone => 0
  | .taskOverrun => 1
  | .windowHigh => 2
  | .windowHeld => 3
  | .bufferHigh => 4
  | .bufferFull => 5
  | .stationLost => 6
  | .readerDiscard => 7
  | .jobChanged => 8
  | .jobEnded => 9
  | .rangeExhausted => 10
  | .voidListIncomplete => 11

/-- The flags value that holds one event's flag. -/
def Event.flag (e : Event) : BitVec 12 := BitVec.ofNat 12 (2 ^ e.place)

/-- Raise an event: its flag is set and stays set (R184). -/
def State.raise (s : State) (e : Event) : State :=
  { s with sup := { s.sup with events := s.sup.events ||| e.flag } }

/-- Raise an event when `c` holds. -/
def State.raiseIf (s : State) (c : Bool) (e : Event) : State := if c then s.raise e else s

/-- The attention line: asserted while some flag is set both in EVENTS and in MASK (R186). -/
def State.attention (s : State) : Bool := s.sup.events &&& s.sup.mask != 0

end Sys2Proof.Machine
end

