-- ==== Sys2Proof/Machine/Memory.lean ====
section
/-! DEFINITION. The bytes of the account ring (R146): reading and writing them, in the canonical form of `Memory`. -/

namespace Sys2Proof.Machine

/-- The byte at an offset; an offset not listed reads `Config.unwrittenByte` (log 7). -/
def Memory.read : Memory → Nat → Byte
  | [], _ => Config.unwrittenByte
  | (k, c) :: m, a => if k = a then c else Memory.read m a

/-- Write one byte, keeping the canonical form: writing what an unlisted offset reads as removes the cell. -/
def Memory.write : Memory → Nat → Byte → Memory
  | [], a, b => if b = Config.unwrittenByte then [] else [(a, b)]
  | (k, c) :: m, a, b =>
    if k < a then (k, c) :: Memory.write m a b
    else if k = a then (if b = Config.unwrittenByte then m else (a, b) :: m)
    else (if b = Config.unwrittenByte then (k, c) :: m else (a, b) :: (k, c) :: m)

/-- Write bytes at consecutive offsets from `a` upward. -/
def Memory.writeBytes : Memory → Nat → Bytes → Memory
  | m, _, [] => m
  | m, a, b :: bs => Memory.writeBytes (Memory.write m a b) (a + 1) bs

/-- The `n` bytes at consecutive offsets from `a` upward. -/
def Memory.readBytes (m : Memory) (a : Nat) : Nat → Bytes
  | 0 => []
  | n + 1 => Memory.read m a :: Memory.readBytes m (a + 1) n

/-- The canonical form: offsets strictly rising, no cell equal to what an unlisted offset reads as. -/
abbrev Memory.wf (m : Memory) : Prop :=
  m.Pairwise (fun x y => x.1 < y.1) ∧ ∀ c ∈ m, c.2 ≠ Config.unwrittenByte

end Sys2Proof.Machine
end

