-- ==== Sys2Proof/Machine/Series.lean ====
section
/-! DEFINITION. Number series arithmetic (chapter 2): check characters, the take of a counter, lane starts, rendering. Pure
functions of a job's rules and one counter. -/

namespace Sys2Proof.Machine

/-! ### Check characters (R29, R30) -/

/-- The size of the domain: raw values are 0 to 10^W - 1 (R17). -/
def Rules.domain (r : Rules) : Nat := 10 ^ r.width

/-- The digit at place `i`, counted from the units digit (R29). -/
def digit (v i : Nat) : Nat := v / 10 ^ i % 10

/-- The weighted digit sum over `width` places (R29). -/
def weightedSum (weight : Nat → Nat) (width v : Nat) : Nat := ((List.range width).map fun i => digit v i * weight i).sum

/-- Weights 3, 1, 3, 1 … from the units digit (R29). -/
def weight10 (i : Nat) : Nat := if i % 2 = 0 then 3 else 1

/-- Weights 2, 3, 4, 5, 6, 7, 2, 3 … from the units digit (R29). -/
def weight11 (i : Nat) : Nat := 2 + i % 6

/-- The check value c of R29; none under scheme NONE. -/
def checkValue : Scheme → Nat → Nat → Option Nat
  | .none, _, _ => none
  | .mod7, _, v => some (v % 7)
  | .mod10w, width, v => some ((10 - weightedSum weight10 width v % 10) % 10)
  | .mod11x, width, v => some ((11 - weightedSum weight11 width v % 11) % 11)
  | .mod11skip, width, v => some ((11 - weightedSum weight11 width v % 11) % 11)

/-- The character of a check value: a digit, or 'X' for 10 (R30), in ASCII. PRESUMED (log 39). -/
def checkChar (c : Nat) : Byte := if c = 10 then 0x58 else BitVec.ofNat 8 (0x30 + c)

/-- The check character of a value under a job's rules. -/
def Rules.checkOf (r : Rules) (v : Nat) : Option Byte := (checkValue r.scheme r.width v).map checkChar

/-- The value is passed over or skipped under MOD11SKIP (R30, R38). -/
def Rules.skipsValue (r : Rules) (v : Nat) : Bool :=
  r.scheme = .mod11skip && checkValue r.scheme r.width v = some 10

/-! ### The take (R27 to R33) -/

/-- The skip range a take jumps over: the first one given that contains the value (R28). -/
def Rules.skipAt (r : Rules) (v : Nat) : Option (Nat × Nat) := r.skips.find? fun x => x.1 ≤ v && v ≤ x.2

/-- The jump count k of R28, capped so that the ordinal does not pass the span. -/
def jumpCount (r : Rules) (c : Counter) (x : Nat × Nat) : Nat :=
  min ((if r.descending then (c.v - x.1) / r.step else (x.2 - c.v) / r.step) + 1) (r.span - c.o)

/-- The value t of a move of `k` steps, on unbounded integers (R32). -/
def Rules.moveTarget (r : Rules) (v k : Nat) : Int :=
  if r.descending then (v : Int) - (k * r.step : Nat) else (v : Int) + (k * r.step : Nat)

/-- A counter after consuming `k` raw steps, and whether RANGE_EXHAUSTED is raised (R32, R33). -/
def Counter.move (r : Rules) (c : Counter) (k : Nat) : Counter × Bool :=
  let c := { c with o := c.o + k }
  let t := r.moveTarget c.v k
  if 0 ≤ t ∧ t < (r.domain : Int) then ({ c with v := t.toNat }, false)
  else if r.wrap then ({ c with v := (t % (r.domain : Int)).toNat }, false)
  else if r.span ≤ c.o then (c, false)
  else ({ c with domainEnded := true, raised := true }, !c.raised)

/-- What one take hands back: the counter after it, the position entry, the raw steps consumed without issue, and whether
RANGE_EXHAUSTED is raised. -/
structure TakeResult where
  counter : Counter
  entry : Entry
  skipped : Nat
  raised : Bool
deriving DecidableEq, Repr

/-- The entry of a position that got no value (R24). -/
def Entry.blank : Entry := { value := none, check := none, bookEnd := false }

/-- The entry of an issued value; `o` is the ordinal before it is increased (R31). -/
def Rules.issue (r : Rules) (v o : Nat) : Entry :=
  { value := some v, check := r.checkOf v, bookEnd := r.bookSize ≠ 0 && (o + 1) % r.bookSize = 0 }

/-- The passes of a take through R27 to R31, with what the earlier passes consumed and raised. -/
def takeLoop (r : Rules) : Nat → Counter → Nat → Bool → TakeResult
  | 0, c, skipped, raised => { counter := c, entry := .blank, skipped, raised }
  | n + 1, c, skipped, raised =>
    if r.span ≤ c.o ∨ c.domainEnded = true then
      { counter := { c with exhausted := true, raised := true }, entry := .blank, skipped, raised := raised || !c.raised }
    else if c.exhausted then { counter := c, entry := .blank, skipped, raised }
    else
      match r.skipAt c.v with
      | some x =>
        let m := c.move r (jumpCount r c x)
        takeLoop r n m.1 (skipped + jumpCount r c x) (raised || m.2)
      | none =>
        let m := c.move r 1
        if r.skipsValue c.v then takeLoop r n m.1 (skipped + 1) (raised || m.2)
        else { counter := m.1, entry := r.issue c.v c.o, skipped, raised := raised || m.2 }

/-- One take (R27). It ends within span - ordinal passes that consume a step, and one that ends it (R34). -/
def Counter.take (r : Rules) (c : Counter) : TakeResult := takeLoop r (r.span - c.o + 1) c 0 false

/-! ### Loading and restoring counters (R21, R22, R26) -/

/-- The start x_a of lane `a`, before any reduction (R21). -/
def Rules.laneStart (r : Rules) (a : Nat) : Int := r.moveTarget r.start (a * r.span)

/-- A counter at its start (R21). -/
def Counter.at (v : Nat) : Counter := { v, o := 0, exhausted := false, domainEnded := false, raised := false }

/-- The counters of a SERIES job at load (R21). -/
def Rules.counters (r : Rules) (lanes : Nat) : List Counter :=
  match r.mode with
  | .sequential => [Counter.at r.start]
  | .stacked => (List.range lanes).map fun a => Counter.at (r.laneStart a % (r.domain : Int)).toNat

/-- The value lies in the domain. -/
def Rules.inDomain (r : Rules) (t : Int) : Bool := 0 ≤ t && t < (r.domain : Int)

/-- The span test of R22 for a job with wrap not permitted. -/
def Rules.spanFits (r : Rules) (lanes : Nat) : Bool :=
  match r.mode with
  | .sequential => r.inDomain r.start && r.inDomain (r.moveTarget r.start (r.span - 1))
  | .stacked => (List.range lanes).all fun a =>
      r.inDomain (r.laneStart a) && r.inDomain (r.moveTarget r.start (a * r.span + (r.span - 1)))

/-- What a before-state keeps of a counter (R23). -/
def Counter.snap (c : Counter) : CounterSnap := { v := c.v, o := c.o, exhausted := c.exhausted, domainEnded := c.domainEnded }

/-- A counter set back to a before-state; its event mark keeps the value it held (R26). -/
def Counter.restore (c : Counter) (b : CounterSnap) : Counter :=
  { c with v := b.v, o := b.o, exhausted := b.exhausted, domainEnded := b.domainEnded }

/-! ### Positions (R13, R24) -/

/-- The number of positions N = A x D. -/
def Geometry.positions (g : Geometry) : Nat := g.lanes * g.around

/-- The lane of position index `p` (R13). -/
def Geometry.laneOf (g : Geometry) (p : Nat) : Nat :=
  match g.order with
  | .acrossFirst => p % g.lanes
  | .aroundFirst => p / g.around

/-- The counter that position index `p` takes from (R24). -/
def counterIndex (r : Rules) (g : Geometry) (p : Nat) : Nat :=
  match r.mode with
  | .sequential => 0
  | .stacked => g.laneOf p

/-! ### Rendering (R36) -/

/-- The W digits, most significant first, leading zeros as spaces when the job is SPACE-filled; the units digit always shows.
Digits and space are ASCII. PRESUMED (log 39). -/
def Rules.digits (r : Rules) (v : Nat) : Bytes :=
  (List.range r.width).reverse.map fun i =>
    if r.spaceFill && i ≠ 0 && v < 10 ^ i then 0x20 else BitVec.ofNat 8 (0x30 + digit v i)

/-- The string of an issued value (R36); the separator is the ASCII space. PRESUMED (log 39). -/
def Rules.render (r : Rules) (v : Nat) (check : Option Byte) : Bytes :=
  r.lead ++ r.digits v ++ (if r.sepSpace && check.isSome then [0x20] else []) ++ check.toList

end Sys2Proof.Machine
end

