-- ==== Sys2Proof/Machine/Formats.lean ====
section
/-! DEFINITION. The byte layouts the outside sees (R190, R191): status bytes, answers, account records. -/

namespace Sys2Proof.Machine

/-! ### Codes (R191) -/

def SlotId.code : SlotId → Nat
  | .A => 0
  | .B => 1

def SlotState.code : SlotState → Nat
  | .free => 0
  | .loaded => 1
  | .running => 2
  | .draining => 3
  | .ended => 4

def PortState.code : PortState → Nat
  | .closed => 0
  | .active => 1
  | .lost => 2

def Closure.code : Closure → Nat
  | .awaiting => 0
  | .verified => 1
  | .unverified => 2
  | .aborted => 3

/-- The outcome codes; an OPEN position is in no account record and has no code. -/
def PosOutcome.code : PosOutcome → Nat
  | .open => 0
  | .delivered => 1
  | .blank => 2
  | .waste => 3
  | .misfire => 4
  | .stationLost => 5
  | .unserved => 6
  | .plyMissing => 7
  | .mismatch => 8
  | .unreadable => 9
  | .noForm => 10
  | .unverified => 11
  | .aborted => 12

def Scheme.code : Scheme → Nat
  | .none => 0
  | .mod7 => 1
  | .mod10w => 2
  | .mod11x => 3
  | .mod11skip => 4

def PosOrder.code : PosOrder → Nat
  | .acrossFirst => 0
  | .aroundFirst => 1

/-- The reasons of a REFUSED answer (R190). -/
def Reason.code : Reason → Nat
  | .order => 1
  | .range => 2
  | .idle => 3
  | .closed => 4
  | .lost => 5

/-- The refusal codes of R182. -/
def refusedBusy : TaskOutcome := .refusal 1
def refusedState : TaskOutcome := .refusal 2
def refusedRange : TaskOutcome := .refusal 3
def refusedSpan : TaskOutcome := .refusal 4
def refusedTag : TaskOutcome := .refusal 5
def refusedGeometry : TaskOutcome := .refusal 6
def refusedPast : TaskOutcome := .refusal 7
def refusedIncomplete : TaskOutcome := .refusal 8
def refusedEmpty : TaskOutcome := .refusal 9
def refusedOpen : TaskOutcome := .refusal 10
def refusedQueue : TaskOutcome := .refusal 11
def refusedUnderflow : TaskOutcome := .refusal 12

/-! ### Station ports (R190) -/

/-- The code of a request state. -/
def ReqSlot.code : ReqSlot → Nat
  | .none => 0
  | .preparing _ _ => 1
  | .held _ _ => 2
  | .ready _ _ => 3

/-- The status byte (R162, R190). -/
def Port.statusByte (p : Port) : Byte :=
  BitVec.ofNat 8 (p.state.code * 64 + p.slot.code * 16) ||| flagBit p.newRun 3 ||| flagBit p.reject 2

/-- One position of a NUMBERS answer: flags, string length, string (R190). -/
def NumberPos.bytes (n : NumberPos) : Bytes :=
  (flagBit n.blank 0 ||| flagBit n.bookEnd 1) :: BitVec.ofNat 8 n.text.length :: n.text

/-- The kind byte of an answer (R190). -/
def Answer.kind : Answer → Byte
  | .numbers _ _ _ => 0x01
  | .leadIn _ => 0x02
  | .blank _ => 0x03
  | .late _ => 0x04
  | .ack _ => 0x05
  | .refused _ _ => 0x06
  | .noAnswer _ _ _ _ _ => 0x07

/-- The body of an answer (R190). -/
def Answer.body : Answer → Bytes
  | .numbers r tag ps => beBytes 4 r ++ beBytes 2 tag ++ beBytes 1 ps.length ++ ps.flatMap NumberPos.bytes
  | .leadIn r => beBytes 4 r
  | .blank r => beBytes 4 r
  | .late r => beBytes 4 r
  | .ack n => beBytes 2 n
  | .refused reason cursor => beBytes 1 reason.code ++ beBytes 4 cursor
  | .noAnswer cursor lateCount orderCount rejectedCount heldCount =>
    beBytes 4 cursor ++ beBytes 2 lateCount ++ beBytes 2 orderCount ++ beBytes 2 rejectedCount ++ beBytes 2 heldCount

/-- An answer as it is clocked out: kind, length, body, check byte (R171, R190). -/
def Answer.bytes (a : Answer) : Bytes :=
  let bs := a.kind :: beBytes 2 a.body.length ++ a.body
  bs ++ [checkByte bs]

/-! ### Account records (R112, R122, R149, R159, R191) -/

/-- The common header: type, N, tag, repeat index, closure kind, plies served, plies lost, pad. -/
def recordHeader (type n tag repeatIndex closure served lost : Nat) : Bytes :=
  beBytes 1 type ++ beBytes 1 n ++ beBytes 2 tag ++ beBytes 4 repeatIndex ++ beBytes 1 closure ++ beBytes 1 served
    ++ beBytes 1 lost ++ beBytes 1 0

/-- One position of a REPEAT record: value, check character, outcome, flags (R149). -/
def Position.bytes (p : Position) : Bytes :=
  beBytes 5 (p.entry.value.getD 0) ++ [p.entry.check.getD 0] ++ beBytes 1 p.outcome.code
    ++ [flagBit p.entry.value.isNone 0 ||| flagBit p.entry.bookEnd 1]

/-- A REPEAT record (R149). -/
def Record.bytes (tag : Nat) (r : Record) : Bytes :=
  recordHeader 1 r.positions.length tag r.repeatIndex r.closure.code r.served.toNat r.lost.toNat
    ++ r.positions.flatMap Position.bytes

/-- A JOB_START record (R112). -/
def JobSlot.startBytes (j : JobSlot) : Bytes :=
  let makeup := j.source = .makeup
  recordHeader 2 0 j.tag 0 0 0 0 ++
    [if makeup then 1 else 0, if makeup then 2 else if j.rules.mode = .stacked then 1 else 0] ++
    beBytes 1 j.rules.width ++ beBytes 1 (if makeup then 0 else j.rules.step) ++
    [if makeup then 0 else if j.rules.descending then 1 else 0] ++
    beBytes 5 (if makeup then j.rules.wlo else j.rules.start) ++ beBytes 5 (if makeup then j.rules.whi else j.rules.span) ++
    beBytes 1 j.rules.scheme.code ++ beBytes 1 j.geometry.lanes ++ beBytes 1 j.geometry.around ++
    beBytes 1 j.geometry.order.code ++ [0]

/-- The ten counters, 4 bytes each, in the order of R155. -/
def Tally.bytes (t : Tally) : Bytes :=
  beBytes 4 t.repeatsOpened ++ beBytes 4 t.issued ++ beBytes 4 t.delivered ++ beBytes 4 t.voidStation ++ beBytes 4 t.voidReader
    ++ beBytes 4 t.voidUnverified ++ beBytes 4 t.voidAborted ++ beBytes 4 t.postVoided ++ beBytes 4 t.blank ++ beBytes 4 t.skipped

/-- A JOB_END record (R122). -/
def JobSlot.endBytes (j : JobSlot) : Bytes := recordHeader 3 0 j.tag 0 0 0 0 ++ j.tally.bytes

/-- A POST_VOID record (R159). -/
def postVoidBytes (tag lo hi operator : Nat) : Bytes :=
  recordHeader 4 0 tag 0 0 0 0 ++ beBytes 5 lo ++ beBytes 5 hi ++ beBytes 2 operator

/-- The size of a record, from its type and position count (R146, R191). -/
def recordSize (type n : Nat) : Nat :=
  if type = 1 then 12 + 8 * n else if type = 2 then 32 else if type = 3 then 52 else 24

end Sys2Proof.Machine
end

