-- ==== Sys2Proof/Machine/Operands.lean ====
section
/-! DEFINITION. The operand forms: what a station frame's bytes and a task's parameter block say (R190, R191), with the checks
that look at nothing but the bytes, and the encodings they come from. -/

namespace Sys2Proof.Machine

/-! ### Station frames (R161, R163, R190) -/

/-- Bytes required after the command byte. -/
def requestLength : Nat := 5
def wasteLength : Nat := 9
def misfireLength : Nat := 7

/-- The frame is not rejected: its required bytes are complete and their sum with the command byte is 0 mod 256 (R163). Bytes
beyond the required length are ignored (R161). -/
def frameAccepted (command : Byte) (required : Nat) (body : Bytes) : Bool :=
  required ≤ body.length && byteSum (command :: body.take required) = 0

/-- A body with its check byte. -/
def withCheck (command : Byte) (body : Bytes) : Bytes := body ++ [checkByte (command :: body)]

/-- The bodies a station sends (R190). -/
def encodeRequest (c : Nat) : Bytes := withCheck cmdRequest (beBytes 4 c)
def encodeWaste (c1 c2 : Nat) : Bytes := withCheck cmdWaste (beBytes 4 c1 ++ beBytes 4 c2)
def encodeMisfire (c : Nat) (mask : BitVec 16) : Bytes := withCheck cmdMisfire (beBytes 4 c ++ beBytes 2 mask.toNat)

/-- The command that a frame is, by its command byte (R163): none of eight bits, or none of the five codes, is an unknown frame. -/
def decodeFrame (port : PortId) (command : Option Byte) (body : Bytes) : Instr :=
  match command with
  | none => .unknownCommandFrame port none (.taken body)
  | some b =>
    if b = cmdProbe then .probe port (.taken true)
    else if b = cmdRequest then .request port (.taken body)
    else if b = cmdWaste then .waste port (.taken body)
    else if b = cmdMisfire then .misfire port (.taken body)
    else if b = cmdFetch then .fetch port (.taken true)
    else .unknownCommandFrame port (some b) (.taken body)

/-! ### PLAN (R5, R6, R191) -/

/-- The ply entries 0 to P - 1 of a PLAN block. -/
def planPlies (bs : Bytes) : List PlyEntry :=
  (List.range (byteAt bs 0).toNat).map fun k =>
    { port := Fin.ofNat 6 (byteAt bs (1 + 2 * k)).toNat, lead := (byteAt bs (2 + 2 * k)).toNat }

/-- The checks of R5 on a block with a ply count other than 0. -/
def planBlockOk (bs : Bytes) : Bool :=
  let p := (byteAt bs 0).toNat
  p ≤ 6 && (List.range p).all (fun k => (byteAt bs (1 + 2 * k)).toNat ≤ 5 && (byteAt bs (2 + 2 * k)).toNat ≤ 44)
    && ((planPlies bs).map (·.port)).Nodup && field bs 15 2 ≠ 0 && byteAt bs 17 ≠ 0 && byteAt bs 18 ≠ 0

/-- The plan a block with a ply count of 1 to 6 stores, its thresholds clamped (R6, R7). -/
def planOf (bs : Bytes) : Plan :=
  { plies := planPlies bs, silence := field bs 13 2, divisor := field bs 15 2, winHigh := min (byteAt bs 17).toNat 48,
    bufHigh := min (byteAt bs 18).toNat 32 }

/-- The PLAN block of a plan (R191). -/
def encodePlan (p : Plan) : Bytes :=
  padTo 64 (padTo 13 (BitVec.ofNat 8 p.plies.length :: p.plies.flatMap fun e => [BitVec.ofNat 8 e.port.val, BitVec.ofNat 8 e.lead])
    ++ beBytes 2 p.silence ++ beBytes 2 p.divisor ++ beBytes 1 p.winHigh ++ beBytes 1 p.bufHigh)

/-! ### LDJB (R17, R18, R107, R191) -/

/-- The check scheme of a code. -/
def schemeOf (b : Byte) : Option Scheme :=
  if b = 0 then some .none else if b = 1 then some .mod7 else if b = 2 then some .mod10w else if b = 3 then some .mod11x
  else if b = 4 then some .mod11skip else none

/-- A character of a prefix: A to Z or 0 to 9 (R17), in ASCII. PRESUMED (log 39): the manual names no character code set. -/
def leadChar (b : Byte) : Bool := (0x41 ≤ b && b ≤ 0x5A) || (0x30 ≤ b && b ≤ 0x39)

/-- The prefix of an LDJB block: the characters before the first place that holds 0 (R191). -/
def jobLead (bs : Bytes) : Bytes := ((bs.drop 10).take 3).takeWhile (· ≠ 0)

/-- The prefix is left-aligned and of the characters R17 gives (R191). -/
def jobLeadOk (bs : Bytes) : Bool :=
  (jobLead bs).all leadChar && (((bs.drop 10).take 3).dropWhile (· ≠ 0)).all (· = 0)

def jobTag (bs : Bytes) : Nat := field bs 0 2

def jobSource (bs : Bytes) : Source := if (byteAt bs 2).getLsbD 0 then .makeup else .series

def jobGeometry (bs : Bytes) : Geometry :=
  { lanes := (byteAt bs 3).toNat, around := (byteAt bs 4).toNat,
    order := if (byteAt bs 2).getLsbD 1 then .aroundFirst else .acrossFirst }

/-- The skip ranges given, in the order given. -/
def jobSkips (bs : Bytes) : List (Nat × Nat) :=
  (List.range (min (byteAt bs 23).toNat 4)).map fun j => (field bs (24 + 10 * j) 5, field bs (29 + 10 * j) 5)

/-- The rules a block stores for its source: a MAKEUP job's series fields are not stored (R18). -/
def jobRules (bs : Bytes) : Rules :=
  let flags := byteAt bs 2
  let shared : Rules :=
    { Rules.cleared with
      width := (byteAt bs 5).toNat
      scheme := (schemeOf (byteAt bs 7)).getD .none
      spaceFill := flags.getLsbD 5
      lead := jobLead bs
      sepSpace := flags.getLsbD 6 }
  match jobSource bs with
  | .makeup => { shared with wlo := field bs 13 5, whi := field bs 18 5 }
  | .series =>
    { shared with
      start := field bs 13 5
      step := (byteAt bs 6).toNat
      descending := flags.getLsbD 2
      wrap := flags.getLsbD 3
      mode := if flags.getLsbD 4 then .stacked else .sequential
      span := field bs 18 5
      skips := jobSkips bs
      bookSize := field bs 8 2 }

/-- Every rule lies in its range (R17 for SERIES, R18 for MAKEUP), and so do A and D: check 4 of R107. -/
def jobBlockOk (bs : Bytes) : Bool :=
  let r := jobRules bs
  let g := jobGeometry bs
  1 ≤ g.lanes && g.lanes ≤ 4 && 1 ≤ g.around && g.around ≤ 4 && 1 ≤ r.width && r.width ≤ 10
    && (schemeOf (byteAt bs 7)).isSome && jobLeadOk bs &&
    match jobSource bs with
    | .makeup => r.wlo ≤ r.whi && r.whi < r.domain
    | .series =>
      r.start < r.domain && 1 ≤ r.step && r.step ≤ 9 && 1 ≤ r.span && r.span ≤ min r.domain 4000000000
        && (byteAt bs 23).toNat ≤ 4 && r.skips.all (fun x => x.1 ≤ x.2 && x.2 < r.domain)
        && (r.bookSize = 0 || (2 ≤ r.bookSize && r.bookSize ≤ 999))

/-- The flags byte of an LDJB block (R191). -/
def jobFlags (source : Source) (g : Geometry) (r : Rules) : Byte :=
  flagBit (source = .makeup) 0 ||| flagBit (g.order = .aroundFirst) 1 ||| flagBit r.descending 2 ||| flagBit r.wrap 3
    ||| flagBit (r.mode = .stacked) 4 ||| flagBit r.spaceFill 5 ||| flagBit r.sepSpace 6

/-- The LDJB block of a job (R191). -/
def encodeJob (tag : Nat) (source : Source) (g : Geometry) (r : Rules) : Bytes :=
  padTo 64 (beBytes 2 tag ++ [jobFlags source g r] ++ beBytes 1 g.lanes ++ beBytes 1 g.around ++ beBytes 1 r.width
    ++ beBytes 1 r.step ++ beBytes 1 r.scheme.code
    ++ beBytes 2 r.bookSize ++ padTo 3 r.lead
    ++ beBytes 5 (if source = .makeup then r.wlo else r.start) ++ beBytes 5 (if source = .makeup then r.whi else r.span)
    ++ beBytes 1 r.skips.length ++ r.skips.flatMap fun x => beBytes 5 x.1 ++ beBytes 5 x.2)

/-- The slot a parameter block names (STRT, TALY): 0 is A, 1 is B (R191). -/
def namedSlot (bs : Bytes) : Option SlotId :=
  if byteAt bs 0 = 0 then some .A else if byteAt bs 0 = 1 then some .B else none

end Sys2Proof.Machine
end

