-- ==== Sys2Proof/Machine/VoidRanges.lean ====
section
/-! DEFINITION. The void list's ranges (chapter 7): lookup, removal by a draw, and insertion of pieces. Pure functions of the list. -/

namespace Sys2Proof.Machine

/-- The form of R127: each range has lo ≤ hi, ranges ascend and are neither overlapping nor adjacent. -/
abbrev rangesWf (rs : List (Nat × Nat)) : Prop :=
  (∀ x ∈ rs, x.1 ≤ x.2) ∧ rs.Pairwise (fun x y => x.2 + 1 < y.1)

/-- The value is listed (R127). -/
def listed (rs : List (Nat × Nat)) (x : Nat) : Bool := rs.any fun r => r.1 ≤ x && x ≤ r.2

/-! ### Drawing (R133 to R135) -/

/-- The lowest listed value from floor `f` to ceiling `g` (R133). -/
def lookup (f g : Nat) : List (Nat × Nat) → Option Nat
  | [] => none
  | (lo, hi) :: rs =>
    if hi < f then lookup f g rs
    else if max lo f ≤ g then some (max lo f) else none

/-- What lookups of a draw have come to: a value to issue, none listed, or values passed over so far and a floor for the next (R133). -/
inductive Draw where
  | issues (value : Nat)
  | nothing
  | passing (floor : Nat)
deriving DecidableEq, Repr

/-- At most so many lookups of one draw on the list as it stands, from a floor up: values that `passes` holds of are passed over and
left, and the next lookup's floor lies above them (R38, R133). -/
def drawLookups (passes : Nat → Bool) (g : Nat) (rs : List (Nat × Nat)) : Nat → Nat → Draw
  | 0, f => .passing f
  | n + 1, f =>
    match lookup f g rs with
    | none => .nothing
    | some x => if passes x then drawLookups passes g rs n (x + 1) else .issues x

/-- Take `x` out of the range that holds it: the ranges after, and the number of values dropped by a split that would need a range
too many (R134, R135). -/
def removeRange (full : Bool) (x : Nat) : List (Nat × Nat) → List (Nat × Nat) × Nat
  | [] => ([], 0)
  | (lo, hi) :: rs =>
    if hi < x then ((lo, hi) :: (removeRange full x rs).1, (removeRange full x rs).2)
    else if x < lo then ((lo, hi) :: rs, 0)
    else if lo = hi then (rs, 0)
    else if x = lo then ((x + 1, hi) :: rs, 0)
    else if x = hi then ((lo, x - 1) :: rs, 0)
    else if full then ((x + 1, hi) :: rs, x - lo)
    else ((lo, x - 1) :: (x + 1, hi) :: rs, 0)

/-- The change count after a change (R127). -/
def VoidList.bump (v : VoidList) : VoidList := { v with changes := (v.changes + 1) % 65536 }

/-- The void list after a draw issued `x` (R134, R135). -/
def VoidList.remove (v : VoidList) (x : Nat) : VoidList :=
  let r := removeRange (maxRanges ≤ v.ranges.length) x v.ranges
  VoidList.bump { v with ranges := r.1, incomplete := v.incomplete || r.2 ≠ 0, dropped := satAdd max32 v.dropped r.2 }

/-- The draw of `x` drops the lower part of its range, so VOID_LIST_INCOMPLETE is raised (R135). -/
def VoidList.removeDrops (v : VoidList) (x : Nat) : Bool :=
  (removeRange (maxRanges ≤ v.ranges.length) x v.ranges).2 ≠ 0

/-! ### Inserting (R129, R131) -/

/-- The piece overlaps or adjoins the range at either end (R131). -/
def touches (lo hi : Nat) (r : Nat × Nat) : Bool := lo ≤ r.2 + 1 && r.1 ≤ hi + 1

/-- Place a piece among the ranges, merged with every range it touches (R131). -/
def mergePiece (lo hi : Nat) : List (Nat × Nat) → List (Nat × Nat)
  | [] => [(lo, hi)]
  | r :: rs =>
    if r.2 + 1 < lo then r :: mergePiece lo hi rs
    else if hi + 1 < r.1 then (lo, hi) :: r :: rs
    else mergePiece (min lo r.1) (max hi r.2) rs

/-- The piece finds no range to join and no room for one of its own (R129, R131). -/
def VoidList.drops (v : VoidList) (p : Nat × Nat) : Bool :=
  !(v.ranges.any (touches p.1 p.2)) && maxRanges ≤ v.ranges.length

/-- Place one piece, or drop it whole (R131). -/
def VoidList.place (v : VoidList) (p : Nat × Nat) : VoidList :=
  if v.drops p then { v with incomplete := true, dropped := satAdd max32 v.dropped (p.2 - p.1 + 1) }
  else { v with ranges := mergePiece p.1 p.2 v.ranges }

/-- Some piece is dropped when the pieces are placed in order. -/
def VoidList.dropsSome : VoidList → List (Nat × Nat) → Bool
  | _, [] => false
  | v, p :: ps => v.drops p || VoidList.dropsSome (v.place p) ps

/-- Place the pieces of one insertion in ascending order; the change count rises once when anything changed (R131). -/
def VoidList.insert (v : VoidList) (ps : List (Nat × Nat)) : VoidList :=
  let w := ps.foldl VoidList.place v
  if w.ranges = v.ranges ∧ v.dropsSome ps = false then w else w.bump

/-- Leave the value `h` out of the pieces (R131). -/
def cutPiece (h : Nat) (p : Nat × Nat) : List (Nat × Nat) :=
  if p.1 ≤ h ∧ h ≤ p.2 then (if p.1 < h then [(p.1, h - 1)] else []) ++ (if h < p.2 then [(h + 1, p.2)] else []) else [p]

/-- The pieces of `lo` to `hi` left when every held value is taken out (R131). -/
def piecesWithout (held : List Nat) (lo hi : Nat) : List (Nat × Nat) :=
  held.foldl (fun ps h => ps.flatMap (cutPiece h)) [(lo, hi)]

end Sys2Proof.Machine
end

