-- ==== Sys2Proof/Machine/Ops.lean ====
section
/-! DEFINITION. The named operations on the state that the commands share: ownership and drafting, flushing, the void list, the
changes of job state, openings and holding, closure, the account ring, silence timers. -/

namespace Sys2Proof.Machine

/-! ### The plan (R2, R7, R11) -/

/-- L_max: the largest lead, 0 with no plan (R2, R7). -/
def Plan.lMax (p : Plan) : Nat := p.plies.foldl (fun m e => max m e.lead) 0

/-- The ply that names a port, if any (R2). -/
def Plan.plyOf (p : Plan) (port : PortId) : Option Nat := p.plies.findIdx? fun e => e.port = port

/-- The lead of a ply. -/
def Plan.leadOf (p : Plan) (ply : Nat) : Nat := ((p.plies[ply]?).map PlyEntry.lead).getD 0

/-- The plan plies as a set. -/
def Plan.plySet (p : Plan) : PlySet := BitVec.ofNat 6 (2 ^ p.plies.length - 1)

/-- The set of one ply. -/
def plyBit (ply : Nat) : PlySet := BitVec.ofNat 6 (2 ^ ply)

/-- The lead of the ply that a port serves (R11). -/
def State.leadAt (s : State) (p : PortId) : Nat := ((s.port p).ply.map s.plan.leadOf).getD 0

/-! ### Slots in the run (R104, R105) -/

def SlotState.inRun : SlotState → Bool
  | .running => true
  | .draining => true
  | _ => false

/-- Some slot is RUNNING or DRAINING. -/
def State.inRun (s : State) : Bool := s.slotA.state.inRun || s.slotB.state.inRun

/-- The RUNNING slot; there is at most one (R105). -/
def State.runningSlot (s : State) : Option SlotId :=
  if s.slotA.state = .running then some .A else if s.slotB.state = .running then some .B else none

/-- The staged slot and its change repeat (R104). -/
def State.staged (s : State) : Option (SlotId × Nat) :=
  match s.slotA.change with
  | some rc => some (.A, rc)
  | none => s.slotB.change.map fun rc => (.B, rc)

/-- The number of positions of the slot's job. -/
def JobSlot.positions (j : JobSlot) : Nat := j.geometry.positions

/-- The final repeat or note does not stop the slot from owning `q`. -/
def Final.allows : Final → Nat → Bool
  | .unset, _ => true
  | .known f, q => q ≤ f
  | .empty, _ => false

/-! ### The window's collections (R57) -/

def State.oldest (s : State) : Option Nat := s.window.records.head?.map Record.repeatIndex

def State.occupancy (s : State) : Nat := s.window.records.length

/-- The record held for a repeat. -/
def State.record (s : State) (r : Nat) : Option Record := s.window.records.find? fun x => x.repeatIndex = r

/-- The window with the record for `r` changed by `f`. -/
def State.modRecord (s : State) (r : Nat) (f : Record → Record) : State :=
  { s with window := { s.window with records := s.window.records.map fun x => if x.repeatIndex = r then f x else x } }

/-- A record of the slot is held. -/
def State.holdsRecordOf (s : State) (i : SlotId) : Bool := s.window.records.any fun x => x.slot = i

/-- The AWAITING records. -/
def State.awaiting (s : State) : List Record := s.window.records.filter fun x => x.closure = .awaiting

def Position.numbered (p : Position) : Bool := p.entry.value.isSome

/-- The numbered positions of a record. -/
def Record.numbered (r : Record) : Nat := r.positions.countP Position.numbered

/-- The slot's open count (R156). -/
def State.openCount (s : State) (i : SlotId) : Nat :=
  ((s.awaiting.filter fun x => x.slot = i).map Record.numbered).sum

/-- `r` is at or below newest. -/
def State.atOrBelowNewest (s : State) (r : Nat) : Bool := s.window.newest.any fun n => r ≤ n

/-- The lowest repeat that may still open: newest + 1, or L_max while newest is none. -/
def State.firstUnopened (s : State) : Nat :=
  match s.window.newest with
  | some n => n + 1
  | none => s.plan.lMax

/-- `r` is below the pass floor. -/
def State.belowFloor (s : State) (r : Nat) : Bool := s.queue.passFloor.any fun p => r < p

/-! ### Ownership and the draft base (R42, R43) -/

/-- The slot owns `q` as far as its final repeat goes. A repeat index ends at 4,294,967,250 (R11, log 14). -/
def State.ownedBy (s : State) (i : SlotId) (q : Nat) : Option SlotId :=
  if (s.slot i).final.allows q && q ≤ maxRepeat then some i else none

/-- The owner of a repeat above the newest (R42). A slot whose final repeat is EMPTY owns none (log 15). -/
def State.ownerOf (s : State) (q : Nat) : Option SlotId :=
  match s.runningSlot, s.staged with
  | none, _ => none
  | some i, none => s.ownedBy i q
  | some i, some (j, rc) => if rc ≤ q then s.ownedBy j q else s.ownedBy i q

/-- The draft base (R43): the lowest repeat not yet opened, at or above the pass floor, that a slot owns. The RUNNING slot owns a
stretch from the bottom, a staged slot one from its change repeat, so the base is where one of the two begins. -/
def State.draftBase (s : State) : Option Nat :=
  let lo := max s.firstUnopened (s.queue.passFloor.getD 0)
  if (s.ownerOf lo).isSome then some lo
  else
    match s.staged with
    | some (_, rc) => if lo < rc ∧ (s.ownerOf rc).isSome then some rc else none
    | none => none

/-! ### Fills (R23, R45) -/

/-- The before-state of a fill: the slot's counter state as it stands (R23). -/
def JobSlot.before (j : JobSlot) : Before := { counters := j.counters.map Counter.snap, drawExhausted := j.draw.exhausted }

/-- A slot's counter state set back; the event marks keep their values (R26). -/
def JobSlot.restore (j : JobSlot) (b : Before) : JobSlot :=
  { j with counters := List.zipWith Counter.restore j.counters b.counters, draw := { j.draw with exhausted := b.drawExhausted } }

/-- The fill that R45 would start now, if any. -/
def State.nextFill (s : State) : Option Fill :=
  if s.queue.fill.isSome ∨ maxDrafts ≤ s.queue.drafts.length then none
  else
    match s.draftBase with
    | none => none
    | some base =>
      let t := base + s.queue.drafts.length
      match s.ownerOf t with
      | none => none
      | some i =>
        if (s.slot i).note.allows t then
          some { slot := i, target := t, before := (s.slot i).before, entries := [], skipped := 0, drawn := [], floor := none }
        else none

/-- Start a fill when R45's conditions hold. -/
def State.startFill (s : State) : State :=
  match s.nextFill with
  | some f => { s with queue := { s.queue with fill := some f } }
  | none => s

/-! ### The void list in the state (R129 to R131) -/

/-- The values held by make-up items (R130). -/
def State.heldValues (s : State) : List Nat :=
  (s.queue.drafts.filter fun d => (s.slot d.slot).source = .makeup).flatMap Draft.drawn
    ++ (s.queue.fill.toList.filter fun f => (s.slot f.slot).source = .makeup).flatMap Fill.drawn
    ++ (s.awaiting.filter fun x => (s.slot x.slot).source = .makeup).flatMap fun x => x.positions.filterMap fun p => p.entry.value

/-- Insert the range `lo` to `hi`, leaving out held values (R131). -/
def State.insertRange (s : State) (lo hi : Nat) : State :=
  let ps := piecesWithout s.heldValues lo hi
  { s with voids := s.voids.insert ps }.raiseIf (s.voids.dropsSome ps) .voidListIncomplete

/-- Insert one raw value (R129): a range of one value (R131). -/
def State.insertValue (s : State) (x : Nat) : State := s.insertRange x x

/-- Insert values one at a time, in order (R132). -/
def State.insertValues (s : State) (xs : List Nat) : State := xs.foldl State.insertValue s

/-! ### The pending queue (R144, R148) -/

/-- An item joins behind every item waiting; an append is attempted when it is the only one (R148). -/
def State.enqueue (s : State) (it : Item) : State :=
  { s with account := { s.account with queue := s.account.queue ++ [it], due := s.account.due || s.account.queue.isEmpty } }

def Item.isSmall : Item → Bool
  | .repeatItem _ => false
  | _ => true

def Item.isJobEndOf (i : SlotId) : Item → Bool
  | .jobEnd j _ => i = j
  | _ => false

/-- The number of small items waiting (R143). -/
def Account.smallItems (a : Account) : Nat := a.queue.countP Item.isSmall

/-! ### Changes of job state (R105, R115 to R117, R120, R122) -/

/-- A DRAINING slot with no record in the window queues its JOB_END, once (R122). -/
def State.queueJobEnd (s : State) (i : SlotId) : State :=
  if (s.slot i).state = .draining ∧ s.holdsRecordOf i = false ∧ s.account.queue.any (Item.isJobEndOf i) = false then
    s.enqueue (.jobEnd i (s.slot i).endBytes)
  else s

/-- A slot becomes DRAINING (R105). -/
def State.drain (s : State) (i : SlotId) : State := (s.modSlot i fun j => { j with state := .draining }).queueJobEnd i

/-- The JOB_START of a slot joins the pending queue (R112). -/
def State.queueJobStart (s : State) (i : SlotId) : State := s.enqueue (.jobStart i (s.slot i).startBytes)

/-- A staged change takes effect (R116); an EMPTY job becomes DRAINING at once, its JOB_END directly after its JOB_START (R117). The JOB_END of the
old job, when it has no record, joins last: R116 and R122 give it no place beside the new job's items. DESIGN CHOICE (log 38). -/
def State.changeTakesEffect (s : State) : State :=
  match s.runningSlot, s.staged with
  | some old, some (new, _) =>
    let s := s.modSlot old fun j => { j with state := .draining }
    let s := s.modSlot new fun j => { j with state := if j.final = .empty then .draining else .running, change := none }
    (((s.queueJobStart new).raise .jobChanged).queueJobEnd new).queueJobEnd old
  | _, _ => s

/-- The slot's final repeat is at or below newest, below the pass floor, or EMPTY (R117, R120). -/
def State.finalPast (s : State) (i : SlotId) : Bool :=
  match (s.slot i).final with
  | .unset => false
  | .known f => s.atOrBelowNewest f || s.belowFloor f
  | .empty => true

/-- An opening at `q` puts a staged change into effect at its change repeat or above (R115), and that of an EMPTY job at the RUNNING
job's final repeat (R117). -/
def State.openingChanges (s : State) (q : Nat) : State :=
  match s.staged with
  | some (j, rc) =>
    if rc ≤ q ∨ ((s.slot j).final = .empty ∧ (s.runningSlot.map fun i => (s.slot i).final) = some (.known q)) then
      s.changeTakesEffect
    else s
  | none => s

/-- With no SWAP staged, a RUNNING slot whose exhaustion set `q` as its final repeat becomes DRAINING (R120). -/
def State.openingDrains (s : State) (q : Nat) : State :=
  match s.runningSlot, s.staged with
  | some i, none => if (s.slot i).note ≠ .unset ∧ (s.slot i).final = .known q then s.drain i else s
  | _, _ => s

/-- Job control takes the report of an opening at `q` (R115, R117, then R120). -/
def State.reportOpening (s : State) (q : Nat) : State := (s.openingChanges q).openingDrains q

/-- Job control takes the report of a pass with floor `p` (R115). -/
def State.reportPass (s : State) (p : Nat) : State :=
  match s.staged with
  | some (_, rc) => if rc < p then s.changeTakesEffect else s
  | none => s

/-- Job control takes the report that slot `i` was exhausted by a fill that numbered nothing (R117, R120). With a staged job already EMPTY, such a
report of the RUNNING slot puts no change into effect, even where its final repeat is then past or EMPTY: R117 names only the report of the
staged job and the opening of that final repeat, and leaves this case open. DESIGN CHOICE (log 37). -/
def State.reportExhausted (s : State) (i : SlotId) : State :=
  match s.staged with
  | some (j, _) =>
    if i = j ∧ (s.slot j).final = .empty ∧ (s.runningSlot.any fun k => s.finalPast k) = true then s.changeTakesEffect else s
  | none => if (s.slot i).state = .running ∧ s.finalPast i = true then s.drain i else s

/-! ### Flushing and passing (R50 to R52, R54) -/

/-- The before-state of the slot's oldest removed item: its first removed draft, else its abandoned fill (R50). -/
def oldestRemoved (i : SlotId) (gone : List Draft) (abandoned : Option Fill) : Option Before :=
  match gone.find? fun d => d.slot = i with
  | some d => some d.before
  | none => (abandoned.filter fun f => f.slot = i).map Fill.before

/-- Restore the slot to its oldest removed item, when it had one (R50, R26). -/
def State.restoreRemoved (s : State) (i : SlotId) (b : Option Before) : State :=
  match b with
  | some b => s.modSlot i fun j => j.restore b
  | none => s

/-- The final repeat that a change at `rc` cuts the running job back to: rc - 1, or EMPTY when that is below its first (R114). -/
def JobSlot.cutAt (j : JobSlot) (rc : Nat) : Final := if j.first.any (fun f => rc ≤ f) ∨ rc = 0 then .empty else .known (rc - 1)

/-- Withdraw the exhaustion note of a slot that had an item removed (R52). -/
def State.withdrawNote (s : State) (i : SlotId) (b : Option Before) : State :=
  if b.isSome ∧ (s.slot i).note ≠ .unset then
    let final : Final :=
      match s.staged with
      | some (_, rc) => if (s.slot i).state = .running then (s.slot i).cutAt rc else .unset
      | none => .unset
    s.modSlot i fun j => { j with note := .unset, final := final }
  else s

/-- Flush from repeat `q` (R50): remove drafts and a fill at or above it, restore the counters, return drawn values, withdraw notes. -/
def State.flush (s : State) (q : Nat) : State :=
  let gone := s.queue.drafts.filter fun d => q ≤ d.repeatIndex
  let abandoned := s.queue.fill.filter fun f => q ≤ f.target
  let a := oldestRemoved .A gone abandoned
  let b := oldestRemoved .B gone abandoned
  let s := { s with queue :=
    { s.queue with drafts := s.queue.drafts.filter (fun d => !(q ≤ d.repeatIndex)), fill := s.queue.fill.filter (fun f => !(q ≤ f.target)) } }
  let s := (s.restoreRemoved .A a).restoreRemoved .B b
  let s := s.insertValues (gone.flatMap Draft.drawn ++ abandoned.toList.flatMap Fill.drawn)
  (s.withdrawNote .A a).withdrawNote .B b

/-- Pass to `p` (R54), from draft base `base`, and report the pass to job control (R65). -/
def State.passTo (s : State) (base p : Nat) : State :=
  let s := s.flush base
  { s with queue := { s.queue with passFloor := some p } }.reportPass p

/-! ### Answers (R60 to R62, R66, R70) -/

/-- The NUMBERS answer of a record: built from the record and the rules of its job (R70). -/
def State.numbersAnswer (s : State) (rec : Record) : Answer :=
  let j := s.slot rec.slot
  .numbers rec.repeatIndex j.tag (rec.positions.map fun p =>
    { blank := p.entry.value.isNone, bookEnd := p.entry.bookEnd,
      text := match p.entry.value with
        | some v => j.rules.render v p.entry.check
        | none => [] })

/-- The answer for a repeat below L_max or at or below newest (R61). -/
def State.classify (s : State) (r : Nat) : Answer :=
  if r < s.plan.lMax then .leadIn r
  else
    match s.record r with
    | some rec => if rec.closure = .awaiting then s.numbersAnswer rec else .late r
    | none => if s.oldest.all (fun o => r < o) then .late r else .blank r

/-- The answer that concludes a waiting request, if one does (R66). -/
def State.concludes (s : State) (r : Nat) : Option Answer :=
  if s.atOrBelowNewest r then some (s.classify r)
  else if s.belowFloor r then some (.late r)
  else
    match s.draftBase with
    | none => some (.blank r)
    | some b => if r < b then some (.blank r) else none

/-- The opening stops at the span limit, at or below `r` (R64, R67). -/
def State.blockedAt (s : State) (r : Nat) : Bool :=
  match s.draftBase, s.oldest with
  | some b, some o => o + windowSpan ≤ b && b ≤ r
  | _, _ => false

def Request.repeatIndex (q : Request) : Nat := (q.repeats.map Prod.fst).getD 0

def State.setReqSlot (s : State) (p : PortId) (x : ReqSlot) : State := s.modPort p fun q => { q with slot := x }

/-- A request enters HELD from PREPARING (R67). -/
def State.hold (s : State) (p : PortId) (q : Request) : State :=
  (s.modPort p fun x => { x with slot := .held q .waiting, held := satAdd max16 x.held 1 }).raise .windowHeld

/-- Conclude or hold the request that waits at port `p` (R66, R67); one held is answered once the draft base passes above its repeat or
becomes none, and its slot shows HELD until the answer is built (R67, R170). -/
def State.concludePort (p : PortId) (s : State) : State :=
  match (s.port p).slot with
  | .preparing q .waiting =>
    match s.concludes q.repeatIndex with
    | some a => s.setReqSlot p (.preparing q (.building a))
    | none => if s.blockedAt q.repeatIndex then s.hold p q else s
  | .held q .waiting =>
    match s.concludes q.repeatIndex with
    | some a => s.setReqSlot p (.held q (.building a))
    | none => s
  | _ => s

/-- The opening target is none once the draft base is above it or none (R64). -/
def State.dropTarget (s : State) : State :=
  if s.draftBase.all (fun b => s.window.target.any fun t => t < b) then { s with window := { s.window with target := none } }
  else s

/-- What follows at once from a change of newest, of the drafts or of ownership: the target (R64), the waiting requests (R66, R67) and
the next fill (R45). -/
def State.settle (s : State) : State := (s.dropTarget.forPorts State.concludePort).startFill

/-- Raise the opening target to `r` (R62). -/
def State.raiseTarget (s : State) (r : Nat) : State :=
  { s with window := { s.window with target := some (max r (s.window.target.getD 0)) } }

/-- A catch-up pass when the window is empty and `r` is far ahead (R65). -/
def State.catchUp (s : State) (r : Nat) : State :=
  if s.window.records.isEmpty then
    match s.draftBase with
    | some b => if b < max s.firstUnopened (r - 47) then s.passTo b (max s.firstUnopened (r - 47)) else s
    | none => s
  else s

/-- The window takes a REQUEST for repeat `r` from port `p` (R60 to R62). -/
def State.takeRequest (s : State) (p : PortId) (q : Request) (r : Nat) : State :=
  if s.inRun = false then s.setReqSlot p (.preparing q (.building (.refused .idle 0)))
  else if r < s.plan.lMax ∨ s.atOrBelowNewest r = true then s.setReqSlot p (.preparing q (.building (s.classify r)))
  else if s.belowFloor r then s.setReqSlot p (.preparing q (.building (.late r)))
  else (((s.setReqSlot p (.preparing q .waiting)).raiseTarget r).catchUp r).settle

/-- Retake the request held at port `p` (R68): an answer given at a retake leaves the slot HELD until it is built (R170). -/
def State.retakePort (p : PortId) (s : State) : State :=
  match (s.port p).slot with
  | .held q .waiting =>
    let r := q.repeatIndex
    if r < s.plan.lMax ∨ s.atOrBelowNewest r = true then s.setReqSlot p (.held q (.building (s.classify r)))
    else if s.belowFloor r then s.setReqSlot p (.held q (.building (.late r)))
    else
      let s := (s.raiseTarget r).catchUp r
      match s.concludes r with
      | some a => s.setReqSlot p (.held q (.building a))
      | none => if s.blockedAt r then s else s.setReqSlot p (.preparing q .waiting)
  | _ => s

/-- Retake every held request (R68), then settle. -/
def State.retakeHeld (s : State) : State := (s.forPorts State.retakePort).settle

/-! ### Opening (R63, R82) -/

/-- The window compares its occupancy with its threshold (R82). -/
def State.checkWindowHigh (s : State) : State :=
  let high := s.plan.winHigh ≤ s.occupancy
  { s with window := { s.window with high := high } }.raiseIf (high && !s.window.high) .windowHigh

/-- The position a record opens with (R56). -/
def Position.opened (e : Entry) : Position :=
  { entry := e, waste := false, misfire := false, outcome := if e.value.isSome then .open else .blank }

def Draft.numbered (d : Draft) : Nat := d.entries.countP fun e => e.value.isSome
def Draft.blank (d : Draft) : Nat := d.entries.countP fun e => e.value.isNone

/-- The plan plies whose ports are LOST (R63). -/
def State.lostPlies (s : State) : PlySet :=
  allPorts.foldl (fun set p =>
    match (s.port p).state, s.plan.plyOf p with
    | .lost, some k => set ||| plyBit k
    | _, _ => set) 0

/-- The record a draft opens as (R55, R63). -/
def State.openedRecord (s : State) (d : Draft) : Record :=
  { repeatIndex := d.repeatIndex, slot := d.slot, positions := d.entries.map Position.opened, served := 0, lost := s.lostPlies,
    closure := .awaiting }

/-- The tally of a slot when a draft of it opens (R63). -/
def Tally.opening (t : Tally) (d : Draft) : Tally :=
  { t with
    repeatsOpened := satAdd max32 t.repeatsOpened 1
    issued := satAdd max32 t.issued d.numbered
    blank := satAdd max32 t.blank d.blank
    skipped := satAdd max32 t.skipped d.skipped }

/-- Open the record of the oldest draft `d`, with `rest` the drafts behind it (R63): record, newest, tally, high mark, report. -/
def State.openDraft (s : State) (d : Draft) (rest : List Draft) : State :=
  let s := { s with
    queue := { s.queue with drafts := rest }
    window := { s.window with records := s.window.records ++ [s.openedRecord d], newest := some d.repeatIndex } }
  let s := s.modSlot d.slot fun j => { j with tally := j.tally.opening d }
  (s.checkWindowHigh.reportOpening d.repeatIndex).settle

/-- The draft that the window may open now, with those behind it (R49, R58, R64): the opening target is at or above the draft base,
the oldest draft is for the base, and the base lies within the span. -/
def State.openable (s : State) : Option (Draft × List Draft) :=
  match s.window.target, s.draftBase, s.queue.drafts with
  | some t, some b, d :: rest =>
    if b ≤ t ∧ d.repeatIndex = b ∧ s.oldest.all (fun o => b < o + windowSpan) = true then some (d, rest) else none
  | _, _, _ => none

/-- One opening, when the window may open the oldest draft (R63, R64). -/
def State.openNext (s : State) : State :=
  match s.openable with
  | none => s
  | some (d, rest) => s.openDraft d rest

/-- Openings in turn while the next draft is ready and fits (R64): each takes one of the drafts held. -/
def State.openReady (s : State) : State := s.queue.drafts.foldl (fun t _ => t.openNext) s

/-- The openings that the target calls for have stopped at the span limit (R64). -/
def State.openingStopped (s : State) : Bool := s.window.target.any s.blockedAt

/-! ### Closure (R72, R97, R100 to R102) -/

/-- The verdict of a code (R96): none is GOOD. -/
def verdictOf (code : Byte) : Option PosOutcome :=
  if code = 0 then none else if code = 1 then some .plyMissing else if code = 2 then some .mismatch
  else if code = 4 then some .noForm else some .unreadable

/-- The outcome of a numbered position at its closure, by the first row that applies (R97). -/
def settleOutcome (kind : Closure) (plan served lost : PlySet) (p : Position) (code : Byte) : PosOutcome :=
  if kind = .aborted then .aborted
  else if p.waste then .waste
  else if p.misfire then .misfire
  else if plan &&& lost &&& ~~~served ≠ 0 then .stationLost
  else if plan &&& ~~~served ≠ 0 then .unserved
  else if kind = .verified then (verdictOf code).getD .delivered
  else .unverified

/-- A position with its outcome settled; a blank position keeps BLANK (R97). -/
def Position.settled (kind : Closure) (plan served lost : PlySet) (p : Position) (code : Byte) : Position :=
  { p with outcome := if p.numbered then settleOutcome kind plan served lost p code else .blank }

/-- A record closed with the given kind; the codes are those of its frame, index by index (R96). -/
def Record.close (kind : Closure) (plan : PlySet) (codes : Bytes) (r : Record) : Record :=
  { r with
    closure := kind
    positions := r.positions.mapIdx fun i p => p.settled kind plan r.served r.lost (codes.getD i 0) }

def PosOutcome.isStation (o : PosOutcome) : Bool := o = .waste || o = .misfire || o = .stationLost || o = .unserved
def PosOutcome.isReader (o : PosOutcome) : Bool := o = .plyMissing || o = .mismatch || o = .unreadable || o = .noForm
/-- The outcome voids its number (R101). -/
def PosOutcome.isVoid (o : PosOutcome) : Bool := o ≠ .delivered && o ≠ .blank

/-- The tally of a slot when a record of it has closed (R100): one count for each numbered position. -/
def Tally.closing (t : Tally) (r : Record) : Tally :=
  let n (f : PosOutcome → Bool) : Nat := r.positions.countP fun p => p.numbered && f p.outcome
  { t with
    delivered := satAdd max32 t.delivered (n (· = .delivered))
    voidStation := satAdd max32 t.voidStation (n PosOutcome.isStation)
    voidReader := satAdd max32 t.voidReader (n PosOutcome.isReader)
    voidUnverified := satAdd max32 t.voidUnverified (n (· = .unverified))
    voidAborted := satAdd max32 t.voidAborted (n (· = .aborted)) }

/-- The raw values a closed record voids, in position order (R101). -/
def Record.voided (r : Record) : List Nat :=
  r.positions.filterMap fun p => if p.outcome.isVoid then p.entry.value else none

/-- A LATE answer is made ready at the port in place of what its slot held, and counted (R74). -/
def Port.lateReady (x : Port) (q : Request) (r : Nat) : Port :=
  { x with slot := .ready q (.late r), late := satAdd max16 x.late 1 }

/-- The fetch being clocked is of a NUMBERS answer for `r`. -/
def FetchOut.numbersFor (f : FetchOut) (r : Nat) : Bool :=
  match f.answer with
  | .numbers r' _ _ => f.fromReady && r' = r
  | _ => false

/-- What a closure of the record for `r` does to a port's work on it (R72). -/
def Port.recordCloses (r : Nat) (x : Port) : Port :=
  let clocking := x.fetch.any fun f => f.numbersFor r
  let x : Port := { x with fetch := x.fetch.map fun f => if f.numbersFor r then { f with recordClosed := true } else f }
  match x.slot with
  | .preparing q (.building (.numbers r' _ _)) => if r' = r then { x with slot := .preparing q (.building (.late r)) } else x
  | .held q (.building (.numbers r' _ _)) => if r' = r then { x with slot := .held q (.building (.late r)) } else x
  | .ready q (.numbers r' _ _) => if r' = r ∧ clocking = false then x.lateReady q r else x
  | _ => x

/-- A record leaves AWAITING as `closed` (R80, R97), with its tally (R100) and the ports' work on it (R72), all before its values are
inserted (log 35). -/
def State.settleRecord (s : State) (closed : Record) : State :=
  ((s.modRecord closed.repeatIndex fun _ => closed).modSlot closed.slot fun j => { j with tally := j.tally.closing closed }).mapPorts
    (Port.recordCloses closed.repeatIndex)

/-- Close the AWAITING record for `r` whole: the record, its values in the void list (R101), the pending queue (R102). -/
def State.closeRecord (s : State) (r : Nat) (kind : Closure) (codes : Bytes) : State :=
  match s.record r with
  | none => s
  | some rec =>
    if rec.closure ≠ .awaiting then s
    else
      let closed := rec.close kind s.plan.plySet codes
      ((s.settleRecord closed).insertValues closed.voided).enqueue (.repeatItem closed.repeatIndex)

def State.setClosing (s : State) (c : Option Closing) : State := { s with window := { s.window with closing := c } }

/-- Handling ends: the assembler returns to HUNT (R91). -/
def State.endHandling (s : State) : State := { s with receiver := { s.receiver with asm := .hunt, frame := none } }

def State.setLastVerdict (s : State) (r : Nat) : State := { s with receiver := { s.receiver with lastVerdict := some r } }

/-- The good frame being handled (R91). -/
def State.handled (s : State) : Option Frame := if s.receiver.asm = .handling then s.receiver.frame else none

/-- The closure in progress is over: its record joins the pending queue (R102). When the record is the handled frame's own, its repeat
becomes the last verdict repeat and handling ends (R91, R94). -/
def State.endClosing (s : State) (r : Nat) : State :=
  let own := s.handled.any fun f => f.index = r
  let s := (s.setClosing none).enqueue (.repeatItem r)
  if own then (s.setLastVerdict r).endHandling else s

/-- The closure in progress inserts its next `inserts` values, or all it has left, each insertion taken whole (R132); with none left it is
over. -/
def State.takeInsertions (inserts : Option Nat) (s : State) : State :=
  match s.window.closing with
  | none => s
  | some c =>
    let n := inserts.getD c.values.length
    let s := s.insertValues (c.values.take n)
    if c.values.length ≤ n then s.endClosing c.repeatIndex
    else s.setClosing (some { c with values := c.values.drop n })

/-- What is left of a closure in progress is taken whole. -/
def State.finishClosing (s : State) : State := s.takeInsertions none

/-- Handling begins to close the AWAITING record for `r`: its values wait for their insertions (R101, R132), its effects on the window and the
ports are taken (log 35). -/
def State.beginClosing (s : State) (r : Nat) (kind : Closure) (codes : Bytes) : State :=
  match s.record r with
  | none => s
  | some rec =>
    if rec.closure ≠ .awaiting then s
    else
      let closed := rec.close kind s.plan.plySet codes
      (s.settleRecord closed).setClosing (some { repeatIndex := closed.repeatIndex, values := closed.voided })

/-! ### The account ring (R146 to R151) -/

/-- Used bytes (R146). -/
def Account.used (a : Account) : Nat :=
  if a.count = 0 then 0
  else if a.ro < a.wo then a.wo - a.ro
  else if a.wo < a.ro then (ringSize - a.ro) + a.wo
  else ringSize

/-- Where a record of size `z` would be placed, or none when it may not be appended (R147). -/
def Account.place (a : Account) (z : Nat) : Option Nat :=
  if a.count = 0 then some (if a.wo + z ≤ ringSize then a.wo else 0)
  else if a.ro < a.wo then (if a.wo + z ≤ ringSize then some a.wo else if z < a.ro then some 0 else none)
  else if a.wo < a.ro then (if a.wo + z < a.ro then some a.wo else none)
  else none

/-- The ring with the record `bs` placed at `at'` (R147). -/
def Account.placed (a : Account) (at' : Nat) (bs : Bytes) : Account :=
  { a with
    ring := a.ring.writeBytes at' bs
    wo := if at' + bs.length = ringSize then 0 else at' + bs.length
    ro := if a.count = 0 then at' else a.ro
    tail := if a.count = 0 then none else if at' = a.wo then a.tail else some a.wo
    count := a.count + 1 }

/-- The size of the oldest record, by its header in the ring (R146). -/
def Account.oldestSize (a : Account) : Nat := recordSize (a.ring.read a.ro).toNat (a.ring.read (a.ro + 1)).toNat

/-- The account buffer compares its used bytes with its threshold (R151). -/
def State.checkBufferHigh (s : State) : State :=
  let high := s.plan.bufHigh * 256 ≤ s.account.used
  { s with account := { s.account with high := high } }.raiseIf (high && !s.account.high) .bufferHigh

/-- The account record of an item (R144). A REPEAT item always refers to a record held (log 28). -/
def State.itemBytes (s : State) : Item → Bytes
  | .repeatItem r =>
    match s.record r with
    | some rec => rec.bytes (s.slot rec.slot).tag
    | none => recordHeader 1 0 0 r 0 0 0
  | .jobStart _ bs => bs
  | .jobEnd _ bs => bs
  | .postVoid bs => bs

/-- Stop every timer whose conditions no longer hold (R173). -/
def State.stopTimers (s : State) : State :=
  s.mapPorts fun x => if s.run && s.inRun && s.plan.silence ≠ 0 && x.state = .active then x else { x with timer := none }

/-- The record for `r` goes from the window, which compares its occupancy with its threshold (R81, R82). -/
def State.dropRecord (s : State) (r : Nat) : State :=
  { s with window := { s.window with records := s.window.records.filter fun x => x.repeatIndex ≠ r } }.checkWindowHigh

/-- An appended record leaves the window, which resumes an opening stopped at the span limit, then retakes held requests, then reports the
leaving (R81). A resumed opening opens the drafts that are ready (H6); one that waits on a fill goes on at a RECORD_OPEN (log 22). -/
def State.recordLeaves (s : State) (r : Nat) : State :=
  match s.record r with
  | none => s
  | some rec =>
    let t := s.dropRecord r
    (if s.openingStopped then t.openReady else t).retakeHeld.queueJobEnd rec.slot

/-- What appending an item does beyond the ring (R149). -/
def State.itemAppended (s : State) : Item → State
  | .repeatItem r => s.recordLeaves r
  | .jobEnd i _ => ((s.modSlot i fun j => { j with state := .ended }).raise .jobEnded).stopTimers
  | .jobStart _ _ => s
  | .postVoid _ => s

/-- A further attempt is due after an append while items wait (R148). -/
def State.markDue (s : State) : State := { s with account := { s.account with due := !s.account.queue.isEmpty } }

/-- One append attempt on the front item (R148 to R150). -/
def State.appendAttempt (s : State) : State :=
  match s.account.queue with
  | [] => { s with account := { s.account with due := false } }
  | it :: rest =>
    let bs := s.itemBytes it
    match s.account.place bs.length with
    | none => { s with account := { s.account with full := true, due := false } }.raiseIf (!s.account.full) .bufferFull
    | some at' =>
      let s := { s with account := { s.account.placed at' bs with queue := rest, full := false } }
      (s.checkBufferHigh.itemAppended it).markDue

/-- Attempts in turn while one is due (R153); the bound is never reached (log 19). -/
def appendAll : Nat → State → State
  | 0, s => s
  | n + 1, s => if s.account.due then appendAll n s.appendAttempt else s

/-! ### Silence timers and loss (R173, R174, R78) -/

/-- The conditions of R173 for port `p`. -/
def State.timerRuns (s : State) (p : PortId) : Bool :=
  s.run && (s.port p).state = .active && s.inRun && s.plan.silence ≠ 0

/-- Start the port's timer at the full limit while the conditions hold (R173). -/
def State.restartTimer (s : State) (p : PortId) : State :=
  s.modPort p fun x => { x with timer := if s.timerRuns p then some (s.plan.silence * 10) else none }

/-- The ply joins plies lost of every AWAITING record that has not served it (R78). -/
def State.plyLost (s : State) (k : Nat) : State :=
  { s with window := { s.window with records := s.window.records.map fun x =>
    if x.closure = .awaiting ∧ x.served &&& plyBit k = 0 then { x with lost := x.lost ||| plyBit k } else x } }

/-- The port's silence timer expires (R174). -/
def State.expire (s : State) (p : PortId) : State :=
  let ply := (s.port p).ply
  let s := s.modPort p fun x => { x with state := .lost, slot := .none, timer := none }
  (match ply with
    | some k => s.plyLost k
    | none => s).raise .stationLost

/-! ### Reader gap timing (R87) -/

/-- The third tick after a byte completed: the gap mark is set and the timing is over. -/
def State.gapTimeout (s : State) : State :=
  { s with receiver := { s.receiver with gapMark := true, gapTicks := none } }

end Sys2Proof.Machine
end

