-- ==== Sys2Proof/Machine/Pins.lean ====
section
/-! DEFINITION. RST, RUN and the timebase: POWER_ON_RESET, RUN_RISE, RUN_FALL, SILENCE_EXPIRY, GAP_TIMEOUT, and the 1 ms tick. -/

namespace Sys2Proof.Machine

/-- POWER_ON_RESET (R178): every block takes its power-on values, the address pins are sampled (R177), RUN keeps its level. -/
def execPowerOnReset (adr1 adr0 : Bool) (s : State) : Host.Outcome State Fault Refusal :=
  .next { State.reset with sup := .reset adr1 adr0, run := s.run, pending := s.pending }

/-- RUN_RISE (R173): the timers whose conditions now hold start at the full limit. With RUN high there is no edge (log 23). -/
def execRunRise (s : State) : Host.Outcome State Fault Refusal :=
  .next (if s.run then s else { s with run := true }.forPorts fun p t => t.restartTimer p)

/-- RUN_FALL (R173): every timer stops. -/
def execRunFall (s : State) : Host.Outcome State Fault Refusal := .next { s with run := false }.stopTimers

/-- SILENCE_EXPIRY (R174): the tick that brings the remaining time to 0 falls at this port. A timer with more time left does not expire;
one that a frame restarted has its full limit left (log 4). -/
def execSilenceExpiry (p : PortId) (s : State) : Host.Outcome State Fault Refusal :=
  .next (if (s.port p).timer.any (fun n => n ≤ 1) then s.expire p else s)

/-- GAP_TIMEOUT (R87): the third tick after a byte completed falls at the reader's line side (log 4). -/
def execGapTimeout (s : State) : Host.Outcome State Fault Refusal :=
  .next (if s.receiver.gapTicks.any (fun n => 2 ≤ n) then s.gapTimeout else s)

/-- One tick at port `p`: a running timer decreases by 1 and expires at 0 (R173, R174). -/
def State.portTick (p : PortId) (s : State) : State :=
  match (s.port p).timer with
  | none => s
  | some n => if n ≤ 1 then s.expire p else s.modPort p fun x => { x with timer := some (n - 1) }

/-- One tick at the reader's line side (R87). -/
def State.gapTick (s : State) : State :=
  match s.receiver.gapTicks with
  | none => s
  | some n =>
    if 2 ≤ n then s.gapTimeout else { s with receiver := { s.receiver with gapTicks := some (n + 1) } }

/-- One 1 ms tick of the timebase (log 3). -/
def State.tick (s : State) : State := (s.forPorts State.portTick).gapTick

end Sys2Proof.Machine
end

