-- ==== Sys2Proof/Machine/Reader.lean ====
section
/-! DEFINITION. The verdict receiver (chapter 5): the line side, the assembler, and the handling of a good frame. -/

namespace Sys2Proof.Machine

/-! ### The line side (R85 to R87) -/

/-- READER_START_BIT (R85, R87): the gap timing ends and a set gap mark is carried onto the arriving byte. An edge that is not low at
the middle of its bit is noise and does nothing (log 11). -/
def execReaderStartBit (lowAtMiddle : Bool) (s : State) : Host.Outcome State Fault Refusal :=
  .next (if lowAtMiddle = true ∧ s.receiver.line = .idle then
    { s with receiver := { s.receiver with line := .receiving s.receiver.gapMark, gapMark := false, gapTicks := none } }
  else s)

/-- Mark the newest byte held: bytes after it were dropped (R86). -/
def markLoss : List FifoEntry → List FifoEntry
  | [] => []
  | [e] => [{ e with lossAfter := true }]
  | e :: es => e :: markLoss es

/-- A completed byte joins the FIFO, or is dropped when 32 are held (R86). -/
def pushByte (fifo : List FifoEntry) (e : FifoEntry) : List FifoEntry :=
  if fifoDepth ≤ fifo.length then markLoss fifo else fifo ++ [e]

/-- READER_BYTE_RECEIVED (R85, R86): a byte completes at the middle of its stop bit, and the gap timing starts (R87). -/
def execReaderByteReceived (value : Byte) (stopHigh : Bool) (s : State) : Host.Outcome State Fault Refusal :=
  .next (match s.receiver.line with
    | .receiving gapBefore =>
      { s with receiver := { s.receiver with
        fifo := pushByte s.receiver.fifo { value, framing := !stopHigh, gapBefore, lossAfter := false }
        line := if stopHigh then .idle else .waitHigh
        gapTicks := some 0 } }
    | _ => s)

/-- READER_LINE_RETURNS_HIGH (R85). -/
def execReaderLineReturnsHigh (s : State) : Host.Outcome State Fault Refusal :=
  .next (if s.receiver.line = .waitHigh then { s with receiver := { s.receiver with line := .idle } } else s)

/-! ### The assembler (R88 to R90) -/

/-- The assembler is building a frame: in COUNT, INDEX, CODES or CHECK. -/
def AsmState.inFrame : AsmState → Bool
  | .count => true
  | .index => true
  | .codes => true
  | .check => true
  | _ => false

/-- The frame in progress is discarded for a framing error or a gap (R90). -/
def Receiver.discardFrame (v : Receiver) : Receiver :=
  { v with asm := .hunt, frame := none, framingFails := satAdd max32 v.framingFails 1 }

/-- The frame that a sync byte begins (R88). -/
def Frame.begun : Frame := { count := 0, indexBytes := 0, index := 0, codes := [], sum := 0, damaged := false }

/-- What the assembler's step leaves: the receiver, and whether a discard counter increased (R90). -/
abbrev AsmResult := Receiver × Bool

/-- A frame completes in CHECK (R89); a good frame is a duplicate (R92) or is handled (R91). -/
def Receiver.judge (v : Receiver) (f : Frame) : AsmResult :=
  if f.damaged ∨ f.sum ≠ 0 then
    ({ v with asm := .hunt, frame := none, checksumFails := satAdd max32 v.checksumFails 1 }, true)
  else if v.lastVerdict.any (fun l => f.index ≤ l) then
    ({ v with asm := .hunt, frame := none, duplicates := satAdd max32 v.duplicates 1 }, true)
  else ({ v with asm := .handling, frame := some f }, false)

/-- A byte taken by the state of the assembler (R88). -/
def Receiver.takeValue (v : Receiver) (b : Byte) : AsmResult :=
  match v.asm, v.frame with
  | .hunt, _ => if b = 0xA5 then ({ v with asm := .count, frame := some .begun }, false) else (v, false)
  | .count, some f => ({ v with asm := .index, frame := some { f with count := b.toNat, sum := f.sum + b } }, false)
  | .index, some f =>
    let f' := { f with indexBytes := f.indexBytes + 1, index := f.index * 256 + b.toNat, sum := f.sum + b }
    ({ v with asm := if f'.indexBytes < 4 then .index else if f.count = 0 then .check else .codes, frame := some f' }, false)
  | .codes, some f =>
    let f' := { f with codes := f.codes ++ [b], sum := f.sum + b }
    ({ v with asm := if f'.codes.length < f.count then .codes else .check, frame := some f' }, false)
  | .check, some f => v.judge { f with sum := f.sum + b }
  | _, _ => (v, false)

/-- A loss-after mark damages the frame in progress after its byte was taken (R89). -/
def Receiver.loss (v : Receiver) : Receiver :=
  if v.asm.inFrame then { v with frame := v.frame.map fun f => { f with damaged := true } } else v

/-- The assembler takes one FIFO entry: its framing and gap marks first (R90), then its value (R88), then its loss mark (R89). -/
def Receiver.takeEntry (v : Receiver) (e : FifoEntry) : AsmResult :=
  let marks := v.asm.inFrame && (e.framing || e.gapBefore)
  let v := if marks then v.discardFrame else v
  let r := if e.framing then (v, false) else v.takeValue e.value
  (if e.lossAfter then r.1.loss else r.1, marks || r.2)

/-- ASSEMBLER_TAKE_BYTE (R88): not in HANDLING and the FIFO not empty. -/
def execAssemblerTakeByte (s : State) : Host.Outcome State Fault Refusal :=
  match s.receiver.asm, s.receiver.fifo with
  | .handling, _ => .next s
  | _, [] => .next s
  | _, e :: rest =>
    let r := ({ s.receiver with fifo := rest } : Receiver).takeEntry e
    .next ({ s with receiver := r.1 }.raiseIf r.2 .readerDiscard)

/-- ASSEMBLER_GAP_DISCARD (R90): the FIFO empty and the gap mark set; in HUNT the mark is cleared and nothing is counted. -/
def execAssemblerGapDiscard (s : State) : Host.Outcome State Fault Refusal :=
  .next (if s.receiver.fifo = [] ∧ s.receiver.gapMark = true ∧ s.receiver.asm ≠ .handling then
    let v := { s.receiver with gapMark := false }
    if v.asm.inFrame then { s with receiver := v.discardFrame }.raise .readerDiscard else { s with receiver := v }
  else s)

/-! ### Handling a good frame (R91 to R94) -/

/-- The lowest AWAITING record below `r` (R93). -/
def State.awaitingBelow (s : State) (r : Nat) : Option Record := s.awaiting.find? fun x => x.repeatIndex < r

/-- CLOSE_UNVERIFIED (R93): handling closes the lowest AWAITING record below the frame's repeat, and the closure takes its insertions, all
or up to `inserts` of them now. While a closure is in progress the step takes what is left of it, or up to so many, and begins none (R132,
log 13). -/
def execCloseUnverified (s : State) (inserts : Option Nat := none) : Host.Outcome State Fault Refusal :=
  match s.window.closing, s.handled with
  | some _, _ => .next (s.takeInsertions inserts)
  | none, none => .next s
  | none, some f =>
    match s.awaitingBelow f.index with
    | none => .next s
    | some rec => .next ((s.beginClosing rec.repeatIndex .unverified []).takeInsertions inserts)

/-- The frame's own repeat, by the first row of R94 that applies. A closure VERIFIED takes its insertions, all or up to `inserts` of
them now; with the last of them the last verdict repeat is set and handling ends (`State.endClosing`). -/
def State.frameVerdict (inserts : Option Nat) (s : State) (f : Frame) : State :=
  match s.record f.index with
  | some rec =>
    if rec.closure = .awaiting then
      if f.codes.length ≠ rec.positions.length then
        ({ s with receiver := { s.receiver with shapeMismatches := satAdd max32 s.receiver.shapeMismatches 1 } }.raise
          .readerDiscard).endHandling
      else (s.beginClosing f.index .verified f.codes).takeInsertions inserts
    else ({ s with receiver := { s.receiver with noRecords := satAdd max32 s.receiver.noRecords 1 } }.setLastVerdict f.index).endHandling
  | none => ({ s with receiver := { s.receiver with noRecords := satAdd max32 s.receiver.noRecords 1 } }.setLastVerdict f.index).endHandling

/-- FRAME_VERDICT (R94): once no AWAITING record lies below the frame's repeat (R91). While a closure is in progress the step takes
what is left of it, or up to `inserts` (R132, log 13). -/
def execFrameVerdict (s : State) (inserts : Option Nat := none) : Host.Outcome State Fault Refusal :=
  match s.window.closing, s.handled with
  | some _, _ => .next (s.takeInsertions inserts)
  | none, none => .next s
  | none, some f =>
    match s.awaitingBelow f.index with
    | some _ => .next s
    | none => .next (s.frameVerdict inserts f)

end Sys2Proof.Machine
end

