-- ==== Sys2Proof/Machine/SeriesUnit.lean ====
section
/-! DEFINITION. The series unit and the draft queue at work: TAKE, MAKEUP_DRAW, FILL_COMPLETE. -/

namespace Sys2Proof.Machine

/-- The fill in flight that has positions left to fill from a job of the given source (R24). -/
def State.fillAtWork (s : State) (source : Source) : Option Fill :=
  s.queue.fill.filter fun f => (s.slot f.slot).source = source && f.entries.length < (s.slot f.slot).positions

def State.setFill (s : State) (f : Option Fill) : State := { s with queue := { s.queue with fill := f } }

/-- TAKE (R24, R27): the next position of a SERIES fill takes from its counter. The fill's skipped delta is the plain sum (log 31). -/
def execTake (s : State) : Host.Outcome State Fault Refusal :=
  match s.fillAtWork .series with
  | none => .next s
  | some f =>
    let j := s.slot f.slot
    let i := counterIndex j.rules j.geometry f.entries.length
    match j.counters[i]? with
    | none => .next s
    | some c =>
      let t := c.take j.rules
      let s := s.modSlot f.slot fun j => { j with counters := j.counters.set i t.counter }
      .next ((s.setFill (some { f with entries := f.entries ++ [t.entry], skipped := f.skipped + t.skipped })).raiseIf
        t.raised .rangeExhausted)

/-- A draw that finds no value: the position is blank and the draw state becomes exhausted (R39). -/
def State.drawNothing (s : State) (f : Fill) : State :=
  let f := { f with floor := none }
  let raised := (s.slot f.slot).draw.raised
  let s := s.modSlot f.slot fun j => { j with draw := { exhausted := true, raised := true } }
  (s.setFill (some { f with entries := f.entries ++ [.blank] })).raiseIf (!raised) .rangeExhausted

/-- A draw issues `x`: the void list loses it and the fill holds it (R38, R134). -/
def State.drawIssues (s : State) (f : Fill) (x : Nat) : State :=
  let e : Entry := { value := some x, check := (s.slot f.slot).rules.checkOf x, bookEnd := false }
  let drops := s.voids.removeDrops x
  ({ s with voids := s.voids.remove x }.setFill (some { f with entries := f.entries ++ [e], drawn := f.drawn ++ [x], floor := none })).raiseIf
    drops .voidListIncomplete

/-- MAKEUP_DRAW (R24, R38): the next position of a MAKEUP fill draws from the void list, with all the lookups this takes, or at most
`lookups` of them now. A draw that has passed over values and made no further lookup goes on at a later MAKEUP_DRAW, from its floor
(R133). Each lookup raises the floor, so whi + 2 of them are enough. -/
def execMakeupDraw (s : State) (lookups : Option Nat := none) : Host.Outcome State Fault Refusal :=
  match s.fillAtWork .makeup with
  | none => .next s
  | some f =>
    let j := s.slot f.slot
    if j.draw.exhausted then .next (s.setFill (some { f with entries := f.entries ++ [.blank], floor := none }))
    else
      match drawLookups j.rules.skipsValue j.rules.whi s.voids.ranges (lookups.getD (j.rules.whi + 2)) (f.floor.getD j.rules.wlo) with
      | .issues x => .next (s.drawIssues f x)
      | .nothing => .next (s.drawNothing f)
      | .passing floor => .next (s.setFill (some { f with floor := some floor }))

/-- Every counter of the job, or its draw state, is exhausted (R25). -/
def JobSlot.allExhausted (j : JobSlot) : Bool :=
  match j.source with
  | .series => j.counters.all Counter.exhausted
  | .makeup => j.draw.exhausted

def Fill.draft (f : Fill) : Draft :=
  { repeatIndex := f.target, slot := f.slot, entries := f.entries, skipped := f.skipped, drawn := f.drawn, before := f.before }

/-- A fill that numbered something makes a draft (R46); with all exhausted its target is the slot's final repeat. -/
def State.fillMakesDraft (s : State) (f : Fill) : State :=
  let s := { s with queue := { s.queue with drafts := s.queue.drafts ++ [f.draft] } }
  if (s.slot f.slot).allExhausted then
    s.modSlot f.slot fun j => { j with final := .known f.target, note := .known f.target }
  else s

/-- The final repeat that a fill numbering nothing finds (R47). -/
def State.emptyFillFinal (s : State) (f : Fill) : Final :=
  let j := s.slot f.slot
  if j.first.any (fun x => x < f.target) ∧ (0 < j.tally.repeatsOpened ∨ s.queue.drafts.any (fun d => d.slot = f.slot) = true) then
    .known (f.target - 1)
  else .empty

/-- The skipped delta of a fill that numbered nothing: to the slot's draft for the repeat before, else to its tally (R47). The draft's delta
is the plain sum (log 31). -/
def State.handSkipped (s : State) (f : Fill) : State :=
  let isPrev (d : Draft) : Bool := d.slot = f.slot && d.repeatIndex + 1 = f.target
  if s.queue.drafts.any isPrev then
    { s with queue := { s.queue with drafts := s.queue.drafts.map fun d => if isPrev d then { d with skipped := d.skipped + f.skipped } else d } }
  else s.modSlot f.slot fun j => { j with tally := { j.tally with skipped := satAdd max32 j.tally.skipped f.skipped } }

/-- A fill that numbered nothing finds its slot exhausted (R47) and reports it to job control. -/
def State.fillFindsNothing (s : State) (f : Fill) : State :=
  let final := s.emptyFillFinal f
  let s := s.modSlot f.slot fun j => { j with final := final, note := final }
  (s.handSkipped f).reportExhausted f.slot

/-- FILL_COMPLETE (R46, R47): every position of the fill has its entry. -/
def execFillComplete (s : State) : Host.Outcome State Fault Refusal :=
  match s.queue.fill with
  | none => .next s
  | some f =>
    if f.entries.length < (s.slot f.slot).positions then .next s
    else
      let s := s.setFill none
      if f.entries.any (fun e => e.value.isSome) then .next (s.fillMakesDraft f).settle else .next (s.fillFindsNothing f).settle

end Sys2Proof.Machine
end

