-- ==== Sys2Proof/Machine/Stations.lean ====
section
/-! DEFINITION. The station ports (chapter 9): PROBE, REQUEST, WASTE, MISFIRE, FETCH, its two ends, and unknown frames. -/

namespace Sys2Proof.Machine

/-! ### Transactions (R161 to R163, R171) -/

/-- The FETCH at port `p` ends short, and its transaction with it (R171): a NUMBERS answer left READY whose record closed during the clocking
becomes LATE. -/
def State.endFetchShort (s : State) (p : PortId) : State :=
  match (s.port p).fetch with
  | none => s
  | some f =>
    s.modPort p fun x =>
      let x := { x with fetch := none, selected := false }
      match x.slot with
      | .ready q (.numbers r _ _) => if f.fromReady ∧ f.recordClosed then x.lateReady q r else x
      | _ => x

/-- The select input goes active (R161, R162): a FETCH still being clocked has ended short (log 10), the transaction's mode is taken, and
the status byte that its command byte clocks out is chosen. A port already selected sees no edge. -/
def State.select (s : State) (p : PortId) (clockHigh : Bool) : State :=
  if (s.port p).selected && (s.port p).fetch.isNone then s
  else (s.endFetchShort p).modPort p fun x => { x with selected := true, mode3 := clockHigh, out := [x.statusByte] }

/-- The transaction's frame is taken: the select that began it, where no command has shown it, was in mode 0 just before (log 9). -/
def State.frameTaken (s : State) (p : PortId) : State := (s.select p false).modPort p fun x => { x with selected := false }

/-- The first `n` bytes that port `p` clocks out in its transaction: those chosen for it, then zeros (R161). -/
def State.clockedOut (s : State) (p : PortId) (n : Nat) : Bytes :=
  ((s.port p).out ++ List.replicate (n - (s.port p).out.length) 0).take n

/-- A rejected frame sets the reject bit and is counted, and touches nothing else (R163). -/
def State.rejectFrame (s : State) (p : PortId) : State :=
  s.modPort p fun x => { x with reject := true, rejected := satAdd max16 x.rejected 1 }

/-- An accepted frame clears the reject bit and restarts the silence timer (R163, R173). -/
def State.acceptFrame (s : State) (p : PortId) : State := (s.modPort p fun x => { x with reject := false }).restartTimer p

/-- The port answers a request itself (R170). -/
def State.portAnswers (s : State) (p : PortId) (q : Request) (reason : Reason) (cursor : Nat) : State :=
  s.setReqSlot p (.ready q (.refused reason cursor))

/-- REFUSED ORDER carries the cursor and is counted (R167, R169, R176). -/
def State.refuseOrder (s : State) (p : PortId) (q : Request) : State :=
  (s.portAnswers p q .order (s.port p).cursor).modPort p fun x => { x with order := satAdd max16 x.order 1 }

/-- At a CLOSED or LOST port the request is refused; at an ACTIVE one `k` takes it (R165). -/
def State.atPort (s : State) (p : PortId) (q : Request) (k : State → State) : State :=
  match (s.port p).state with
  | .closed => s.portAnswers p q .closed 0
  | .lost => s.portAnswers p q .lost 0
  | .active => k s

/-- PROBE (R166). -/
def execProbe (p : PortId) (moment : Moment Bool) (s : State) : Host.Outcome State Fault Refusal :=
  match moment with
  | .select clockHigh => .next (s.select p clockHigh)
  | .taken whole => .next (if whole then (s.frameTaken p).acceptFrame p else (s.frameTaken p).rejectFrame p)

/-! ### REQUEST (R167) -/

/-- A REQUEST for impression `c` at an ACTIVE port: cursor, new-run bit, mapping, window. -/
def State.requestFrame (p : PortId) (c : Nat) (s : State) : State :=
  let cursor := (s.port p).cursor
  let q : Request := { kind := .request, first := c, last := c, mask := 0, repeats := none, isNew := c = cursor }
  if c = cursor ∨ (1 ≤ cursor ∧ c = cursor - 1) then
    let s := if c = cursor then s.modPort p fun x => { x with newRun := false } else s
    let r := c + s.leadAt p
    if maxRepeat < r then s.portAnswers p q .range 0 else s.takeRequest p { q with repeats := some (r, r) } r
  else s.refuseOrder p q

/-- REQUEST (R167). -/
def execRequest (p : PortId) (moment : Moment Bytes) (s : State) : Host.Outcome State Fault Refusal :=
  match moment with
  | .select clockHigh => .next (s.select p clockHigh)
  | .taken body =>
    let c := field body 0 4
    let q : Request := { kind := .request, first := c, last := c, mask := 0, repeats := none, isNew := false }
    .next (if frameAccepted cmdRequest requestLength body then
      ((s.frameTaken p).acceptFrame p).atPort p q (State.requestFrame p c)
    else (s.frameTaken p).rejectFrame p)

/-! ### WASTE (R168, R75) -/

/-- The repeats `r1` to `r2`. -/
def repeatsFrom (r1 r2 : Nat) : List Nat := (List.range (r2 + 1 - r1)).map (r1 + ·)

/-- The record is AWAITING. -/
def State.isAwaiting (s : State) (r : Nat) : Bool := (s.record r).any fun x => x.closure = .awaiting

/-- The record's repeat lies in the range and the record takes station marks (R75). -/
def State.wasted (s : State) (r1 r2 : Nat) (x : Record) : Bool :=
  r1 ≤ x.repeatIndex && x.repeatIndex ≤ r2 && s.plan.lMax ≤ x.repeatIndex && x.closure = .awaiting

/-- Set the WASTE mark on every numbered position (R75). -/
def Record.markWaste (x : Record) : Record :=
  { x with positions := x.positions.map fun p => if p.numbered then { p with waste := true } else p }

/-- The positions a WASTE marks (R75). -/
def State.wasteCount (s : State) (r1 r2 : Nat) : Nat := ((s.window.records.filter (s.wasted r1 r2)).map Record.numbered).sum

/-- The repeats of a WASTE counted late (R75). -/
def State.wasteLate (s : State) (r1 r2 : Nat) : Nat :=
  (repeatsFrom r1 r2).countP fun r => s.plan.lMax ≤ r && !s.isAwaiting r

/-- The window takes a WASTE for repeats `r1` to `r2` (R60, R75). -/
def State.takeWaste (s : State) (p : PortId) (q : Request) (r1 r2 : Nat) : State :=
  if s.inRun = false then s.setReqSlot p (.preparing q (.building (.refused .idle 0)))
  else if s.atOrBelowNewest r2 = false then s.setReqSlot p (.preparing q (.building (.refused .range 0)))
  else
    let marked := s.wasteCount r1 r2
    let lateCount := s.wasteLate r1 r2
    let s := { s with window := { s.window with records := s.window.records.map fun x => if s.wasted r1 r2 x then x.markWaste else x } }
    s.modPort p fun x => { x with slot := .preparing q (.building (.ack marked)), late := satAdd max16 x.late lateCount }

/-- A WASTE for impressions `c1` to `c2` at an ACTIVE port (R168). -/
def State.wasteFrame (p : PortId) (c1 c2 : Nat) (s : State) : State :=
  let q : Request := { kind := .waste, first := c1, last := c2, mask := 0, repeats := none, isNew := false }
  let lead := s.leadAt p
  if c2 < c1 ∨ 63 < c2 - c1 ∨ maxRepeat < c2 + lead then s.portAnswers p q .range 0
  else s.takeWaste p { q with repeats := some (c1 + lead, c2 + lead) } (c1 + lead) (c2 + lead)

/-- WASTE (R168). -/
def execWaste (p : PortId) (moment : Moment Bytes) (s : State) : Host.Outcome State Fault Refusal :=
  match moment with
  | .select clockHigh => .next (s.select p clockHigh)
  | .taken body =>
    let c1 := field body 0 4
    let c2 := field body 4 4
    let q : Request := { kind := .waste, first := c1, last := c2, mask := 0, repeats := none, isNew := false }
    .next (if frameAccepted cmdWaste wasteLength body then
      ((s.frameTaken p).acceptFrame p).atPort p q (State.wasteFrame p c1 c2)
    else (s.frameTaken p).rejectFrame p)

/-! ### MISFIRE (R169, R76) -/

/-- Set the MISFIRE mark on the numbered positions whose mask bit is set (R76). -/
def Record.markMisfire (mask : BitVec 16) (x : Record) : Record :=
  { x with positions := x.positions.mapIdx fun i p => if p.numbered && mask.getLsbD i then { p with misfire := true } else p }

/-- The positions a MISFIRE marks (R76). -/
def Record.misfireCount (mask : BitVec 16) (x : Record) : Nat :=
  (x.positions.mapIdx fun i p => p.numbered && mask.getLsbD i).countP id

/-- The answer to a MISFIRE whose repeat has no AWAITING record (R76). -/
def State.misfireAnswer (s : State) (r : Nat) : Answer :=
  if r < s.plan.lMax ∨ s.atOrBelowNewest r = true then s.classify r
  else if s.belowFloor r then .late r
  else .blank r

/-- The window takes a MISFIRE for repeat `r` (R60, R76). -/
def State.takeMisfire (s : State) (p : PortId) (q : Request) (r : Nat) : State :=
  if s.inRun = false then s.setReqSlot p (.preparing q (.building (.refused .idle 0)))
  else if s.plan.lMax ≤ r ∧ s.isAwaiting r = true then
    let marked := ((s.record r).map (Record.misfireCount q.mask)).getD 0
    (s.modRecord r (Record.markMisfire q.mask)).setReqSlot p (.preparing q (.building (.ack marked)))
  else s.setReqSlot p (.preparing q (.building (s.misfireAnswer r)))

/-- A MISFIRE for impression `c` at an ACTIVE port (R169). -/
def State.misfireFrame (p : PortId) (c : Nat) (mask : BitVec 16) (s : State) : State :=
  let q : Request := { kind := .misfire, first := c, last := c, mask, repeats := none, isNew := false }
  let r := c + s.leadAt p
  if (s.port p).cursor ≤ c then s.refuseOrder p q
  else if maxRepeat < r then s.portAnswers p q .range 0
  else s.takeMisfire p { q with repeats := some (r, r) } r

/-- MISFIRE (R169). -/
def execMisfire (p : PortId) (moment : Moment Bytes) (s : State) : Host.Outcome State Fault Refusal :=
  match moment with
  | .select clockHigh => .next (s.select p clockHigh)
  | .taken body =>
    let c := field body 0 4
    let mask := BitVec.ofNat 16 (field body 4 2)
    let q : Request := { kind := .misfire, first := c, last := c, mask, repeats := none, isNew := false }
    .next (if frameAccepted cmdMisfire misfireLength body then
      ((s.frameTaken p).acceptFrame p).atPort p q (State.misfireFrame p c mask)
    else (s.frameTaken p).rejectFrame p)

/-! ### FETCH (R171, R172) -/

/-- The NONE answer: the cursor and the four counters as they stand (R171). -/
def Port.noneAnswer (x : Port) : Answer := .noAnswer x.cursor x.late x.order x.rejected x.held

/-- The answer that a FETCH begins to clock out (R171). -/
def Port.chooseAnswer (x : Port) : FetchOut :=
  match x.slot with
  | .ready q a => { answer := a, fromReady := true, isNew := q.isNew, recordClosed := false }
  | _ => { answer := x.noneAnswer, fromReady := false, isNew := false, recordClosed := false }

/-- FETCH (R171): the answer is chosen at the end of the command byte, behind the status byte chosen at select (R162), and its bytes are
clocked out. -/
def execFetch (p : PortId) (moment : Moment Bool) (s : State) : Host.Outcome State Fault Refusal :=
  match moment with
  | .select clockHigh => .next (s.select p clockHigh)
  | .taken whole =>
    .next (if whole then
      ((s.frameTaken p).acceptFrame p).modPort p fun x =>
        { x with fetch := some x.chooseAnswer, out := x.out ++ x.chooseAnswer.answer.bytes }
    else (s.frameTaken p).rejectFrame p)

/-- The kinds of answer whose completed fetch moves the cursor (R172). -/
def Answer.movesCursor : Answer → Bool
  | .numbers _ _ _ => true
  | .leadIn _ => true
  | .blank _ => true
  | .late _ => true
  | _ => false

/-- The ply joins plies served of the AWAITING record for `r` (R71). -/
def State.serve (s : State) (r k : Nat) : State :=
  s.modRecord r fun x => if x.closure = .awaiting then { x with served := x.served ||| plyBit k } else x

/-- A completed fetch of a READY answer at port `p`: the slot empties and the cursor may move (R171, R172). A cursor at its largest value
stays there (log 32). -/
def Port.fetched (f : FetchOut) (x : Port) : Port :=
  { x with
    slot := .none
    fetch := none
    cursor := if f.isNew && f.answer.movesCursor then satAdd max32 x.cursor 1 else x.cursor
    late := if f.recordClosed then satAdd max16 x.late 1 else x.late }

/-- The window takes the completed fetch (R71, R72): nothing from a port that is not ACTIVE, nothing to a record that has closed. -/
def State.servedBy (s : State) (p : PortId) (f : FetchOut) : State :=
  match f.answer, (s.port p).ply with
  | .numbers r _ _, some k => if (s.port p).state = .active ∧ f.recordClosed = false then s.serve r k else s
  | _, _ => s

/-- FETCH_COMPLETE (R171). A completed NONE answer changes nothing. -/
def execFetchComplete (p : PortId) (s : State) : Host.Outcome State Fault Refusal :=
  match (s.port p).fetch with
  | none => .next s
  | some f =>
    if f.fromReady then .next ((s.servedBy p f).modPort p (Port.fetched f))
    else .next (s.modPort p fun x => { x with fetch := none })

/-- FETCH_ENDED_SHORT (R171). -/
def execFetchEndedShort (p : PortId) (s : State) : Host.Outcome State Fault Refusal := .next (s.endFetchShort p)

/-- UNKNOWN_COMMAND_FRAME (R163): rejected. A body whose command byte is one of the five is that command's frame (log 27). -/
def execUnknownCommandFrame (p : PortId) (command : Option Byte) (moment : Moment Bytes) (s : State) :
    Host.Outcome State Fault Refusal :=
  match moment with
  | .select clockHigh => .next (s.select p clockHigh)
  | .taken body =>
    match decodeFrame p command body with
    | .probe p m => execProbe p m s
    | .request p m => execRequest p m s
    | .waste p m => execWaste p m s
    | .misfire p m => execMisfire p m s
    | .fetch p m => execFetch p m s
    | _ => .next ((s.frameTaken p).rejectFrame p)

end Sys2Proof.Machine
end

