-- ==== Sys2Proof/Machine/JobTasks.lean ====
section
/-! DEFINITION. What the tasks of the plan and of job control do (chapters 1 and 6): PLAN, LDJB, STRT, SWAP, STOP, QUIT, ADMT. Each
takes its parameter block and the state, and answers the outcome and the state after. -/

namespace Sys2Proof.Machine

/-- A task's outcome with the state it leaves (R181). -/
abbrev TaskResult := TaskOutcome × State

/-! ### PLAN (R4 to R10) -/

/-- A port closed by PLAN (R8): its fetch in progress goes on. -/
def Port.closeByPlan (x : Port) : Port := { x with state := .closed, slot := .none, timer := none }

/-- The receiver after a change of divisor (R9, R84). -/
def Receiver.divisorChanged (v : Receiver) : Receiver :=
  { v with fifo := [], gapMark := false, gapTicks := none, line := .idle, asm := .hunt, frame := none }

/-- A PLAN that succeeds stores `new` (R7 to R10). -/
def State.storePlan (s : State) (new : Plan) : State :=
  { s with
    plan := new
    ports := s.ports.map Port.closeByPlan
    receiver := if new.divisor = s.plan.divisor then s.receiver else s.receiver.divisorChanged }

/-- PLAN's results (R7). -/
def Plan.results (p : Plan) : Bytes :=
  beBytes 1 p.plies.length ++ beBytes 1 p.lMax ++ beBytes 1 p.winHigh ++ beBytes 1 p.bufHigh

def runPlan (bs : Bytes) (s : State) : TaskResult :=
  if s.inRun then (refusedState, s)
  else if byteAt bs 0 = 0 then
    let new := { s.plan with plies := [] }
    (.carriedOut new.results, s.storePlan new)
  else if planBlockOk bs then (.carriedOut (planOf bs).results, s.storePlan (planOf bs))
  else (refusedRange, s)

/-! ### LDJB (R107, R108) -/

def SlotState.loadable : SlotState → Bool
  | .free => true
  | .ended => true
  | _ => false

/-- The slot LDJB loads: A when it is FREE or ENDED, else B (R107). -/
def State.slotToLoad (s : State) : Option SlotId :=
  if s.slotA.state.loadable then some .A else if s.slotB.state.loadable then some .B else none

/-- A job in the slot blocks its tag: LOADED, RUNNING or DRAINING (R107, check 3). -/
def SlotState.blocksTag : SlotState → Bool
  | .loaded => true
  | .running => true
  | .draining => true
  | _ => false

/-- The job slot a block loads (R108, R21). -/
def loadedJob (bs : Bytes) : JobSlot :=
  { JobSlot.cleared with
    state := .loaded
    tag := jobTag bs
    source := jobSource bs
    geometry := jobGeometry bs
    rules := jobRules bs
    counters := match jobSource bs with
      | .series => (jobRules bs).counters (jobGeometry bs).lanes
      | .makeup => [] }

/-- The checks of R107 from the third on, for the slot `i` to load. -/
def State.loadRefusal (s : State) (i : SlotId) (bs : Bytes) : Option TaskOutcome :=
  if jobTag bs = 0 ∨ ((s.slot i.other).state.blocksTag = true ∧ (s.slot i.other).tag = jobTag bs) then some refusedTag
  else if jobBlockOk bs = false then some refusedRange
  else if jobSource bs = .series ∧ (jobRules bs).wrap = false ∧ (jobRules bs).spanFits (jobGeometry bs).lanes = false then
    some refusedSpan
  else if jobSource bs = .makeup ∧ s.voids.incomplete = true then some refusedIncomplete
  else none

def runLdjb (bs : Bytes) (s : State) : TaskResult :=
  if s.plan.plies = [] then (refusedState, s)
  else
    match s.slotToLoad with
    | none => (refusedBusy, s)
    | some i =>
      match s.loadRefusal i bs with
      | some refusal => (refusal, s)
      | none => (.carriedOut (beBytes 1 i.code ++ beBytes 2 (jobTag bs)), s.modSlot i fun _ => loadedJob bs)

/-! ### STRT (R110, R111) -/

/-- A port at STRT (R111, R164): bound to a ply it becomes ACTIVE, else CLOSED. -/
def Port.started (ply : Option Nat) (x : Port) : Port :=
  { x with
    state := if ply.isSome then .active else .closed
    ply := ply
    cursor := 0
    slot := .none
    newRun := ply.isSome
    timer := none }

/-- The run begins with slot `i` (R111). The window is empty then (R59), and the model empties it (log 24). -/
def State.startRun (s : State) (i : SlotId) : State :=
  let s := s.modSlot i fun j => { j with state := .running, first := some s.plan.lMax, final := .unset, change := none }
  let s := { s with
    slotA := { s.slotA with note := .unset }
    slotB := { s.slotB with note := .unset }
    window := .empty
    queue := .empty
    receiver := { s.receiver with lastVerdict := none } }
  let s := s.forPorts fun p t => (t.modPort p (Port.started (t.plan.plyOf p))).restartTimer p
  (s.queueJobStart i).settle

def runStrt (bs : Bytes) (s : State) : TaskResult :=
  if s.plan.plies = [] ∨ s.inRun = true then (refusedState, s)
  else
    match namedSlot bs with
    | none => (refusedRange, s)
    | some i =>
      if (s.slot i).state ≠ .loaded then (refusedState, s)
      else (.carriedOut (beBytes 1 i.code ++ beBytes 2 (s.slot i).tag ++ beBytes 1 s.plan.lMax), s.startRun i)

/-! ### SWAP (R113, R114) -/

/-- The change repeat is above newest, or at or above L_max while newest is none (R113, check 4). -/
def State.changeAhead (s : State) (rc : Nat) : Bool := s.firstUnopened ≤ rc

/-- Stage slot `j` at `rc` against the RUNNING slot `i` (R114). -/
def State.stage (s : State) (i j : SlotId) (rc : Nat) : State :=
  let s := s.modSlot j fun x => { x with change := some rc, first := some rc }
  let s := s.flush rc
  let s := s.modSlot i fun x => if x.final = .unset then { x with final := x.cutAt rc } else x
  s.settle

/-- An indication byte for EMPTY and the final repeat (R191). -/
def Final.bytes : Final → Bytes
  | .unset => 0 :: beBytes 4 0
  | .known f => 0 :: beBytes 4 f
  | .empty => 1 :: beBytes 4 0

def runSwap (bs : Bytes) (s : State) : TaskResult :=
  let rc := field bs 0 4
  match s.runningSlot, s.staged with
  | some i, none =>
    let j := i.other
    if (s.slot j).state ≠ .loaded then (refusedState, s)
    else if maxRepeat < rc then (refusedRange, s)
    else if (s.slot j).geometry.lanes ≠ (s.slot i).geometry.lanes ∨ (s.slot j).geometry.around ≠ (s.slot i).geometry.around then
      (refusedGeometry, s)
    else if s.changeAhead rc = false then (refusedPast, s)
    else
      let t := s.stage i j rc
      (.carriedOut (beBytes 1 j.code ++ beBytes 4 rc ++ (t.slot i).final.bytes), t)
  | _, _ => (refusedState, s)

/-! ### STOP and QUIT (R118, R119) -/

/-- The final repeat that STOP and QUIT set: newest, or EMPTY while newest is none or below the job's first repeat (R118). -/
def State.finalAtStop (s : State) (i : SlotId) : Final :=
  match s.window.newest with
  | none => .empty
  | some n => if (s.slot i).first.any (fun f => n < f) then .empty else .known n

/-- The RUNNING slot's final repeat is set and it becomes DRAINING (R118, R119). Set so it carries no exhaustion note (R52). -/
def State.endJob (s : State) (i : SlotId) : State :=
  s.modSlot i fun j => { j with final := s.finalAtStop i, note := .unset, state := .draining }

/-- A staged slot stays LOADED with the counters LDJB gave it; its event marks keep their values (R118 step 3). -/
def JobSlot.unstage (j : JobSlot) : JobSlot :=
  { j.restore { counters := (j.rules.counters j.geometry.lanes).map Counter.snap, drawExhausted := false } with
    change := none, first := none, final := .unset, note := .unset }

/-- A staged SWAP dies (R118, R119). -/
def State.killStaged (s : State) : State :=
  match s.staged with
  | some (j, _) => s.modSlot j JobSlot.unstage
  | none => s

/-- The RUNNING slot, if any, ends at newest, and a staged SWAP dies (R118, R119). -/
def State.endRunning (s : State) : State :=
  (match s.runningSlot with
    | some i => s.endJob i
    | none => s).killStaged

/-- What STOP and QUIT share: the flush, the end of the RUNNING job and of a staged SWAP, the retake, and a JOB_END that is due at once
(R118, R119, R122). -/
def State.stopNumbering (s : State) : State :=
  ((((s.flush s.firstUnopened).endRunning).retakeHeld).queueJobEnd .A).queueJobEnd .B

def runStop (_ : Bytes) (s : State) : TaskResult :=
  match s.runningSlot with
  | none => (refusedState, s)
  | some i => (.carriedOut (beBytes 1 i.code ++ (s.finalAtStop i).bytes), s.stopNumbering)

/-- Every AWAITING record closes ABORTED, in ascending repeat order (R99). -/
def State.abortAll (s : State) : State :=
  (s.awaiting.map Record.repeatIndex).foldl (fun t r => t.closeRecord r .aborted []) s

/-- QUIT (R119). A closure that handling has in progress was taken first: what is left of it enters before QUIT's own closures
(R99, R102, R132). -/
def runQuit (_ : Bytes) (s : State) : TaskResult :=
  if s.inRun then (.carriedOut (beBytes 1 s.awaiting.length), s.finishClosing.abortAll.stopNumbering) else (refusedState, s)

/-! ### ADMT (R175) -/

/-- The port becomes ACTIVE with cursor `c` and its new-run bit set (R175). -/
def Port.admitted (c : Nat) (x : Port) : Port := { x with state := .active, cursor := c, newRun := true, slot := .none }

def runAdmt (bs : Bytes) (s : State) : TaskResult :=
  let n := (byteAt bs 0).toNat
  let c := field bs 1 4
  if 5 < n then (refusedRange, s)
  else
    let p : PortId := Fin.ofNat 6 n
    match (s.port p).state, s.plan.plyOf p with
    | .lost, some k =>
      (.carriedOut (beBytes 1 n ++ beBytes 1 k ++ beBytes 4 c), (s.modPort p (Port.admitted c)).restartTimer p)
    | _, _ => (refusedState, s)

end Sys2Proof.Machine
end

