-- ==== Sys2Proof/Machine/AccountTasks.lean ====
section
/-! DEFINITION. What the tasks of the account buffer, the tallies and the void list do (chapters 7 and 8), and RSET: TALY, NEXT, RLSE,
PVOD, VLRD, VLCL, RSET. -/

namespace Sys2Proof.Machine

/-! ### TALY (R157) -/

/-- TALY's results for slot `i` (R157, R191). -/
def State.tallyResults (s : State) (i : SlotId) : Bytes :=
  let j := s.slot i
  let v := s.receiver
  let final : Nat := match j.final with
    | .known f => f
    | _ => 0
  beBytes 1 i.code ++ beBytes 1 j.state.code ++ beBytes 2 j.tag
    ++ [flagBit j.first.isNone 0 ||| flagBit (j.final = .unset) 1 ||| flagBit (j.final = .empty) 2 ||| flagBit v.lastVerdict.isNone 3]
    ++ beBytes 4 (j.first.getD 0) ++ beBytes 4 final ++ j.tally.bytes ++ beBytes 4 (s.openCount i)
    ++ beBytes 4 (v.lastVerdict.getD 0) ++ beBytes 4 v.checksumFails ++ beBytes 4 v.framingFails ++ beBytes 4 v.duplicates
    ++ beBytes 4 v.shapeMismatches ++ beBytes 4 v.noRecords

def runTaly (bs : Bytes) (s : State) : TaskResult :=
  match namedSlot bs with
  | none => (refusedRange, s)
  | some i => (.carriedOut (s.tallyResults i), s)

/-! ### NEXT and RLSE (R152, R153) -/

/-- The oldest unreleased record, whole. -/
def Account.oldestRecord (a : Account) : Bytes := a.ring.readBytes a.ro a.oldestSize

def runNext (_ : Bytes) (s : State) : TaskResult :=
  let a := s.account
  if a.count = 0 then (refusedEmpty, s)
  else (.carriedOut (beBytes 2 a.oldestSize ++ beBytes 2 a.count ++ beBytes 2 a.used ++ a.oldestRecord), s)

/-- The ring with its oldest record released (R153). An Ro that reaches 8192 becomes 0 (log 25). -/
def Account.released (a : Account) : Account :=
  let ro := a.ro + a.oldestSize
  { a with
    ro := if a.tail = some ro then 0 else ro % ringSize
    tail := if a.tail = some ro then none else a.tail
    count := a.count - 1 }

/-- The release and the appends it allows (R153). -/
def State.release (s : State) : State :=
  let s := { s with account := s.account.released }.checkBufferHigh
  appendAll (s.account.queue.length + 8) s.markDue

def runRlse (_ : Bytes) (s : State) : TaskResult :=
  if s.account.count = 0 then (refusedEmpty, s)
  else
    let t := s.release
    (.carriedOut (beBytes 2 t.account.count ++ beBytes 2 t.account.used), t)

/-! ### PVOD (R158, R159) -/

/-- The slot holds the tag for PVOD: it is not FREE (R158, check 2). -/
def JobSlot.holdsTag (j : JobSlot) (tag : Nat) : Bool := j.state ≠ .free && j.tag = tag

/-- The rank of a slot's state when both slots hold the tag (R158). -/
def SlotState.rank : SlotState → Nat
  | .running => 0
  | .draining => 1
  | .ended => 2
  | .loaded => 3
  | .free => 4

/-- The slot a post-void is made against (R158). -/
def State.slotOfTag (s : State) (tag : Nat) : Option SlotId :=
  if tag = 0 then none
  else if s.slotA.holdsTag tag then
    (if s.slotB.holdsTag tag ∧ s.slotB.state.rank < s.slotA.state.rank then some .B else some .A)
  else if s.slotB.holdsTag tag then some .B
  else none

/-- A value of `lo` to `hi` stands at a numbered position of an AWAITING record (R158, check 4). -/
def State.openIn (s : State) (lo hi : Nat) : Bool :=
  s.awaiting.any fun x => x.positions.any fun p => p.entry.value.any fun v => lo ≤ v && v ≤ hi

/-- A count moves from delivered to post_voided (R159). -/
def Tally.postVoid (t : Tally) (n : Nat) : Tally :=
  { t with delivered := t.delivered - n, postVoided := satAdd max32 t.postVoided n }

/-- The effects of a PVOD that is taken (R159): the tally, the range, the item, and an append attempt when it is the only one waiting. -/
def State.postVoid (s : State) (i : SlotId) (tag lo hi operator : Nat) : State :=
  let t := ((s.modSlot i fun j => { j with tally := j.tally.postVoid (hi - lo + 1) }).insertRange lo hi).enqueue
    (.postVoid (postVoidBytes tag lo hi operator))
  if s.account.queue.isEmpty then t.appendAttempt else t

def runPvod (bs : Bytes) (s : State) : TaskResult :=
  let tag := field bs 0 2
  let lo := field bs 2 5
  let hi := field bs 7 5
  let n := hi - lo + 1
  if hi < lo ∨ maxRaw < hi then (refusedRange, s)
  else
    match s.slotOfTag tag with
    | none => (refusedTag, s)
    | some i =>
      if (s.slot i).tally.delivered < n then (refusedUnderflow, s)
      else if s.openIn lo hi then (refusedOpen, s)
      else if 8 ≤ s.account.smallItems then (refusedQueue, s)
      else
        let t := s.postVoid i tag lo hi (field bs 12 2)
        (.carriedOut (beBytes 1 i.code ++ beBytes 4 n ++ beBytes 4 (t.slot i).tally.delivered ++ beBytes 4 (t.slot i).tally.postVoided), t)

/-! ### VLRD and VLCL (R137, R138) -/

/-- Up to ten ranges from index `i` (R137). -/
def VoidList.page (v : VoidList) (i : Nat) : List (Nat × Nat) := (v.ranges.drop i).take 10

def runVlrd (bs : Bytes) (s : State) : TaskResult :=
  let i := field bs 0 2
  let v := s.voids
  if 255 < i then (refusedRange, s)
  else
    (.carriedOut (beBytes 2 v.ranges.length ++ [flagBit v.incomplete 0] ++ beBytes 4 v.dropped ++ beBytes 2 v.changes ++ beBytes 2 i
      ++ beBytes 1 (v.page i).length ++ (v.page i).flatMap fun x => beBytes 5 x.1 ++ beBytes 5 x.2), s)

/-- The slot holds a MAKEUP job that is LOADED, RUNNING or DRAINING (R138). -/
def JobSlot.makeupPresent (j : JobSlot) : Bool := j.source = .makeup && j.state.blocksTag

def runVlcl (_ : Bytes) (s : State) : TaskResult :=
  if s.slotA.makeupPresent || s.slotB.makeupPresent then (refusedState, s)
  else
    (.carriedOut (beBytes 2 s.voids.ranges.length ++ beBytes 4 s.voids.dropped),
      { s with voids := { s.voids with ranges := [], incomplete := false, dropped := 0 }.bump })

/-! ### RSET (R189) -/

/-- A port after RSET (R164): a transaction being clocked goes on with the bytes chosen for it. -/
def Port.softReset (x : Port) : Port :=
  { Port.reset with fetch := x.fetch, selected := x.selected, mode3 := x.mode3, out := x.out }

/-- Every block takes its RSET values (R189): the plan, the void list, the ring with its marks, and MASK are kept. -/
def State.softReset (s : State) : State :=
  { s with
    slotA := .cleared
    slotB := .cleared
    queue := .empty
    window := .empty
    receiver := .reset
    account := { s.account with queue := [], full := false, due := false }
    ports := s.ports.map Port.softReset
    sup := { s.sup with events := 0, param := List.replicate 64 0, onPage1 := false, sequence := 0, snapshot := none } }

def runRset (_ : Bytes) (s : State) : TaskResult := if s.inRun then (refusedState, s) else (.carriedOut [], s.softReset)

end Sys2Proof.Machine
end

