-- ==== Sys2Proof/Machine/Supervisor.lean ====
section
/-! DEFINITION. The supervisor port (chapter 10): the task rows, UNKNOWN_TASK_WORD, TASK_END, TASK_OVERRUN, MASK_WRITE, CLEAR_WRITE,
STATE_READ and REGISTER_WRITE. -/

namespace Sys2Proof.Machine

/-! ### Tasks (R180, R181, R183) -/

/-- A four-byte write of `word` to TASK: while a task executes it is discarded (R183); else the task starts, with a copy of PARAM, TASK
reading the word, and its effects still to be taken (R180, log 8). -/
def State.startTask (s : State) (word : BitVec 32) : State :=
  if s.sup.running.isSome then s.raise .taskOverrun
  else { s with sup := { s.sup with task := word, running := some { word, params := s.sup.param, outcome := none } } }

/-- The effects of the task that `run` carries out are taken, from the parameter block `params`; its outcome waits for TASK_END (R180,
R181). -/
def State.carryOut (s : State) (word : BitVec 32) (params : Bytes) (run : Bytes → State → TaskResult) : State :=
  let r := run params s
  { r.2 with sup := { r.2.sup with task := word, running := some { word, params, outcome := some r.1 } } }

/-- A task row (log 8). With no task executing, the word is written and the effects follow at once. When the task executes with its
effects still to be taken, they are taken now, from its copy of PARAM. Any other write meets an executing task (R183). -/
def State.taskRow (s : State) (word : BitVec 32) (run : Bytes → State → TaskResult) : State :=
  match s.sup.running with
  | none => s.carryOut word s.sup.param run
  | some t => if t.word = word ∧ t.outcome = none then s.carryOut word t.params run else s.raise .taskOverrun

/-- What a word makes the part do: one of the fourteen tasks, or nothing (R180). -/
def runWord (word : BitVec 32) : Bytes → State → TaskResult :=
  if word = wordPlan then runPlan
  else if word = wordLdjb then runLdjb
  else if word = wordStrt then runStrt
  else if word = wordSwap then runSwap
  else if word = wordStop then runStop
  else if word = wordQuit then runQuit
  else if word = wordAdmt then runAdmt
  else if word = wordTaly then runTaly
  else if word = wordNext then runNext
  else if word = wordRlse then runRlse
  else if word = wordPvod then runPvod
  else if word = wordVlrd then runVlrd
  else if word = wordVlcl then runVlcl
  else if word = wordRset then runRset
  else fun _ s => (.unrecognised, s)

def execPlan (s : State) : Host.Outcome State Fault Refusal := .next (s.taskRow wordPlan runPlan)
def execLdjb (s : State) : Host.Outcome State Fault Refusal := .next (s.taskRow wordLdjb runLdjb)
def execStrt (s : State) : Host.Outcome State Fault Refusal := .next (s.taskRow wordStrt runStrt)
def execSwap (s : State) : Host.Outcome State Fault Refusal := .next (s.taskRow wordSwap runSwap)
def execStop (s : State) : Host.Outcome State Fault Refusal := .next (s.taskRow wordStop runStop)
def execQuit (s : State) : Host.Outcome State Fault Refusal := .next (s.taskRow wordQuit runQuit)
def execAdmt (s : State) : Host.Outcome State Fault Refusal := .next (s.taskRow wordAdmt runAdmt)
def execTaly (s : State) : Host.Outcome State Fault Refusal := .next (s.taskRow wordTaly runTaly)
def execNext (s : State) : Host.Outcome State Fault Refusal := .next (s.taskRow wordNext runNext)
def execRlse (s : State) : Host.Outcome State Fault Refusal := .next (s.taskRow wordRlse runRlse)
def execPvod (s : State) : Host.Outcome State Fault Refusal := .next (s.taskRow wordPvod runPvod)
def execVlrd (s : State) : Host.Outcome State Fault Refusal := .next (s.taskRow wordVlrd runVlrd)
def execVlcl (s : State) : Host.Outcome State Fault Refusal := .next (s.taskRow wordVlcl runVlcl)
def execRset (s : State) : Host.Outcome State Fault Refusal := .next (s.taskRow wordRset runRset)

/-- UNKNOWN_TASK_WORD (R180, R181). A word that does name a task is that task's (log 27). -/
def execUnknownTaskWord (word : BitVec 32) (s : State) : Host.Outcome State Fault Refusal :=
  .next (s.taskRow word (runWord word))

/-- TASK_OVERRUN (R183). With no task executing the write arrived after the end, and starts its task (R183, R180). -/
def execTaskOverrun (word : BitVec 32) (s : State) : Host.Outcome State Fault Refusal := .next (s.startTask word)

/-- What TASK reads after an outcome (R181). -/
def TaskOutcome.word : TaskOutcome → BitVec 32
  | .carriedOut _ => 0
  | .refusal _ => wordFail
  | .unrecognised => wordUnkn

/-- What RESULT holds after an outcome: 160 bytes (R181). -/
def TaskOutcome.block : TaskOutcome → Bytes
  | .carriedOut bs => padTo 160 bs
  | .refusal code => padTo 160 (beBytes 1 code)
  | .unrecognised => padTo 160 []

/-- The executing task's effects are taken, when they have not been. -/
def State.takeEffects (s : State) : State :=
  match s.sup.running with
  | some t => if t.outcome = none then s.carryOut t.word t.params (runWord t.word) else s
  | none => s

/-- TASK and RESULT take the outcome of the executing task together, then TASK_DONE is raised (R181). -/
def State.publish (s : State) : State :=
  match s.sup.running.bind TaskRun.outcome with
  | some o => { s with sup := { s.sup with task := o.word, result := o.block, running := none } }.raise .taskDone
  | none => s

/-- TASK_END (R181): a task ends with its effects taken and its outcome published. -/
def execTaskEnd (s : State) : Host.Outcome State Fault Refusal := .next s.takeEffects.publish

/-! ### MASK and CLEAR (R185, R186) -/

/-- A four-byte write to MASK replaces the twelve enables; the places beyond the twelfth are ignored (R184, R186). -/
def State.writeMask (s : State) (value : BitVec 32) : State := { s with sup := { s.sup with mask := value.setWidth 12 } }

/-- A four-byte write to CLEAR clears every flag whose place is 1 (R185). -/
def State.writeClear (s : State) (value : BitVec 32) : State :=
  { s with sup := { s.sup with events := s.sup.events &&& ~~~(value.setWidth 12) } }

def execMaskWrite (value : BitVec 32) (s : State) : Host.Outcome State Fault Refusal := .next (s.writeMask value)

def execClearWrite (value : BitVec 32) (s : State) : Host.Outcome State Fault Refusal := .next (s.writeClear value)

/-! ### The state summary (R187, R188) -/

def State.drafts (s : State) : List Draft := s.queue.drafts

/-- The number of requests held (R82). -/
def State.heldRequests (s : State) : Nat := allPorts.countP fun p => (s.port p).slot.code = 2

/-- A repeat index in STATE: 0xFFFFFFFF when none (R191). -/
def stateRepeat (r : Option Nat) : Bytes := beBytes 4 (r.getD max32)

/-- Byte 15 of page 0: oldest as its distance below newest, 0xFF when none (R188). -/
def State.oldestDistance (s : State) : Byte :=
  match s.oldest, s.window.newest with
  | some o, some n => BitVec.ofNat 8 (n - o)
  | _, _ => 0xFF

/-- Page 0 of a snapshot with sequence number `seq` (R191). -/
def State.page0 (s : State) (seq : Nat) : Bytes :=
  [BitVec.ofNat 8 seq,
    BitVec.ofNat 8 (s.slotA.state.code * 16 + s.slotB.state.code) ||| flagBit s.slotA.change.isSome 7 ||| flagBit s.slotB.change.isSome 3]
    ++ beBytes 1 s.occupancy ++ beBytes 2 s.slotA.tag ++ beBytes 2 s.slotB.tag
    ++ stateRepeat (s.staged.map Prod.snd) ++ stateRepeat s.window.newest ++ [s.oldestDistance]

/-- Page 1 of a snapshot (R191). -/
def State.page1 (s : State) (seq : Nat) : Bytes :=
  let st (p : PortId) : Nat := (s.port p).state.code
  padTo 16 ([BitVec.ofNat 8 (128 + seq)] ++ beBytes 1 s.heldRequests
    ++ [BitVec.ofNat 8 s.drafts.length ||| flagBit s.queue.fill.isSome 7]
    ++ beBytes 2 s.voids.ranges.length ++ [flagBit s.voids.incomplete 0 ||| flagBit s.account.full 1]
    ++ beBytes 2 s.account.count ++ beBytes 2 s.account.used
    ++ beBytes 1 (s.account.queue.length - s.account.smallItems) ++ beBytes 1 s.account.smallItems
    ++ [BitVec.ofNat 8 (st 0 * 64 + st 1 * 16 + st 2 * 4 + st 3), BitVec.ofNat 8 (st 4 * 64 + st 5 * 16)])

/-- The snapshot a read at pointer 0 takes (R187). -/
def State.takeSnapshot (s : State) : State :=
  let seq := (s.sup.sequence + 1) % 128
  { s with sup := { s.sup with sequence := seq, snapshot := some { page0 := s.page0 seq, page1 := s.page1 seq } } }

/-- The page a read of STATE sends: page 1 of the snapshot held, or page 0 of one just taken. -/
def State.statePage (s : State) : Bytes :=
  match s.sup.snapshot with
  | some x => if s.sup.onPage1 then x.page1 else x.page0
  | none => List.replicate 16 0

/-- What a read sends and the supervisor acknowledges: the size, then bytes of the slot, then zeros (R177). -/
def sentBytes (image : Bytes) (acked : Nat) : Bytes :=
  BitVec.ofNat 8 image.length :: (image ++ List.replicate (acked - image.length) 0).take acked

/-- STATE_READ (R187), whole: the pointer moves before any RSET taken after the read's repeated start (log 36). -/
def execStateRead (acked : Nat) (s : State) : Host.Outcome State Fault Refusal :=
  let s := if s.sup.onPage1 then s else s.takeSnapshot
  .next { s with sup := { s.sup with
    out := sentBytes s.statePage acked
    onPage1 := if 16 ≤ acked then !s.sup.onPage1 else s.sup.onPage1 } }

/-! ### Register writes and reads (R177, R179) -/

/-- The four bytes of a write as a word, the first most significant. -/
def wordOf (bs : Bytes) : BitVec 32 := BitVec.ofNat 32 (beNat bs)

def State.setAck (s : State) (slot : Bool) (data : Nat) : State := { s with sup := { s.sup with ack := { slot, data } } }

/-- A write that needs four data bytes: with fewer it is discarded (R179). -/
def State.fourByteWrite (s : State) (data : Bytes) (k : State → BitVec 32 → State) : State :=
  if data.length = 4 then k (s.setAck true 4) (wordOf data) else s.setAck true data.length

/-- A write to PARAM stores its bytes from offset 0 (R179). -/
def State.writeParam (s : State) (data : Bytes) : State :=
  { s with sup := { s.sup with param := data ++ s.sup.param.drop data.length } }

/-- REGISTER_WRITE (R177, R179). -/
def execRegisterWrite (slot count : Byte) (data : Bytes) (s : State) : Host.Outcome State Fault Refusal :=
  .next (
    if slot = slotParam then (s.setAck true (deliveredBytes 64 count data).length).writeParam (deliveredBytes 64 count data)
    else if slot = slotTask then s.fourByteWrite (deliveredBytes 4 count data) State.startTask
    else if slot = slotMask then s.fourByteWrite (deliveredBytes 4 count data) State.writeMask
    else if slot = slotClear then s.fourByteWrite (deliveredBytes 4 count data) State.writeClear
    else if slot = slotResult ∨ slot = slotEvents ∨ slot = slotState then s.setAck true 0
    else s.setAck false 0)

/-- A flags slot's four bytes (R191). -/
def flagBytes (flags : BitVec 12) : Bytes := beBytes 4 flags.toNat

/-- What a read transaction of a slot would send after the size byte; none for a slot number that is not acknowledged (R177). STATE is
read by STATE_READ, which moves its pointer; here it shows the page that read would send. Reading the other slots changes nothing. -/
def State.slotImage (s : State) (slot : Byte) : Option Bytes :=
  if slot = slotTask then some (beBytes 4 s.sup.task.toNat)
  else if slot = slotParam then some s.sup.param
  else if slot = slotResult then some s.sup.result
  else if slot = slotEvents then some (flagBytes s.sup.events)
  else if slot = slotMask then some (flagBytes s.sup.mask)
  else if slot = slotClear then some (List.replicate 4 0)
  else if slot = slotState then some (if s.sup.onPage1 then s else s.takeSnapshot).statePage
  else none

/-- The bytes of a read of which `acked` bytes after the size byte are acknowledged (R177). -/
def State.busRead (s : State) (slot : Byte) (acked : Nat) : Option Bytes := (s.slotImage slot).map fun image => sentBytes image acked

end Sys2Proof.Machine
end

