-- ==== Sys2Proof/Machine/WindowSteps.lean ====
section
/-! DEFINITION. The repeat window and the account buffer at work: RECORD_OPEN, ANSWER_READY, APPEND. -/

namespace Sys2Proof.Machine

/-- RECORD_OPEN (R63). -/
def execRecordOpen (s : State) : Host.Outcome State Fault Refusal := .next s.openNext

def Answer.isLate : Answer → Bool
  | .late _ => true
  | _ => false

/-- An answer made ready at a port (R70, R170); a LATE answer is counted (R74). -/
def Port.answerReady (x : Port) (q : Request) (a : Answer) : Port :=
  { x with slot := .ready q a, late := if a.isLate then satAdd max16 x.late 1 else x.late }

/-- ANSWER_READY (R70): the answer being built at port `p` is ready. -/
def execAnswerReady (p : PortId) (s : State) : Host.Outcome State Fault Refusal :=
  match (s.port p).slot with
  | .preparing q (.building a) => .next (s.modPort p fun x => x.answerReady q a)
  | .held q (.building a) => .next (s.modPort p fun x => x.answerReady q a)
  | _ => .next s

/-- APPEND (R148): the attempt that is due. -/
def execAppend (s : State) : Host.Outcome State Fault Refusal := .next (if s.account.due then s.appendAttempt else s)

end Sys2Proof.Machine
end

