-- ==== Sys2Proof/Machine/Dispatch.lean ====
section
/-! DEFINITION. One arm for each command: its meaning. -/

namespace Sys2Proof.Machine

/-- The effect of a command on everything but the queue of commands. -/
def exec (i : Instr) (s : State) : Host.Outcome State Fault Refusal :=
  match i with
  | .powerOnReset adr1 adr0 => Sys2Proof.Machine.execPowerOnReset adr1 adr0 s
  | .runRise => Sys2Proof.Machine.execRunRise s
  | .runFall => Sys2Proof.Machine.execRunFall s
  | .plan => Sys2Proof.Machine.execPlan s
  | .ldjb => Sys2Proof.Machine.execLdjb s
  | .strt => Sys2Proof.Machine.execStrt s
  | .swap => Sys2Proof.Machine.execSwap s
  | .stop => Sys2Proof.Machine.execStop s
  | .quit => Sys2Proof.Machine.execQuit s
  | .admt => Sys2Proof.Machine.execAdmt s
  | .taly => Sys2Proof.Machine.execTaly s
  | .next => Sys2Proof.Machine.execNext s
  | .rlse => Sys2Proof.Machine.execRlse s
  | .pvod => Sys2Proof.Machine.execPvod s
  | .vlrd => Sys2Proof.Machine.execVlrd s
  | .vlcl => Sys2Proof.Machine.execVlcl s
  | .rset => Sys2Proof.Machine.execRset s
  | .unknownTaskWord word => Sys2Proof.Machine.execUnknownTaskWord word s
  | .taskEnd => Sys2Proof.Machine.execTaskEnd s
  | .taskOverrun word => Sys2Proof.Machine.execTaskOverrun word s
  | .maskWrite value => Sys2Proof.Machine.execMaskWrite value s
  | .clearWrite value => Sys2Proof.Machine.execClearWrite value s
  | .stateRead acked => Sys2Proof.Machine.execStateRead acked s
  | .registerWrite slot count data => Sys2Proof.Machine.execRegisterWrite slot count data s
  | .probe port moment => Sys2Proof.Machine.execProbe port moment s
  | .request port moment => Sys2Proof.Machine.execRequest port moment s
  | .waste port moment => Sys2Proof.Machine.execWaste port moment s
  | .misfire port moment => Sys2Proof.Machine.execMisfire port moment s
  | .fetch port moment => Sys2Proof.Machine.execFetch port moment s
  | .fetchComplete port => Sys2Proof.Machine.execFetchComplete port s
  | .fetchEndedShort port => Sys2Proof.Machine.execFetchEndedShort port s
  | .unknownCommandFrame port command moment => Sys2Proof.Machine.execUnknownCommandFrame port command moment s
  | .silenceExpiry port => Sys2Proof.Machine.execSilenceExpiry port s
  | .recordOpen => Sys2Proof.Machine.execRecordOpen s
  | .answerReady port => Sys2Proof.Machine.execAnswerReady port s
  | .take => Sys2Proof.Machine.execTake s
  | .makeupDraw lookups => Sys2Proof.Machine.execMakeupDraw s lookups
  | .fillComplete => Sys2Proof.Machine.execFillComplete s
  | .readerByteReceived value stopHigh => Sys2Proof.Machine.execReaderByteReceived value stopHigh s
  | .gapTimeout => Sys2Proof.Machine.execGapTimeout s
  | .assemblerGapDiscard => Sys2Proof.Machine.execAssemblerGapDiscard s
  | .assemblerTakeByte => Sys2Proof.Machine.execAssemblerTakeByte s
  | .closeUnverified inserts => Sys2Proof.Machine.execCloseUnverified s inserts
  | .frameVerdict inserts => Sys2Proof.Machine.execFrameVerdict s inserts
  | .append => Sys2Proof.Machine.execAppend s
  | .readerStartBit lowAtMiddle => Sys2Proof.Machine.execReaderStartBit lowAtMiddle s
  | .readerLineReturnsHigh => Sys2Proof.Machine.execReaderLineReturnsHigh s

end Sys2Proof.Machine
end

