-- ==== Sys2Proof/Safety.lean ====
section
/-! DEFINITION. What a legal state of the FN6 is, block by block: the standing statements of the manual that no command may break. -/

namespace Sys2Proof.Machine

/-- The plan table: at most six plies on ports of their own, leads to 44, a divisor, thresholds in their ranges (R2, R5, R6). -/
def Plan.ok (p : Plan) : Prop :=
  p.plies.length ≤ 6 ∧ (p.plies.map PlyEntry.port).Nodup ∧ (∀ e ∈ p.plies, e.lead ≤ 44) ∧ p.silence ≤ max16 ∧ p.divisor ≠ 0 ∧
  p.divisor ≤ max16 ∧ 1 ≤ p.winHigh ∧ p.winHigh ≤ 48 ∧ 1 ≤ p.bufHigh ∧ p.bufHigh ≤ 32

/-- The void list: ranges ascend and are neither overlapping nor adjacent, at most 256 of them (R127), the flag is set exactly while
the dropped count is not 0 (R131, R136), the counts keep their widths. -/
def VoidList.ok (v : VoidList) : Prop :=
  rangesWf v.ranges ∧ v.ranges.length ≤ maxRanges ∧ (v.incomplete = true ↔ v.dropped ≠ 0) ∧ v.dropped ≤ max32 ∧ v.changes ≤ max16

/-- The job slots: at most one RUNNING, a tag exactly in a slot that is not FREE (R104), a staged slot LOADED beside the RUNNING one with
its first repeat at the change repeat (R105, R114), and at most one JOB_END waiting for a slot, which is DRAINING (R122). -/
def State.slotsOk (s : State) : Prop :=
  ¬ (s.slotA.state = .running ∧ s.slotB.state = .running) ∧
  ∀ i : SlotId,
    ((s.slot i).state = .free ↔ (s.slot i).tag = 0) ∧
    (∀ rc, (s.slot i).change = some rc →
      (s.slot i).state = .loaded ∧ (s.slot i).first = some rc ∧ (s.slot i.other).state = .running) ∧
    s.account.queue.countP (Item.isJobEndOf i) ≤ 1 ∧
    (s.account.queue.any (Item.isJobEndOf i) = true → (s.slot i).state = .draining)

/-- The window: records in ascending repeat index (R57), each below oldest + 48 (R58), none above newest, none above the largest
repeat index (R55). -/
def Window.ok (w : Window) : Prop :=
  w.records.Pairwise (fun x y => x.repeatIndex < y.repeatIndex) ∧
  ∀ x ∈ w.records, (∀ y ∈ w.records, y.repeatIndex < x.repeatIndex + windowSpan) ∧
    w.newest.any (fun n => x.repeatIndex ≤ n) = true ∧ x.repeatIndex ≤ maxRepeat

/-- The silence timers: each runs exactly while the conditions of R173 hold, with time remaining and at most the full limit. -/
def State.timersOk (s : State) : Prop :=
  ∀ p : PortId,
    ((s.port p).timer.isSome = true ↔
      s.run = true ∧ (s.port p).state = .active ∧ s.inRun = true ∧ s.plan.silence ≠ 0) ∧
    ∀ n, (s.port p).timer = some n → 1 ≤ n ∧ n ≤ s.plan.silence * 10

/-- The frame in progress agrees with the assembler's state: how much of it has been taken (R88). -/
def Frame.ok (asm : AsmState) (f : Frame) : Prop :=
  f.index < 256 ^ f.indexBytes ∧ f.codes.length ≤ f.count ∧ f.count < 256 ∧
    match asm with
    | .hunt => False
    | .count => f.indexBytes = 0 ∧ f.codes = []
    | .index => f.indexBytes < 4 ∧ f.codes = []
    | .codes => f.indexBytes = 4 ∧ f.codes.length < f.count
    | .check => f.indexBytes = 4 ∧ f.codes.length = f.count
    | .handling => f.indexBytes = 4 ∧ f.codes.length = f.count

/-- The verdict receiver: at most 32 bytes held (R86), a frame in progress exactly outside HUNT, the gap mark and the timing of the gap
never together (R87), the counts within their widths (R83). -/
def Receiver.ok (v : Receiver) : Prop :=
  v.fifo.length ≤ fifoDepth ∧ (v.asm = .hunt ↔ v.frame = none) ∧ (∀ f, v.frame = some f → f.ok v.asm) ∧
  (v.gapMark = true → v.gapTicks = none) ∧ (∀ n, v.gapTicks = some n → n ≤ 2) ∧
  (∀ g, v.line = .receiving g → v.gapTicks = none ∧ v.gapMark = false) ∧ (∀ r, v.lastVerdict = some r → r ≤ max32) ∧
  v.checksumFails ≤ max32 ∧ v.framingFails ≤ max32 ∧ v.duplicates ≤ max32 ∧ v.shapeMismatches ≤ max32 ∧ v.noRecords ≤ max32

/-- The request slot holds nothing the window works on. -/
def ReqSlot.settled : ReqSlot → Bool
  | .none => true
  | .ready _ _ => true
  | _ => false

/-- The station ports: a port that is not CLOSED is the port of a plan ply (R164, R165), only an ACTIVE port has work with the window
(R165, R170) or a timer (R173), and the cursor and the counters keep their widths (R164, R176). -/
def State.portsOk (s : State) : Prop :=
  ∀ p : PortId,
    ((s.port p).state ≠ .closed → (s.port p).ply = s.plan.plyOf p ∧ (s.port p).ply.isSome = true) ∧
    ((s.port p).state ≠ .active → (s.port p).slot.settled = true ∧ (s.port p).timer = none) ∧
    (s.port p).cursor ≤ max32 ∧ (s.port p).late ≤ max16 ∧ (s.port p).order ≤ max16 ∧ (s.port p).rejected ≤ max16 ∧
    (s.port p).held ≤ max16

/-- The supervisor port: slot sizes (R177), the sequence number and the snapshot (R187), and what TASK reads while no task executes
(R181). -/
def Supervisor.ok (u : Supervisor) : Prop :=
  u.param.length = 64 ∧ u.result.length = 160 ∧ u.sequence < 128 ∧
  (∀ x, u.snapshot = some x → x.page0.length = 16 ∧ x.page1.length = 16) ∧ (u.onPage1 = true → u.snapshot.isSome = true) ∧
  (u.running = none → u.task = 0 ∨ u.task = wordFail ∨ u.task = wordUnkn)

/-- The draft queue holds at most four drafts, three while a fill is in flight (R43, R45). -/
def DraftQueue.ok (q : DraftQueue) : Prop := q.drafts.length ≤ maxDrafts ∧ (q.fill.isSome = true → q.drafts.length < maxDrafts)

/-- No job, fill, draft or record has more than 16 positions. -/
def State.sizesOk (s : State) : Prop :=
  (∀ i : SlotId, (s.slot i).positions ≤ 16) ∧ (∀ f, s.queue.fill = some f → f.entries.length ≤ 16) ∧
  (∀ d ∈ s.queue.drafts, d.entries.length ≤ 16) ∧ ∀ x ∈ s.window.records, x.positions.length ≤ 16

/-- The size of a small item is its record's; a REPEAT item has its record's size when it is appended (R143). -/
def Item.sizeOk : Item → Prop
  | .repeatItem _ => True
  | .jobStart _ bs => bs.length = 32
  | .jobEnd _ bs => bs.length = 52
  | .postVoid bs => bs.length = 24

/-- The account buffer: the ring's offsets lie in it and its bytes are in canonical form (R146), every small item has its size (R143),
and while items wait either an attempt is due or the full mark is set (R148, R150). -/
def Account.ok (a : Account) : Prop :=
  Memory.wf a.ring ∧ a.wo < ringSize ∧ a.ro < ringSize ∧ (∀ t, a.tail = some t → t < ringSize) ∧ (∀ it ∈ a.queue, it.sizeOk) ∧
  (a.queue ≠ [] → a.due = true ∨ a.full = true) ∧ (a.full = true → a.queue ≠ [])

/-- Every tally counter keeps its width (R104). -/
def Tally.ok (t : Tally) : Prop :=
  t.repeatsOpened ≤ max32 ∧ t.issued ≤ max32 ∧ t.delivered ≤ max32 ∧ t.voidStation ≤ max32 ∧ t.voidReader ≤ max32 ∧
  t.voidUnverified ≤ max32 ∧ t.voidAborted ≤ max32 ∧ t.postVoided ≤ max32 ∧ t.blank ≤ max32 ∧ t.skipped ≤ max32

/-- The repeats of closed records whose account item is not in the ring: the closure in progress, then the REPEAT items that wait (R102, R144). -/
def State.unappended (s : State) : List Nat :=
  (s.window.closing.map Closing.repeatIndex).toList ++
    s.account.queue.filterMap fun it => match it with | .repeatItem r => some r | _ => none

/-- The books of the run agree. The drafts and the fill after them follow the draft base, each for the slot that owns its repeat (R42, R43, R45); the
RUNNING slot's first repeat is not above the lowest repeat that may still open (R111, R116); every record's slot is RUNNING or DRAINING, and a JOB_END
waits only for a slot with no record (R122, R123); a closure in progress and every REPEAT item that waits are of records of their own that have
closed (R80, R102). -/
def State.booksOk (s : State) : Prop :=
  (∀ k d, s.queue.drafts[k]? = some d → ∃ b, s.draftBase = some b ∧ d.repeatIndex = b + k ∧ s.ownerOf d.repeatIndex = some d.slot) ∧
  (∀ f, s.queue.fill = some f →
    ∃ b, s.draftBase = some b ∧ f.target = b + s.queue.drafts.length ∧ s.ownerOf f.target = some f.slot) ∧
  (∀ i, (s.slot i).state = .running → ∃ r, (s.slot i).first = some r ∧ r ≤ max s.firstUnopened (s.queue.passFloor.getD 0)) ∧
  (∀ x ∈ s.window.records, (s.slot x.slot).state.inRun = true ∧ s.account.queue.any (Item.isJobEndOf x.slot) = false) ∧
  s.unappended.Nodup ∧ ∀ r ∈ s.unappended, ∃ x ∈ s.window.records, x.repeatIndex = r ∧ x.closure ≠ .awaiting

/-- The balance of R156 for slot `i`: every number issued is counted once among the outcomes, or open, or moved by a post-void. -/
def State.balanced (s : State) (i : SlotId) : Prop :=
  let t := (s.slot i).tally
  (s.slot i).state ≠ .free →
    t.issued = t.delivered + t.voidStation + t.voidReader + t.voidUnverified + t.voidAborted + t.postVoided + s.openCount i

/-- No counter of the balance has reached its largest value (R156). -/
def Tally.unsaturated (t : Tally) : Prop :=
  t.issued < max32 ∧ t.delivered < max32 ∧ t.voidStation < max32 ∧ t.voidReader < max32 ∧ t.voidUnverified < max32 ∧ t.voidAborted < max32 ∧
  t.postVoided < max32

/-- A raw value of the job's domain (R17), at an ordinal within its span (R34). -/
def Rules.within (r : Rules) (v o : Nat) : Prop := v < 10 ^ r.width ∧ o ≤ r.span

/-- The values an entry list issues lie in the domain of the job's width (R34). -/
def Rules.issues (r : Rules) (es : List Entry) : Prop := ∀ e ∈ es, ∀ v, e.value = some v → v < 10 ^ r.width

/-- The numbering stays within its jobs (R34): the start and the end of the make-up window lie in the domain (R17, R18), each counter's ordinal within the
span and its next value in the domain, likewise in the before-states that a flush restores (R26); and so does every value issued to a draft, the fill
or a record, for the job of its slot. -/
def State.numbersOk (s : State) : Prop :=
  (∀ i : SlotId, let r := (s.slot i).rules
    r.start < 10 ^ r.width ∧ r.whi < 10 ^ r.width ∧ ∀ c ∈ (s.slot i).counters, r.within c.v c.o) ∧
  (∀ d ∈ s.queue.drafts, let r := (s.slot d.slot).rules
    r.issues d.entries ∧ ∀ c ∈ d.before.counters, r.within c.v c.o) ∧
  (∀ f, s.queue.fill = some f → let r := (s.slot f.slot).rules
    r.issues f.entries ∧ ∀ c ∈ f.before.counters, r.within c.v c.o) ∧
  ∀ x ∈ s.window.records, (s.slot x.slot).rules.issues (x.positions.map Position.entry)

/-- No value held by a make-up item is listed (R130); and what a draft or the fill of a MAKEUP slot holds, its drawn values, are the values it has
issued (R38, R41), so that they stay held when its record opens. -/
def State.drawnOk (s : State) : Prop :=
  (∀ d ∈ s.queue.drafts, (s.slot d.slot).source = .makeup → d.drawn = d.entries.filterMap Entry.value) ∧
  (∀ f, s.queue.fill = some f → (s.slot f.slot).source = .makeup → f.drawn = f.entries.filterMap Entry.value) ∧
  ∀ x ∈ s.heldValues, listed s.voids.ranges x = false

/-! ### The words that statements use -/

/-- `t` is `s` after `n` append attempts in turn, each of them due (R148, R153). -/
def State.appendsTo : Nat → State → State → Prop
  | 0, s, t => t = s
  | n + 1, s, t => s.account.due = true ∧ ∃ u, exec .append s = .next u ∧ State.appendsTo n u t

/-- The window may open its oldest draft (R49, R58, R64): it is for the draft base, the opening target is at or above that repeat, and the
repeat is below oldest + 48 or no record is held. -/
def State.mayOpen (s : State) : Prop :=
  ∃ d rest g, s.queue.drafts = d :: rest ∧ s.draftBase = some d.repeatIndex ∧ s.window.target = some g ∧ d.repeatIndex ≤ g ∧
    ∀ y, s.window.records.head? = some y → d.repeatIndex < y.repeatIndex + 48

/-- `t` is `s` after `n` openings in turn, each of a draft that is ready and fits (R63, R64). -/
def State.opensTo : Nat → State → State → Prop
  | 0, s, t => t = s
  | n + 1, s, t => s.mayOpen ∧ ∃ u, exec .recordOpen s = .next u ∧ State.opensTo n u t

/-- Of the values `xs` inserted one at a time into the list of `s`, one is dropped: no make-up item holds it, and at its turn it does not
become listed (R129, R131, R132). -/
def State.dropsInserting (s : State) (xs : List Nat) : Prop :=
  ∃ k x, xs[k]? = some x ∧ x ∉ s.heldValues ∧ listed (s.insertValues (xs.take (k + 1))).voids.ranges x = false

/-- A flush of `s` from repeat `q` drops one of the drawn values it returns: those of the drafts that go, then those of the fill (R50, R131). -/
def State.flushDrops (s : State) (q : Nat) : Prop :=
  let gone := s.queue.drafts.filter fun d => decide (q ≤ d.repeatIndex)
  let abandoned := s.queue.fill.filter fun f => decide (q ≤ f.target)
  ({ s with queue := { s.queue with
      drafts := s.queue.drafts.filter (fun d => decide (d.repeatIndex < q)),
      fill := s.queue.fill.filter (fun f => decide (f.target < q)) } } : State).dropsInserting
    (gone.flatMap Draft.drawn ++ (abandoned.map Fill.drawn).getD [])

/-- From `s` to `t` the event flags stand but for VOID_LIST_INCOMPLETE, raised exactly when a value was dropped (R131, R135, R183). -/
def State.FlagsDrop (s t : State) (dropped : Prop) : Prop :=
  (dropped → t.sup.events = s.sup.events ||| 0x800) ∧ (¬ dropped → t.sup.events = s.sup.events)

/-- The word that a task row writes to TASK (R180), its letters in ASCII (log 39). -/
def taskWordOf : Instr → Option (BitVec 32)
  | .plan => some 0x504C414E
  | .ldjb => some 0x4C444A42
  | .strt => some 0x53545254
  | .swap => some 0x53574150
  | .stop => some 0x53544F50
  | .quit => some 0x51554954
  | .admt => some 0x41444D54
  | .taly => some 0x54414C59
  | .next => some 0x4E455854
  | .rlse => some 0x524C5345
  | .pvod => some 0x50564F44
  | .vlrd => some 0x564C5244
  | .vlcl => some 0x564C434C
  | .rset => some 0x52534554
  | .unknownTaskWord word => some word
  | _ => none

/-- A task row meets its task to carry out, with parameter block `bs`: no task executes and PARAM holds `bs`, or the row's own task
executes from the copy `bs` with its effects still to be taken (R180, log 8). -/
def State.takesTask (s : State) (i : Instr) (bs : Bytes) : Prop :=
  (s.sup.running = none ∧ s.sup.param = bs) ∨
    s.sup.running = some { word := (taskWordOf i).getD 0, params := bs, outcome := none }

/-- The state in which a task row has just been carried out from the parameter block `bs`: TASK reads its word, and its outcome waits for
TASK_END (R180, R181). -/
def State.taskTaken (s : State) (i : Instr) (bs : Bytes) (outcome : TaskOutcome) : State :=
  { s with sup := { s.sup with
    task := (taskWordOf i).getD 0
    running := some { word := (taskWordOf i).getD 0, params := bs, outcome := some outcome } } }

/-- The frame rows of a port, taken or selecting: every transaction but the ends of a FETCH. -/
def frameAt : Instr → Option PortId
  | .probe p _ => some p
  | .request p _ => some p
  | .waste p _ => some p
  | .misfire p _ => some p
  | .fetch p _ => some p
  | .unknownCommandFrame p _ _ => some p
  | _ => none

/-- The frame rows at their select: the port and the clock's idle level (R161). -/
def selectAt : Instr → Option (PortId × Bool)
  | .probe p (.select clockHigh) => some (p, clockHigh)
  | .request p (.select clockHigh) => some (p, clockHigh)
  | .waste p (.select clockHigh) => some (p, clockHigh)
  | .misfire p (.select clockHigh) => some (p, clockHigh)
  | .fetch p (.select clockHigh) => some (p, clockHigh)
  | .unknownCommandFrame p _ (.select clockHigh) => some (p, clockHigh)
  | _ => none

/-- The silence timer of a port restarted: the full limit while the conditions of R173 hold. -/
def State.freshTimer (s : State) (p : PortId) : Option Nat :=
  if s.run = true ∧ (s.port p).state = .active ∧ s.inRun = true ∧ s.plan.silence ≠ 0 then
    some (s.plan.silence * 10)
  else none

/-- Port `p` once a frame has been taken there (R161, R162): its status byte is the one chosen at the select that opened the transaction,
or, where no command has shown that select, the port's own just before, in mode 0 (log 9). -/
def State.takenPort (s : State) (p : PortId) : Port :=
  let x := s.port p
  { x with selected := false, mode3 := x.selected && x.mode3, out := if x.selected = true then x.out else [x.statusByte] }

/-- Port `p` once a frame has been accepted there (R163): the reject bit is clear and the timer has restarted. -/
def State.acceptedPort (s : State) (p : PortId) : Port := { s.takenPort p with reject := false, timer := s.freshTimer p }

/-! ### What follows at once from a change of newest, of the drafts or of ownership (R45, R64, R66, R67) -/

/-- `r` is below the first repeat of the run's window, or at or below newest: a request for it is answered by R61. -/
def State.reached (s : State) (r : Nat) : Prop := r < s.plan.lMax ∨ ∃ n, s.window.newest = some n ∧ r ≤ n

/-- `r` is below the pass floor. -/
def State.passed (s : State) (r : Nat) : Prop := ∃ p, s.queue.passFloor = some p ∧ r < p

/-- No repeat up to `r` remains to be opened: the draft base is above `r` or none. -/
def State.blankTo (s : State) (r : Nat) : Prop := ∀ b, s.draftBase = some b → r < b

/-- The opening stops at the span limit (R64): the draft base is at or above oldest + 48. -/
def State.spanStops (s : State) : Prop := ∃ b x, s.draftBase = some b ∧ s.window.records.head? = some x ∧ x.repeatIndex + 48 ≤ b

/-- In `s`, port `x` has become `y` by R66 and R67: a waiting request for a repeat at or below newest is answered by R61, one below the
pass floor LATE, one with no repeat left to open BLANK; one that waits and finds the opening stopped is held and counted; every other
port stands. -/
def State.SettlesPort (s : State) (x y : Port) : Prop :=
  (∀ q, x.slot = .preparing q .waiting →
    let r := q.repeatIndex
    let atOrBelow := ∃ n, s.window.newest = some n ∧ r ≤ n
    (atOrBelow → y = { x with slot := .preparing q (.building (s.classify r)) }) ∧
    (¬ atOrBelow → s.passed r → y = { x with slot := .preparing q (.building (.late r)) }) ∧
    (¬ atOrBelow → ¬ s.passed r → s.blankTo r → y = { x with slot := .preparing q (.building (.blank r)) }) ∧
    (¬ atOrBelow → ¬ s.passed r → ¬ s.blankTo r → s.spanStops →
      y = { x with slot := .held q .waiting, held := min (x.held + 1) 65535 }) ∧
    (¬ atOrBelow → ¬ s.passed r → ¬ s.blankTo r → ¬ s.spanStops → y = x)) ∧
  (∀ q, x.slot = .held q .waiting →
    let r := q.repeatIndex
    let atOrBelow := ∃ n, s.window.newest = some n ∧ r ≤ n
    (atOrBelow → y = { x with slot := .held q (.building (s.classify r)) }) ∧
    (¬ atOrBelow → s.passed r → y = { x with slot := .held q (.building (.late r)) }) ∧
    (¬ atOrBelow → ¬ s.passed r → s.blankTo r → y = { x with slot := .held q (.building (.blank r)) }) ∧
    (¬ atOrBelow → ¬ s.passed r → ¬ s.blankTo r → y = x)) ∧
  ((∀ q, x.slot ≠ .preparing q .waiting ∧ x.slot ≠ .held q .waiting) → y = x)

/-- What has followed in `t` from a change that left fill `fill`, opening target `target`, ports `ports` and event flags `events`: the next
fill where R45's conditions hold and none was in flight, the target kept unless the draft base is above it or none (R64), the ports by R66
and R67, and WINDOW_HELD exactly when some request became held. -/
def State.Settled (t : State) (fill : Option Fill) (target : Option Nat) (ports : PortId → Port) (events : BitVec 12) : Prop :=
  (∀ f, fill = some f → t.queue.fill = some f) ∧
  (fill = none → t.queue.fill = ({ t with queue := { t.queue with fill := none } } : State).nextFill) ∧
  (∀ g, target = some g → ¬ t.blankTo g → t.window.target = some g) ∧
  (∀ g, target = some g → t.blankTo g → t.window.target = none) ∧
  (target = none → t.window.target = none) ∧
  (∀ p, t.SettlesPort (ports p) (t.port p)) ∧
  ((∃ p q r, (ports p).slot = .preparing q .waiting ∧ (t.port p).slot = .held r .waiting) → t.sup.events = events ||| 0x008) ∧
  ((¬ ∃ p q r, (ports p).slot = .preparing q .waiting ∧ (t.port p).slot = .held r .waiting) → t.sup.events = events)

/-- In `s`, port `x` has become `y` by a retake (R68), with no pass called for: a held request is answered as if taken anew, stays held while
the opening stops at the span, and else waits PREPARING; every other port stands. -/
def State.RetakesPort (s : State) (x y : Port) : Prop :=
  (∀ q, x.slot = .held q .waiting →
    let r := q.repeatIndex
    (s.reached r → y = { x with slot := .held q (.building (s.classify r)) }) ∧
    (¬ s.reached r → s.passed r → y = { x with slot := .held q (.building (.late r)) }) ∧
    (¬ s.reached r → ¬ s.passed r → s.blankTo r → y = { x with slot := .held q (.building (.blank r)) }) ∧
    (¬ s.reached r → ¬ s.passed r → ¬ s.blankTo r → s.spanStops → y = x) ∧
    (¬ s.reached r → ¬ s.passed r → ¬ s.blankTo r → ¬ s.spanStops → y = { x with slot := .preparing q .waiting })) ∧
  ((∀ q, x.slot ≠ .held q .waiting) → y = x)

/-- The slot that LDJB picks is A when A is FREE or ENDED, else B when B is (R107). -/
def State.picksSlot (s : State) (i : SlotId) : Prop :=
  let ready := fun j : SlotId => (s.slot j).state = .free ∨ (s.slot j).state = .ended
  ready i ∧ (i = .B → ¬ ready .A)

/-- A tested value of R22 lies outside 0 … 10^W − 1. -/
def Rules.spanLeaves (r : Rules) (lanes : Nat) : Prop :=
  ∃ a n : Nat, a < (if r.mode = .stacked then lanes else 1) ∧ (n = 0 ∨ n = r.span - 1) ∧
    let k : Int := ((a * r.span + n) * r.step : Nat)
    let x : Int := r.start + (if r.descending then -k else k)
    x < 0 ∨ (10 ^ r.width : Nat) ≤ x

/-- A, D in their ranges (R104). -/
def Geometry.inRange (g : Geometry) : Prop := 1 ≤ g.lanes ∧ g.lanes ≤ 4 ∧ 1 ≤ g.around ∧ g.around ≤ 4

/-- The rules of a job lie in their ranges: R17 for SERIES, R18 for MAKEUP. A rule the source does not store is 0 or no.
The characters of a prefix are ASCII (log 39). -/
def Rules.inRange (r : Rules) (source : Source) : Prop :=
  1 ≤ r.width ∧ r.width ≤ 10 ∧ r.lead.length ≤ 3 ∧
  (∀ b ∈ r.lead, (0x41 ≤ b ∧ b ≤ 0x5A) ∨ (0x30 ≤ b ∧ b ≤ 0x39)) ∧
  match source with
  | .makeup => r.wlo ≤ r.whi ∧ r.whi < 10 ^ r.width ∧ r.start = 0 ∧ r.step = 0 ∧ r.descending = false ∧ r.wrap = false ∧
      r.mode = .sequential ∧ r.span = 0 ∧ r.skips = [] ∧ r.bookSize = 0
  | .series => r.start < 10 ^ r.width ∧ 1 ≤ r.step ∧ r.step ≤ 9 ∧ 1 ≤ r.span ∧ r.span ≤ min (10 ^ r.width) 4000000000 ∧
      r.skips.length ≤ 4 ∧ (∀ x ∈ r.skips, x.1 ≤ x.2 ∧ x.2 < 10 ^ r.width) ∧
      (r.bookSize = 0 ∨ (2 ≤ r.bookSize ∧ r.bookSize ≤ 999)) ∧ r.wlo = 0 ∧ r.whi = 0

/-- The counter that the next position of a fill takes from (R13, R24): the lane's under STACKED, the one counter under SEQUENTIAL. -/
def State.counterServing (s : State) (f : Fill) : Nat :=
  let j := s.slot f.slot
  let p := f.entries.length
  if j.rules.mode = .sequential then 0 else if j.geometry.order = .acrossFirst then p % j.geometry.lanes else p / j.geometry.around

/-- A move of `k` steps takes counter `c` to `c'` and raises RANGE_EXHAUSTED when `event` holds (R32, R33). -/
def Counter.movesTo (c : Counter) (r : Rules) (k : Nat) (c' : Counter) (event : Bool) : Prop :=
  let t : Int := if r.descending then (c.v : Int) - (k * r.step : Nat) else (c.v : Int) + (k * r.step : Nat)
  let out := t < 0 ∨ (10 ^ r.width : Nat) ≤ t
  c'.o = c.o + k ∧ c'.exhausted = c.exhausted ∧
  (¬ out → (c'.v : Int) = t) ∧ (out → r.wrap = true → (c'.v : Int) = t % (10 ^ r.width : Nat)) ∧ (out → r.wrap = false → c'.v = c.v) ∧
  (if out ∧ r.wrap = false ∧ c.o + k < r.span then c'.domainEnded = true ∧ c'.raised = true ∧ event = !c.raised
   else c'.domainEnded = c.domainEnded ∧ c'.raised = c.raised ∧ event = false)

end Sys2Proof.Machine
end

