-- ==== Sys2Proof/Certificates/Slice0/Obligations.lean ====
section
/-! DEFINITION. The statements for the provers, chapter by chapter; each docstring names the rules it formalises. -/

open Sys2Proof Sys2Proof.Machine

/-! ### The queue of commands, the reset -/

/-- A step takes the command at the front of the queue and runs it with the rest behind (one command at a time: the model's order of events,
log 1). -/
def Obligations.StepTakesFrontCommand : Prop :=
  ∀ (c : Instr) (rest : List Instr) (s : State), s.pending = c :: rest → step s = exec c { s with pending := rest }

/-- Every command is taken in every state, and none touches the queue of commands. That this holds in EVERY state is the model's choice: an engine's
command without its occasion changes nothing (log 2), a command that is not well formed is taken as the row its operands say (log 27), and the queue
of commands is the model's order of events (log 1). -/
def Obligations.EveryCommandIsTaken : Prop :=
  ∀ (c : Instr) (s : State), ∃ t, exec c s = .next t ∧ t.pending = s.pending

/-- An idle step is one 1 ms tick (the model's choice, log 3): every running timer falls by 1 and expires at 0 (R173, R174), and the third
tick after a byte sets the gap mark (R87). Each ply whose timer expires joins plies lost of exactly the AWAITING records it has not served, and
STATION_LOST is raised; when none expires the records and the event flags stand. Jobs, drafts, tallies, the void list and the account stand. -/
def Obligations.IdleStepIsOneTick : Prop :=
  ∀ s : State, s.pending = [] →
    let expires := fun p : PortId => ∃ n, (s.port p).timer = some n ∧ n ≤ 1
    ∃ t, step s = .next t ∧
    (∀ p : PortId,
      ((s.port p).timer = none → t.port p = s.port p) ∧
      (∀ n, (s.port p).timer = some n → 2 ≤ n → t.port p = { s.port p with timer := some (n - 1) }) ∧
      (∀ n, (s.port p).timer = some n → n ≤ 1 → t.port p = { s.port p with state := .lost, slot := .none, timer := none })) ∧
    (s.receiver.gapTicks = none → t.receiver = s.receiver) ∧
    (∀ n, s.receiver.gapTicks = some n → n ≤ 1 → t.receiver = { s.receiver with gapTicks := some (n + 1) }) ∧
    (∀ n, s.receiver.gapTicks = some n → 2 ≤ n → t.receiver = { s.receiver with gapMark := true, gapTicks := none }) ∧
    ((∀ p, ¬ expires p) → t.window.records = s.window.records ∧ t.sup.events = s.sup.events) ∧
    ((∃ p, expires p) → t.sup.events = s.sup.events ||| 0x040) ∧
    (t.window.records.length = s.window.records.length ∧ ∀ (j : Nat) (a b : Record), s.window.records[j]? = some a →
      t.window.records[j]? = some b → b = { a with lost := b.lost } ∧
        ∀ k, k < 6 → (b.lost.getLsbD k = true ↔ a.lost.getLsbD k = true ∨
          (a.closure = .awaiting ∧ a.served.getLsbD k = false ∧ ∃ p, expires p ∧ (s.port p).ply = some k))) ∧
    t = { s with ports := t.ports, receiver := t.receiver, sup := { s.sup with events := t.sup.events },
                 window := { s.window with records := t.window.records } }

/-- POWER_ON_RESET leaves each block at the values its chapter gives (R3, R20, R44, R59, R84, R106, R128, R145, R164, R177, R178); what a
FREE slot's value fields read is R20's zero, and its source and geometry are the model's (log 34), as are a port's mode and bytes before its first
transaction (log 33), the field due (log 19) and what was sent last (log 21). A byte arriving at the line is not received (R84), a transaction being
clocked is ended. RUN keeps its level and the queue of commands waits. -/
def Obligations.PowerOnResetLeavesResetValues : Prop :=
  ∀ (adr1 adr0 : Bool) (s : State), ∃ t, exec (.powerOnReset adr1 adr0) s = .next t ∧
    t.plan = { plies := [], silence := 0, divisor := 130, winHigh := 48, bufHigh := 32 } ∧
    (∀ i : SlotId, (t.slot i).state = .free ∧ (t.slot i).tag = 0 ∧ (t.slot i).counters = [] ∧ (t.slot i).first = none ∧
      (t.slot i).final = .unset ∧ (t.slot i).change = none ∧ (t.slot i).note = .unset ∧ (t.slot i).tally = Tally.zero ∧
      (t.slot i).rules = Rules.cleared ∧ (t.slot i).draw = { exhausted := false, raised := false } ∧ (t.slot i).source = .series ∧
      (t.slot i).geometry = { lanes := 0, around := 0, order := .acrossFirst }) ∧
    t.queue = { drafts := [], fill := none, passFloor := none } ∧
    t.window = { records := [], newest := none, target := none, high := false, closing := none } ∧
    t.receiver = { fifo := [], gapMark := false, gapTicks := none, line := .idle, asm := .hunt, frame := none, lastVerdict := none,
                   checksumFails := 0, framingFails := 0, duplicates := 0, shapeMismatches := 0, noRecords := 0 } ∧
    t.voids = { ranges := [], incomplete := false, dropped := 0, changes := 0 } ∧
    (t.account.wo = 0 ∧ t.account.ro = 0 ∧ t.account.count = 0 ∧ t.account.tail = none ∧ t.account.high = false ∧
      t.account.full = false ∧ t.account.queue = [] ∧ t.account.due = false) ∧
    (∀ p : PortId, t.port p = { state := .closed, ply := none, cursor := 0, slot := .none, newRun := false, reject := false, timer := none,
                                late := 0, order := 0, rejected := 0, held := 0, fetch := none, selected := false, mode3 := false,
                                out := [] }) ∧
    (t.sup.task = 0 ∧ t.sup.param = List.replicate 64 0 ∧ t.sup.result = List.replicate 160 0 ∧ t.sup.events = 0 ∧ t.sup.mask = 0 ∧
      t.attention = false ∧ t.sup.onPage1 = false ∧ t.sup.sequence = 0 ∧ t.sup.snapshot = none ∧ t.sup.running = none ∧
      t.sup.out = [] ∧ t.sup.ack = { slot := false, data := 0 }) ∧
    t.sup.address.toNat = 0x3A + (2 * adr1.toNat + adr0.toNat) ∧
    t.run = s.run ∧ t.pending = s.pending

/-! ### RUN and silence -/

/-- RUN_RISE and RUN_FALL (R173): a rise starts at the full limit the timer of each port that now meets every condition, a fall stops
every timer; RUN and the timers are all that changes. With RUN already high a rise is no edge (log 23). -/
def Obligations.RunEdgesStartAndStopTimers : Prop :=
  ∀ s : State,
    (s.run = false → ∃ t, exec .runRise s = .next t ∧ t = { s with run := true, ports := t.ports } ∧
      ∀ p : PortId, t.port p = { s.port p with timer := ({ s with run := true } : State).freshTimer p }) ∧
    (s.run = true → exec .runRise s = .next s) ∧
    ∃ t, exec .runFall s = .next t ∧ t = { s with run := false, ports := t.ports } ∧
      ∀ p : PortId, t.port p = { s.port p with timer := none }

/-- SILENCE_EXPIRY of a timer at its last tick (R174, R78; that the row is the tick at which the time reaches 0 is the model's reading, log 4): the
port becomes LOST and holds nothing, its ply joins plies lost of exactly the AWAITING records it has not served, STATION_LOST is raised, and nothing
else changes. A timer with more time left, or stopped, does not expire. -/
def Obligations.SilenceExpiryLosesPort : Prop :=
  (∀ (p : PortId) (n : Nat) (s : State), (s.port p).timer = some n → n ≤ 1 → ∃ t, exec (.silenceExpiry p) s = .next t ∧
    t.port p = { s.port p with state := .lost, slot := .none, timer := none } ∧
    (∀ q : PortId, q ≠ p → t.port q = s.port q) ∧
    t.window.records = s.window.records.map (fun x =>
      match (s.port p).ply with
      | some k =>
        if x.closure = .awaiting ∧ x.served.getLsbD k = false then { x with lost := x.lost ||| BitVec.ofNat 6 (2 ^ k) } else x
      | none => x) ∧
    t.sup.events = s.sup.events ||| 0x040 ∧
    t = { s with ports := t.ports, window := { s.window with records := t.window.records },
                 sup := { s.sup with events := t.sup.events } }) ∧
  ∀ (p : PortId) (s : State), (∀ n, (s.port p).timer = some n → 2 ≤ n) → exec (.silenceExpiry p) s = .next s

/-! ### The supervisor port -/

/-- Each task row, taken while no task executes or while its own task waits for its effects (log 8), carries the task out from its copy of PARAM, keeps
its word in TASK and waits for TASK_END (R180); a refusal has a code of R182 and changes nothing more (R181). A word that names no task reaches no
block (R180). A write whose effects have not been taken, from a register write or TASK_OVERRUN with no task executing, only starts its task. The task words are their letters in ASCII (log 39). -/
def Obligations.TaskStartsAndRefusalChangesNothing : Prop :=
  (∀ (i : Instr) (w : BitVec 32) (bs : Bytes) (s : State), taskWordOf i = some w → s.takesTask i bs →
     ∃ t r o, exec i s = .next t ∧ t.sup.task = w ∧ t.sup.running = some r ∧ r.word = w ∧ r.params = bs ∧ r.outcome = some o ∧
       t.sup.result = s.sup.result ∧ t.sup.mask = s.sup.mask ∧ t.sup.address = s.sup.address ∧
       ∀ code, o = .refusal code → 1 ≤ code ∧ code ≤ 12 ∧ t = s.taskTaken i bs (.refusal code)) ∧
  (∀ (word : BitVec 32) (bs : Bytes) (s : State), s.takesTask (.unknownTaskWord word) bs →
     word ∉ [0x504C414E, 0x4C444A42, 0x53545254, 0x53574150, 0x53544F50, 0x51554954, 0x41444D54, 0x54414C59, 0x4E455854, 0x524C5345,
       0x50564F44, 0x564C5244, 0x564C434C, 0x52534554] →
     exec (.unknownTaskWord word) s = .next (s.taskTaken (.unknownTaskWord word) bs .unrecognised)) ∧
  ∀ (word : BitVec 32) (s : State), s.sup.running = none → exec (.taskOverrun word) s = .next { s with sup := { s.sup with
    task := word, running := some { word, params := s.sup.param, outcome := none } } }

/-- A four-byte write to TASK while a task executes is discarded, whatever its word: TASK and the executing task stand, and TASK_OVERRUN is
raised (R183). The write is TASK_OVERRUN, a register write of four bytes to TASK, or a task row that is not the executing task's own with its
effects still to be taken (log 8). -/
def Obligations.TaskWriteDuringTaskIsDiscarded : Prop :=
  ∀ (i : Instr) (word : BitVec 32) (r : TaskRun) (count b0 b1 b2 b3 : Byte) (s : State), s.sup.running = some r →
    ((taskWordOf i).isSome = true → (taskWordOf i ≠ some r.word ∨ r.outcome.isSome = true) →
      exec i s = .next { s with sup := { s.sup with events := s.sup.events ||| 0x002 } }) ∧
    exec (.taskOverrun word) s = .next { s with sup := { s.sup with events := s.sup.events ||| 0x002 } } ∧
    (4 ≤ count.toNat → exec (.registerWrite 0x20 count [b0, b1, b2, b3]) s =
      .next { s with sup := { s.sup with events := s.sup.events ||| 0x002, ack := { slot := true, data := 4 } } })

/-- TASK_END (R181): TASK and the whole of RESULT are replaced together by the outcome, and TASK_DONE is raised. A task whose effects have not been
taken takes them first, as its row would (R180, log 8). What TASK reads after a refusal or an unknown word are letters in ASCII (log 39). -/
def Obligations.TaskEndPublishesOutcome : Prop :=
  (∀ (r : TaskRun) (o : TaskOutcome) (s : State), s.sup.running = some r → r.outcome = some o → ∃ t, exec .taskEnd s = .next t ∧
    t = { s with sup := { s.sup with
      task := t.sup.task, result := t.sup.result, running := none, events := s.sup.events ||| 0x001 } } ∧
    t.sup.result.length = 160 ∧
    match o with
    | .carriedOut bs => t.sup.task = 0 ∧ ∀ k, k < 160 → t.sup.result[k]? = some (bs.getD k 0)
    | .refusal code => t.sup.task = 0x4641494C ∧ ∀ k, k < 160 → t.sup.result[k]? = some (if k = 0 then BitVec.ofNat 8 code else 0)
    | .unrecognised => t.sup.task = 0x554E4B4E ∧ ∀ k, k < 160 → t.sup.result[k]? = some 0) ∧
  ∀ (i : Instr) (r : TaskRun) (s : State), s.sup.running = some r → r.outcome = none → taskWordOf i = some r.word →
    ∃ u, exec i s = .next u ∧ (u.sup.running.bind TaskRun.outcome).isSome = true ∧ exec .taskEnd s = exec .taskEnd u

/-- MASK_WRITE replaces the twelve enables, CLEAR_WRITE clears exactly the flags whose place is written 1, places beyond the twelfth are
ignored (R184 to R186), and nothing else changes. The attention line is asserted exactly while some flag is set both in EVENTS and in MASK
(R186). -/
def Obligations.MaskAndClearWriteTheirPlaces : Prop :=
  ∀ (value : BitVec 32) (s : State),
    (∃ t, exec (.maskWrite value) s = .next t ∧ t = { s with sup := { s.sup with mask := t.sup.mask } } ∧
      ∀ j, j < 12 → t.sup.mask.getLsbD j = value.getLsbD j) ∧
    (s.attention = true ↔ ∃ j, j < 12 ∧ s.sup.events.getLsbD j = true ∧ s.sup.mask.getLsbD j = true) ∧
    ∃ t, exec (.clearWrite value) s = .next t ∧ t = { s with sup := { s.sup with events := t.sup.events } } ∧
      ∀ j, j < 12 → t.sup.events.getLsbD j = (s.sup.events.getLsbD j && !value.getLsbD j)

/-- STATE_READ (R187): at pointer 0 a snapshot with the next sequence number is taken and its page 0 sent, at pointer 1 page 1 of the snapshot
held; the size byte comes first, zeros follow the sixteenth byte (R177), and the pointer moves exactly when all sixteen were acknowledged. The
pages hold the fields of R188 at the places of R191. -/
def Obligations.StateReadSendsOnePage : Prop :=
  (∀ (acked : Nat) (s : State),
    (s.sup.onPage1 = false → ∃ t x, exec (.stateRead acked) s = .next t ∧
      t = { s with sup := { s.sup with sequence := (s.sup.sequence + 1) % 128, snapshot := some x, onPage1 := decide (16 ≤ acked),
                                       out := t.sup.out } } ∧
      x.page0 = s.page0 ((s.sup.sequence + 1) % 128) ∧ x.page1 = s.page1 ((s.sup.sequence + 1) % 128) ∧
      t.sup.out = 16 :: (List.range acked).map (fun k => x.page0.getD k 0)) ∧
    (s.sup.onPage1 = true → ∀ x, s.sup.snapshot = some x → x.page1.length = 16 → ∃ t, exec (.stateRead acked) s = .next t ∧
      t = { s with sup := { s.sup with onPage1 := decide (acked < 16), out := t.sup.out } } ∧
      t.sup.out = 16 :: (List.range acked).map (fun k => x.page1.getD k 0))) ∧
  ∀ (seq : Nat) (s : State), seq < 128 →
    let a := s.page0 seq
    let b := s.page1 seq
    let job : SlotState → Nat := fun | .free => 0 | .loaded => 1 | .running => 2 | .draining => 3 | .ended => 4
    let at' := fun p : PortId => match (s.port p).state with | .closed => 0 | .active => 1 | .lost => 2
    let none32 := fun r : Option Nat => match r with | some r => r % 2 ^ 32 | none => 0xFFFFFFFF
    let small := (s.account.queue.filter fun it => match it with | .repeatItem _ => false | _ => true).length
    (a.length = 16 ∧ (byteAt a 0).toNat = seq ∧
      (byteAt a 1).toNat = (if s.slotA.change.isSome then 128 else 0) + 16 * job s.slotA.state + (if s.slotB.change.isSome then 8 else 0) +
        job s.slotB.state ∧
      (byteAt a 2).toNat = s.window.records.length % 256 ∧ field a 3 2 = s.slotA.tag % 2 ^ 16 ∧ field a 5 2 = s.slotB.tag % 2 ^ 16 ∧
      (∀ rc, s.slotA.change = some rc ∨ (s.slotA.change = none ∧ s.slotB.change = some rc) → field a 7 4 = rc % 2 ^ 32) ∧
      (s.slotA.change = none → s.slotB.change = none → field a 7 4 = 0xFFFFFFFF) ∧
      field a 11 4 = none32 s.window.newest ∧
      (s.window.records = [] ∨ s.window.newest = none → byteAt a 15 = 0xFF) ∧
      (∀ x n, s.window.records.head? = some x → s.window.newest = some n → byteAt a 15 = BitVec.ofNat 8 (n - x.repeatIndex))) ∧
    (b.length = 16 ∧ (byteAt b 0).toNat = 128 + seq ∧
      (byteAt b 1).toNat = (allPorts.filter fun p => match (s.port p).slot with | .held _ _ => true | _ => false).length ∧
      (s.queue.drafts.length ≤ 7 → (byteAt b 2).toNat = s.queue.drafts.length + if s.queue.fill.isSome then 128 else 0) ∧
      field b 3 2 = s.voids.ranges.length % 2 ^ 16 ∧
      (byteAt b 5).toNat = (if s.voids.incomplete then 1 else 0) + (if s.account.full then 2 else 0) ∧
      field b 6 2 = s.account.count % 2 ^ 16 ∧ field b 8 2 = s.account.used % 2 ^ 16 ∧
      (byteAt b 10).toNat = (s.account.queue.length - small) % 256 ∧ (byteAt b 11).toNat = small % 256 ∧
      (byteAt b 12).toNat = 64 * at' 0 + 16 * at' 1 + 4 * at' 2 + at' 3 ∧ (byteAt b 13).toNat = 64 * at' 4 + 16 * at' 5 ∧
      byteAt b 14 = 0 ∧ byteAt b 15 = 0)

/-- REGISTER_WRITE (R177, R179): PARAM takes the bytes from offset 0, MASK and CLEAR take four bytes as their rows do, four bytes to TASK start
a task or are discarded as TASK_OVERRUN is (R180, R183), fewer than four are
discarded at TASK, MASK and CLEAR, a read-only slot takes no data, an unknown slot is not acknowledged. -/
def Obligations.RegisterWriteBySlot : Prop :=
  ∀ (count : Byte) (data : Bytes) (s : State),
    (let n := min (min count.toNat 64) data.length
     exec (.registerWrite 0x21 count data) s =
      .next { s with sup := { s.sup with param := data.take n ++ s.sup.param.drop n, ack := { slot := true, data := n } } }) ∧
    (∀ slot : Byte, slot = 0x20 ∨ slot = 0x31 ∨ slot = 0x32 → min (min count.toNat 4) data.length < 4 →
      exec (.registerWrite slot count data) s =
        .next { s with sup := { s.sup with ack := { slot := true, data := min (min count.toNat 4) data.length } } }) ∧
    (∀ b0 b1 b2 b3 : Byte, data.take 4 = [b0, b1, b2, b3] → 4 ≤ count.toNat →
      exec (.registerWrite 0x31 count data) s =
        exec (.maskWrite (b0 ++ b1 ++ b2 ++ b3)) { s with sup := { s.sup with ack := { slot := true, data := 4 } } } ∧
      exec (.registerWrite 0x32 count data) s =
        exec (.clearWrite (b0 ++ b1 ++ b2 ++ b3)) { s with sup := { s.sup with ack := { slot := true, data := 4 } } } ∧
      (exec (.registerWrite 0x20 count data) s =
        exec (.taskOverrun (b0 ++ b1 ++ b2 ++ b3)) { s with sup := { s.sup with ack := { slot := true, data := 4 } } })) ∧
    (∀ slot : Byte, slot = 0x22 ∨ slot = 0x30 ∨ slot = 0x40 →
      exec (.registerWrite slot count data) s = .next { s with sup := { s.sup with ack := { slot := true, data := 0 } } }) ∧
    ∀ slot : Byte, slot ∉ [0x20, 0x21, 0x22, 0x30, 0x31, 0x32, 0x40] →
      exec (.registerWrite slot count data) s = .next { s with sup := { s.sup with ack := { slot := false, data := 0 } } }

/-! ### The web plan and the job slots -/

/-- PLAN with a ply count of 1 to 6 whose fields pass R5 (R6 to R9): the bindings, leads and other fields are stored with the thresholds
clamped, L_max is the largest lead, every port is CLOSED with nothing in its slot, and the receiver is emptied exactly when the divisor
changes.
PLAN is refused with STATE in a run before any field is looked at (R4) and with RANGE when a field of R5 fails; with a ply count of 0
it removes the plies and leads and keeps the other fields (R10). -/
def Obligations.PlanStoresOrRefuses : Prop :=
  (∀ (bs : Bytes) (s : State), s.takesTask .plan bs → s.inRun = false →
     let n := (byteAt bs 0).toNat
     1 ≤ n → n ≤ 6 →
     (∀ k, k < n → (byteAt bs (1 + 2 * k)).toNat ≤ 5 ∧ (byteAt bs (2 + 2 * k)).toNat ≤ 44) →
     (∀ j k, j < n → k < n → j ≠ k → byteAt bs (1 + 2 * j) ≠ byteAt bs (1 + 2 * k)) →
     field bs 15 2 ≠ 0 → byteAt bs 17 ≠ 0 → byteAt bs 18 ≠ 0 →
     ∃ (t : State) (lMax : Nat), exec .plan s = .next t ∧
       t.plan.plies.length = n ∧
       (∀ k, k < n → ∃ e, t.plan.plies[k]? = some e ∧ e.port.val = (byteAt bs (1 + 2 * k)).toNat ∧
         e.lead = (byteAt bs (2 + 2 * k)).toNat) ∧
       t.plan.silence = field bs 13 2 ∧ t.plan.divisor = field bs 15 2 ∧ t.plan.winHigh = min (byteAt bs 17).toNat 48 ∧
       t.plan.bufHigh = min (byteAt bs 18).toNat 32 ∧
       (∀ e ∈ t.plan.plies, e.lead ≤ lMax) ∧ (∃ e ∈ t.plan.plies, e.lead = lMax) ∧
       (∀ p : PortId, t.port p = { s.port p with state := .closed, slot := .none, timer := none }) ∧
       (t.plan.divisor = s.plan.divisor → t.receiver = s.receiver) ∧
       (t.plan.divisor ≠ s.plan.divisor → t.receiver =
         { s.receiver with fifo := [], gapMark := false, gapTicks := none, line := .idle, asm := .hunt, frame := none }) ∧
       t.sup = (s.taskTaken .plan bs (.carriedOut [BitVec.ofNat 8 n, BitVec.ofNat 8 lMax, BitVec.ofNat 8 (min (byteAt bs 17).toNat 48),
         BitVec.ofNat 8 (min (byteAt bs 18).toNat 32)])).sup ∧
       t = { s with plan := t.plan, ports := t.ports, receiver := t.receiver, sup := t.sup }) ∧
  (∀ (bs : Bytes) (s : State), s.takesTask .plan bs →
     let n := (byteAt bs 0).toNat
     (s.inRun = true → exec .plan s = .next (s.taskTaken .plan bs (.refusal 2))) ∧
     (s.inRun = false → n ≠ 0 →
       (6 < n ∨ (∃ k, k < n ∧ (5 < (byteAt bs (1 + 2 * k)).toNat ∨ 44 < (byteAt bs (2 + 2 * k)).toNat)) ∨
         (∃ j k, j < k ∧ k < n ∧ byteAt bs (1 + 2 * j) = byteAt bs (1 + 2 * k)) ∨ field bs 15 2 = 0 ∨ byteAt bs 17 = 0 ∨
         byteAt bs 18 = 0) →
       exec .plan s = .next (s.taskTaken .plan bs (.refusal 3))) ∧
     (s.inRun = false → n = 0 → ∃ t, exec .plan s = .next t ∧ t.plan = { s.plan with plies := [] } ∧
       (∀ p : PortId, t.port p = { s.port p with state := .closed, slot := .none, timer := none }) ∧
       t.sup = (s.taskTaken .plan bs (.carriedOut [0, 0, BitVec.ofNat 8 s.plan.winHigh, BitVec.ofNat 8 s.plan.bufHigh])).sup ∧
       t = { s with plan := t.plan, ports := t.ports, sup := t.sup }))

/-- LDJB makes its checks in R107's order, and the first that fails gives the refusal code (R107, R22, R182): STATE, BUSY, TAG, RANGE, SPAN,
INCOMPLETE. -/
def Obligations.LdjbChecksInOrder : Prop :=
  ∀ (bs : Bytes) (s : State), s.takesTask .ldjb bs →
    let refused := fun code => exec .ldjb s = .next (s.taskTaken .ldjb bs (.refusal code))
    (s.plan.plies = [] → refused 2) ∧
    (s.plan.plies ≠ [] → (¬ ∃ i, s.picksSlot i) → refused 1) ∧
    ∀ i, s.plan.plies ≠ [] → s.picksSlot i →
      let tagBad := jobTag bs = 0 ∨ ((s.slot i.other).state ∈ [.loaded, .running, .draining] ∧ (s.slot i.other).tag = jobTag bs)
      let rangeBad := jobBlockOk bs = false
      let spanBad := jobSource bs = .series ∧ (jobRules bs).wrap = false ∧ (jobRules bs).spanLeaves (jobGeometry bs).lanes
      (tagBad → refused 5) ∧ (¬ tagBad → rangeBad → refused 3) ∧ (¬ tagBad → ¬ rangeBad → spanBad → refused 4) ∧
      (¬ tagBad → ¬ rangeBad → jobSource bs = .makeup → s.voids.incomplete = true → refused 8)

/-- An LDJB that passes its checks fills the picked slot whole (R108, R21): fields from the block, counters at their lane starts, repeats
none, tally 0, LOADED; the other slot and every other block stand. -/
def Obligations.LdjbLoadsJob : Prop :=
  ∀ (i : SlotId) (bs : Bytes) (s : State), s.takesTask .ldjb bs → s.plan.plies ≠ [] → s.picksSlot i →
    let r := jobRules bs
    let lanes := (jobGeometry bs).lanes
    jobTag bs ≠ 0 → ¬ ((s.slot i.other).state ∈ [.loaded, .running, .draining] ∧ (s.slot i.other).tag = jobTag bs) →
    jobBlockOk bs = true → ¬ (jobSource bs = .series ∧ r.wrap = false ∧ r.spanLeaves lanes) →
    ¬ (jobSource bs = .makeup ∧ s.voids.incomplete = true) →
    ∃ t, exec .ldjb s = .next t ∧
      t.slot i = { state := .loaded, tag := jobTag bs, source := jobSource bs, geometry := jobGeometry bs, rules := r,
                   counters := (t.slot i).counters, draw := { exhausted := false, raised := false }, first := none, final := .unset,
                   change := none, note := .unset, tally := Tally.zero } ∧
      (t.slot i).counters.length = (if jobSource bs = .makeup then 0 else if r.mode = .stacked then lanes else 1) ∧
      (∀ a c, (t.slot i).counters[a]? = some c →
        c = { v := c.v, o := 0, exhausted := false, domainEnded := false, raised := false } ∧
        let k : Int := (a * r.span * r.step : Nat)
        let x : Int := r.start + (if r.descending then -k else k)
        (c.v : Int) = (if r.wrap then x % (10 ^ r.width : Nat) else x)) ∧
      t.slot i.other = s.slot i.other ∧
      t.sup = (s.taskTaken .ldjb bs (.carriedOut [BitVec.ofNat 8 i.code, byteAt bs 0, byteAt bs 1])).sup ∧
      t = { s with slotA := t.slotA, slotB := t.slotB, sup := t.sup }

/-- STRT of a LOADED slot begins the run (R111, R112, R44, R59, R164, R173): the slot RUNNING from L_max, window and draft queue emptied with
the fill for L_max begun, last verdict none, bound ports ACTIVE at cursor 0 with new-run set, unbound ports CLOSED, JOB_START queued. The
premises are a plan in its ranges (R2) and no SWAP staged, which holds whenever no slot is RUNNING. That an append is due is the model's own field (log 19). -/
def Obligations.StrtBeginsRun : Prop :=
  ∀ (i : SlotId) (bs : Bytes) (s : State), s.takesTask .strt bs → s.plan.plies ≠ [] → s.plan.lMax ≤ 44 → s.inRun = false →
    byteAt bs 0 = (match i with | .A => 0 | .B => 1) → (s.slot i).state = .loaded → (∀ k, (s.slot k).change = none) →
    ∃ t, exec .strt s = .next t ∧
      t.slot i = { s.slot i with state := .running, first := some s.plan.lMax, final := .unset, change := none, note := .unset } ∧
      t.slot i.other = { s.slot i.other with note := .unset } ∧
      t.window = { records := [], newest := none, target := none, high := false, closing := none } ∧
      t.queue = { drafts := [], passFloor := none, fill := some {
        slot := i, target := s.plan.lMax, before := (s.slot i).before, entries := [], skipped := 0, drawn := [], floor := none } } ∧
      t.receiver = { s.receiver with lastVerdict := none } ∧
      (∀ p : PortId,
        t.port p = { s.port p with
          state := if (s.plan.plyOf p).isSome then .active else .closed
          ply := s.plan.plyOf p
          cursor := 0
          slot := .none
          newRun := (s.plan.plyOf p).isSome
          timer := if s.run = true ∧ (s.plan.plyOf p).isSome ∧ s.plan.silence ≠ 0 then some (s.plan.silence * 10) else none }) ∧
      t.account = { s.account with queue := s.account.queue ++ [.jobStart i (s.slot i).startBytes],
                                   due := s.account.due || s.account.queue.isEmpty } ∧
      t.sup = (s.taskTaken .strt bs (.carriedOut (BitVec.ofNat 8 i.code :: beBytes 2 (s.slot i).tag ++
        [BitVec.ofNat 8 s.plan.lMax]))).sup ∧
      t = { s with slotA := t.slotA, slotB := t.slotB, queue := t.queue, window := t.window, receiver := t.receiver,
                   account := t.account, ports := t.ports, sup := t.sup }

/-- The checks of STRT, SWAP, STOP, QUIT and RSET, the first that fails giving the code (R110, R113, R118, R119, R189). -/
def Obligations.RunTaskRefusals : Prop :=
  ∀ (bs : Bytes) (s : State),
    let rc := field bs 0 4
    let refused := fun (i : Instr) (code : Nat) => s.takesTask i bs → exec i s = .next (s.taskTaken i bs (.refusal code))
    (s.plan.plies = [] ∨ s.inRun = true → refused .strt 2) ∧
    (s.plan.plies ≠ [] → s.inRun = false → 2 ≤ (byteAt bs 0).toNat → refused .strt 3) ∧
    (s.plan.plies ≠ [] → s.inRun = false → ∀ i : SlotId, byteAt bs 0 = BitVec.ofNat 8 i.code → (s.slot i).state ≠ .loaded →
      refused .strt 2) ∧
    ((∀ i, (s.slot i).state ≠ .running) ∨ (∃ i, (s.slot i).change.isSome = true) → refused .swap 2) ∧
    (∀ i : SlotId, (s.slot i).state = .running → (s.slot i.other).state ≠ .running → (∀ k, (s.slot k).change = none) →
      ((s.slot i.other).state ≠ .loaded → refused .swap 2) ∧
      ((s.slot i.other).state = .loaded →
        (4294967250 < rc → refused .swap 3) ∧
        (rc ≤ 4294967250 →
          let a := (s.slot i).geometry
          let b := (s.slot i.other).geometry
          (a.lanes ≠ b.lanes ∨ a.around ≠ b.around → refused .swap 6) ∧
          (a.lanes = b.lanes → a.around = b.around → (match s.window.newest with | some n => rc ≤ n | none => rc < s.plan.lMax) →
            refused .swap 7)))) ∧
    ((∀ i, (s.slot i).state ≠ .running) → refused .stop 2) ∧
    (s.inRun = false → refused .quit 2) ∧
    (s.inRun = true → refused .rset 2)

/-- ADMT at a LOST port of the plan (R175, R173): ACTIVE at the given cursor, new-run set, slot empty, timer at the full limit while its
conditions hold; its counters, reject bit and every record stand. Otherwise RANGE above port 5, else STATE. -/
def Obligations.AdmtAdmitsLostPort : Prop :=
  ∀ (bs : Bytes) (s : State), s.takesTask .admt bs →
    let n := (byteAt bs 0).toNat
    let c := field bs 1 4
    (5 < n → exec .admt s = .next (s.taskTaken .admt bs (.refusal 3))) ∧
    ∀ p : PortId, p.val = n →
      ((s.port p).state ≠ .lost ∨ s.plan.plyOf p = none → exec .admt s = .next (s.taskTaken .admt bs (.refusal 2))) ∧
      ∀ k, (s.port p).state = .lost → s.plan.plyOf p = some k →
        ∃ t, exec .admt s = .next t ∧
          t.port p = { s.port p with state := .active, cursor := c, newRun := true, slot := .none,
                                     timer := if s.run = true ∧ s.inRun = true ∧ s.plan.silence ≠ 0 then some (s.plan.silence * 10)
                                              else none } ∧
          (∀ q : PortId, q ≠ p → t.port q = s.port q) ∧
          t.sup = (s.taskTaken .admt bs (.carriedOut ([BitVec.ofNat 8 n, BitVec.ofNat 8 k] ++ beBytes 4 c))).sup ∧
          t = { s with ports := t.ports, sup := t.sup }

/-- RSET between runs (R189, R3, R44, R59, R84, R106, R128, R145, R164): the plan, the void list, the ring with its marks and MASK are kept, and
every other block takes its power-on values. A transaction being clocked goes on with the bytes chosen for it. That a FREE slot then reads source SERIES and
geometry 0, 0, across-first is the model's choice (log 34), and the field due is the model's own (log 19); the word in TASK is letters in ASCII (log 39). -/
def Obligations.RsetKeepsFourStores : Prop :=
  ∀ (bs : Bytes) (s : State), s.takesTask .rset bs → s.inRun = false → ∃ t, exec .rset s = .next t ∧
    t.plan = s.plan ∧ t.voids = s.voids ∧
    t.account = { s.account with queue := [], full := false, due := false } ∧
    (∀ i : SlotId, t.slot i = JobSlot.cleared ∧ (t.slot i).state = .free ∧ (t.slot i).tag = 0 ∧ (t.slot i).tally = Tally.zero) ∧
    t.queue = { drafts := [], fill := none, passFloor := none } ∧
    t.window = { records := [], newest := none, target := none, high := false, closing := none } ∧
    t.receiver = { fifo := [], gapMark := false, gapTicks := none, line := .idle, asm := .hunt, frame := none, lastVerdict := none,
                   checksumFails := 0, framingFails := 0, duplicates := 0, shapeMismatches := 0, noRecords := 0 } ∧
    (∀ p : PortId, t.port p = { state := .closed, ply := none, cursor := 0, slot := .none, newRun := false, reject := false, timer := none,
                                late := 0, order := 0, rejected := 0, held := 0, fetch := (s.port p).fetch, selected := (s.port p).selected,
                                mode3 := (s.port p).mode3, out := (s.port p).out }) ∧
    t.sup = { s.sup with task := 0x52534554, events := 0, param := List.replicate 64 0, onPage1 := false, sequence := 0, snapshot := none,
                         running := some { word := 0x52534554, params := bs, outcome := some (.carriedOut []) } } ∧
    t.run = s.run ∧ t.pending = s.pending

/-- TALY (R157, R191) changes nothing and reports, for slot A or B, its standing, ten counters, open count and the receiver's counters, each at
its place; any other slot byte is refused with RANGE. Of a FREE slot cleared as R106 leaves it, with no record, every value of the slot is 0 and the
indications say that its first and final repeats are none (log 30). -/
def Obligations.TalyReportsSlot : Prop :=
  ∀ (bs : Bytes) (s : State), s.takesTask .taly bs →
    (2 ≤ (byteAt bs 0).toNat → exec .taly s = .next (s.taskTaken .taly bs (.refusal 3))) ∧
    ∀ i : SlotId, byteAt bs 0 = BitVec.ofNat 8 i.code → ∃ r : Bytes,
      exec .taly s = .next (s.taskTaken .taly bs (.carriedOut r)) ∧ r.length = 81 ∧
      let j := s.slot i
      let v := s.receiver
      byteAt r 0 = BitVec.ofNat 8 i.code ∧ byteAt r 1 = BitVec.ofNat 8 j.state.code ∧ field r 2 2 = j.tag % 2 ^ 16 ∧
      ((byteAt r 4).getLsbD 0 = j.first.isNone ∧ (byteAt r 4).getLsbD 1 = decide (j.final = .unset) ∧
        (byteAt r 4).getLsbD 2 = decide (j.final = .empty) ∧ (byteAt r 4).getLsbD 3 = v.lastVerdict.isNone) ∧
      field r 5 4 = (j.first.getD 0) % 2 ^ 32 ∧ (∀ f, j.final = .known f → field r 9 4 = f % 2 ^ 32) ∧
      (j.final = .unset ∨ j.final = .empty → field r 9 4 = 0) ∧
      (List.range 10).map (fun k => field r (13 + 4 * k) 4) =
        [j.tally.repeatsOpened, j.tally.issued, j.tally.delivered, j.tally.voidStation, j.tally.voidReader, j.tally.voidUnverified,
          j.tally.voidAborted, j.tally.postVoided, j.tally.blank, j.tally.skipped].map (· % 2 ^ 32) ∧
      field r 53 4 = s.openCount i % 2 ^ 32 ∧ field r 57 4 = (v.lastVerdict.getD 0) % 2 ^ 32 ∧
      (List.range 5).map (fun k => field r (61 + 4 * k) 4) =
        [v.checksumFails, v.framingFails, v.duplicates, v.shapeMismatches, v.noRecords].map (· % 2 ^ 32) ∧
      (j = .cleared → (∀ x ∈ s.window.records, x.slot ≠ i) →
        byteAt r 1 = 0 ∧ field r 2 2 = 0 ∧ (byteAt r 4).getLsbD 0 = true ∧ (byteAt r 4).getLsbD 1 = true ∧ (byteAt r 4).getLsbD 2 = false ∧
        field r 5 4 = 0 ∧ field r 9 4 = 0 ∧ (∀ k, k < 10 → field r (13 + 4 * k) 4 = 0) ∧ field r 53 4 = 0)

/-- VLRD (R137, R191) changes nothing: an index above 255 is refused with RANGE, and otherwise RESULT holds the list's standing and up to ten
ranges from the index on.
VLCL (R138): refused with STATE while a slot holds a MAKEUP job that is LOADED, RUNNING or DRAINING; otherwise the ranges, the flag and the
dropped count go, the change count rises by 1, and RESULT holds what stood before. -/
def Obligations.VlrdReportsAndVlclEmpties : Prop :=
  (∀ (bs : Bytes) (s : State), s.takesTask .vlrd bs →
     let i := field bs 0 2
     (255 < i → exec .vlrd s = .next (s.taskTaken .vlrd bs (.refusal 3))) ∧
     (i ≤ 255 → ∃ r : Bytes, exec .vlrd s = .next (s.taskTaken .vlrd bs (.carriedOut r)) ∧
       field r 0 2 = s.voids.ranges.length % 2 ^ 16 ∧ byteAt r 2 = (if s.voids.incomplete then 1 else 0) ∧
       field r 3 4 = s.voids.dropped % 2 ^ 32 ∧ field r 7 2 = s.voids.changes % 2 ^ 16 ∧ field r 9 2 = i ∧
       (byteAt r 11).toNat = min 10 (s.voids.ranges.length - i) ∧
       ∀ m x, m < 10 → s.voids.ranges[i + m]? = some x →
         field r (12 + 10 * m) 5 = x.1 % 2 ^ 40 ∧ field r (17 + 10 * m) 5 = x.2 % 2 ^ 40)) ∧
  (∀ (bs : Bytes) (s : State), s.takesTask .vlcl bs →
     let held := fun i : SlotId => (s.slot i).source = .makeup ∧ (s.slot i).state ∈ [.loaded, .running, .draining]
     ((∃ i, held i) → exec .vlcl s = .next (s.taskTaken .vlcl bs (.refusal 2))) ∧
     ((∀ i, ¬ held i) → exec .vlcl s = .next
       { s.taskTaken .vlcl bs (.carriedOut (beBytes 2 s.voids.ranges.length ++ beBytes 4 s.voids.dropped)) with
         voids := { ranges := [], incomplete := false, dropped := 0, changes := (s.voids.changes + 1) % 65536 } }))

/-! ### Formats -/

/-- The PLAN block of a plan in its ranges is accepted and read back as that plan (R5, R191), and a PLAN with it in PARAM stores that plan. -/
def Obligations.PlanBlockRoundTrip : Prop :=
  ∀ p : Plan, p.ok → p.plies ≠ [] →
    (encodePlan p).length = 64 ∧ planBlockOk (encodePlan p) = true ∧ planOf (encodePlan p) = p ∧
    ∀ s : State, s.takesTask .plan (encodePlan p) → s.inRun = false →
      ∃ t, exec .plan s = .next t ∧ t.plan = p

/-- The LDJB block of a job in its ranges is accepted and read back field for field (R17, R18, R191), for SERIES jobs with every rule and for
MAKEUP jobs with the rules that R18 stores. The characters of a prefix are ASCII (log 39). -/
def Obligations.JobBlockRoundTrip : Prop :=
  ∀ (tag : Nat) (source : Source) (g : Geometry) (r : Rules), tag ≤ 65535 → g.inRange → r.inRange source →
    (encodeJob tag source g r).length = 64 ∧ jobTag (encodeJob tag source g r) = tag ∧
    jobSource (encodeJob tag source g r) = source ∧ jobGeometry (encodeJob tag source g r) = g ∧
    jobRules (encodeJob tag source g r) = r ∧ jobBlockOk (encodeJob tag source g r) = true

/-- Check 4 of LDJB (R107) byte by byte: a block passes exactly when A, D and every rule of its source lie in the ranges of R17 or R18. The
characters of a prefix are ASCII (log 39). -/
def Obligations.JobBlockRangeChecks : Prop :=
  ∀ bs : Bytes,
    let w := (byteAt bs 5).toNat
    let makeup := (byteAt bs 2).getLsbD 0 = true
    jobBlockOk bs = true ↔
      (1 ≤ (byteAt bs 3).toNat ∧ (byteAt bs 3).toNat ≤ 4) ∧ (1 ≤ (byteAt bs 4).toNat ∧ (byteAt bs 4).toNat ≤ 4) ∧
      (1 ≤ w ∧ w ≤ 10) ∧ (byteAt bs 7).toNat ≤ 4 ∧
      (∃ n, n ≤ 3 ∧ (∀ k, k < n → (0x41 ≤ byteAt bs (10 + k) ∧ byteAt bs (10 + k) ≤ 0x5A) ∨
          (0x30 ≤ byteAt bs (10 + k) ∧ byteAt bs (10 + k) ≤ 0x39)) ∧ ∀ k, n ≤ k → k < 3 → byteAt bs (10 + k) = 0) ∧
      (makeup → field bs 13 5 ≤ field bs 18 5 ∧ field bs 18 5 < 10 ^ w) ∧
      (¬ makeup → field bs 13 5 < 10 ^ w ∧ (1 ≤ (byteAt bs 6).toNat ∧ (byteAt bs 6).toNat ≤ 9) ∧
        (1 ≤ field bs 18 5 ∧ field bs 18 5 ≤ min (10 ^ w) 4000000000) ∧ (byteAt bs 23).toNat ≤ 4 ∧
        (∀ j, j < (byteAt bs 23).toNat →
          field bs (24 + 10 * j) 5 ≤ field bs (29 + 10 * j) 5 ∧ field bs (29 + 10 * j) 5 < 10 ^ w) ∧
        (field bs 8 2 = 0 ∨ (2 ≤ field bs 8 2 ∧ field bs 8 2 ≤ 999)))

/-- A station's frames are accepted and read back (R163, R190), whatever follows them; one byte less, or another check byte, is rejected. -/
def Obligations.FrameRoundTrip : Prop :=
  ∀ (c1 c2 : Nat) (mask : BitVec 16) (more : Bytes) (wrong : Byte), c1 < 2 ^ 32 → c2 < 2 ^ 32 →
    (frameAccepted 0x31 5 (encodeRequest c1 ++ more) = true ∧ field (encodeRequest c1 ++ more) 0 4 = c1) ∧
    (frameAccepted 0x32 9 (encodeWaste c1 c2 ++ more) = true ∧ field (encodeWaste c1 c2 ++ more) 0 4 = c1 ∧
      field (encodeWaste c1 c2 ++ more) 4 4 = c2) ∧
    (frameAccepted 0x33 7 (encodeMisfire c1 mask ++ more) = true ∧ field (encodeMisfire c1 mask ++ more) 0 4 = c1 ∧
      BitVec.ofNat 16 (field (encodeMisfire c1 mask ++ more) 4 2) = mask) ∧
    frameAccepted 0x31 5 ((encodeRequest c1).take 4) = false ∧ frameAccepted 0x32 9 ((encodeWaste c1 c2).take 8) = false ∧
    frameAccepted 0x33 7 ((encodeMisfire c1 mask).take 6) = false ∧
    (wrong ≠ (encodeRequest c1).getD 4 0 → frameAccepted 0x31 5 ((encodeRequest c1).take 4 ++ [wrong]) = false) ∧
    (wrong ≠ (encodeWaste c1 c2).getD 8 0 → frameAccepted 0x32 9 ((encodeWaste c1 c2).take 8 ++ [wrong]) = false) ∧
    (wrong ≠ (encodeMisfire c1 mask).getD 6 0 → frameAccepted 0x33 7 ((encodeMisfire c1 mask).take 6 ++ [wrong]) = false)

/-- The check character of a value (R29, R30): MOD7 is the value mod 7, MOD10W and MOD11 make the weighted sum with the check value 0 mod 10
and mod 11, 10 shows as X, and MOD11SKIP passes over exactly the values whose check value is 10. That the characters have their ASCII codes
is the model's presumption (log 39). -/
def Obligations.CheckCharacters : Prop :=
  ∀ (r : Rules) (v : Nat),
    let weighted := fun weight : Nat → Nat => ((List.range r.width).map fun i => v / 10 ^ i % 10 * weight i).sum
    let char := fun c : Nat => if c = 10 then (0x58 : Byte) else BitVec.ofNat 8 (0x30 + c)
    (r.scheme = .none → r.checkOf v = none ∧ r.skipsValue v = false) ∧
    (r.scheme = .mod7 → r.checkOf v = some (char (v % 7)) ∧ r.skipsValue v = false) ∧
    (r.scheme = .mod10w → r.skipsValue v = false ∧ ∃ c, c < 10 ∧ (c + weighted fun i => if i % 2 = 0 then 3 else 1) % 10 = 0 ∧
      r.checkOf v = some (char c)) ∧
    (r.scheme = .mod11x ∨ r.scheme = .mod11skip → ∃ c, c < 11 ∧ (c + weighted fun i => [2, 3, 4, 5, 6, 7].getD (i % 6) 0) % 11 = 0 ∧
      r.checkOf v = some (char c) ∧ (r.skipsValue v = true ↔ r.scheme = .mod11skip ∧ c = 10))

/-- The string of a value (R36): the lead characters, W digits with the highest first, leading zeros as spaces when SPACE-filled but never the
units digit, a space when there is a separator and a check character, and the check character. That digits and space have their ASCII codes is the
model's presumption (log 39). -/
def Obligations.RenderedStrings : Prop :=
  ∀ (r : Rules) (v : Nat) (check : Option Byte), ∃ ds : Bytes, ds.length = r.width ∧
    r.render v check = r.lead ++ ds ++
      (match check with
        | none => []
        | some c => (if r.sepSpace = true then [0x20] else []) ++ [c]) ∧
    ∀ i, i < r.width → ds[r.width - 1 - i]? = some (
      if r.spaceFill = true ∧ i ≠ 0 ∧ v / 10 ^ i = 0 then 0x20 else BitVec.ofNat 8 (0x30 + v / 10 ^ i % 10))

/-! ### The series unit and the draft queue -/

/-- TAKE at a SERIES fill with positions left (R24, R27 to R33): a counter at its span or domain-ended is exhausted and blank, an exhausted one
blank; a value in no skip range and not skipped under MOD11SKIP is issued and the counter moves one step; a jump or a skip consumes its steps and
the take goes on from the counter they leave. The fill's skipped delta is the plain sum, above 4,000,000,000 too (the model's choice, log 31). -/
def Obligations.TakeIssuesOrGoesOn : Prop :=
  ∀ (f : Fill) (c : Counter) (s : State), s.queue.fill = some f → (s.slot f.slot).source = .series →
    f.entries.length < (s.slot f.slot).positions → (s.slot f.slot).counters[s.counterServing f]? = some c →
    let r := (s.slot f.slot).rules
    let after := fun (c' : Counter) (es : List Entry) (k : Nat) (event : Bool) =>
      ((s.modSlot f.slot fun j => { j with counters := j.counters.set (s.counterServing f) c' }).setFill
        (some { f with entries := f.entries ++ es, skipped := f.skipped + k })).raiseIf event .rangeExhausted
    let blank : Entry := { value := none, check := none, bookEnd := false }
    let live := c.o < r.span ∧ c.domainEnded = false ∧ c.exhausted = false
    let range := r.skips.find? fun x => decide (x.1 ≤ c.v ∧ c.v ≤ x.2)
    (r.span ≤ c.o ∨ c.domainEnded = true →
      exec .take s = .next (after { c with exhausted := true, raised := true } [blank] 0 (!c.raised))) ∧
    (c.o < r.span → c.domainEnded = false → c.exhausted = true → exec .take s = .next (after c [blank] 0 false)) ∧
    (live → range = none → r.skipsValue c.v = false → ∃ c' event, c.movesTo r 1 c' event ∧
      exec .take s = .next (after c'
        [{ value := some c.v, check := r.checkOf c.v, bookEnd := decide (r.bookSize ≠ 0 ∧ (c.o + 1) % r.bookSize = 0) }] 0 event)) ∧
    (live → range = none → r.skipsValue c.v = true → ∃ c' event, c.movesTo r 1 c' event ∧ exec .take s = exec .take (after c' [] 1 event)) ∧
    (∀ x, live → range = some x → ∃ k c' event,
      k = min ((if r.descending then (c.v - x.1) / r.step else (x.2 - c.v) / r.step) + 1) (r.span - c.o) ∧
      c.movesTo r k c' event ∧ exec .take s = exec .take (after c' [] k event))

/-- MAKEUP_DRAW at a MAKEUP fill with positions left (R38, R39, R133, R134): an exhausted draw state asks nothing; else each lookup looks from the draw's
floor, first wlo, for the lowest listed value: one passed over under MOD11SKIP stays listed and the next lookup's floor lies above it, at this
command or a later one; one not passed over leaves the list and is issued; with none the position is blank and the draw state exhausted. The whole
draw, and one with lookups enough, issues the lowest drawable value of the window at once. That a draw may stop between two lookups, its floor kept in
the fill, and go on at a later MAKEUP_DRAW is the model's reading of R133, not the manual's words (log 13). Short of a full list only the value leaves it; a split of the 256th range keeps
the part above the value, drops the part below it, and counts and flags what it drops, with VOID_LIST_INCOMPLETE raised (R134, R135); any other removal
raises no flag. Each removal moves the change count by 1, from 65535 to 0 (R127, R134). -/
def Obligations.DrawTakesLowestValue : Prop :=
  (∀ (f : Fill) (n : Nat) (any : Option Nat) (s : State), s.queue.fill = some f → (s.slot f.slot).source = .makeup →
     f.entries.length < (s.slot f.slot).positions → s.voids.ok →
     let j := s.slot f.slot
     let start := f.floor.getD j.rules.wlo
     let within := fun x => start ≤ x ∧ x ≤ j.rules.whi ∧ listed s.voids.ranges x = true
     let filled := fun g : Fill => ({ s with queue := { s.queue with fill := some g } } : State)
     let withEntry := fun e : Entry => { f with entries := f.entries ++ [e], floor := none }
     let blank : Entry := { value := none, check := none, bookEnd := false }
     let issues := fun (m : Option Nat) (x : Nat) => ∃ t, exec (.makeupDraw m) s = .next t ∧
       t.queue.fill = some { withEntry { value := some x, check := j.rules.checkOf x, bookEnd := false } with drawn := f.drawn ++ [x] } ∧
       t.voids = s.voids.remove x ∧
       s.FlagsDrop t (s.voids.ranges.length = 256 ∧ ∃ lo hi, (lo, hi) ∈ s.voids.ranges ∧ lo < x ∧ x < hi) ∧
       t = { s with queue := { s.queue with fill := t.queue.fill }, voids := t.voids, sup := { s.sup with events := t.sup.events } }
     let exhausts := fun m => exec (.makeupDraw m) s = .next (((filled (withEntry blank)).modSlot f.slot fun j =>
       { j with draw := { exhausted := true, raised := true } }).raiseIf (!j.draw.raised) .rangeExhausted)
     (j.draw.exhausted = true → exec (.makeupDraw any) s = .next (filled (withEntry blank))) ∧
     (j.draw.exhausted = false →
       exec (.makeupDraw (some 0)) s = .next (filled { f with floor := some start }) ∧
       ((∀ x, ¬ within x) → exhausts (some (n + 1))) ∧
       (∀ x, within x → (∀ y, within y → x ≤ y) →
         (j.rules.skipsValue x = true → exec (.makeupDraw (some (n + 1))) s = exec (.makeupDraw (some n)) (filled { f with floor := some (x + 1) })) ∧
         (j.rules.skipsValue x = false → issues (some (n + 1)) x)) ∧
       ∀ m : Option Nat, (∀ k, m = some k → 0 < k ∧ j.rules.whi + 2 ≤ k + start) →
         ((∀ x, within x → j.rules.skipsValue x = true) → exhausts m) ∧
         ∀ x, within x → j.rules.skipsValue x = false → (∀ y, within y → j.rules.skipsValue y = false → x ≤ y) → issues m x)) ∧
  (∀ (x lo hi : Nat) (v : VoidList), v.ok → (lo, hi) ∈ v.ranges → lo ≤ x → x ≤ hi →
     (v.remove x).changes = (v.changes + 1) % 65536 ∧
     (v.ranges.length < 256 ∨ x = lo ∨ x = hi →
       (v.remove x).dropped = v.dropped ∧ (v.remove x).incomplete = v.incomplete ∧
       ∀ y, listed (v.remove x).ranges y = (listed v.ranges y && decide (y ≠ x))) ∧
     (v.ranges.length = 256 → lo < x → x < hi →
       (v.remove x).dropped = min (v.dropped + (x - lo)) 4294967295 ∧ (v.remove x).incomplete = true ∧
       ∀ y, listed (v.remove x).ranges y = (listed v.ranges y && decide (y < lo ∨ x < y))))

/-- Inserting a range (R129 to R131); a single value (R129) is a range of one. Held is a drawn value of a draft or the fill of a MAKEUP slot, and a value
at a position of an AWAITING record of one (R130). Held values stay out and split the range into pieces, the piece below taken before the piece above; a run of
values not held that overlaps or adjoins a range of the list joins it, full list or not, and with fewer than 256 ranges a range with none held is listed;
when no range has room for it, a range that touches none is dropped whole. The list's form is kept. Every value not held and not listed then counts as
dropped (saturating), with the flag set and VOID_LIST_INCOMPLETE raised; no other event flag moves, nor that one when none was dropped. The change count
rises by 1, from 65535 to 0, exactly when the ranges changed or a value was dropped (R127, R131). -/
def Obligations.InsertionListsValues : Prop :=
  (∀ (s : State) (v : Nat), v ∈ s.heldValues ↔
    (∃ d ∈ s.queue.drafts, (s.slot d.slot).source = .makeup ∧ v ∈ d.drawn) ∨
    (∃ f, s.queue.fill = some f ∧ (s.slot f.slot).source = .makeup ∧ v ∈ f.drawn) ∨
    (∃ x ∈ s.window.records, x.closure = .awaiting ∧ (s.slot x.slot).source = .makeup ∧ ∃ p ∈ x.positions, p.entry.value = some v)) ∧
  ∀ (lo hi : Nat) (s : State), s.voids.ok → lo ≤ hi →
    let t := s.insertRange lo hi
    let free := ((List.range (hi + 1 - lo)).filter fun d => decide (lo + d ∉ s.heldValues)).length
    let lost := ((List.range (hi + 1 - lo)).filter fun d => decide (lo + d ∉ s.heldValues) && !listed t.voids.ranges (lo + d)).length
    let same := fun u w : State => u.voids.ranges = w.voids.ranges ∧ u.voids.dropped = w.voids.dropped ∧ u.voids.incomplete = w.voids.incomplete
    t.voids.ok ∧
    (∀ y, listed t.voids.ranges y = true → listed s.voids.ranges y = true ∨ (lo ≤ y ∧ y ≤ hi ∧ y ∉ s.heldValues)) ∧
    (∀ y, listed s.voids.ranges y = true → listed t.voids.ranges y = true) ∧
    (t.voids.incomplete = false → ∀ y, lo ≤ y → y ≤ hi → y ∉ s.heldValues → listed t.voids.ranges y = true) ∧
    (s.voids.ranges.length < 256 → (∀ y, lo ≤ y → y ≤ hi → y ∉ s.heldValues) →
      (∀ y, lo ≤ y → y ≤ hi → listed t.voids.ranges y = true) ∧ t.voids.dropped = s.voids.dropped) ∧
    (∀ (a b : Nat) (r : Nat × Nat), lo ≤ a → a ≤ b → b ≤ hi → (∀ y, a ≤ y → y ≤ b → y ∉ s.heldValues) → r ∈ s.voids.ranges →
      a ≤ r.2 + 1 → r.1 ≤ b + 1 → ∀ y, a ≤ y → y ≤ b → listed t.voids.ranges y = true) ∧
    (s.voids.ranges.length = 256 → (∀ x ∈ s.voids.ranges, x.2 + 1 < lo ∨ hi + 1 < x.1) → free ≠ 0 →
      t.voids = { s.voids with incomplete := true, dropped := min (s.voids.dropped + free) 4294967295,
                               changes := (s.voids.changes + 1) % 65536 } ∧
      t.sup.events = s.sup.events ||| 0x800) ∧
    (∀ h ∈ s.heldValues, (lo < h → h < hi → same t ((s.insertRange lo (h - 1)).insertRange (h + 1) hi)) ∧
      (lo = h → h < hi → t = s.insertRange (lo + 1) hi) ∧ (lo < h → h = hi → t = s.insertRange lo (hi - 1))) ∧
    t.voids.dropped = min (s.voids.dropped + lost) 4294967295 ∧ t.voids.incomplete = (s.voids.incomplete || decide (lost ≠ 0)) ∧
    (t.voids.ranges = s.voids.ranges ∧ lost = 0 → t.voids.changes = s.voids.changes) ∧
    (t.voids.ranges ≠ s.voids.ranges ∨ lost ≠ 0 → t.voids.changes = (s.voids.changes + 1) % 65536) ∧
    s.FlagsDrop t (∃ y, lo ≤ y ∧ y ≤ hi ∧ y ∉ s.heldValues ∧ listed t.voids.ranges y = false) ∧
    ((∀ y, lo ≤ y → y ≤ hi → y ∈ s.heldValues ∨ listed s.voids.ranges y = true) → t = s) ∧
    t = { s with voids := t.voids, sup := { s.sup with events := t.sup.events } }

/-- FILL_COMPLETE of a fill that numbered something (R46): its draft joins behind the drafts held, and with the slot all exhausted the target
becomes its final repeat and note. A fill that numbered nothing (R47) makes no draft: the slot's note and final repeat become the repeat before the
target, or EMPTY when the slot has numbered none, and its skipped delta goes to the slot's draft for that repeat, else to the tally. A RUNNING slot
that is thereby past its final repeat becomes DRAINING, or, for an EMPTY staged job, the change takes effect (R117, R120, R122); with a staged job
already EMPTY it is the model's choice that none does at the RUNNING slot's report (log 37), and at a change the old job's JOB_END joins last (log 38). Then the waiting requests and the target settle (R64, R66,
R67) and the next fill starts; the third clause says when a fill starts, and what with (R23, R45). The last clause gives ownership by the table of R42 (a RUNNING slot with an EMPTY final repeat owns none below the change repeat either, log 15; none owns a
repeat above 4,294,967,250, log 14) and the draft base as R43's lowest repeat. A skipped delta is the plain sum, above 4,000,000,000 too (log 31). -/
def Obligations.FillCompletes : Prop :=
  (∀ (f : Fill) (s : State), s.queue.fill = some f → (s.slot f.slot).positions ≤ f.entries.length → (∃ e ∈ f.entries, e.value.isSome = true) →
     let allOut := if (s.slot f.slot).source = .makeup then (s.slot f.slot).draw.exhausted = true
       else ∀ c ∈ (s.slot f.slot).counters, c.exhausted = true
     ∃ t, exec .fillComplete s = .next t ∧
       t.queue.drafts = s.queue.drafts ++ [{ repeatIndex := f.target, slot := f.slot, entries := f.entries, skipped := f.skipped,
                                              drawn := f.drawn, before := f.before }] ∧
       (allOut → t.slot f.slot = { s.slot f.slot with final := .known f.target, note := .known f.target }) ∧
       (¬ allOut → t.slot f.slot = s.slot f.slot) ∧ t.slot f.slot.other = s.slot f.slot.other ∧
       t.Settled none s.window.target s.port s.sup.events ∧
       t = { s with slotA := t.slotA, slotB := t.slotB, queue := { s.queue with drafts := t.queue.drafts, fill := t.queue.fill },
                    window := { s.window with target := t.window.target }, ports := t.ports, sup := { s.sup with events := t.sup.events } }) ∧
  (∀ (f : Fill) (s : State), s.queue.fill = some f → (s.slot f.slot).positions ≤ f.entries.length → (∀ e ∈ f.entries, e.value = none) →
     let j := s.slot f.slot
     let prev := fun d : Draft => d.slot = f.slot ∧ d.repeatIndex + 1 = f.target
     let final : Final := if (∃ r, j.first = some r ∧ r < f.target) ∧ (j.tally.repeatsOpened ≠ 0 ∨ ∃ d ∈ s.queue.drafts, d.slot = f.slot) then
       .known (f.target - 1) else .empty
     let j' := fun tally : Tally => { j with final, note := final, tally }
     ∃ (t u v : State), exec .fillComplete s = .next t ∧
       v.slot f.slot.other = s.slot f.slot.other ∧
       v = { s with slotA := v.slotA, slotB := v.slotB, queue := { s.queue with
         fill := none
         drafts := s.queue.drafts.map (fun d => if prev d then { d with skipped := d.skipped + f.skipped } else d) } } ∧
       ((∃ d ∈ s.queue.drafts, prev d) → v.slot f.slot = j' j.tally) ∧
       ((¬ ∃ d ∈ s.queue.drafts, prev d) →
         v.slot f.slot = j' { j.tally with skipped := min (j.tally.skipped + f.skipped) 4294967295 }) ∧
       (let past := fun k : SlotId => match (v.slot k).final with
          | .unset => False
          | .known g => (∃ n, s.window.newest = some n ∧ g ≤ n) ∨ v.passed g
          | .empty => True
        (v.staged = none → (v.slot f.slot).state = .running → past f.slot →
          u = (v.modSlot f.slot fun x => { x with state := .draining }).queueJobEnd f.slot) ∧
        (v.staged = none → ((v.slot f.slot).state ≠ .running ∨ ¬ past f.slot) → u = v) ∧
        (∀ i rc, v.staged = some (i, rc) →
          (i = f.slot ∧ final = .empty ∧ (∃ k, v.runningSlot = some k ∧ past k) → u = v.changeTakesEffect) ∧
          (¬ (i = f.slot ∧ final = .empty ∧ ∃ k, v.runningSlot = some k ∧ past k) → u = v))) ∧
       t.Settled none s.window.target s.port u.sup.events ∧
       t = { u with queue := { u.queue with fill := t.queue.fill }, window := { s.window with target := t.window.target },
                    ports := t.ports, sup := { s.sup with events := t.sup.events } }) ∧
  (∀ (s : State) (g : Fill), s.nextFill = some g ↔
    s.queue.fill = none ∧ s.queue.drafts.length < 4 ∧ ∃ b, s.draftBase = some b ∧ s.ownerOf (b + s.queue.drafts.length) = some g.slot ∧
      ((s.slot g.slot).note = .unset ∨ ∃ n, (s.slot g.slot).note = .known n ∧ b + s.queue.drafts.length ≤ n) ∧
      g = { slot := g.slot, target := b + s.queue.drafts.length, before := g.before, entries := [], skipped := 0, drawn := [], floor := none } ∧
      g.before.drawExhausted = (s.slot g.slot).draw.exhausted ∧
      g.before.counters = (s.slot g.slot).counters.map fun c => { v := c.v, o := c.o, exhausted := c.exhausted, domainEnded := c.domainEnded }) ∧
  ∀ (s : State) (q b : Nat),
    let mayOwn := fun k : SlotId => q ≤ 4294967250 ∧
      match (s.slot k).final with | .unset => True | .known g => q ≤ g | .empty => False
    let eligible := fun c : Nat => (match s.window.newest with | some n => n < c | none => s.plan.lMax ≤ c) ∧
      (∀ p, s.queue.passFloor = some p → p ≤ c) ∧ (s.ownerOf c).isSome = true
    ((∀ k, (s.slot k).state ≠ .running) → s.ownerOf q = none) ∧
    (∀ i k, (s.slot i).state = .running → (s.slot i.other).state ≠ .running → (s.slot i).change = none →
      ((s.slot i.other).change = none → (s.ownerOf q = some k ↔ k = i ∧ mayOwn k)) ∧
      ∀ rc, (s.slot i.other).change = some rc → (s.ownerOf q = some k ↔ k = (if rc ≤ q then i.other else i) ∧ mayOwn k)) ∧
    (s.draftBase = some b ↔ eligible b ∧ ∀ c, eligible c → b ≤ c) ∧ (s.draftBase = none ↔ ∀ c, ¬ eligible c)

/-! ### Flushes, changes and ends of jobs -/

/-- A flush from repeat `q` (R50 to R52): drafts and a fill at or above it go, the counters of a slot that loses items return to the before-state of
its oldest removed item while the event marks stay, its exhaustion note and the final repeat it set are withdrawn, and drawn values return to the
void list, with VOID_LIST_INCOMPLETE raised exactly when one of them is dropped (R131) and no other event flag moved. -/
def Obligations.FlushTakesBackNumbers : Prop :=
  ∀ (q : Nat) (s : State),
    let t := s.flush q
    let lost := fun (i : SlotId) (d : Draft) => decide (d.slot = i ∧ q ≤ d.repeatIndex)
    t.queue = { s.queue with drafts := s.queue.drafts.filter (fun d => decide (d.repeatIndex < q)),
                             fill := s.queue.fill.filter (fun f => decide (f.target < q)) } ∧
    (∀ i : SlotId, s.queue.drafts.find? (lost i) = none → (∀ f, s.queue.fill = some f → f.slot = i → f.target < q) → t.slot i = s.slot i) ∧
    (∀ (i : SlotId) (b : Before),
      ((∃ d, s.queue.drafts.find? (lost i) = some d ∧ b = d.before) ∨
        (s.queue.drafts.find? (lost i) = none ∧ ∃ f, s.queue.fill = some f ∧ f.slot = i ∧ q ≤ f.target ∧ b = f.before)) →
      let j := s.slot i
      t.slot i = { j with
        counters := (t.slot i).counters
        draw := { exhausted := b.drawExhausted, raised := j.draw.raised }
        note := .unset
        final := if j.note = .unset then j.final else
          match s.staged with
          | some (_, rc) => if j.state ≠ .running then .unset
            else if (∃ f, j.first = some f ∧ rc ≤ f) ∨ rc = 0 then .empty else .known (rc - 1)
          | none => .unset } ∧
      ∀ (a : Nat) (c : Counter) (x : CounterSnap), j.counters[a]? = some c → b.counters[a]? = some x →
        (t.slot i).counters[a]? = some { v := x.v, o := x.o, exhausted := x.exhausted, domainEnded := x.domainEnded, raised := c.raised }) ∧
    t.voids = (({ s with queue := t.queue } : State).insertValues
      ((s.queue.drafts.filter fun d => decide (q ≤ d.repeatIndex)).flatMap Draft.drawn ++
        ((s.queue.fill.filter fun f => decide (q ≤ f.target)).map Fill.drawn).getD [])).voids ∧
    s.FlagsDrop t (s.flushDrops q) ∧
    t = { s with slotA := t.slotA, slotB := t.slotB, queue := t.queue, voids := t.voids, sup := { s.sup with events := t.sup.events } }

/-- A SWAP that passes its checks (R114): the LOADED slot is staged with the change repeat as its first; the queue is flushed from it; the RUNNING
job's final repeat becomes the one before it, or EMPTY, unless it is set already; a fill below it goes
on, else the next fill starts (R45), and the waiting requests settle (R66, R67). The word in TASK is letters in ASCII (log 39). -/
def Obligations.SwapStagesChange : Prop :=
  ∀ (i : SlotId) (bs : Bytes) (s : State), s.takesTask .swap bs → (s.slot i).state = .running → (s.slot i.other).state = .loaded →
    (∀ k, (s.slot k).change = none) →
    let rc := field bs 0 4
    rc ≤ 4294967250 → (s.slot i).geometry.lanes = (s.slot i.other).geometry.lanes →
    (s.slot i).geometry.around = (s.slot i.other).geometry.around → (match s.window.newest with | some n => n < rc | none => s.plan.lMax ≤ rc) →
    let v := (s.modSlot i.other fun j => { j with change := some rc, first := some rc }).flush rc
    ∃ t, exec .swap s = .next t ∧
      t.slot i.other = v.slot i.other ∧ (t.slot i.other).state = .loaded ∧ (t.slot i.other).change = some rc ∧
      (t.slot i.other).first = some rc ∧
      t.slot i = { v.slot i with final := if (v.slot i).final = .unset then
        (if (∃ f, (s.slot i).first = some f ∧ rc ≤ f) ∨ rc = 0 then .empty else .known (rc - 1)) else (v.slot i).final } ∧
      t.queue.drafts = s.queue.drafts.filter (fun d => decide (d.repeatIndex < rc)) ∧ t.queue.passFloor = s.queue.passFloor ∧
      t.Settled v.queue.fill s.window.target s.port v.sup.events ∧ t.voids = v.voids ∧
      (∃ last, (t.sup.running.bind TaskRun.outcome) = some (.carriedOut (BitVec.ofNat 8 i.other.code :: beBytes 4 rc ++ last)) ∧
        last = (match (t.slot i).final with | .known f => 0 :: beBytes 4 f | .empty => 1 :: beBytes 4 0 | .unset => 0 :: beBytes 4 0)) ∧
      t = { s with slotA := t.slotA, slotB := t.slotB, queue := t.queue, window := { s.window with target := t.window.target },
                   voids := t.voids, ports := t.ports, sup := { s.sup with events := t.sup.events, task := 0x53574150, running := t.sup.running } }

/-- What STOP leaves (R118, R68, R122): the queue is flushed above newest, the RUNNING job ends at newest or EMPTY, a staged job stays LOADED as
it was loaded, no repeat above newest is owned, the waiting requests for one are answered, and a JOB_END that is due joins the queue. The event flags
stand but for VOID_LIST_INCOMPLETE, raised exactly when the flush drops a value. That an append is due is the model's own field (log 19), and
the word in TASK is letters in ASCII (log 39). -/
def Obligations.StopEndsNumbering : Prop :=
  ∀ (i : SlotId) (bs : Bytes) (s : State), s.takesTask .stop bs → (s.slot i).state = .running → (s.slot i.other).state ≠ .running →
    (s.slot i).change = none →
    let v := s.flush s.firstUnopened
    let final : Final := match s.window.newest with
      | some n => if ∃ f, (s.slot i).first = some f ∧ n < f then .empty else .known n
      | none => .empty
    ∃ t, exec .stop s = .next t ∧
      t.slot i = { v.slot i with state := .draining, final := final, note := .unset } ∧
      ((s.slot i.other).change = none → t.slot i.other = v.slot i.other) ∧
      ((s.slot i.other).change.isSome = true →
        t.slot i.other = { v.slot i.other with
          first := none, final := .unset, change := none, note := .unset, counters := (t.slot i.other).counters
          draw := { (s.slot i.other).draw with exhausted := false } } ∧
        ∀ (a : Nat) (c l : Counter), (s.slot i.other).counters[a]? = some c →
          ((s.slot i.other).rules.counters (s.slot i.other).geometry.lanes)[a]? = some l →
          (v.slot i.other).counters.length = (s.slot i.other).counters.length →
          (t.slot i.other).counters[a]? = some { l with raised := c.raised }) ∧
      t.queue = v.queue ∧ t.voids = v.voids ∧ t.window = { s.window with target := none } ∧
      (∀ q, t.ownerOf q = none) ∧
      (∀ (p : PortId) (q : Request), s.plan.lMax ≤ q.repeatIndex → s.atOrBelowNewest q.repeatIndex = false →
        let answer : Answer := if s.belowFloor q.repeatIndex then .late q.repeatIndex else .blank q.repeatIndex
        ((s.port p).slot = .preparing q .waiting → t.port p = { s.port p with slot := .preparing q (.building answer) }) ∧
        ((s.port p).slot = .held q .waiting → t.port p = { s.port p with slot := .held q (.building answer) })) ∧
      (∀ p : PortId, (∀ q, (s.port p).slot ≠ .preparing q .waiting ∧ (s.port p).slot ≠ .held q .waiting) → t.port p = s.port p) ∧
      (let ends := fun k : SlotId => if (t.slot k).state = .draining ∧ (∀ x ∈ s.window.records, x.slot ≠ k) ∧
          s.account.queue.any (Item.isJobEndOf k) = false then [Item.jobEnd k (t.slot k).endBytes] else []
       t.account.queue = s.account.queue ++ (ends .A ++ ends .B)) ∧
      (t.account.due = (s.account.due || (s.account.queue.isEmpty && !t.account.queue.isEmpty))) ∧
      s.FlagsDrop t (s.flushDrops s.firstUnopened) ∧
      (t.sup.running.bind TaskRun.outcome) = some (.carriedOut (BitVec.ofNat 8 i.code ::
        (match final with | .known f => 0 :: beBytes 4 f | _ => 1 :: beBytes 4 0))) ∧
      t = { s with slotA := t.slotA, slotB := t.slotB, queue := t.queue, window := t.window, voids := t.voids,
                   account := { s.account with queue := t.account.queue, due := t.account.due }, ports := t.ports,
                   sup := { s.sup with events := t.sup.events, task := 0x53544F50, running := t.sup.running } }

/-- QUIT in a run (R99, R119): every AWAITING record closes ABORTED, in ascending order, with its numbered positions counted void_aborted and
every one of them handed to the void list; drafts and a fill above newest are flushed; the RUNNING job ends at newest or EMPTY and DRAINING; a staged
job stays LOADED, unstaged; waiting and held requests above newest are answered LATE or BLANK; a JOB_END that is due joins the queue; RESULT holds how
many records closed. What was left of a closure in progress is taken first (log 13). Each closure does to the tally, the ports and the void list what
ClosureTakesEffect says, and the flush what FlushTakesBackNumbers says; the event flags stand but for VOID_LIST_INCOMPLETE, raised exactly when an
insertion drops a value. That an append is due is the model's own field (log 19), and the word in TASK is letters in ASCII (log 39). -/
def Obligations.QuitAbortsOpenRecords : Prop :=
  ∀ (bs : Bytes) (s : State), s.takesTask .quit bs → s.inRun = true → s.slotsOk → s.window.ok → s.voids.ok → (∀ i, (s.slot i).tally.ok) →
    let open' := s.window.records.filter fun x => decide (x.closure = .awaiting)
    let w := s.finishClosing
    let aborted := fun xs : List Record => xs.foldl (fun u x => u.closeRecord x.repeatIndex .aborted []) w
    let a := aborted open'
    let v := a.flush s.firstUnopened
    let numbers := fun x : Record => x.positions.filterMap fun p => p.entry.value
    ∃ t, exec .quit s = .next t ∧
      t.window.records = s.window.records.map (fun x => if x.closure = .awaiting then
        { x with closure := .aborted
                 positions := x.positions.map fun p => { p with outcome := if p.entry.value.isSome then .aborted else .blank } } else x) ∧
      (∀ i : SlotId, (t.slot i).state ≠ .running) ∧
      (∀ i : SlotId, (s.slot i).state = .running → (t.slot i).state = .draining ∧ (t.slot i).note = .unset ∧
        (t.slot i).final = (match s.window.newest with
          | some n => if ∃ f, (s.slot i).first = some f ∧ n < f then .empty else .known n
          | none => .empty)) ∧
      (∀ i : SlotId, (s.slot i).state ≠ .running → (t.slot i).state = (s.slot i).state) ∧
      (∀ i : SlotId, (t.slot i).change = none ∧
        ((s.slot i).change.isSome = true → (t.slot i).first = none ∧ (t.slot i).final = .unset ∧ (t.slot i).note = .unset)) ∧
      t.queue = { s.queue with drafts := s.queue.drafts.filter (fun d => decide (d.repeatIndex < s.firstUnopened)),
                               fill := s.queue.fill.filter (fun f => decide (f.target < s.firstUnopened)) } ∧
      (∀ (p : PortId) (q : Request), s.plan.lMax ≤ q.repeatIndex → s.atOrBelowNewest q.repeatIndex = false →
        let answer : Answer := if s.belowFloor q.repeatIndex then .late q.repeatIndex else .blank q.repeatIndex
        ((s.port p).slot = .preparing q .waiting → (t.port p).slot = .preparing q (.building answer)) ∧
        ((s.port p).slot = .held q .waiting → (t.port p).slot = .held q (.building answer))) ∧
      (∀ i : SlotId, (t.slot i).tally.voidAborted = min ((s.slot i).tally.voidAborted + s.openCount i) 4294967295) ∧
      (∀ i : SlotId, (t.slot i).tally = { (s.slot i).tally with voidAborted := (t.slot i).tally.voidAborted }) ∧
      (t.voids.incomplete = false → ∀ x ∈ open', ∀ p ∈ x.positions, ∀ value, p.entry.value = some value →
        listed t.voids.ranges value = true ∨ value ∈ t.heldValues) ∧
      (let ends := fun k : SlotId => if (t.slot k).state = .draining ∧ (∀ x ∈ s.window.records, x.slot ≠ k) ∧
          w.account.queue.any (Item.isJobEndOf k) = false then [Item.jobEnd k (t.slot k).endBytes] else []
       t.account.queue = w.account.queue ++ open'.map (fun x => Item.repeatItem x.repeatIndex) ++ (ends .A ++ ends .B)) ∧
      (∀ q, t.ownerOf q = none) ∧ t.window.newest = s.window.newest ∧ t.window.target = none ∧ t.window.closing = none ∧
      (t.sup.running.bind TaskRun.outcome) = some (.carriedOut [BitVec.ofNat 8 open'.length]) ∧
      (∀ i : SlotId, (s.slot i).change = none →
        t.slot i = { v.slot i with state := (t.slot i).state, final := (t.slot i).final, note := (t.slot i).note } ∧
        ((s.slot i).state ≠ .running → t.slot i = v.slot i)) ∧
      (∀ i : SlotId, (s.slot i).change.isSome = true →
        t.slot i = { v.slot i with
          first := none, final := .unset, change := none, note := .unset, counters := (t.slot i).counters
          draw := { (s.slot i).draw with exhausted := false } } ∧
        ∀ (k : Nat) (c l : Counter), (s.slot i).counters[k]? = some c →
          ((s.slot i).rules.counters (s.slot i).geometry.lanes)[k]? = some l →
          (v.slot i).counters.length = (s.slot i).counters.length → (t.slot i).counters[k]? = some { l with raised := c.raised }) ∧
      t.voids = v.voids ∧
      (∀ p : PortId, t.port p = { a.port p with slot := (t.port p).slot } ∧
        ((∀ q, (s.port p).slot ≠ .preparing q .waiting ∧ (s.port p).slot ≠ .held q .waiting) → t.port p = a.port p)) ∧
      (t.account.due = (w.account.due || (w.account.queue.isEmpty && !t.account.queue.isEmpty))) ∧
      s.FlagsDrop t ((∃ c, s.window.closing = some c ∧ s.dropsInserting c.values) ∨
        (∃ k x, open'[k]? = some x ∧
          let u := aborted (open'.take k)
          ({ u with window := (u.closeRecord x.repeatIndex .aborted []).window } : State).dropsInserting (numbers x)) ∨
        a.flushDrops s.firstUnopened) ∧
      t = { s with slotA := t.slotA, slotB := t.slotB, queue := t.queue, receiver := w.receiver, voids := t.voids, ports := t.ports
                   window := { s.window with records := t.window.records, target := none, closing := none }
                   account := { s.account with queue := t.account.queue, due := t.account.due }
                   sup := { s.sup with events := t.sup.events, task := 0x51554954, running := t.sup.running } }

/-! ### The account buffer -/

/-- NEXT (R152) reports the oldest record's size, the record count, the used bytes and the record itself and changes nothing; RLSE (R153) moves Ro past
that record and, at the tail mark or the end of the ring, to 0; both are refused with EMPTY when the ring is empty. With items waiting RLSE then
attempts appends, from the state the release leaves, until none is due. An Ro at 8192 or beyond is taken mod 8192 (log 25), a record of no known type counts as 24 bytes (log 28), and that an
attempt is due, with the bound on them, is the model's own field (log 19). The used bytes are those of R146's table, whatever the tail mark: a tail counts
as used. -/
def Obligations.NextReadsAndReleaseFrees : Prop :=
  ∀ (bs : Bytes) (s : State),
    let a := s.account
    let type := (a.ring.read a.ro).toNat
    let size := if type = 1 then 12 + 8 * (a.ring.read (a.ro + 1)).toNat else if type = 2 then 32 else if type = 3 then 52 else 24
    let wraps := a.tail = some (a.ro + size)
    let b := { a with ro := if wraps then 0 else (a.ro + size) % 8192, tail := if wraps then none else a.tail, count := a.count - 1 }
    (a.count = 0 → a.used = 0) ∧ (a.count ≠ 0 → a.ro < a.wo → a.used = a.wo - a.ro) ∧
    (a.count ≠ 0 → a.wo < a.ro → a.used = (8192 - a.ro) + a.wo) ∧ (a.count ≠ 0 → a.ro = a.wo → a.used = 8192) ∧
    (a.count = 0 → s.takesTask .next bs → exec .next s = .next (s.taskTaken .next bs (.refusal 9))) ∧
    (a.count = 0 → s.takesTask .rlse bs → exec .rlse s = .next (s.taskTaken .rlse bs (.refusal 9))) ∧
    (a.count ≠ 0 → s.takesTask .next bs → ∃ r : Bytes, exec .next s = .next (s.taskTaken .next bs (.carriedOut r)) ∧ r.length = 6 + size ∧
      field r 0 2 = size % 2 ^ 16 ∧ field r 2 2 = a.count % 2 ^ 16 ∧ field r 4 2 = a.used % 2 ^ 16 ∧
      ∀ k, k < size → byteAt r (6 + k) = a.ring.read (a.ro + k)) ∧
    (a.count ≠ 0 → s.takesTask .rlse bs → a.queue = [] → ∃ t, exec .rlse s = .next t ∧
      t.account = { b with high := decide (s.plan.bufHigh * 256 ≤ b.used), due := false } ∧
      t.sup = { (s.taskTaken .rlse bs (.carriedOut (beBytes 2 b.count ++ beBytes 2 b.used))).sup with events := t.sup.events } ∧
      t.sup.events = (if s.plan.bufHigh * 256 ≤ b.used ∧ a.high = false then s.sup.events ||| 0x010 else s.sup.events) ∧
      t = { s with account := t.account, sup := t.sup }) ∧
    (a.count ≠ 0 → s.takesTask .rlse bs →
      let released : State := { s with
        account := { b with high := decide (s.plan.bufHigh * 256 ≤ b.used), due := !a.queue.isEmpty }
        sup := { s.sup with events := if s.plan.bufHigh * 256 ≤ b.used ∧ a.high = false then s.sup.events ||| 0x010 else s.sup.events } }
      ∃ n u, released.appendsTo n u ∧ u.account.due = false ∧
        exec .rlse s = .next (u.taskTaken .rlse bs (.carriedOut (beBytes 2 u.account.count ++ beBytes 2 u.account.used))))

/-- PVOD (R158, R159): its checks in order with their codes; then the count moves from delivered to post_voided, the range enters the void list,
the POST_VOID item joins the pending queue, and with nothing waiting before it an append is attempted in the same step (R148). That an append is due is the
model's own field (log 19), and the word in TASK is letters in ASCII (log 39). -/
def Obligations.PostVoidChecksAndEffects : Prop :=
  ∀ (bs : Bytes) (s : State), s.takesTask .pvod bs →
    let tag := field bs 0 2
    let lo := field bs 2 5
    let hi := field bs 7 5
    let refused := fun code => exec .pvod s = .next (s.taskTaken .pvod bs (.refusal code))
    let holds := fun k : SlotId => tag ≠ 0 ∧ (s.slot k).state ≠ .free ∧ (s.slot k).tag = tag
    let order : SlotState → Nat := fun | .running => 0 | .draining => 1 | .ended => 2 | .loaded => 3 | .free => 4
    let chosen := fun k : SlotId => holds k ∧ (holds k.other → order (s.slot k).state < order (s.slot k.other).state ∨
      (order (s.slot k).state = order (s.slot k.other).state ∧ k = .A))
    let openValue := ∃ x ∈ s.window.records, x.closure = .awaiting ∧ ∃ p ∈ x.positions, ∃ v, p.entry.value = some v ∧ lo ≤ v ∧ v ≤ hi
    let small := s.account.queue.countP Item.isSmall
    (hi < lo ∨ 9999999999 < hi → refused 3) ∧
    (lo ≤ hi → hi ≤ 9999999999 → (∀ k, ¬ holds k) → refused 5) ∧
    ∀ k : SlotId, lo ≤ hi → hi ≤ 9999999999 → chosen k →
      ((s.slot k).tally.delivered < hi - lo + 1 → refused 12) ∧
      (hi - lo + 1 ≤ (s.slot k).tally.delivered → openValue → refused 10) ∧
      (hi - lo + 1 ≤ (s.slot k).tally.delivered → ¬ openValue → 8 ≤ small → refused 11) ∧
      (hi - lo + 1 ≤ (s.slot k).tally.delivered → ¬ openValue → small < 8 → ∃ t, exec .pvod s = .next t ∧
        let u : State := s.insertRange lo hi
        let it : Item := .postVoid ([4, 0] ++ beBytes 2 tag ++ List.replicate 8 0 ++ beBytes 5 lo ++ beBytes 5 hi ++ beBytes 2 (field bs 12 2))
        t.slot k = { s.slot k with tally := { (s.slot k).tally with
          delivered := (s.slot k).tally.delivered - (hi - lo + 1)
          postVoided := min ((s.slot k).tally.postVoided + (hi - lo + 1)) 4294967295 } } ∧
        t.slot k.other = s.slot k.other ∧
        t.voids = (s.insertRange lo hi).voids ∧
        (s.account.queue ≠ [] → t.account = { s.account with queue := s.account.queue ++ [it] } ∧ t.sup.events = u.sup.events) ∧
        (s.account.queue = [] → ∃ x, exec .append { u with account := { s.account with queue := [it], due := true } } = .next x ∧
          t.account = x.account ∧ t.sup.events = x.sup.events) ∧
        (t.sup.running.bind TaskRun.outcome) = some (.carriedOut (BitVec.ofNat 8 k.code :: beBytes 4 (hi - lo + 1) ++
          beBytes 4 (t.slot k).tally.delivered ++ beBytes 4 (t.slot k).tally.postVoided)) ∧
        t = { s with slotA := t.slotA, slotB := t.slotB, voids := t.voids, account := t.account,
                     sup := { s.sup with events := t.sup.events, task := 0x50564F44, running := t.sup.running } })

/-- APPEND of a due item (R146, R147, R150): a record that fits is placed whole by the table of R147, over free bytes only, and the other bytes of the
ring stand; one that does not fit stays in front, sets the full mark and, when it was clear, raises BUFFER_FULL. The REPEAT, JOB_START and JOB_END
records hold their fields at the places of R191 (R112, R122, R149). That an attempt is due is the model's own field (log 19). -/
def Obligations.AppendPlacesRecordOrWaits : Prop :=
  (∀ (it : Item) (rest : List Item) (s : State), s.account.queue = it :: rest → s.account.due = true → s.account.ok → s.sizesOk →
    let a := s.account
    let z := (s.itemBytes it).length
    let fits := a.count = 0 ∨ (a.ro < a.wo ∧ (a.wo + z ≤ 8192 ∨ z < a.ro)) ∨ (a.wo < a.ro ∧ a.wo + z < a.ro)
    let offset := if a.wo + z ≤ 8192 then a.wo else 0
    let unreleased := fun k => a.count ≠ 0 ∧ ((a.ro < a.wo ∧ a.ro ≤ k ∧ k < a.wo) ∨ (a.wo < a.ro ∧ (a.ro ≤ k ∨ k < a.wo)) ∨ a.ro = a.wo)
    (fits → ∃ t, exec .append s = .next t ∧
      (∀ k, k < z → t.account.ring.read (offset + k) = (s.itemBytes it).getD k 0) ∧
      (∀ k, k < offset ∨ offset + z ≤ k → t.account.ring.read k = a.ring.read k) ∧
      (∀ k, k < 8192 → unreleased k → k < offset ∨ offset + z ≤ k) ∧
      t.account.wo = (if offset + z = 8192 then 0 else offset + z) ∧ t.account.ro = (if a.count = 0 then offset else a.ro) ∧
      t.account.tail = (if a.count = 0 then none else if offset = a.wo then a.tail else some a.wo) ∧
      t.account.count = a.count + 1 ∧ t.account.full = false ∧ (t.account.queue ≠ [] → t.account.due = true) ∧
      ∃ more, t.account.queue = rest ++ more) ∧
    (¬ fits → exec .append s = .next { s with
      account := { a with full := true, due := false }
      sup := { s.sup with events := if a.full then s.sup.events else s.sup.events ||| 0x020 } })) ∧
  (∀ (r : Nat) (x : Record) (s : State), s.record r = some x → x.positions.length ≤ 16 →
    let z := s.itemBytes (.repeatItem r)
    z.length = 12 + 8 * x.positions.length ∧ byteAt z 0 = 1 ∧ (byteAt z 1).toNat = x.positions.length ∧
    field z 2 2 = (s.slot x.slot).tag % 2 ^ 16 ∧ field z 4 4 = r % 2 ^ 32 ∧
    (byteAt z 8).toNat = (match x.closure with | .awaiting => 0 | .verified => 1 | .unverified => 2 | .aborted => 3) ∧
    (byteAt z 9).toNat = x.served.toNat ∧ (byteAt z 10).toNat = x.lost.toNat ∧ byteAt z 11 = 0 ∧
    ∀ k p, x.positions[k]? = some p →
      field z (12 + 8 * k) 5 = (p.entry.value.getD 0) % 2 ^ 40 ∧ byteAt z (17 + 8 * k) = p.entry.check.getD 0 ∧
      (byteAt z (18 + 8 * k)).toNat = (match p.outcome with
        | .open => 0 | .delivered => 1 | .blank => 2 | .waste => 3 | .misfire => 4 | .stationLost => 5 | .unserved => 6 | .plyMissing => 7
        | .mismatch => 8 | .unreadable => 9 | .noForm => 10 | .unverified => 11 | .aborted => 12) ∧
      (byteAt z (19 + 8 * k)).toNat = (if p.entry.value = none then 1 else 0) + (if p.entry.bookEnd then 2 else 0)) ∧
  ∀ j : JobSlot,
    (let z := j.startBytes
     let makeup := j.source = .makeup
     z.length = 32 ∧ byteAt z 0 = 2 ∧ byteAt z 1 = 0 ∧ field z 2 2 = j.tag % 2 ^ 16 ∧ (∀ k, 4 ≤ k → k < 12 → byteAt z k = 0) ∧
     byteAt z 12 = (if makeup then 1 else 0) ∧ byteAt z 13 = (if makeup then 2 else if j.rules.mode = .stacked then 1 else 0) ∧
     (byteAt z 14).toNat = j.rules.width % 256 ∧ (byteAt z 15).toNat = (if makeup then 0 else j.rules.step % 256) ∧
     byteAt z 16 = (if ¬ makeup ∧ j.rules.descending = true then 1 else 0) ∧
     field z 17 5 = (if makeup then j.rules.wlo else j.rules.start) % 2 ^ 40 ∧
     field z 22 5 = (if makeup then j.rules.whi else j.rules.span) % 2 ^ 40 ∧
     (byteAt z 27).toNat = (match j.rules.scheme with | .none => 0 | .mod7 => 1 | .mod10w => 2 | .mod11x => 3 | .mod11skip => 4) ∧
     (byteAt z 28).toNat = j.geometry.lanes % 256 ∧ (byteAt z 29).toNat = j.geometry.around % 256 ∧
     byteAt z 30 = (match j.geometry.order with | .acrossFirst => 0 | .aroundFirst => 1) ∧ byteAt z 31 = 0) ∧
    let z := j.endBytes
    z.length = 52 ∧ byteAt z 0 = 3 ∧ byteAt z 1 = 0 ∧ field z 2 2 = j.tag % 2 ^ 16 ∧ (∀ k, 4 ≤ k → k < 12 → byteAt z k = 0) ∧
    (List.range 10).map (fun k => field z (12 + 4 * k) 4) =
      [j.tally.repeatsOpened, j.tally.issued, j.tally.delivered, j.tally.voidStation, j.tally.voidReader, j.tally.voidUnverified,
        j.tally.voidAborted, j.tally.postVoided, j.tally.blank, j.tally.skipped].map (· % 2 ^ 32)

/-- What an append does beyond the ring (R149, R151, R81, R68, R122, R123): after it BUFFER_HIGH compares the used bytes with the threshold. JOB_START
and POST_VOID do no more and raise nothing else; JOB_END makes its slot ENDED, raises JOB_ENDED and nothing else, and stops the timers whose conditions then fail; a REPEAT record leaves the
window, which is compared with its threshold; then an opening that had stopped at the span limit resumes with the drafts that are ready and fit, in turn,
until none may open (H6), and without one nothing opens; then every held request is retaken, what waits settles, and a DRAINING slot with no record left
queues its JOB_END. That ready drafts open within the append, and that one which waits on a fill goes on at a RECORD_OPEN, is the model's reading (log 22).
With no pass at a retake (R65), each port, the target and the next fill are stated one by one. That an attempt is due, before and after, is the model's
own field (log 19). -/
def Obligations.AppendEffectByItem : Prop :=
  ∀ (it : Item) (rest : List Item) (at' : Nat) (s : State), s.account.queue = it :: rest → s.account.due = true →
    s.account.place (s.itemBytes it).length = some at' → ∃ t, exec .append s = .next t ∧
      (t.account.high = decide (s.plan.bufHigh * 256 ≤ t.account.used) ∧
        t.sup.events.getLsbD 4 = (s.sup.events.getLsbD 4 || (t.account.high && !s.account.high))) ∧
      (it.isSmall = true → (∀ i, it.isJobEndOf i = false) →
        t = { s with account := t.account, sup := { s.sup with
          events := s.sup.events ||| if t.account.high && !s.account.high then 0x010 else 0 } }) ∧
      (∀ i bs, it = .jobEnd i bs →
        t.slot i = { s.slot i with state := .ended } ∧ t.slot i.other = s.slot i.other ∧
        t.sup.events = s.sup.events ||| (if t.account.high && !s.account.high then 0x010 else 0) ||| 0x200 ∧
        (∀ p : PortId, t.port p = { s.port p with timer :=
          if s.run = true ∧ t.inRun = true ∧ s.plan.silence ≠ 0 ∧ (s.port p).state = .active then (s.port p).timer else none }) ∧
        t = { s with slotA := t.slotA, slotB := t.slotB, account := t.account, ports := t.ports, sup := { s.sup with events := t.sup.events } }) ∧
      (∀ r x, it = .repeatItem r → s.record r = some x →
        let left := s.window.records.filter (fun y => decide (y.repeatIndex ≠ r))
        let v : State := { s with
          window := { s.window with records := left, high := decide (s.plan.winHigh ≤ left.length) }
          account := { s.account.placed at' (s.itemBytes it) with queue := rest, full := false, high := t.account.high }
          sup := { s.sup with events := s.sup.events ||| (if t.account.high && !s.account.high then 0x010 else 0) |||
            (if s.plan.winHigh ≤ left.length ∧ s.window.high = false then 0x004 else 0) } }
        let stopped := (∃ g, s.window.target = some g ∧ ∀ b, s.draftBase = some b → b ≤ g) ∧ s.spanStops
        ∃ (k : Nat) (w : State), v.opensTo k w ∧ (¬ stopped → k = 0) ∧ (stopped → ¬ w.mayOpen) ∧
          t.window.records.map Record.repeatIndex = left.map Record.repeatIndex ++ (s.queue.drafts.take k).map Draft.repeatIndex ∧
          t.window.records = w.window.records ∧ t.window.newest = w.window.newest ∧
          t.window.high = decide (s.plan.winHigh ≤ t.window.records.length) ∧ (∀ i, (t.slot i).tally = (w.slot i).tally) ∧
          t.plan = s.plan ∧ t.receiver = s.receiver ∧ t.run = s.run ∧
          (let u := w.retakeHeld.queueJobEnd x.slot
           t = { u with account := { u.account with due := !u.account.queue.isEmpty } }) ∧
          ((w.window.records ≠ [] ∨ ∀ (p : PortId) (q : Request) (b : Nat), (w.port p).slot = .held q .waiting → w.draftBase = some b →
              max w.firstUnopened (q.repeatIndex - 47) ≤ b) →
            let asks := fun g => ∃ (p : PortId) (q : Request), (w.port p).slot = .held q .waiting ∧ ¬ t.reached q.repeatIndex ∧
              ¬ t.passed q.repeatIndex ∧ g = q.repeatIndex
            ∃ (ports : PortId → Port) (target : Option Nat), (∀ p, t.RetakesPort (w.port p) (ports p)) ∧
              (∀ g, asks g ∨ w.window.target = some g → ∃ h, target = some h ∧ g ≤ h) ∧
              (∀ h, target = some h → asks h ∨ w.window.target = some h) ∧
              t.Settled w.queue.fill target ports w.sup.events ∧
              (∀ i, t.slot i = w.slot i) ∧ t.voids = s.voids ∧ t.queue = { w.queue with fill := t.queue.fill } ∧
              t.account.queue = w.account.queue ++ if (w.slot x.slot).state = .draining ∧ (∀ y ∈ w.window.records, y.slot ≠ x.slot) ∧
                w.account.queue.any (Item.isJobEndOf x.slot) = false then [Item.jobEnd x.slot (w.slot x.slot).endBytes] else []))

/-! ### Station ports -/

/-- PROBE (R163, R166): taken, the reject bit clears and the timer restarts, and nothing else changes. That a transaction is seen at its select and
when its frame is taken is the model's reading (log 9): at the select of any frame row the port takes the clock's idle level as the mode and chooses its
status byte, of the port as it then stands (R161, R162); a select at a port selected already is no edge; a frame taken with no select shown had it just
before, in mode 0. The byte holds the port state, the request state, the new-run bit and the reject bit, and every byte clocked out beyond those chosen is zero (R161). -/
def Obligations.ProbeShowsPort : Prop :=
  (∀ (p : PortId) (s : State), (s.port p).fetch = none →
    exec (.probe p (.taken true)) s = .next (s.modPort p fun _ => s.acceptedPort p)) ∧
  (∀ (i : Instr) (p : PortId) (clockHigh : Bool) (s : State), selectAt i = some (p, clockHigh) → (s.port p).fetch = none →
    ((s.port p).selected = false →
      exec i s = .next (s.modPort p fun x => { x with selected := true, mode3 := clockHigh, out := [x.statusByte] })) ∧
    ((s.port p).selected = true → exec i s = .next s)) ∧
  (∀ x : Port, x.statusByte.toNat = (match x.state with | .closed => 0 | .active => 64 | .lost => 128) +
      (match x.slot with | .none => 0 | .preparing _ _ => 16 | .held _ _ => 32 | .ready _ _ => 48) +
      (if x.newRun then 8 else 0) + (if x.reject then 4 else 0)) ∧
  ∀ (p : PortId) (n k : Nat) (s : State), k < n → (s.clockedOut p n)[k]? = some ((s.port p).out.getD k 0)

/-- A rejected frame (R163) of any kind (a command byte cut short, an unknown command, a short frame, a byte sum that is not 0 mod 256) sets the
reject bit and counts, and changes nothing else but the transaction it ends: the timer runs on and the request slot keeps what it held. -/
def Obligations.RejectedFramesOnlyCount : Prop :=
  ∀ (p : PortId) (body : Bytes) (b : Byte) (s : State), (s.port p).fetch = none →
    let rejected := fun i => exec i s = .next (s.modPort p fun x =>
      { s.takenPort p with reject := true, rejected := min (x.rejected + 1) 65535 })
    let bad := fun (command required : Nat) =>
      body.length < required ∨ (command + ((body.take required).map BitVec.toNat).sum) % 256 ≠ 0
    rejected (.probe p (.taken false)) ∧ rejected (.fetch p (.taken false)) ∧ rejected (.unknownCommandFrame p none (.taken body)) ∧
    (b ∉ [0x30, 0x31, 0x32, 0x33, 0x34] → rejected (.unknownCommandFrame p (some b) (.taken body))) ∧
    (bad 0x31 5 → rejected (.request p (.taken body))) ∧ (bad 0x32 9 → rejected (.waste p (.taken body))) ∧
    (bad 0x33 7 → rejected (.misfire p (.taken body)))

/-- What a port answers itself (R165, R167 to R169, R176): REFUSED CLOSED and LOST in those states; at an ACTIVE port REFUSED ORDER with the cursor,
counted, for a REQUEST or MISFIRE the cursor rules forbid, and REFUSED RANGE. The answer is READY at once and no record is touched. -/
def Obligations.PortAnswersRefusals : Prop :=
  ∀ (p : PortId) (body : Bytes) (s : State), (s.port p).fetch = none →
    let x := s.acceptedPort p
    let c := field body 0 4
    let c2 := field body 4 4
    let answered := fun (i : Instr) (kind : ReqKind) (last : Nat) (mask : BitVec 16) (reason : Reason) (cursor : Nat) (y : Port) =>
      let q : Request := { kind, first := c, last, mask, repeats := none, isNew := kind = .request && y.state = .active && c = y.cursor }
      exec i s = .next (s.modPort p fun _ => { y with slot := .ready q (.refused reason cursor) })
    let mask := BitVec.ofNat 16 (field body 4 2)
    let lead := s.leadAt p
    (frameAccepted 0x31 5 body = true →
      (x.state = .closed → answered (.request p (.taken body)) .request c 0 .closed 0 x) ∧
      (x.state = .lost → answered (.request p (.taken body)) .request c 0 .lost 0 x) ∧
      (x.state = .active → c ≠ x.cursor → c + 1 ≠ x.cursor →
        answered (.request p (.taken body)) .request c 0 .order x.cursor { x with order := min (x.order + 1) 65535 }) ∧
      (x.state = .active → c = x.cursor → 4294967250 < c + lead →
        answered (.request p (.taken body)) .request c 0 .range 0 { x with newRun := false }) ∧
      (x.state = .active → c + 1 = x.cursor → 4294967250 < c + lead → answered (.request p (.taken body)) .request c 0 .range 0 x)) ∧
    (frameAccepted 0x32 9 body = true →
      (x.state = .closed → answered (.waste p (.taken body)) .waste c2 0 .closed 0 x) ∧
      (x.state = .lost → answered (.waste p (.taken body)) .waste c2 0 .lost 0 x) ∧
      (x.state = .active → c2 < c ∨ 63 < c2 - c ∨ 4294967250 < c2 + lead → answered (.waste p (.taken body)) .waste c2 0 .range 0 x)) ∧
    (frameAccepted 0x33 7 body = true →
      (x.state = .closed → answered (.misfire p (.taken body)) .misfire c mask .closed 0 x) ∧
      (x.state = .lost → answered (.misfire p (.taken body)) .misfire c mask .lost 0 x) ∧
      (x.state = .active → x.cursor ≤ c →
        answered (.misfire p (.taken body)) .misfire c mask .order x.cursor { x with order := min (x.order + 1) 65535 }) ∧
      (x.state = .active → c < x.cursor → 4294967250 < c + lead → answered (.misfire p (.taken body)) .misfire c mask .range 0 x))

/-- A REQUEST that the window answers from what it holds (R60 to R62, R70): REFUSED IDLE outside a run; LEAD_IN below L_max; at or below newest
NUMBERS from an AWAITING record, LATE from a closed one or below oldest, BLANK at a gap repeat; LATE below the pass floor. The request is PREPARING
with that answer being built, a new-impression request clears the new-run bit, and no record changes. -/
def Obligations.RequestAnsweredFromWindow : Prop :=
  ∀ (p : PortId) (body : Bytes) (k : Nat) (e : PlyEntry) (s : State), (s.port p).fetch = none → (s.port p).state = .active →
    (s.port p).ply = some k → s.plan.plies[k]? = some e → frameAccepted 0x31 5 body = true →
    let c := field body 0 4
    let r := c + e.lead
    let above := s.plan.lMax ≤ r ∧ ∀ n, s.window.newest = some n → n < r
    let atOrBelow := s.plan.lMax ≤ r ∧ ∃ n, s.window.newest = some n ∧ r ≤ n
    (c = (s.port p).cursor ∨ c + 1 = (s.port p).cursor) → r ≤ 4294967250 →
    let building := fun answer => exec (.request p (.taken body)) s = .next (s.modPort p fun _ => { s.acceptedPort p with
      newRun := (s.port p).newRun && decide (c ≠ (s.port p).cursor)
      slot := .preparing { kind := .request, first := c, last := c, mask := 0, repeats := some (r, r), isNew := c = (s.port p).cursor }
        (.building answer) })
    (s.inRun = false → building (.refused .idle 0)) ∧
    (s.inRun = true →
      (r < s.plan.lMax → building (.leadIn r)) ∧
      (atOrBelow → building (s.classify r)) ∧
      (∀ x, atOrBelow → s.record r = some x → x.closure = .awaiting →
        building (.numbers x.repeatIndex (s.slot x.slot).tag (x.positions.map fun y =>
          { blank := y.entry.value.isNone, bookEnd := y.entry.bookEnd,
            text := (y.entry.value.map fun v => (s.slot x.slot).rules.render v y.entry.check).getD [] }))) ∧
      (∀ x, atOrBelow → s.record r = some x → x.closure ≠ .awaiting → building (.late r)) ∧
      (atOrBelow → s.record r = none → (∀ x, s.window.records.head? = some x → r < x.repeatIndex) → building (.late r)) ∧
      (∀ x, atOrBelow → s.record r = none → s.window.records.head? = some x → x.repeatIndex ≤ r → building (.blank r)) ∧
      ∀ f, above → s.queue.passFloor = some f → r < f → building (.late r))

/-- A REQUEST above newest and not passed (R62, R64 to R67, R54): with the window empty and the draft base below the catch-up start, the queue is
flushed, the pass floor set and a staged change below it takes effect; then the target covers r, the request is answered BLANK when no repeat up to
r is left to open, is HELD (counted, WINDOW_HELD) when the opening stops at the span, and else waits; every other request that waits settles, the
target stands while it can be met, and the next fill starts. Where the old job has no record at such a change, its JOB_END joins last (the model's choice,
log 38). -/
def Obligations.RequestOpensOrHolds : Prop :=
  ∀ (p : PortId) (body : Bytes) (k : Nat) (e : PlyEntry) (s : State), (s.port p).fetch = none → (s.port p).state = .active →
    (s.port p).ply = some k → s.plan.plies[k]? = some e → frameAccepted 0x31 5 body = true → s.inRun = true →
    let c := field body 0 4
    let r := c + e.lead
    (c = (s.port p).cursor ∨ c + 1 = (s.port p).cursor) → r ≤ 4294967250 → s.plan.lMax ≤ r →
    (∀ n, s.window.newest = some n → n < r) → (∀ f, s.queue.passFloor = some f → f ≤ r) →
    let q : Request := { kind := .request, first := c, last := c, mask := 0, repeats := some (r, r), isNew := c = (s.port p).cursor }
    let x : Port := { s.acceptedPort p with newRun := (s.port p).newRun && decide (c ≠ (s.port p).cursor), slot := .preparing q .waiting }
    let ports := fun g => if g = p then x else s.port g
    let start := max (match s.window.newest with | some n => n + 1 | none => s.plan.lMax) (r - 47)
    let target := match s.window.target with | some g => max r g | none => r
    let passes := fun b => s.window.records = [] ∧ s.draftBase = some b ∧ b < start
    ∃ t, exec (.request p (.taken body)) s = .next t ∧
      (∀ b, passes b →
        let v := s.flush b
        let w : State := { v with queue := { v.queue with passFloor := some start } }
        let u := if (w.staged.any fun z => z.2 < start) = true then w.changeTakesEffect else w
        t.queue.drafts = s.queue.drafts.filter (fun d => decide (d.repeatIndex < b)) ∧ t.queue.passFloor = some start ∧
        t.Settled u.queue.fill (some target) ports u.sup.events ∧
        t = { u with queue := { u.queue with fill := t.queue.fill }, window := { s.window with target := t.window.target },
                     ports := t.ports, sup := { u.sup with events := t.sup.events } } ∧
        t.port p = (if (∀ d, u.draftBase = some d → r < d) then
          { x with slot := .preparing q (.building (.blank r)) } else x)) ∧
      ((∀ b, ¬ passes b) →
        t.Settled s.queue.fill (some target) ports s.sup.events ∧
        t = { s with queue := { s.queue with fill := t.queue.fill }, window := { s.window with target := t.window.target },
                     ports := t.ports, sup := { s.sup with events := t.sup.events } } ∧
        t.window.target = (if (∀ d, s.draftBase = some d → target < d) then none else some target) ∧
        ((∀ d, s.draftBase = some d → r < d) → t.port p = { x with slot := .preparing q (.building (.blank r)) }) ∧
        (∀ d y, s.draftBase = some d → d ≤ r → s.window.records.head? = some y → y.repeatIndex + 48 ≤ d →
          t.port p = { x with slot := .held q .waiting, held := min (x.held + 1) 65535 } ∧ t.sup.events.getLsbD 3 = true) ∧
        (∀ d, s.draftBase = some d → d ≤ r → (∀ y, s.window.records.head? = some y → d < y.repeatIndex + 48) → t.port p = x))

/-- WASTE at the window (R60, R75, R168): REFUSED IDLE outside a run, REFUSED RANGE above newest; otherwise every numbered position of the AWAITING
records of the range is marked, the answer is ACK with their count, and each other repeat at or above L_max counts late. -/
def Obligations.WasteMarksRecords : Prop :=
  ∀ (p : PortId) (body : Bytes) (k : Nat) (e : PlyEntry) (s : State), (s.port p).fetch = none → (s.port p).state = .active →
    (s.port p).ply = some k → s.plan.plies[k]? = some e → frameAccepted 0x32 9 body = true →
    let c1 := field body 0 4
    let c2 := field body 4 4
    let r1 := c1 + e.lead
    let r2 := c2 + e.lead
    c1 ≤ c2 → c2 - c1 ≤ 63 → r2 ≤ 4294967250 →
    let q : Request := { kind := .waste, first := c1, last := c2, mask := 0, repeats := some (r1, r2), isNew := false }
    let building := fun (answer : Answer) (y : Port) => { y with slot := .preparing q (.building answer) }
    let x := s.acceptedPort p
    let hit := fun y : Record => y.closure = .awaiting ∧ r1 ≤ y.repeatIndex ∧ y.repeatIndex ≤ r2 ∧ s.plan.lMax ≤ y.repeatIndex
    (s.inRun = false → exec (.waste p (.taken body)) s = .next (s.modPort p fun _ => building (.refused .idle 0) x)) ∧
    (s.inRun = true → (∀ n, s.window.newest = some n → n < r2) →
      exec (.waste p (.taken body)) s = .next (s.modPort p fun _ => building (.refused .range 0) x)) ∧
    (∀ n, s.inRun = true → s.window.newest = some n → r2 ≤ n →
      exec (.waste p (.taken body)) s = .next { s.modPort p (fun _ => building
          (.ack ((s.window.records.filter fun y => decide (hit y)).map fun y =>
            (y.positions.filter fun z => z.entry.value.isSome).length).sum)
          { x with late := min (x.late + ((List.range (c2 - c1 + 1)).filter fun d => decide (s.plan.lMax ≤ r1 + d ∧
            ∀ y, s.record (r1 + d) = some y → y.closure ≠ .awaiting)).length) 65535 }) with
        window := { s.window with records := s.window.records.map fun y => if hit y then
          { y with positions := y.positions.map fun z => if z.entry.value.isSome then { z with waste := true } else z } else y } })

/-- MISFIRE at the window (R60, R76, R169): on an AWAITING record the mark is set on each numbered position whose mask bit is set and the answer is
ACK with their count; otherwise no record changes and the answer is REFUSED IDLE, LEAD_IN, LATE or BLANK by the table of R76. -/
def Obligations.MisfireMarksPositions : Prop :=
  ∀ (p : PortId) (body : Bytes) (k : Nat) (e : PlyEntry) (s : State), (s.port p).fetch = none → (s.port p).state = .active →
    (s.port p).ply = some k → s.plan.plies[k]? = some e → frameAccepted 0x33 7 body = true →
    let c := field body 0 4
    let mask := BitVec.ofNat 16 (field body 4 2)
    let r := c + e.lead
    let newest := s.window.newest
    c < (s.port p).cursor → r ≤ 4294967250 →
    let q : Request := { kind := .misfire, first := c, last := c, mask, repeats := some (r, r), isNew := false }
    let answered := fun answer =>
      exec (.misfire p (.taken body)) s = .next (s.modPort p fun _ => { s.acceptedPort p with slot := .preparing q (.building answer) })
    (s.inRun = false → answered (.refused .idle 0)) ∧
    (s.inRun = true →
      (r < s.plan.lMax → answered (.leadIn r)) ∧
      (s.plan.lMax ≤ r →
        (∀ y, s.record r = some y → y.closure = .awaiting → ∃ t, exec (.misfire p (.taken body)) s = .next t ∧
          t = { s.modPort p (fun _ => { s.acceptedPort p with slot := .preparing q (.building
                  (.ack ((List.range y.positions.length).filter fun i => mask.getLsbD i && (y.positions[i]?.any fun z => z.entry.value.isSome)).length)) })
                with window := { s.window with records := t.window.records } } ∧
          (t.window.records.length = s.window.records.length ∧ ∀ (j : Nat) (a b : Record), s.window.records[j]? = some a → t.window.records[j]? = some b →
            (a.repeatIndex ≠ r → b = a) ∧
            (a.repeatIndex = r → b = { a with positions := b.positions } ∧ b.positions.length = a.positions.length ∧
              ∀ (i : Nat) (z w : Position), a.positions[i]? = some z → b.positions[i]? = some w →
                w = { z with misfire := z.misfire || (mask.getLsbD i && z.entry.value.isSome) }))) ∧
        (∀ y n, newest = some n → r ≤ n → s.record r = some y → y.closure ≠ .awaiting → answered (.late r)) ∧
        (∀ n, newest = some n → r ≤ n → s.record r = none → (∀ y, s.window.records.head? = some y → r < y.repeatIndex) →
          answered (.late r)) ∧
        (∀ n y, newest = some n → r ≤ n → s.record r = none → s.window.records.head? = some y → y.repeatIndex ≤ r →
          answered (.blank r)) ∧
        ((∀ n, newest = some n → n < r) → s.record r = none →
          (∀ f, s.queue.passFloor = some f → r < f → answered (.late r)) ∧
          ((∀ f, s.queue.passFloor = some f → f ≤ r) → answered (.blank r)))))

/-- FETCH (R171): the READY answer, or else NONE with the cursor and the four counters, is chosen and its bytes go out after the status byte, ending in
the check byte that makes their sum 0 mod 256; the slot keeps what it holds. An answer made ready after the select is sent behind the status byte of the
select. Each kind of answer has its code and body (R190). -/
def Obligations.FetchClocksChosenAnswer : Prop :=
  (∀ (p : PortId) (s : State), (s.port p).fetch = none →
    let x := s.port p
    let sent := fun (a : Answer) (fromReady isNew : Bool) => exec (.fetch p (.taken true)) s = .next (s.modPort p fun _ =>
      { s.acceptedPort p with out := (s.takenPort p).out ++ a.bytes, fetch := some { answer := a, fromReady, isNew, recordClosed := false } })
    (∀ q a, x.slot = .ready q a → sent a true q.isNew) ∧
    ((∀ q a, x.slot ≠ .ready q a) → sent (.noAnswer x.cursor x.late x.order x.rejected x.held) false false)) ∧
  (∀ (p : PortId) (q : Request) (a : Answer) (clockHigh : Bool) (s : State), (s.port p).fetch = none → (s.port p).selected = false →
    (s.port p).slot = .preparing q (.building a) ∨ (s.port p).slot = .held q (.building a) →
    ∃ u v t, exec (.fetch p (.select clockHigh)) s = .next u ∧ exec (.answerReady p) u = .next v ∧
      exec (.fetch p (.taken true)) v = .next t ∧ (t.port p).out = (s.port p).statusByte :: a.bytes) ∧
  (∀ a : Answer, (∃ check : Byte, a.bytes = a.kind :: (beBytes 2 a.body.length ++ a.body ++ [check])) ∧
    (a.bytes.map BitVec.toNat).sum % 256 = 0) ∧
  (∀ (r tag : Nat) (ps : List NumberPos), (Answer.numbers r tag ps).kind = 0x01 ∧
    let body := (Answer.numbers r tag ps).body
    body.length = 7 + (ps.map fun n => 2 + n.text.length).sum ∧ field body 0 4 = r % 2 ^ 32 ∧ field body 4 2 = tag % 2 ^ 16 ∧
    (byteAt body 6).toNat = ps.length % 256 ∧
    body.drop 7 = ps.flatMap fun n =>
      [BitVec.ofNat 8 ((if n.blank then 1 else 0) + (if n.bookEnd then 2 else 0)), BitVec.ofNat 8 n.text.length] ++ n.text) ∧
  (∀ r : Nat, (Answer.leadIn r).kind = 0x02 ∧ (Answer.blank r).kind = 0x03 ∧ (Answer.late r).kind = 0x04 ∧
    ∀ a ∈ [Answer.leadIn r, .blank r, .late r], a.body.length = 4 ∧ field a.body 0 4 = r % 2 ^ 32) ∧
  (∀ n : Nat, (Answer.ack n).kind = 0x05 ∧ (Answer.ack n).body.length = 2 ∧ field (Answer.ack n).body 0 2 = n % 2 ^ 16) ∧
  (∀ (reason : Reason) (cursor : Nat), (Answer.refused reason cursor).kind = 0x06 ∧
    let body := (Answer.refused reason cursor).body
    body.length = 5 ∧ field body 1 4 = cursor % 2 ^ 32 ∧
    byteAt body 0 = (match reason with | .order => 1 | .range => 2 | .idle => 3 | .closed => 4 | .lost => 5)) ∧
  ∀ (cursor late order rejected held : Nat), (Answer.noAnswer cursor late order rejected held).kind = 0x07 ∧
    let body := (Answer.noAnswer cursor late order rejected held).body
    body.length = 12 ∧ field body 0 4 = cursor % 2 ^ 32 ∧ field body 4 2 = late % 2 ^ 16 ∧ field body 6 2 = order % 2 ^ 16 ∧
    field body 8 2 = rejected % 2 ^ 16 ∧ field body 10 2 = held % 2 ^ 16

/-- A FETCH ended short (R171, R74): the slot is as it was, except that a NUMBERS answer whose record closed during the clocking becomes LATE and
counts late; with no FETCH being clocked the command finds nothing to end (log 2). A new frame at a port whose FETCH is still being clocked out, at its
select or taken, is treated as it would be after that FETCH had ended short (the model's reading, log 10). -/
def Obligations.FetchEndedShortLeavesAnswer : Prop :=
  (∀ (p : PortId) (s : State),
     ((s.port p).fetch = none → exec (.fetchEndedShort p) s = .next s) ∧
     ∀ f, (s.port p).fetch = some f →
       (∀ q r tag ps, (s.port p).slot = .ready q (.numbers r tag ps) → f.fromReady = true → f.recordClosed = true →
         exec (.fetchEndedShort p) s = .next (s.modPort p fun x =>
           { x with fetch := none, selected := false, slot := .ready q (.late r), late := min (x.late + 1) 65535 })) ∧
       ((∀ q r tag ps, (s.port p).slot ≠ .ready q (.numbers r tag ps)) ∨ f.fromReady = false ∨ f.recordClosed = false →
         exec (.fetchEndedShort p) s = .next (s.modPort p fun x => { x with fetch := none, selected := false }))) ∧
  (∀ (i : Instr) (p : PortId) (s : State), frameAt i = some p → (s.port p).fetch.isSome = true →
     ∃ u, exec (.fetchEndedShort p) s = .next u ∧ (u.port p).fetch = none ∧ exec i s = exec i u)

/-- A completed FETCH (R71, R72, R171, R172): of a READY answer it empties the slot, moves the cursor for NUMBERS, LEAD_IN, BLANK or LATE to a
new-impression request, and joins the ply to plies served of the AWAITING record when the port is ACTIVE; a record closed meanwhile gains nothing and
counts late. A completed NONE answer changes nothing. That a cursor at 4,294,967,295 stays there is the model's choice (log 32); that the late count
moves at a LOST port too (log 16), and that a FETCH across STRT, RSET, PLAN, ADMT or a loss completes so (log 17), are its readings. -/
def Obligations.FetchCompleteServes : Prop :=
  ∀ (p : PortId) (f : FetchOut) (s : State), (s.port p).fetch = some f →
    (f.fromReady = false → exec (.fetchComplete p) s = .next (s.modPort p fun x => { x with fetch := none })) ∧
    (f.fromReady = true → ∃ t, exec (.fetchComplete p) s = .next t ∧
      t = { s with ports := t.ports, window := { s.window with records := t.window.records } } ∧
      (∀ g : PortId, g ≠ p → t.port g = s.port g) ∧
      t.port p = { s.port p with
        slot := .none
        fetch := none
        cursor := t.port p |>.cursor
        late := if f.recordClosed then min ((s.port p).late + 1) 65535 else (s.port p).late } ∧
      (t.port p).cursor = (match f.answer with
        | .numbers _ _ _ | .leadIn _ | .blank _ | .late _ =>
          if f.isNew then min ((s.port p).cursor + 1) 4294967295 else (s.port p).cursor
        | .ack _ | .refused _ _ | .noAnswer _ _ _ _ _ => (s.port p).cursor) ∧
      t.window.records = s.window.records.map fun x => (match f.answer, (s.port p).ply with
        | .numbers r _ _, some k =>
          if (s.port p).state = .active ∧ f.recordClosed = false ∧ x.repeatIndex = r ∧ x.closure = .awaiting then
            { x with served := x.served ||| BitVec.ofNat 6 (2 ^ k) } else x
        | _, _ => x))

/-! ### The repeat window -/

/-- RECORD_OPEN at the draft base (R55, R56, R58, R63, R64, R66, R82, R115, R116, R120): the oldest draft becomes the last record, with the plies whose
ports are LOST; newest, the tally and the high mark move; a staged change at or below it takes effect, and a job whose exhaustion set it as the final
repeat becomes DRAINING. A change takes effect below its repeat only for an EMPTY staged job, at the opening of the RUNNING job's final repeat (R117), and
else stands with both slots as they were. Of a slot only the state, the change repeat and the tally move. The skipped deltas add up plainly, above 4,000,000,000 too (log 31); that an append is due is the model's own
field (log 19). At a change the JOB_END of an old job with no record joins behind the new job's items: the model's choice (log 38). Then every request that waits is answered, held or goes on waiting, the target stands while it can be met, and the next fill starts. -/
def Obligations.RecordOpenMakesRecord : Prop :=
  ∀ (d : Draft) (rest : List Draft) (g : Nat) (s : State), s.queue.drafts = d :: rest → s.window.target = some g →
    s.draftBase = some d.repeatIndex → d.repeatIndex ≤ g → (∀ y, s.window.records.head? = some y → d.repeatIndex < y.repeatIndex + 48) →
    s.slotsOk →
    let b := d.repeatIndex
    let l := (s.slot d.slot).tally
    let changes := ∃ i j rc, s.runningSlot = some i ∧ s.staged = some (j, rc) ∧
      (rc ≤ b ∨ ((s.slot j).final = .empty ∧ (s.slot i).final = .known b))
    ∃ t x, exec .recordOpen s = .next t ∧ t.window.records = s.window.records ++ [x] ∧
      (x.repeatIndex = b ∧ x.slot = d.slot ∧ x.served = 0 ∧ x.closure = .awaiting ∧
        x.positions = d.entries.map (fun e =>
          { entry := e, waste := false, misfire := false, outcome := if e.value.isSome then .open else .blank }) ∧
        ∀ k, k < 6 → (x.lost.getLsbD k = true ↔ ∃ p : PortId, (s.port p).state = .lost ∧ s.plan.plyOf p = some k)) ∧
      t.window.newest = some b ∧ t.queue.drafts = rest ∧ t.queue.passFloor = s.queue.passFloor ∧
      (t.slot d.slot).tally = { l with
        repeatsOpened := min (l.repeatsOpened + 1) 4294967295
        issued := min (l.issued + (d.entries.filter fun e => e.value.isSome).length) 4294967295
        blank := min (l.blank + (d.entries.filter fun e => e.value.isNone).length) 4294967295
        skipped := min (l.skipped + d.skipped) 4294967295 } ∧
      (t.slot d.slot.other).tally = (s.slot d.slot.other).tally ∧
      t.window.high = decide (s.plan.winHigh ≤ s.window.records.length + 1) ∧
      (let ends := fun k : SlotId => if (t.slot k).state = .draining ∧ ∀ y ∈ t.window.records, y.slot ≠ k then
          [Item.jobEnd k (t.slot k).endBytes] else []
       (∀ i j rc, s.runningSlot = some i → s.staged = some (j, rc) →
         let empty := (s.slot j).final = .empty
         (rc ≤ b ∨ (empty ∧ (s.slot i).final = .known b) →
           (t.slot i).state = .draining ∧ (t.slot j).change = none ∧
           (t.slot j).state = (if empty ∨ ((s.slot j).note ≠ .unset ∧ (s.slot j).final = .known b) then .draining else .running) ∧
           t.account.queue = s.account.queue ++ .jobStart j (s.slot j).startBytes :: (if empty then ends j ++ ends i else ends i ++ ends j)) ∧
         (b < rc → ¬ (empty ∧ (s.slot i).final = .known b) →
           (t.slot i).state = .running ∧ (t.slot j).state = .loaded ∧ (t.slot j).change = some rc ∧ t.account = s.account)) ∧
       (∀ i, s.runningSlot = some i → s.staged = none →
         (t.slot i).state = (if (s.slot i).note ≠ .unset ∧ (s.slot i).final = .known b then .draining else .running) ∧
         (t.slot i.other).state = (s.slot i.other).state ∧ t.account.queue = s.account.queue ++ ends i)) ∧
      (∀ k, t.slot k = { s.slot k with state := (t.slot k).state, change := (t.slot k).change, tally := (t.slot k).tally } ∧
        (changes → (t.slot k).change = none) ∧ (¬ changes → (t.slot k).change = (s.slot k).change)) ∧
      (t.account.due = (s.account.due || (s.account.queue.isEmpty && !t.account.queue.isEmpty))) ∧
      (∃ events, t.Settled s.queue.fill s.window.target s.port events ∧
        let high := s.sup.events ||| if t.window.high && !s.window.high then 0x004 else 0
        (changes → events = high ||| 0x100) ∧ (¬ changes → events = high)) ∧
      t = { s with slotA := t.slotA, slotB := t.slotB, queue := { t.queue with passFloor := s.queue.passFloor }, window := { t.window with closing := s.window.closing },
                   account := { s.account with queue := t.account.queue, due := t.account.due }, ports := t.ports,
                   sup := { s.sup with events := t.sup.events } }

/-- ANSWER_READY (R70, R74, R170): an answer being built becomes READY, also one given at a retake, and a LATE answer counts late; nothing else
changes. While no answer is being built the command changes nothing (log 2). -/
def Obligations.AnswerReadyFillsSlot : Prop :=
  ∀ (p : PortId) (s : State),
    (∀ q a, (s.port p).slot = .preparing q (.building a) ∨ (s.port p).slot = .held q (.building a) →
      exec (.answerReady p) s = .next (s.modPort p fun x => { x with slot := .ready q a, late := match a with
        | .late _ => min (x.late + 1) 65535
        | .numbers _ _ _ | .leadIn _ | .blank _ | .ack _ | .refused _ _ | .noAnswer _ _ _ _ _ => x.late })) ∧
    ((∀ q a, (s.port p).slot ≠ .preparing q (.building a) ∧ (s.port p).slot ≠ .held q (.building a)) →
      exec (.answerReady p) s = .next s)

/-! ### Closure -/

/-- The outcomes of R97, row by row, with the codes of R96 for a VERIFIED closure. A position is DELIVERED only if every plan ply has served the record,
no station mark lies on it, and its verdict was GOOD. -/
def Obligations.ClosureSettlesOutcomes : Prop :=
  ∀ (kind : Closure) (codes : Bytes) (x : Record) (i : Nat) (z w : Position) (s : State), s.plan.ok → kind ≠ .awaiting →
    x.positions[i]? = some z → (x.close kind s.plan.plySet codes).positions[i]? = some w →
    let code := (codes.getD i 0).toNat
    let served := fun k => x.served.getLsbD k = true
    let lostOne := ∃ k, k < s.plan.plies.length ∧ x.lost.getLsbD k = true ∧ ¬ served k
    let allServed := ∀ k, k < s.plan.plies.length → served k
    w = { z with outcome := w.outcome } ∧
    (z.entry.value = none → w.outcome = .blank) ∧
    (z.entry.value.isSome = true →
      (kind = .aborted → w.outcome = .aborted) ∧
      (kind ≠ .aborted →
        (z.waste = true → w.outcome = .waste) ∧
        (z.waste = false → z.misfire = true → w.outcome = .misfire) ∧
        (z.waste = false → z.misfire = false →
          (lostOne → w.outcome = .stationLost) ∧
          (¬ lostOne → ¬ allServed → w.outcome = .unserved) ∧
          (allServed →
            (kind = .unverified → w.outcome = .unverified) ∧
            (kind = .verified → w.outcome = (if code = 0 then .delivered else if code = 1 then .plyMissing
              else if code = 2 then .mismatch else if code = 4 then .noForm else .unreadable)))))) ∧
    (w.outcome = .delivered → kind = .verified ∧ allServed ∧ z.waste = false ∧ z.misfire = false ∧ code = 0)

/-- What a closure does (R80, R72, R100 to R102): one tally count for each numbered position; the void values, in position order, go to the void list;
a port's NUMBERS answer being built or READY for the record becomes LATE, while one being clocked out goes on and is marked; and the record
joins the pending queue. A port with no NUMBERS answer for the record stands, and only a READY one that becomes LATE counts late. The record's outcomes
are those of R97; the event flags stand but for VOID_LIST_INCOMPLETE, raised exactly when a void value is dropped (R131); that an append is due is the model's own field (log 19). -/
def Obligations.ClosureTakesEffect : Prop :=
  ∀ (r : Nat) (x : Record) (kind : Closure) (codes : Bytes) (s : State), s.record r = some x → x.closure = .awaiting →
    kind ≠ .awaiting →
    let y := x.close kind s.plan.plySet codes
    let t := s.closeRecord r kind codes
    let n := fun os : List PosOutcome => (y.positions.filter fun z => z.entry.value.isSome && os.contains z.outcome).length
    let l := (s.slot x.slot).tally
    y.closure = kind ∧ t.window = { s.window with records := s.window.records.map fun z => if z.repeatIndex = r then y else z } ∧
    t.slot x.slot = { s.slot x.slot with tally := { l with
      delivered := min (l.delivered + n [.delivered]) 4294967295
      voidStation := min (l.voidStation + n [.waste, .misfire, .stationLost, .unserved]) 4294967295
      voidReader := min (l.voidReader + n [.plyMissing, .mismatch, .unreadable, .noForm]) 4294967295
      voidUnverified := min (l.voidUnverified + n [.unverified]) 4294967295
      voidAborted := min (l.voidAborted + n [.aborted]) 4294967295 } } ∧
    t.slot x.slot.other = s.slot x.slot.other ∧
    (let values := y.positions.filterMap fun z => if z.outcome = .delivered ∨ z.outcome = .blank then none else z.entry.value
     t.voids = (({ s with window := t.window } : State).insertValues values).voids ∧
     s.FlagsDrop t (({ s with window := t.window } : State).dropsInserting values)) ∧
    t.account = { s.account with queue := s.account.queue ++ [.repeatItem r], due := s.account.due || s.account.queue.isEmpty } ∧
    (∀ p : PortId,
      let a := s.port p
      let clocked := ∃ f tag ps, a.fetch = some f ∧ f.answer = .numbers r tag ps ∧ f.fromReady = true
      (∀ q tag ps, a.slot = .preparing q (.building (.numbers r tag ps)) → (t.port p).slot = .preparing q (.building (.late r))) ∧
      (∀ q tag ps, a.slot = .held q (.building (.numbers r tag ps)) → (t.port p).slot = .held q (.building (.late r))) ∧
      (∀ q tag ps, a.slot = .ready q (.numbers r tag ps) → ¬ clocked → (t.port p).slot = .ready q (.late r) ∧
        (t.port p).late = min (a.late + 1) 65535) ∧
      (∀ q tag ps, a.slot = .ready q (.numbers r tag ps) → clocked → (t.port p).slot = a.slot) ∧
      (∀ f tag ps, a.fetch = some f → f.answer = .numbers r tag ps → f.fromReady = true →
        (t.port p).fetch = some { f with recordClosed := true }) ∧
      (¬ clocked → (t.port p).fetch = a.fetch) ∧
      ((∀ q tag ps, a.slot ≠ .preparing q (.building (.numbers r tag ps)) ∧ a.slot ≠ .held q (.building (.numbers r tag ps)) ∧
          a.slot ≠ .ready q (.numbers r tag ps)) → (t.port p).slot = a.slot) ∧
      ((∀ q tag ps, a.slot ≠ .ready q (.numbers r tag ps)) ∨ clocked → (t.port p).late = a.late) ∧
      t.port p = { a with slot := (t.port p).slot, late := (t.port p).late, fetch := (t.port p).fetch }) ∧
    t = { s with slotA := t.slotA, slotB := t.slotB, window := t.window, voids := t.voids, account := t.account, ports := t.ports,
                 sup := { s.sup with events := t.sup.events } }

/-- Handling a good frame for repeat r (R91, R93, R94, R96, R98, R101, R102, R132): CLOSE_UNVERIFIED closes the lowest AWAITING record below r; with none
left FRAME_VERDICT closes the record for r by the frame's codes, or counts a shape mismatch and leaves it AWAITING, or counts a no-record verdict. A
closure inserts its void values one at a time, all of them or as many now as the command allows and the others at a later step of handling; with the last of them the
record joins the pending queue. The last verdict repeat moves at the end unless the shape differed, and the assembler returns to HUNT. That other events may
come between two insertions, and two commands of handling make one closure, is the model's reading (log 13). Section 5.6 lists a closure's effects in the
order tally, void list, window and ports (R80, R72), pending queue, while by R130 the record has left AWAITING when its values are inserted; that its effects
on the window and the ports come with the tally, before the first insertion, is the model's choice, which shows where other events come between (log 35).
That an append is due is the model's own field (log 19);
FRAME_VERDICT with an AWAITING record below, and CLOSE_UNVERIFIED with none, change nothing by its choice (log 2). -/
def Obligations.HandlingClosesRecords : Prop :=
  ∀ (f : Frame) (n : Option Nat) (s : State), s.receiver.asm = .handling → s.receiver.frame = some f → s.window.ok →
    let below := fun y : Record => y.closure = .awaiting ∧ y.repeatIndex < f.index
    let ended := fun t : State => ({ t with receiver := { s.receiver with asm := .hunt, frame := none, lastVerdict := some f.index } } : State)
    let rest := fun (t : State) (r : Nat) (vs : List Nat) =>
      ({ t with window := { t.window with closing := some { repeatIndex := r, values := vs } } } : State)
    let closes := fun (i : Instr) (y : Record) (kind : Closure) (codes : Bytes) =>
      let r := y.repeatIndex
      let t := s.closeRecord r kind codes
      let vs := (y.close kind s.plan.plySet codes).positions.filterMap fun z =>
        if z.outcome = .delivered ∨ z.outcome = .blank then none else z.entry.value
      ((∀ m, n = some m → vs.length ≤ m) → exec i s = .next (if r = f.index then ended t else t)) ∧
      (∀ m, n = some m → m < vs.length → exec i s =
        .next (rest (({ t with voids := s.voids, account := s.account, sup := s.sup } : State).insertValues (vs.take m)) r (vs.drop m)))
    (s.window.closing = none →
      (∀ y ∈ s.window.records, below y → (∀ z ∈ s.window.records, below z → y.repeatIndex ≤ z.repeatIndex) →
        closes (.closeUnverified n) y .unverified [] ∧ exec (.frameVerdict n) s = .next s) ∧
      ((∀ y ∈ s.window.records, ¬ below y) → exec (.closeUnverified n) s = .next s ∧
        (∀ y, s.record f.index = some y → y.closure = .awaiting → f.codes.length = y.positions.length →
          closes (.frameVerdict n) y .verified f.codes) ∧
        (∀ y, s.record f.index = some y → y.closure = .awaiting → f.codes.length ≠ y.positions.length →
          exec (.frameVerdict n) s = .next { s with
            receiver := { s.receiver with asm := .hunt, frame := none, shapeMismatches := min (s.receiver.shapeMismatches + 1) 4294967295 }
            sup := { s.sup with events := s.sup.events ||| 0x080 } }) ∧
        ((∀ y, s.record f.index = some y → y.closure ≠ .awaiting) →
          exec (.frameVerdict n) s = .next { s with receiver := { s.receiver with
            asm := .hunt, frame := none, noRecords := min (s.receiver.noRecords + 1) 4294967295, lastVerdict := some f.index } }))) ∧
    ∀ c, s.window.closing = some c → ∀ i ∈ [Instr.closeUnverified n, .frameVerdict n],
      (∀ m, n = some m → m < c.values.length →
        exec i s = .next (rest (s.insertValues (c.values.take m)) c.repeatIndex (c.values.drop m))) ∧
      ((∀ m, n = some m → c.values.length ≤ m) →
        let u := s.insertValues c.values
        let t : State := { u with
          window := { u.window with closing := none }
          account := { u.account with queue := u.account.queue ++ [.repeatItem c.repeatIndex], due := u.account.due || u.account.queue.isEmpty } }
        exec i s = .next (if c.repeatIndex = f.index then ended t else t))

/-! ### The reader -/

/-- The line side (R85 to R87): a start bit low at its middle carries the gap mark onto the byte and ends the timing, one that is not is noise (that noise
leaves the gap timing too is the model's reading, log 11); a completed byte joins the FIFO, or marks the newest of 32; a low stop bit waits for the line
to return high; GAP_TIMEOUT sets the gap mark when the count stands at its third tick, and else changes nothing (the model's reading, log 4). -/
def Obligations.LineSideTakesBytes : Prop :=
  ∀ (value : Byte) (s : State),
    let v := s.receiver
    let leaves := fun i (u : Receiver) => exec i s = .next { s with receiver := u }
    leaves (.readerStartBit false) v ∧
    (v.line = .idle → leaves (.readerStartBit true) { v with line := .receiving v.gapMark, gapMark := false, gapTicks := none }) ∧
    (∀ (gap stopHigh : Bool), v.line = .receiving gap →
      let next : LineSide := if stopHigh then .idle else .waitHigh
      (v.fifo.length < 32 → leaves (.readerByteReceived value stopHigh) { v with
        fifo := v.fifo ++ [{ value, framing := !stopHigh, gapBefore := gap, lossAfter := false }], line := next, gapTicks := some 0 }) ∧
      (∀ init e, 32 ≤ v.fifo.length → v.fifo = init ++ [e] → leaves (.readerByteReceived value stopHigh) { v with
        fifo := init ++ [{ e with lossAfter := true }], line := next, gapTicks := some 0 })) ∧
    (v.line = .waitHigh → leaves .readerLineReturnsHigh { v with line := .idle }) ∧
    (∀ k, v.gapTicks = some k → 2 ≤ k → leaves .gapTimeout { v with gapMark := true, gapTicks := none }) ∧
    ((∀ k, v.gapTicks = some k → k < 2) → leaves .gapTimeout v)

/-- The assembler takes the oldest byte by its state (R88 to R90): a framing error or a gap discards the frame in progress, counted and reported, and
a byte after a gap is examined afresh; a loss mark damages the frame that goes on; a bad or damaged frame is discarded at its check byte. With
the FIFO empty a gap mark discards the frame at once. In HANDLING no byte is taken and nothing changes (R88, R91), nor does a gap mark act there or while the
FIFO holds a byte. That the commands are taken and change nothing when there is no byte to take, or no gap mark to act on, is the model's choice (log 2). -/
def Obligations.AssemblerTakesByteByState : Prop :=
  ∀ s : State,
    let v := s.receiver
    let building := v.asm = .count ∨ v.asm = .index ∨ v.asm = .codes ∨ v.asm = .check
    let report := { s.sup with events := s.sup.events ||| 0x080 }
    let discarded := fun u : Receiver => { u with asm := .hunt, frame := none, framingFails := min (u.framingFails + 1) 4294967295 }
    let fresh : Frame := { count := 0, indexBytes := 0, index := 0, codes := [], sum := 0, damaged := false }
    (∀ e rest, v.fifo = e :: rest →
      let u := { v with fifo := rest }
      let leaves := fun w : Receiver => exec .assemblerTakeByte s = .next { s with receiver := w }
      let takes := fun (asm : AsmState) (f : Frame) => leaves { u with asm, frame := some { f with damaged := f.damaged || e.lossAfter } }
      (v.asm = .hunt → e.framing = true ∨ e.value ≠ 0xA5 → leaves u) ∧
      (v.asm = .hunt → e.framing = false → e.value = 0xA5 → takes .count fresh) ∧
      (building → e.framing = true ∨ (e.gapBefore = true ∧ e.value ≠ 0xA5) →
        exec .assemblerTakeByte s = .next { s with receiver := discarded u, sup := report }) ∧
      (building → e.framing = false → e.gapBefore = true → e.value = 0xA5 → exec .assemblerTakeByte s = .next { s with
        receiver := { discarded u with asm := .count, frame := some { fresh with damaged := e.lossAfter } }, sup := report }) ∧
      ∀ f, v.frame = some f → e.framing = false → e.gapBefore = false →
        let sum := f.sum + e.value
        (v.asm = .count → takes .index { f with count := e.value.toNat, sum }) ∧
        (v.asm = .index →
          takes (if f.indexBytes + 1 < 4 then .index else if f.count = 0 then .check else .codes)
            { f with indexBytes := f.indexBytes + 1, index := f.index * 256 + e.value.toNat, sum }) ∧
        (v.asm = .codes → takes (if f.codes.length + 1 < f.count then .codes else .check) { f with codes := f.codes ++ [e.value], sum }) ∧
        (v.asm = .check → f.damaged = true ∨ sum ≠ 0 → exec .assemblerTakeByte s = .next { s with
          receiver := { u with asm := .hunt, frame := none, checksumFails := min (v.checksumFails + 1) 4294967295 }, sup := report })) ∧
    (v.fifo = [] → v.gapMark = true →
      (building → exec .assemblerGapDiscard s = .next { s with receiver := discarded { v with gapMark := false }, sup := report }) ∧
      (v.asm = .hunt → exec .assemblerGapDiscard s = .next { s with receiver := { v with gapMark := false } })) ∧
    (v.asm = .handling → exec .assemblerTakeByte s = .next s ∧ exec .assemblerGapDiscard s = .next s) ∧
    (v.fifo ≠ [] → exec .assemblerGapDiscard s = .next s) ∧
    (v.gapMark = false → exec .assemblerGapDiscard s = .next s) ∧ (v.fifo = [] → exec .assemblerTakeByte s = .next s)

/-- A good frame at its check byte (R91, R92): at or below the last verdict repeat it is a duplicate, counted and reported, no record touched and the
last verdict repeat unchanged; otherwise, and always while that is none, it is handled. -/
def Obligations.DuplicateFrameIsDiscarded : Prop :=
  ∀ (f : Frame) (e : FifoEntry) (rest : List FifoEntry) (s : State), s.receiver.asm = .check → s.receiver.frame = some f →
    s.receiver.fifo = e :: rest → e.framing = false → e.gapBefore = false → f.damaged = false → f.sum + e.value = 0 →
    let u := { s.receiver with fifo := rest }
    (∀ l, s.receiver.lastVerdict = some l → f.index ≤ l → exec .assemblerTakeByte s = .next { s with
      receiver := { u with asm := .hunt, frame := none, duplicates := min (u.duplicates + 1) 4294967295 }
      sup := { s.sup with events := s.sup.events ||| 0x080 } }) ∧
    ((∀ l, s.receiver.lastVerdict = some l → l < f.index) →
      exec .assemblerTakeByte s = .next { s with receiver := { u with asm := .handling, frame := some { f with sum := 0 } } })

/-! ### What every step keeps -/

/-- Every step keeps the run in order: records ascend within the span of 48 (R57, R58), job slots stay legal (R104, R105), ports agree with the plan and
their state (R164, R165), a timer runs exactly while the conditions of R173 hold, at most four drafts (R43); and the books of the run agree: drafts and
fill follow the draft base for the slots that own their repeats (R42, R43), every record belongs to a slot in the run, every REPEAT item to a closed
record, and a JOB_END waits only when its slot holds no record (R102, R122); and the numbering stays within its jobs: ordinals within the span, next
values and issued values within 0 to 10^W - 1 (R34). -/
def Obligations.StepKeepsRunInOrder : Prop :=
  ∀ s t : State, step s = .next t →
    (s.window.ok → t.window.ok) ∧ (s.slotsOk → t.slotsOk) ∧ (s.portsOk → t.portsOk) ∧ (s.timersOk → t.timersOk) ∧ (s.queue.ok → t.queue.ok) ∧
    (s.window.ok → s.slotsOk → s.booksOk → t.booksOk) ∧ (s.slotsOk → s.booksOk → s.numbersOk → t.numbersOk)

/-- Every step keeps the stores in order: the void list ascending, apart and within 256 ranges with its flag (R127, R131), the ring's canonical form
and the pending queue (R143 to R148), the plan's ranges (R2), the assembler's frame (R83, R88), the tallies' widths (R104), the supervisor port
(R177, R181, R187); no value held by a make-up item is listed (R130); and the tallies balance (R156) while no counter has reached its largest value.
That an attempt is due, or the full mark set, while items wait is said of the model's own field (log 19); FAIL and UNKN are letters in ASCII (log 39). -/
def Obligations.StepKeepsStoresInOrder : Prop :=
  ∀ s t : State, step s = .next t →
    (s.voids.ok → t.voids.ok) ∧ (s.sizesOk → s.account.ok → t.sizesOk ∧ t.account.ok) ∧ (s.plan.ok → t.plan.ok) ∧
    (s.receiver.ok → t.receiver.ok) ∧ ((∀ i, (s.slot i).tally.ok) → ∀ i, (t.slot i).tally.ok) ∧ (s.sup.ok → t.sup.ok) ∧
    (s.voids.ok → s.slotsOk → s.booksOk → s.drawnOk → t.drawnOk) ∧
    (s.window.ok → s.slotsOk → s.booksOk → (∀ i, s.balanced i) → (∀ i, (t.slot i).tally.unsaturated) → ∀ i, t.balanced i)

/-- The state after reset meets every standing condition that steps keep; among them one on the model's own field due (log 19). -/
def Obligations.ResetMeetsEveryInvariant : Prop :=
  let s := State.reset
  s.window.ok ∧ s.slotsOk ∧ s.portsOk ∧ s.timersOk ∧ s.queue.ok ∧ s.voids.ok ∧ s.sizesOk ∧ s.account.ok ∧ s.plan.ok ∧ s.receiver.ok ∧
  (∀ i, (s.slot i).tally.ok) ∧ s.sup.ok ∧ s.booksOk ∧ s.numbersOk ∧ s.drawnOk ∧ ∀ i, s.balanced i
end

