-- ==== Sys2Proof/Laws/State.lean ====
section
/-! SUPPORT. What each update of the state leaves of each field: one lemma for each field and update, so that no later proof unfolds a
record update. -/

namespace Sys2Proof.Machine

/-! ### Slots -/

@[simp] theorem State.slot_A (s : State) : s.slot .A = s.slotA := rfl
@[simp] theorem State.slot_B (s : State) : s.slot .B = s.slotB := rfl

theorem State.modSlot_slot (s : State) (i j : SlotId) (f : JobSlot → JobSlot) :
    (s.modSlot i f).slot j = if j = i then f (s.slot i) else s.slot j := by
  cases i <;> cases j <;> rfl

@[simp] theorem State.modSlot_slot_self (s : State) (i : SlotId) (f : JobSlot → JobSlot) :
    (s.modSlot i f).slot i = f (s.slot i) := by cases i <;> rfl

@[simp] theorem State.modSlot_slot_other (s : State) (i : SlotId) (f : JobSlot → JobSlot) :
    (s.modSlot i f).slot i.other = s.slot i.other := by cases i <;> rfl

@[simp] theorem State.modSlot_plan (s : State) (i : SlotId) (f : JobSlot → JobSlot) : (s.modSlot i f).plan = s.plan := by
  cases i <;> rfl
@[simp] theorem State.modSlot_queue (s : State) (i : SlotId) (f : JobSlot → JobSlot) : (s.modSlot i f).queue = s.queue := by
  cases i <;> rfl
@[simp] theorem State.modSlot_window (s : State) (i : SlotId) (f : JobSlot → JobSlot) : (s.modSlot i f).window = s.window := by
  cases i <;> rfl
@[simp] theorem State.modSlot_receiver (s : State) (i : SlotId) (f : JobSlot → JobSlot) : (s.modSlot i f).receiver = s.receiver := by
  cases i <;> rfl
@[simp] theorem State.modSlot_voids (s : State) (i : SlotId) (f : JobSlot → JobSlot) : (s.modSlot i f).voids = s.voids := by
  cases i <;> rfl
@[simp] theorem State.modSlot_account (s : State) (i : SlotId) (f : JobSlot → JobSlot) : (s.modSlot i f).account = s.account := by
  cases i <;> rfl
@[simp] theorem State.modSlot_ports (s : State) (i : SlotId) (f : JobSlot → JobSlot) : (s.modSlot i f).ports = s.ports := by
  cases i <;> rfl
@[simp] theorem State.modSlot_sup (s : State) (i : SlotId) (f : JobSlot → JobSlot) : (s.modSlot i f).sup = s.sup := by
  cases i <;> rfl
@[simp] theorem State.modSlot_run (s : State) (i : SlotId) (f : JobSlot → JobSlot) : (s.modSlot i f).run = s.run := by
  cases i <;> rfl
@[simp] theorem State.modSlot_pending (s : State) (i : SlotId) (f : JobSlot → JobSlot) : (s.modSlot i f).pending = s.pending := by
  cases i <;> rfl
@[simp] theorem State.modSlot_A_slotA (s : State) (f : JobSlot → JobSlot) : (s.modSlot .A f).slotA = f s.slotA := rfl
@[simp] theorem State.modSlot_B_slotB (s : State) (f : JobSlot → JobSlot) : (s.modSlot .B f).slotB = f s.slotB := rfl
@[simp] theorem State.modSlot_A_slotB (s : State) (f : JobSlot → JobSlot) : (s.modSlot .A f).slotB = s.slotB := rfl
@[simp] theorem State.modSlot_B_slotA (s : State) (f : JobSlot → JobSlot) : (s.modSlot .B f).slotA = s.slotA := rfl

/-! ### Ports -/

@[simp] theorem State.modPort_port_self (s : State) (p : PortId) (f : Port → Port) : (s.modPort p f).port p = f (s.port p) := by
  simp [State.modPort, State.port]

theorem State.modPort_port (s : State) (p q : PortId) (f : Port → Port) :
    (s.modPort p f).port q = if q = p then f (s.port p) else s.port q := by
  by_cases h : q = p
  · subst h; simp
  · have : p.val ≠ q.val := fun e => h (Fin.ext e.symm)
    simp [State.modPort, State.port, h, this]

theorem State.modPort_port_of_ne (s : State) (p q : PortId) (f : Port → Port) (h : q ≠ p) : (s.modPort p f).port q = s.port q := by
  rw [State.modPort_port, if_neg h]

@[simp] theorem State.mapPorts_port (s : State) (p : PortId) (f : Port → Port) : (s.mapPorts f).port p = f (s.port p) := by
  simp [State.mapPorts, State.port]

/-- Two port files are equal when every port is. -/
theorem ports_ext (v w : Vector Port 6) (h : ∀ p : PortId, v[p] = w[p]) : v = w := by
  apply Vector.ext
  intro i hi
  exact h ⟨i, hi⟩


/-! ### `State.modPort` -/

@[simp] theorem State.modPort_plan (s : State) (p : PortId) (f : Port → Port) : (s.modPort p f).plan = s.plan := rfl
@[simp] theorem State.modPort_slotA (s : State) (p : PortId) (f : Port → Port) : (s.modPort p f).slotA = s.slotA := rfl
@[simp] theorem State.modPort_slotB (s : State) (p : PortId) (f : Port → Port) : (s.modPort p f).slotB = s.slotB := rfl
@[simp] theorem State.modPort_queue (s : State) (p : PortId) (f : Port → Port) : (s.modPort p f).queue = s.queue := rfl
@[simp] theorem State.modPort_window (s : State) (p : PortId) (f : Port → Port) : (s.modPort p f).window = s.window := rfl
@[simp] theorem State.modPort_receiver (s : State) (p : PortId) (f : Port → Port) : (s.modPort p f).receiver = s.receiver := rfl
@[simp] theorem State.modPort_voids (s : State) (p : PortId) (f : Port → Port) : (s.modPort p f).voids = s.voids := rfl
@[simp] theorem State.modPort_account (s : State) (p : PortId) (f : Port → Port) : (s.modPort p f).account = s.account := rfl
@[simp] theorem State.modPort_sup (s : State) (p : PortId) (f : Port → Port) : (s.modPort p f).sup = s.sup := rfl
@[simp] theorem State.modPort_run (s : State) (p : PortId) (f : Port → Port) : (s.modPort p f).run = s.run := rfl
@[simp] theorem State.modPort_pending (s : State) (p : PortId) (f : Port → Port) : (s.modPort p f).pending = s.pending := rfl

/-! ### `State.mapPorts` -/

@[simp] theorem State.mapPorts_plan (s : State) (f : Port → Port) : (s.mapPorts f).plan = s.plan := rfl
@[simp] theorem State.mapPorts_slotA (s : State) (f : Port → Port) : (s.mapPorts f).slotA = s.slotA := rfl
@[simp] theorem State.mapPorts_slotB (s : State) (f : Port → Port) : (s.mapPorts f).slotB = s.slotB := rfl
@[simp] theorem State.mapPorts_queue (s : State) (f : Port → Port) : (s.mapPorts f).queue = s.queue := rfl
@[simp] theorem State.mapPorts_window (s : State) (f : Port → Port) : (s.mapPorts f).window = s.window := rfl
@[simp] theorem State.mapPorts_receiver (s : State) (f : Port → Port) : (s.mapPorts f).receiver = s.receiver := rfl
@[simp] theorem State.mapPorts_voids (s : State) (f : Port → Port) : (s.mapPorts f).voids = s.voids := rfl
@[simp] theorem State.mapPorts_account (s : State) (f : Port → Port) : (s.mapPorts f).account = s.account := rfl
@[simp] theorem State.mapPorts_sup (s : State) (f : Port → Port) : (s.mapPorts f).sup = s.sup := rfl
@[simp] theorem State.mapPorts_run (s : State) (f : Port → Port) : (s.mapPorts f).run = s.run := rfl
@[simp] theorem State.mapPorts_pending (s : State) (f : Port → Port) : (s.mapPorts f).pending = s.pending := rfl

/-! ### `State.raise` -/

@[simp] theorem State.raise_plan (s : State) (e : Event) : (s.raise e).plan = s.plan := rfl
@[simp] theorem State.raise_slotA (s : State) (e : Event) : (s.raise e).slotA = s.slotA := rfl
@[simp] theorem State.raise_slotB (s : State) (e : Event) : (s.raise e).slotB = s.slotB := rfl
@[simp] theorem State.raise_queue (s : State) (e : Event) : (s.raise e).queue = s.queue := rfl
@[simp] theorem State.raise_window (s : State) (e : Event) : (s.raise e).window = s.window := rfl
@[simp] theorem State.raise_receiver (s : State) (e : Event) : (s.raise e).receiver = s.receiver := rfl
@[simp] theorem State.raise_voids (s : State) (e : Event) : (s.raise e).voids = s.voids := rfl
@[simp] theorem State.raise_account (s : State) (e : Event) : (s.raise e).account = s.account := rfl
@[simp] theorem State.raise_ports (s : State) (e : Event) : (s.raise e).ports = s.ports := rfl
@[simp] theorem State.raise_run (s : State) (e : Event) : (s.raise e).run = s.run := rfl
@[simp] theorem State.raise_pending (s : State) (e : Event) : (s.raise e).pending = s.pending := rfl

/-! ### `State.raiseIf` -/

@[simp] theorem State.raiseIf_plan (s : State) (c : Bool) (e : Event) : (s.raiseIf c e).plan = s.plan := by
  cases c <;> rfl
@[simp] theorem State.raiseIf_slotA (s : State) (c : Bool) (e : Event) : (s.raiseIf c e).slotA = s.slotA := by
  cases c <;> rfl
@[simp] theorem State.raiseIf_slotB (s : State) (c : Bool) (e : Event) : (s.raiseIf c e).slotB = s.slotB := by
  cases c <;> rfl
@[simp] theorem State.raiseIf_queue (s : State) (c : Bool) (e : Event) : (s.raiseIf c e).queue = s.queue := by
  cases c <;> rfl
@[simp] theorem State.raiseIf_window (s : State) (c : Bool) (e : Event) : (s.raiseIf c e).window = s.window := by
  cases c <;> rfl
@[simp] theorem State.raiseIf_receiver (s : State) (c : Bool) (e : Event) : (s.raiseIf c e).receiver = s.receiver := by
  cases c <;> rfl
@[simp] theorem State.raiseIf_voids (s : State) (c : Bool) (e : Event) : (s.raiseIf c e).voids = s.voids := by
  cases c <;> rfl
@[simp] theorem State.raiseIf_account (s : State) (c : Bool) (e : Event) : (s.raiseIf c e).account = s.account := by
  cases c <;> rfl
@[simp] theorem State.raiseIf_ports (s : State) (c : Bool) (e : Event) : (s.raiseIf c e).ports = s.ports := by
  cases c <;> rfl
@[simp] theorem State.raiseIf_run (s : State) (c : Bool) (e : Event) : (s.raiseIf c e).run = s.run := by
  cases c <;> rfl
@[simp] theorem State.raiseIf_pending (s : State) (c : Bool) (e : Event) : (s.raiseIf c e).pending = s.pending := by
  cases c <;> rfl

/-! ### `State.modRecord` -/

@[simp] theorem State.modRecord_plan (s : State) (r : Nat) (f : Record → Record) : (s.modRecord r f).plan = s.plan := rfl
@[simp] theorem State.modRecord_slotA (s : State) (r : Nat) (f : Record → Record) : (s.modRecord r f).slotA = s.slotA := rfl
@[simp] theorem State.modRecord_slotB (s : State) (r : Nat) (f : Record → Record) : (s.modRecord r f).slotB = s.slotB := rfl
@[simp] theorem State.modRecord_queue (s : State) (r : Nat) (f : Record → Record) : (s.modRecord r f).queue = s.queue := rfl
@[simp] theorem State.modRecord_receiver (s : State) (r : Nat) (f : Record → Record) : (s.modRecord r f).receiver = s.receiver := rfl
@[simp] theorem State.modRecord_voids (s : State) (r : Nat) (f : Record → Record) : (s.modRecord r f).voids = s.voids := rfl
@[simp] theorem State.modRecord_account (s : State) (r : Nat) (f : Record → Record) : (s.modRecord r f).account = s.account := rfl
@[simp] theorem State.modRecord_ports (s : State) (r : Nat) (f : Record → Record) : (s.modRecord r f).ports = s.ports := rfl
@[simp] theorem State.modRecord_sup (s : State) (r : Nat) (f : Record → Record) : (s.modRecord r f).sup = s.sup := rfl
@[simp] theorem State.modRecord_run (s : State) (r : Nat) (f : Record → Record) : (s.modRecord r f).run = s.run := rfl
@[simp] theorem State.modRecord_pending (s : State) (r : Nat) (f : Record → Record) : (s.modRecord r f).pending = s.pending := rfl

/-! ### `State.enqueue` -/

@[simp] theorem State.enqueue_plan (s : State) (it : Item) : (s.enqueue it).plan = s.plan := rfl
@[simp] theorem State.enqueue_slotA (s : State) (it : Item) : (s.enqueue it).slotA = s.slotA := rfl
@[simp] theorem State.enqueue_slotB (s : State) (it : Item) : (s.enqueue it).slotB = s.slotB := rfl
@[simp] theorem State.enqueue_queue (s : State) (it : Item) : (s.enqueue it).queue = s.queue := rfl
@[simp] theorem State.enqueue_window (s : State) (it : Item) : (s.enqueue it).window = s.window := rfl
@[simp] theorem State.enqueue_receiver (s : State) (it : Item) : (s.enqueue it).receiver = s.receiver := rfl
@[simp] theorem State.enqueue_voids (s : State) (it : Item) : (s.enqueue it).voids = s.voids := rfl
@[simp] theorem State.enqueue_ports (s : State) (it : Item) : (s.enqueue it).ports = s.ports := rfl
@[simp] theorem State.enqueue_sup (s : State) (it : Item) : (s.enqueue it).sup = s.sup := rfl
@[simp] theorem State.enqueue_run (s : State) (it : Item) : (s.enqueue it).run = s.run := rfl
@[simp] theorem State.enqueue_pending (s : State) (it : Item) : (s.enqueue it).pending = s.pending := rfl

/-! ### `State.setFill` -/

@[simp] theorem State.setFill_plan (s : State) (f : Option Fill) : (s.setFill f).plan = s.plan := rfl
@[simp] theorem State.setFill_slotA (s : State) (f : Option Fill) : (s.setFill f).slotA = s.slotA := rfl
@[simp] theorem State.setFill_slotB (s : State) (f : Option Fill) : (s.setFill f).slotB = s.slotB := rfl
@[simp] theorem State.setFill_window (s : State) (f : Option Fill) : (s.setFill f).window = s.window := rfl
@[simp] theorem State.setFill_receiver (s : State) (f : Option Fill) : (s.setFill f).receiver = s.receiver := rfl
@[simp] theorem State.setFill_voids (s : State) (f : Option Fill) : (s.setFill f).voids = s.voids := rfl
@[simp] theorem State.setFill_account (s : State) (f : Option Fill) : (s.setFill f).account = s.account := rfl
@[simp] theorem State.setFill_ports (s : State) (f : Option Fill) : (s.setFill f).ports = s.ports := rfl
@[simp] theorem State.setFill_sup (s : State) (f : Option Fill) : (s.setFill f).sup = s.sup := rfl
@[simp] theorem State.setFill_run (s : State) (f : Option Fill) : (s.setFill f).run = s.run := rfl
@[simp] theorem State.setFill_pending (s : State) (f : Option Fill) : (s.setFill f).pending = s.pending := rfl

/-! ### `State.setReqSlot` -/

@[simp] theorem State.setReqSlot_plan (s : State) (p : PortId) (x : ReqSlot) : (s.setReqSlot p x).plan = s.plan := rfl
@[simp] theorem State.setReqSlot_slotA (s : State) (p : PortId) (x : ReqSlot) : (s.setReqSlot p x).slotA = s.slotA := rfl
@[simp] theorem State.setReqSlot_slotB (s : State) (p : PortId) (x : ReqSlot) : (s.setReqSlot p x).slotB = s.slotB := rfl
@[simp] theorem State.setReqSlot_queue (s : State) (p : PortId) (x : ReqSlot) : (s.setReqSlot p x).queue = s.queue := rfl
@[simp] theorem State.setReqSlot_window (s : State) (p : PortId) (x : ReqSlot) : (s.setReqSlot p x).window = s.window := rfl
@[simp] theorem State.setReqSlot_receiver (s : State) (p : PortId) (x : ReqSlot) : (s.setReqSlot p x).receiver = s.receiver := rfl
@[simp] theorem State.setReqSlot_voids (s : State) (p : PortId) (x : ReqSlot) : (s.setReqSlot p x).voids = s.voids := rfl
@[simp] theorem State.setReqSlot_account (s : State) (p : PortId) (x : ReqSlot) : (s.setReqSlot p x).account = s.account := rfl
@[simp] theorem State.setReqSlot_sup (s : State) (p : PortId) (x : ReqSlot) : (s.setReqSlot p x).sup = s.sup := rfl
@[simp] theorem State.setReqSlot_run (s : State) (p : PortId) (x : ReqSlot) : (s.setReqSlot p x).run = s.run := rfl
@[simp] theorem State.setReqSlot_pending (s : State) (p : PortId) (x : ReqSlot) : (s.setReqSlot p x).pending = s.pending := rfl

/-! ### `State.markDue` -/

@[simp] theorem State.markDue_plan (s : State) : s.markDue.plan = s.plan := rfl
@[simp] theorem State.markDue_slotA (s : State) : s.markDue.slotA = s.slotA := rfl
@[simp] theorem State.markDue_slotB (s : State) : s.markDue.slotB = s.slotB := rfl
@[simp] theorem State.markDue_queue (s : State) : s.markDue.queue = s.queue := rfl
@[simp] theorem State.markDue_window (s : State) : s.markDue.window = s.window := rfl
@[simp] theorem State.markDue_receiver (s : State) : s.markDue.receiver = s.receiver := rfl
@[simp] theorem State.markDue_voids (s : State) : s.markDue.voids = s.voids := rfl
@[simp] theorem State.markDue_ports (s : State) : s.markDue.ports = s.ports := rfl
@[simp] theorem State.markDue_sup (s : State) : s.markDue.sup = s.sup := rfl
@[simp] theorem State.markDue_run (s : State) : s.markDue.run = s.run := rfl
@[simp] theorem State.markDue_pending (s : State) : s.markDue.pending = s.pending := rfl

/-! ### `State.setAck` -/

@[simp] theorem State.setAck_plan (s : State) (b : Bool) (n : Nat) : (s.setAck b n).plan = s.plan := rfl
@[simp] theorem State.setAck_slotA (s : State) (b : Bool) (n : Nat) : (s.setAck b n).slotA = s.slotA := rfl
@[simp] theorem State.setAck_slotB (s : State) (b : Bool) (n : Nat) : (s.setAck b n).slotB = s.slotB := rfl
@[simp] theorem State.setAck_queue (s : State) (b : Bool) (n : Nat) : (s.setAck b n).queue = s.queue := rfl
@[simp] theorem State.setAck_window (s : State) (b : Bool) (n : Nat) : (s.setAck b n).window = s.window := rfl
@[simp] theorem State.setAck_receiver (s : State) (b : Bool) (n : Nat) : (s.setAck b n).receiver = s.receiver := rfl
@[simp] theorem State.setAck_voids (s : State) (b : Bool) (n : Nat) : (s.setAck b n).voids = s.voids := rfl
@[simp] theorem State.setAck_account (s : State) (b : Bool) (n : Nat) : (s.setAck b n).account = s.account := rfl
@[simp] theorem State.setAck_ports (s : State) (b : Bool) (n : Nat) : (s.setAck b n).ports = s.ports := rfl
@[simp] theorem State.setAck_run (s : State) (b : Bool) (n : Nat) : (s.setAck b n).run = s.run := rfl
@[simp] theorem State.setAck_pending (s : State) (b : Bool) (n : Nat) : (s.setAck b n).pending = s.pending := rfl

/-! ### `State.endHandling` -/

@[simp] theorem State.endHandling_plan (s : State) : s.endHandling.plan = s.plan := rfl
@[simp] theorem State.endHandling_slotA (s : State) : s.endHandling.slotA = s.slotA := rfl
@[simp] theorem State.endHandling_slotB (s : State) : s.endHandling.slotB = s.slotB := rfl
@[simp] theorem State.endHandling_queue (s : State) : s.endHandling.queue = s.queue := rfl
@[simp] theorem State.endHandling_window (s : State) : s.endHandling.window = s.window := rfl
@[simp] theorem State.endHandling_voids (s : State) : s.endHandling.voids = s.voids := rfl
@[simp] theorem State.endHandling_account (s : State) : s.endHandling.account = s.account := rfl
@[simp] theorem State.endHandling_ports (s : State) : s.endHandling.ports = s.ports := rfl
@[simp] theorem State.endHandling_sup (s : State) : s.endHandling.sup = s.sup := rfl
@[simp] theorem State.endHandling_run (s : State) : s.endHandling.run = s.run := rfl
@[simp] theorem State.endHandling_pending (s : State) : s.endHandling.pending = s.pending := rfl

/-! ### `State.setClosing` -/

@[simp] theorem State.setClosing_plan (s : State) (c : Option Closing) : (s.setClosing c).plan = s.plan := rfl
@[simp] theorem State.setClosing_slotA (s : State) (c : Option Closing) : (s.setClosing c).slotA = s.slotA := rfl
@[simp] theorem State.setClosing_slotB (s : State) (c : Option Closing) : (s.setClosing c).slotB = s.slotB := rfl
@[simp] theorem State.setClosing_queue (s : State) (c : Option Closing) : (s.setClosing c).queue = s.queue := rfl
@[simp] theorem State.setClosing_receiver (s : State) (c : Option Closing) : (s.setClosing c).receiver = s.receiver := rfl
@[simp] theorem State.setClosing_voids (s : State) (c : Option Closing) : (s.setClosing c).voids = s.voids := rfl
@[simp] theorem State.setClosing_account (s : State) (c : Option Closing) : (s.setClosing c).account = s.account := rfl
@[simp] theorem State.setClosing_ports (s : State) (c : Option Closing) : (s.setClosing c).ports = s.ports := rfl
@[simp] theorem State.setClosing_sup (s : State) (c : Option Closing) : (s.setClosing c).sup = s.sup := rfl
@[simp] theorem State.setClosing_run (s : State) (c : Option Closing) : (s.setClosing c).run = s.run := rfl
@[simp] theorem State.setClosing_pending (s : State) (c : Option Closing) : (s.setClosing c).pending = s.pending := rfl
@[simp] theorem State.setClosing_slot (s : State) (c : Option Closing) (i : SlotId) : (s.setClosing c).slot i = s.slot i := by
  cases i <;> rfl
@[simp] theorem State.setClosing_port (s : State) (c : Option Closing) (q : PortId) : (s.setClosing c).port q = s.port q := rfl
@[simp] theorem State.setClosing_records (s : State) (c : Option Closing) : (s.setClosing c).window.records = s.window.records := rfl
@[simp] theorem State.setClosing_newest (s : State) (c : Option Closing) : (s.setClosing c).window.newest = s.window.newest := rfl
@[simp] theorem State.setClosing_target (s : State) (c : Option Closing) : (s.setClosing c).window.target = s.window.target := rfl
@[simp] theorem State.setClosing_high (s : State) (c : Option Closing) : (s.setClosing c).window.high = s.window.high := rfl
@[simp] theorem State.setClosing_closing (s : State) (c : Option Closing) : (s.setClosing c).window.closing = c := rfl

/-! ### `State.setLastVerdict` -/

@[simp] theorem State.setLastVerdict_plan (s : State) (r : Nat) : (s.setLastVerdict r).plan = s.plan := rfl
@[simp] theorem State.setLastVerdict_slotA (s : State) (r : Nat) : (s.setLastVerdict r).slotA = s.slotA := rfl
@[simp] theorem State.setLastVerdict_slotB (s : State) (r : Nat) : (s.setLastVerdict r).slotB = s.slotB := rfl
@[simp] theorem State.setLastVerdict_queue (s : State) (r : Nat) : (s.setLastVerdict r).queue = s.queue := rfl
@[simp] theorem State.setLastVerdict_window (s : State) (r : Nat) : (s.setLastVerdict r).window = s.window := rfl
@[simp] theorem State.setLastVerdict_voids (s : State) (r : Nat) : (s.setLastVerdict r).voids = s.voids := rfl
@[simp] theorem State.setLastVerdict_account (s : State) (r : Nat) : (s.setLastVerdict r).account = s.account := rfl
@[simp] theorem State.setLastVerdict_ports (s : State) (r : Nat) : (s.setLastVerdict r).ports = s.ports := rfl
@[simp] theorem State.setLastVerdict_sup (s : State) (r : Nat) : (s.setLastVerdict r).sup = s.sup := rfl
@[simp] theorem State.setLastVerdict_run (s : State) (r : Nat) : (s.setLastVerdict r).run = s.run := rfl
@[simp] theorem State.setLastVerdict_pending (s : State) (r : Nat) : (s.setLastVerdict r).pending = s.pending := rfl

/-! ### `State.gapTimeout` -/

@[simp] theorem State.gapTimeout_plan (s : State) : s.gapTimeout.plan = s.plan := rfl
@[simp] theorem State.gapTimeout_slotA (s : State) : s.gapTimeout.slotA = s.slotA := rfl
@[simp] theorem State.gapTimeout_slotB (s : State) : s.gapTimeout.slotB = s.slotB := rfl
@[simp] theorem State.gapTimeout_queue (s : State) : s.gapTimeout.queue = s.queue := rfl
@[simp] theorem State.gapTimeout_window (s : State) : s.gapTimeout.window = s.window := rfl
@[simp] theorem State.gapTimeout_voids (s : State) : s.gapTimeout.voids = s.voids := rfl
@[simp] theorem State.gapTimeout_account (s : State) : s.gapTimeout.account = s.account := rfl
@[simp] theorem State.gapTimeout_ports (s : State) : s.gapTimeout.ports = s.ports := rfl
@[simp] theorem State.gapTimeout_sup (s : State) : s.gapTimeout.sup = s.sup := rfl
@[simp] theorem State.gapTimeout_run (s : State) : s.gapTimeout.run = s.run := rfl
@[simp] theorem State.gapTimeout_pending (s : State) : s.gapTimeout.pending = s.pending := rfl

/-! ### `State.plyLost` -/

@[simp] theorem State.plyLost_plan (s : State) (k : Nat) : (s.plyLost k).plan = s.plan := rfl
@[simp] theorem State.plyLost_slotA (s : State) (k : Nat) : (s.plyLost k).slotA = s.slotA := rfl
@[simp] theorem State.plyLost_slotB (s : State) (k : Nat) : (s.plyLost k).slotB = s.slotB := rfl
@[simp] theorem State.plyLost_queue (s : State) (k : Nat) : (s.plyLost k).queue = s.queue := rfl
@[simp] theorem State.plyLost_receiver (s : State) (k : Nat) : (s.plyLost k).receiver = s.receiver := rfl
@[simp] theorem State.plyLost_voids (s : State) (k : Nat) : (s.plyLost k).voids = s.voids := rfl
@[simp] theorem State.plyLost_account (s : State) (k : Nat) : (s.plyLost k).account = s.account := rfl
@[simp] theorem State.plyLost_ports (s : State) (k : Nat) : (s.plyLost k).ports = s.ports := rfl
@[simp] theorem State.plyLost_sup (s : State) (k : Nat) : (s.plyLost k).sup = s.sup := rfl
@[simp] theorem State.plyLost_run (s : State) (k : Nat) : (s.plyLost k).run = s.run := rfl
@[simp] theorem State.plyLost_pending (s : State) (k : Nat) : (s.plyLost k).pending = s.pending := rfl

/-! ### `State.raiseTarget` -/

@[simp] theorem State.raiseTarget_plan (s : State) (r : Nat) : (s.raiseTarget r).plan = s.plan := rfl
@[simp] theorem State.raiseTarget_slotA (s : State) (r : Nat) : (s.raiseTarget r).slotA = s.slotA := rfl
@[simp] theorem State.raiseTarget_slotB (s : State) (r : Nat) : (s.raiseTarget r).slotB = s.slotB := rfl
@[simp] theorem State.raiseTarget_queue (s : State) (r : Nat) : (s.raiseTarget r).queue = s.queue := rfl
@[simp] theorem State.raiseTarget_receiver (s : State) (r : Nat) : (s.raiseTarget r).receiver = s.receiver := rfl
@[simp] theorem State.raiseTarget_voids (s : State) (r : Nat) : (s.raiseTarget r).voids = s.voids := rfl
@[simp] theorem State.raiseTarget_account (s : State) (r : Nat) : (s.raiseTarget r).account = s.account := rfl
@[simp] theorem State.raiseTarget_ports (s : State) (r : Nat) : (s.raiseTarget r).ports = s.ports := rfl
@[simp] theorem State.raiseTarget_sup (s : State) (r : Nat) : (s.raiseTarget r).sup = s.sup := rfl
@[simp] theorem State.raiseTarget_run (s : State) (r : Nat) : (s.raiseTarget r).run = s.run := rfl
@[simp] theorem State.raiseTarget_pending (s : State) (r : Nat) : (s.raiseTarget r).pending = s.pending := rfl

/-! ### The reads of slots and ports after updates elsewhere -/

@[simp] theorem State.modPort_slot (s : State) (p : PortId) (f : Port → Port) (i : SlotId) : (s.modPort p f).slot i = s.slot i := by
  cases i <;> rfl
@[simp] theorem State.mapPorts_slot (s : State) (f : Port → Port) (i : SlotId) : (s.mapPorts f).slot i = s.slot i := by
  cases i <;> rfl
@[simp] theorem State.raise_slot (s : State) (e : Event) (i : SlotId) : (s.raise e).slot i = s.slot i := by
  cases i <;> rfl
@[simp] theorem State.raise_port (s : State) (e : Event) (q : PortId) : (s.raise e).port q = s.port q := rfl
@[simp] theorem State.raiseIf_slot (s : State) (c : Bool) (e : Event) (i : SlotId) : (s.raiseIf c e).slot i = s.slot i := by
  cases c <;> cases i <;> rfl
@[simp] theorem State.raiseIf_port (s : State) (c : Bool) (e : Event) (q : PortId) : (s.raiseIf c e).port q = s.port q := by
  cases c <;> rfl
@[simp] theorem State.modRecord_slot (s : State) (r : Nat) (f : Record → Record) (i : SlotId) : (s.modRecord r f).slot i = s.slot i := by
  cases i <;> rfl
@[simp] theorem State.modRecord_port (s : State) (r : Nat) (f : Record → Record) (q : PortId) : (s.modRecord r f).port q = s.port q := rfl
@[simp] theorem State.enqueue_slot (s : State) (it : Item) (i : SlotId) : (s.enqueue it).slot i = s.slot i := by
  cases i <;> rfl
@[simp] theorem State.enqueue_port (s : State) (it : Item) (q : PortId) : (s.enqueue it).port q = s.port q := rfl
@[simp] theorem State.setFill_slot (s : State) (f : Option Fill) (i : SlotId) : (s.setFill f).slot i = s.slot i := by
  cases i <;> rfl
@[simp] theorem State.setFill_port (s : State) (f : Option Fill) (q : PortId) : (s.setFill f).port q = s.port q := rfl
@[simp] theorem State.setReqSlot_slot (s : State) (p : PortId) (x : ReqSlot) (i : SlotId) : (s.setReqSlot p x).slot i = s.slot i := by
  cases i <;> rfl
@[simp] theorem State.markDue_slot (s : State)  (i : SlotId) : s.markDue.slot i = s.slot i := by
  cases i <;> rfl
@[simp] theorem State.markDue_port (s : State)  (q : PortId) : s.markDue.port q = s.port q := rfl
@[simp] theorem State.setAck_slot (s : State) (b : Bool) (n : Nat) (i : SlotId) : (s.setAck b n).slot i = s.slot i := by
  cases i <;> rfl
@[simp] theorem State.setAck_port (s : State) (b : Bool) (n : Nat) (q : PortId) : (s.setAck b n).port q = s.port q := rfl
@[simp] theorem State.endHandling_slot (s : State)  (i : SlotId) : s.endHandling.slot i = s.slot i := by
  cases i <;> rfl
@[simp] theorem State.endHandling_port (s : State)  (q : PortId) : s.endHandling.port q = s.port q := rfl
@[simp] theorem State.setLastVerdict_slot (s : State) (r : Nat) (i : SlotId) : (s.setLastVerdict r).slot i = s.slot i := by
  cases i <;> rfl
@[simp] theorem State.setLastVerdict_port (s : State) (r : Nat) (q : PortId) : (s.setLastVerdict r).port q = s.port q := rfl
@[simp] theorem State.gapTimeout_slot (s : State)  (i : SlotId) : s.gapTimeout.slot i = s.slot i := by
  cases i <;> rfl
@[simp] theorem State.gapTimeout_port (s : State)  (q : PortId) : s.gapTimeout.port q = s.port q := rfl
@[simp] theorem State.plyLost_slot (s : State) (k : Nat) (i : SlotId) : (s.plyLost k).slot i = s.slot i := by
  cases i <;> rfl
@[simp] theorem State.plyLost_port (s : State) (k : Nat) (q : PortId) : (s.plyLost k).port q = s.port q := rfl
@[simp] theorem State.raiseTarget_slot (s : State) (r : Nat) (i : SlotId) : (s.raiseTarget r).slot i = s.slot i := by
  cases i <;> rfl
@[simp] theorem State.raiseTarget_port (s : State) (r : Nat) (q : PortId) : (s.raiseTarget r).port q = s.port q := rfl
@[simp] theorem State.modSlot_port (s : State) (i : SlotId) (f : JobSlot → JobSlot) (q : PortId) :
    (s.modSlot i f).port q = s.port q := by cases i <;> rfl

/-! ### Events -/

theorem State.raise_events (s : State) (e : Event) : (s.raise e).sup.events = s.sup.events ||| e.flag := rfl

theorem State.raiseIf_events (s : State) (c : Bool) (e : Event) :
    (s.raiseIf c e).sup.events = if c then s.sup.events ||| e.flag else s.sup.events := by cases c <;> rfl

@[simp] theorem State.raise_sup_address (s : State) (e : Event) : (s.raise e).sup.address = s.sup.address := rfl
@[simp] theorem State.raiseIf_sup_address (s : State) (c : Bool) (e : Event) : (s.raiseIf c e).sup.address = s.sup.address := by
  cases c <;> rfl
@[simp] theorem State.raise_sup_task (s : State) (e : Event) : (s.raise e).sup.task = s.sup.task := rfl
@[simp] theorem State.raiseIf_sup_task (s : State) (c : Bool) (e : Event) : (s.raiseIf c e).sup.task = s.sup.task := by
  cases c <;> rfl
@[simp] theorem State.raise_sup_param (s : State) (e : Event) : (s.raise e).sup.param = s.sup.param := rfl
@[simp] theorem State.raiseIf_sup_param (s : State) (c : Bool) (e : Event) : (s.raiseIf c e).sup.param = s.sup.param := by
  cases c <;> rfl
@[simp] theorem State.raise_sup_result (s : State) (e : Event) : (s.raise e).sup.result = s.sup.result := rfl
@[simp] theorem State.raiseIf_sup_result (s : State) (c : Bool) (e : Event) : (s.raiseIf c e).sup.result = s.sup.result := by
  cases c <;> rfl
@[simp] theorem State.raise_sup_mask (s : State) (e : Event) : (s.raise e).sup.mask = s.sup.mask := rfl
@[simp] theorem State.raiseIf_sup_mask (s : State) (c : Bool) (e : Event) : (s.raiseIf c e).sup.mask = s.sup.mask := by
  cases c <;> rfl
@[simp] theorem State.raise_sup_onPage1 (s : State) (e : Event) : (s.raise e).sup.onPage1 = s.sup.onPage1 := rfl
@[simp] theorem State.raiseIf_sup_onPage1 (s : State) (c : Bool) (e : Event) : (s.raiseIf c e).sup.onPage1 = s.sup.onPage1 := by
  cases c <;> rfl
@[simp] theorem State.raise_sup_sequence (s : State) (e : Event) : (s.raise e).sup.sequence = s.sup.sequence := rfl
@[simp] theorem State.raiseIf_sup_sequence (s : State) (c : Bool) (e : Event) : (s.raiseIf c e).sup.sequence = s.sup.sequence := by
  cases c <;> rfl
@[simp] theorem State.raise_sup_snapshot (s : State) (e : Event) : (s.raise e).sup.snapshot = s.sup.snapshot := rfl
@[simp] theorem State.raiseIf_sup_snapshot (s : State) (c : Bool) (e : Event) : (s.raiseIf c e).sup.snapshot = s.sup.snapshot := by
  cases c <;> rfl
@[simp] theorem State.raise_sup_running (s : State) (e : Event) : (s.raise e).sup.running = s.sup.running := rfl
@[simp] theorem State.raiseIf_sup_running (s : State) (c : Bool) (e : Event) : (s.raiseIf c e).sup.running = s.sup.running := by
  cases c <;> rfl
@[simp] theorem State.raise_sup_out (s : State) (e : Event) : (s.raise e).sup.out = s.sup.out := rfl
@[simp] theorem State.raiseIf_sup_out (s : State) (c : Bool) (e : Event) : (s.raiseIf c e).sup.out = s.sup.out := by
  cases c <;> rfl
@[simp] theorem State.raise_sup_ack (s : State) (e : Event) : (s.raise e).sup.ack = s.sup.ack := rfl
@[simp] theorem State.raiseIf_sup_ack (s : State) (c : Bool) (e : Event) : (s.raiseIf c e).sup.ack = s.sup.ack := by
  cases c <;> rfl

/-! ### Equality -/

/-- Two states are equal when every field is. -/
theorem State.eq_of_fields {s t : State} (h1 : s.plan = t.plan) (h2 : s.slotA = t.slotA) (h3 : s.slotB = t.slotB)
    (h4 : s.queue = t.queue) (h5 : s.window = t.window) (h6 : s.receiver = t.receiver) (h7 : s.voids = t.voids)
    (h8 : s.account = t.account) (h9 : ∀ p, s.port p = t.port p) (h10 : s.sup = t.sup) (h11 : s.run = t.run)
    (h12 : s.pending = t.pending) : s = t := by
  have hp : s.ports = t.ports := ports_ext _ _ h9
  cases s
  cases t
  simp_all

/-! ### Loops over the ports -/

/-- What each turn of a loop over the ports keeps, the loop keeps. -/
theorem State.forPorts_keeps {P : State → Prop} (f : PortId → State → State) (h : ∀ p t, P t → P (f p t)) (s : State) (hs : P s) :
    P (s.forPorts f) := by
  have key : ∀ (l : List PortId) (t : State), P t → P (l.foldl (fun t p => f p t) t) := by
    intro l
    induction l with
    | nil => intro t ht; exact ht
    | cons p l ih => intro t ht; exact ih _ (h p t ht)
  exact key allPorts s hs

/-- A field that no turn of a loop over the ports changes is as before. -/
theorem State.forPorts_field {α : Type} (g : State → α) (f : PortId → State → State) (h : ∀ p t, g (f p t) = g t) (s : State) :
    g (s.forPorts f) = g s :=
  State.forPorts_keeps (P := fun t => g t = g s) f (fun p t ht => (h p t).trans ht) s rfl

theorem mem_allPorts (p : PortId) : p ∈ allPorts := by fin_cases p <;> simp [allPorts]

/-- A loop whose turn for a port changes that port by `g` and no other, while `I` holds and is kept, changes every port by `g`. -/
theorem State.forPorts_port {I : State → Prop} (f : PortId → State → State) (g : PortId → Port → Port)
    (hI : ∀ p t, I t → I (f p t)) (hself : ∀ p t, I t → (f p t).port p = g p (t.port p))
    (hne : ∀ p q t, I t → q ≠ p → (f p t).port q = t.port q) (s : State) (hs : I s) (q : PortId) :
    (s.forPorts f).port q = g q (s.port q) := by
  have key : ∀ (l : List PortId) (t : State), I t → l.Nodup →
      (l.foldl (fun t p => f p t) t).port q = if q ∈ l then g q (t.port q) else t.port q := by
    intro l
    induction l with
    | nil => intro t _ _; simp
    | cons p l ih =>
      intro t ht hl
      have hl := List.nodup_cons.mp hl
      rw [List.foldl_cons, ih _ (hI p t ht) hl.2]
      by_cases hq : q = p
      · subst hq
        rw [if_neg hl.1, if_pos (List.mem_cons_self ..), hself q t ht]
      · rw [hne p q t ht hq]
        simp [hq]
  have hn : allPorts.Nodup := by decide
  rw [State.forPorts, key allPorts s hs hn, if_pos (mem_allPorts q)]

end Sys2Proof.Machine
end

