-- ==== Sys2Proof/Laws/Frames.lean ====
section
/-! SUPPORT. Which blocks each shared operation leaves as they were: one lemma for each operation and block. -/

namespace Sys2Proof.Machine


/-! ### `State.startFill` -/

@[simp] theorem State.startFill_plan (s : State)  : s.startFill.plan = s.plan := by
  simp only [State.startFill]
  (repeat' split) <;> simp
@[simp] theorem State.startFill_slotA (s : State)  : s.startFill.slotA = s.slotA := by
  simp only [State.startFill]
  (repeat' split) <;> simp
@[simp] theorem State.startFill_slotB (s : State)  : s.startFill.slotB = s.slotB := by
  simp only [State.startFill]
  (repeat' split) <;> simp
@[simp] theorem State.startFill_window (s : State)  : s.startFill.window = s.window := by
  simp only [State.startFill]
  (repeat' split) <;> simp
@[simp] theorem State.startFill_receiver (s : State)  : s.startFill.receiver = s.receiver := by
  simp only [State.startFill]
  (repeat' split) <;> simp
@[simp] theorem State.startFill_voids (s : State)  : s.startFill.voids = s.voids := by
  simp only [State.startFill]
  (repeat' split) <;> simp
@[simp] theorem State.startFill_account (s : State)  : s.startFill.account = s.account := by
  simp only [State.startFill]
  (repeat' split) <;> simp
@[simp] theorem State.startFill_ports (s : State)  : s.startFill.ports = s.ports := by
  simp only [State.startFill]
  (repeat' split) <;> simp
@[simp] theorem State.startFill_sup (s : State)  : s.startFill.sup = s.sup := by
  simp only [State.startFill]
  (repeat' split) <;> simp
@[simp] theorem State.startFill_run (s : State)  : s.startFill.run = s.run := by
  simp only [State.startFill]
  (repeat' split) <;> simp
@[simp] theorem State.startFill_pending (s : State)  : s.startFill.pending = s.pending := by
  simp only [State.startFill]
  (repeat' split) <;> simp
@[simp] theorem State.startFill_slot (s : State) (k : SlotId) : s.startFill.slot k = s.slot k := by
  cases k <;> simp [State.slot]
@[simp] theorem State.startFill_port (s : State) (k : PortId) : s.startFill.port k = s.port k := by
  simp [State.port]

/-! ### `State.hold` -/

@[simp] theorem State.hold_plan (s : State) (p : PortId) (q : Request) : (s.hold p q).plan = s.plan := by
  simp only [State.hold]
  simp
@[simp] theorem State.hold_slotA (s : State) (p : PortId) (q : Request) : (s.hold p q).slotA = s.slotA := by
  simp only [State.hold]
  simp
@[simp] theorem State.hold_slotB (s : State) (p : PortId) (q : Request) : (s.hold p q).slotB = s.slotB := by
  simp only [State.hold]
  simp
@[simp] theorem State.hold_queue (s : State) (p : PortId) (q : Request) : (s.hold p q).queue = s.queue := by
  simp only [State.hold]
  simp
@[simp] theorem State.hold_window (s : State) (p : PortId) (q : Request) : (s.hold p q).window = s.window := by
  simp only [State.hold]
  simp
@[simp] theorem State.hold_receiver (s : State) (p : PortId) (q : Request) : (s.hold p q).receiver = s.receiver := by
  simp only [State.hold]
  simp
@[simp] theorem State.hold_voids (s : State) (p : PortId) (q : Request) : (s.hold p q).voids = s.voids := by
  simp only [State.hold]
  simp
@[simp] theorem State.hold_account (s : State) (p : PortId) (q : Request) : (s.hold p q).account = s.account := by
  simp only [State.hold]
  simp
@[simp] theorem State.hold_run (s : State) (p : PortId) (q : Request) : (s.hold p q).run = s.run := by
  simp only [State.hold]
  simp
@[simp] theorem State.hold_pending (s : State) (p : PortId) (q : Request) : (s.hold p q).pending = s.pending := by
  simp only [State.hold]
  simp
@[simp] theorem State.hold_slot (s : State) (p : PortId) (q : Request) (k : SlotId) : (s.hold p q).slot k = s.slot k := by
  cases k <;> simp [State.slot]

/-! ### `State.concludePort` -/

@[simp] theorem State.concludePort_plan (s : State) (p : PortId) : (State.concludePort p s).plan = s.plan := by
  simp only [State.concludePort]
  (repeat' split) <;> simp
@[simp] theorem State.concludePort_slotA (s : State) (p : PortId) : (State.concludePort p s).slotA = s.slotA := by
  simp only [State.concludePort]
  (repeat' split) <;> simp
@[simp] theorem State.concludePort_slotB (s : State) (p : PortId) : (State.concludePort p s).slotB = s.slotB := by
  simp only [State.concludePort]
  (repeat' split) <;> simp
@[simp] theorem State.concludePort_queue (s : State) (p : PortId) : (State.concludePort p s).queue = s.queue := by
  simp only [State.concludePort]
  (repeat' split) <;> simp
@[simp] theorem State.concludePort_window (s : State) (p : PortId) : (State.concludePort p s).window = s.window := by
  simp only [State.concludePort]
  (repeat' split) <;> simp
@[simp] theorem State.concludePort_receiver (s : State) (p : PortId) : (State.concludePort p s).receiver = s.receiver := by
  simp only [State.concludePort]
  (repeat' split) <;> simp
@[simp] theorem State.concludePort_voids (s : State) (p : PortId) : (State.concludePort p s).voids = s.voids := by
  simp only [State.concludePort]
  (repeat' split) <;> simp
@[simp] theorem State.concludePort_account (s : State) (p : PortId) : (State.concludePort p s).account = s.account := by
  simp only [State.concludePort]
  (repeat' split) <;> simp
@[simp] theorem State.concludePort_run (s : State) (p : PortId) : (State.concludePort p s).run = s.run := by
  simp only [State.concludePort]
  (repeat' split) <;> simp
@[simp] theorem State.concludePort_pending (s : State) (p : PortId) : (State.concludePort p s).pending = s.pending := by
  simp only [State.concludePort]
  (repeat' split) <;> simp
@[simp] theorem State.concludePort_slot (s : State) (p : PortId) (k : SlotId) : (State.concludePort p s).slot k = s.slot k := by
  cases k <;> simp [State.slot]

/-! ### `State.dropTarget` -/

@[simp] theorem State.dropTarget_plan (s : State)  : s.dropTarget.plan = s.plan := by
  simp only [State.dropTarget]
  (repeat' split) <;> simp
@[simp] theorem State.dropTarget_slotA (s : State)  : s.dropTarget.slotA = s.slotA := by
  simp only [State.dropTarget]
  (repeat' split) <;> simp
@[simp] theorem State.dropTarget_slotB (s : State)  : s.dropTarget.slotB = s.slotB := by
  simp only [State.dropTarget]
  (repeat' split) <;> simp
@[simp] theorem State.dropTarget_queue (s : State)  : s.dropTarget.queue = s.queue := by
  simp only [State.dropTarget]
  (repeat' split) <;> simp
@[simp] theorem State.dropTarget_receiver (s : State)  : s.dropTarget.receiver = s.receiver := by
  simp only [State.dropTarget]
  (repeat' split) <;> simp
@[simp] theorem State.dropTarget_voids (s : State)  : s.dropTarget.voids = s.voids := by
  simp only [State.dropTarget]
  (repeat' split) <;> simp
@[simp] theorem State.dropTarget_account (s : State)  : s.dropTarget.account = s.account := by
  simp only [State.dropTarget]
  (repeat' split) <;> simp
@[simp] theorem State.dropTarget_ports (s : State)  : s.dropTarget.ports = s.ports := by
  simp only [State.dropTarget]
  (repeat' split) <;> simp
@[simp] theorem State.dropTarget_sup (s : State)  : s.dropTarget.sup = s.sup := by
  simp only [State.dropTarget]
  (repeat' split) <;> simp
@[simp] theorem State.dropTarget_run (s : State)  : s.dropTarget.run = s.run := by
  simp only [State.dropTarget]
  (repeat' split) <;> simp
@[simp] theorem State.dropTarget_pending (s : State)  : s.dropTarget.pending = s.pending := by
  simp only [State.dropTarget]
  (repeat' split) <;> simp
@[simp] theorem State.dropTarget_slot (s : State) (k : SlotId) : s.dropTarget.slot k = s.slot k := by
  cases k <;> simp [State.slot]
@[simp] theorem State.dropTarget_port (s : State) (k : PortId) : s.dropTarget.port k = s.port k := by
  simp [State.port]

/-! ### `State.settle` -/

@[simp] theorem State.settle_plan (s : State)  : s.settle.plan = s.plan := by
  simp only [State.settle, State.startFill_plan]
  rw [State.forPorts_field (fun t => t.plan) _ (fun p t => State.concludePort_plan t p)]
  simp
@[simp] theorem State.settle_slotA (s : State)  : s.settle.slotA = s.slotA := by
  simp only [State.settle, State.startFill_slotA]
  rw [State.forPorts_field (fun t => t.slotA) _ (fun p t => State.concludePort_slotA t p)]
  simp
@[simp] theorem State.settle_slotB (s : State)  : s.settle.slotB = s.slotB := by
  simp only [State.settle, State.startFill_slotB]
  rw [State.forPorts_field (fun t => t.slotB) _ (fun p t => State.concludePort_slotB t p)]
  simp
@[simp] theorem State.settle_receiver (s : State)  : s.settle.receiver = s.receiver := by
  simp only [State.settle, State.startFill_receiver]
  rw [State.forPorts_field (fun t => t.receiver) _ (fun p t => State.concludePort_receiver t p)]
  simp
@[simp] theorem State.settle_voids (s : State)  : s.settle.voids = s.voids := by
  simp only [State.settle, State.startFill_voids]
  rw [State.forPorts_field (fun t => t.voids) _ (fun p t => State.concludePort_voids t p)]
  simp
@[simp] theorem State.settle_account (s : State)  : s.settle.account = s.account := by
  simp only [State.settle, State.startFill_account]
  rw [State.forPorts_field (fun t => t.account) _ (fun p t => State.concludePort_account t p)]
  simp
@[simp] theorem State.settle_run (s : State)  : s.settle.run = s.run := by
  simp only [State.settle, State.startFill_run]
  rw [State.forPorts_field (fun t => t.run) _ (fun p t => State.concludePort_run t p)]
  simp
@[simp] theorem State.settle_pending (s : State)  : s.settle.pending = s.pending := by
  simp only [State.settle, State.startFill_pending]
  rw [State.forPorts_field (fun t => t.pending) _ (fun p t => State.concludePort_pending t p)]
  simp
@[simp] theorem State.settle_slot (s : State) (k : SlotId) : s.settle.slot k = s.slot k := by
  cases k <;> simp [State.slot]

/-! ### `State.insertRange` -/

@[simp] theorem State.insertRange_plan (s : State) (lo hi : Nat) : (s.insertRange lo hi).plan = s.plan := by
  simp only [State.insertRange]
  simp
@[simp] theorem State.insertRange_slotA (s : State) (lo hi : Nat) : (s.insertRange lo hi).slotA = s.slotA := by
  simp only [State.insertRange]
  simp
@[simp] theorem State.insertRange_slotB (s : State) (lo hi : Nat) : (s.insertRange lo hi).slotB = s.slotB := by
  simp only [State.insertRange]
  simp
@[simp] theorem State.insertRange_queue (s : State) (lo hi : Nat) : (s.insertRange lo hi).queue = s.queue := by
  simp only [State.insertRange]
  simp
@[simp] theorem State.insertRange_window (s : State) (lo hi : Nat) : (s.insertRange lo hi).window = s.window := by
  simp only [State.insertRange]
  simp
@[simp] theorem State.insertRange_receiver (s : State) (lo hi : Nat) : (s.insertRange lo hi).receiver = s.receiver := by
  simp only [State.insertRange]
  simp
@[simp] theorem State.insertRange_account (s : State) (lo hi : Nat) : (s.insertRange lo hi).account = s.account := by
  simp only [State.insertRange]
  simp
@[simp] theorem State.insertRange_ports (s : State) (lo hi : Nat) : (s.insertRange lo hi).ports = s.ports := by
  simp only [State.insertRange]
  simp
@[simp] theorem State.insertRange_run (s : State) (lo hi : Nat) : (s.insertRange lo hi).run = s.run := by
  simp only [State.insertRange]
  simp
@[simp] theorem State.insertRange_pending (s : State) (lo hi : Nat) : (s.insertRange lo hi).pending = s.pending := by
  simp only [State.insertRange]
  simp
@[simp] theorem State.insertRange_slot (s : State) (lo hi : Nat) (k : SlotId) : (s.insertRange lo hi).slot k = s.slot k := by
  cases k <;> simp [State.slot]
@[simp] theorem State.insertRange_port (s : State) (lo hi : Nat) (k : PortId) : (s.insertRange lo hi).port k = s.port k := by
  simp [State.port]

/-! ### `State.insertValue` -/

@[simp] theorem State.insertValue_plan (s : State) (x : Nat) : (s.insertValue x).plan = s.plan := by
  simp only [State.insertValue]
  simp
@[simp] theorem State.insertValue_slotA (s : State) (x : Nat) : (s.insertValue x).slotA = s.slotA := by
  simp only [State.insertValue]
  simp
@[simp] theorem State.insertValue_slotB (s : State) (x : Nat) : (s.insertValue x).slotB = s.slotB := by
  simp only [State.insertValue]
  simp
@[simp] theorem State.insertValue_queue (s : State) (x : Nat) : (s.insertValue x).queue = s.queue := by
  simp only [State.insertValue]
  simp
@[simp] theorem State.insertValue_window (s : State) (x : Nat) : (s.insertValue x).window = s.window := by
  simp only [State.insertValue]
  simp
@[simp] theorem State.insertValue_receiver (s : State) (x : Nat) : (s.insertValue x).receiver = s.receiver := by
  simp only [State.insertValue]
  simp
@[simp] theorem State.insertValue_account (s : State) (x : Nat) : (s.insertValue x).account = s.account := by
  simp only [State.insertValue]
  simp
@[simp] theorem State.insertValue_ports (s : State) (x : Nat) : (s.insertValue x).ports = s.ports := by
  simp only [State.insertValue]
  simp
@[simp] theorem State.insertValue_run (s : State) (x : Nat) : (s.insertValue x).run = s.run := by
  simp only [State.insertValue]
  simp
@[simp] theorem State.insertValue_pending (s : State) (x : Nat) : (s.insertValue x).pending = s.pending := by
  simp only [State.insertValue]
  simp
@[simp] theorem State.insertValue_slot (s : State) (x : Nat) (k : SlotId) : (s.insertValue x).slot k = s.slot k := by
  cases k <;> simp [State.slot]
@[simp] theorem State.insertValue_port (s : State) (x : Nat) (k : PortId) : (s.insertValue x).port k = s.port k := by
  simp [State.port]

/-! ### `State.insertValues` -/

@[simp] theorem State.insertValues_plan (s : State) (xs : List Nat) : (s.insertValues xs).plan = s.plan := by
  induction xs generalizing s with
  | nil => rfl
  | cons x xs ih => exact (ih (s.insertValue x)).trans (State.insertValue_plan s x)
@[simp] theorem State.insertValues_slotA (s : State) (xs : List Nat) : (s.insertValues xs).slotA = s.slotA := by
  induction xs generalizing s with
  | nil => rfl
  | cons x xs ih => exact (ih (s.insertValue x)).trans (State.insertValue_slotA s x)
@[simp] theorem State.insertValues_slotB (s : State) (xs : List Nat) : (s.insertValues xs).slotB = s.slotB := by
  induction xs generalizing s with
  | nil => rfl
  | cons x xs ih => exact (ih (s.insertValue x)).trans (State.insertValue_slotB s x)
@[simp] theorem State.insertValues_queue (s : State) (xs : List Nat) : (s.insertValues xs).queue = s.queue := by
  induction xs generalizing s with
  | nil => rfl
  | cons x xs ih => exact (ih (s.insertValue x)).trans (State.insertValue_queue s x)
@[simp] theorem State.insertValues_window (s : State) (xs : List Nat) : (s.insertValues xs).window = s.window := by
  induction xs generalizing s with
  | nil => rfl
  | cons x xs ih => exact (ih (s.insertValue x)).trans (State.insertValue_window s x)
@[simp] theorem State.insertValues_receiver (s : State) (xs : List Nat) : (s.insertValues xs).receiver = s.receiver := by
  induction xs generalizing s with
  | nil => rfl
  | cons x xs ih => exact (ih (s.insertValue x)).trans (State.insertValue_receiver s x)
@[simp] theorem State.insertValues_account (s : State) (xs : List Nat) : (s.insertValues xs).account = s.account := by
  induction xs generalizing s with
  | nil => rfl
  | cons x xs ih => exact (ih (s.insertValue x)).trans (State.insertValue_account s x)
@[simp] theorem State.insertValues_ports (s : State) (xs : List Nat) : (s.insertValues xs).ports = s.ports := by
  induction xs generalizing s with
  | nil => rfl
  | cons x xs ih => exact (ih (s.insertValue x)).trans (State.insertValue_ports s x)
@[simp] theorem State.insertValues_run (s : State) (xs : List Nat) : (s.insertValues xs).run = s.run := by
  induction xs generalizing s with
  | nil => rfl
  | cons x xs ih => exact (ih (s.insertValue x)).trans (State.insertValue_run s x)
@[simp] theorem State.insertValues_pending (s : State) (xs : List Nat) : (s.insertValues xs).pending = s.pending := by
  induction xs generalizing s with
  | nil => rfl
  | cons x xs ih => exact (ih (s.insertValue x)).trans (State.insertValue_pending s x)
@[simp] theorem State.insertValues_slot (s : State) (xs : List Nat) (k : SlotId) : (s.insertValues xs).slot k = s.slot k := by
  cases k <;> simp [State.slot]
@[simp] theorem State.insertValues_port (s : State) (xs : List Nat) (k : PortId) : (s.insertValues xs).port k = s.port k := by
  simp [State.port]

/-! ### `State.queueJobEnd` -/

@[simp] theorem State.queueJobEnd_plan (s : State) (i : SlotId) : (s.queueJobEnd i).plan = s.plan := by
  simp only [State.queueJobEnd]
  (repeat' split) <;> simp
@[simp] theorem State.queueJobEnd_slotA (s : State) (i : SlotId) : (s.queueJobEnd i).slotA = s.slotA := by
  simp only [State.queueJobEnd]
  (repeat' split) <;> simp
@[simp] theorem State.queueJobEnd_slotB (s : State) (i : SlotId) : (s.queueJobEnd i).slotB = s.slotB := by
  simp only [State.queueJobEnd]
  (repeat' split) <;> simp
@[simp] theorem State.queueJobEnd_queue (s : State) (i : SlotId) : (s.queueJobEnd i).queue = s.queue := by
  simp only [State.queueJobEnd]
  (repeat' split) <;> simp
@[simp] theorem State.queueJobEnd_window (s : State) (i : SlotId) : (s.queueJobEnd i).window = s.window := by
  simp only [State.queueJobEnd]
  (repeat' split) <;> simp
@[simp] theorem State.queueJobEnd_receiver (s : State) (i : SlotId) : (s.queueJobEnd i).receiver = s.receiver := by
  simp only [State.queueJobEnd]
  (repeat' split) <;> simp
@[simp] theorem State.queueJobEnd_voids (s : State) (i : SlotId) : (s.queueJobEnd i).voids = s.voids := by
  simp only [State.queueJobEnd]
  (repeat' split) <;> simp
@[simp] theorem State.queueJobEnd_ports (s : State) (i : SlotId) : (s.queueJobEnd i).ports = s.ports := by
  simp only [State.queueJobEnd]
  (repeat' split) <;> simp
@[simp] theorem State.queueJobEnd_sup (s : State) (i : SlotId) : (s.queueJobEnd i).sup = s.sup := by
  simp only [State.queueJobEnd]
  (repeat' split) <;> simp
@[simp] theorem State.queueJobEnd_run (s : State) (i : SlotId) : (s.queueJobEnd i).run = s.run := by
  simp only [State.queueJobEnd]
  (repeat' split) <;> simp
@[simp] theorem State.queueJobEnd_pending (s : State) (i : SlotId) : (s.queueJobEnd i).pending = s.pending := by
  simp only [State.queueJobEnd]
  (repeat' split) <;> simp
@[simp] theorem State.queueJobEnd_slot (s : State) (i : SlotId) (k : SlotId) : (s.queueJobEnd i).slot k = s.slot k := by
  cases k <;> simp [State.slot]
@[simp] theorem State.queueJobEnd_port (s : State) (i : SlotId) (k : PortId) : (s.queueJobEnd i).port k = s.port k := by
  simp [State.port]

/-! ### `State.queueJobStart` -/

@[simp] theorem State.queueJobStart_plan (s : State) (i : SlotId) : (s.queueJobStart i).plan = s.plan := by
  simp only [State.queueJobStart]
  simp
@[simp] theorem State.queueJobStart_slotA (s : State) (i : SlotId) : (s.queueJobStart i).slotA = s.slotA := by
  simp only [State.queueJobStart]
  simp
@[simp] theorem State.queueJobStart_slotB (s : State) (i : SlotId) : (s.queueJobStart i).slotB = s.slotB := by
  simp only [State.queueJobStart]
  simp
@[simp] theorem State.queueJobStart_queue (s : State) (i : SlotId) : (s.queueJobStart i).queue = s.queue := by
  simp only [State.queueJobStart]
  simp
@[simp] theorem State.queueJobStart_window (s : State) (i : SlotId) : (s.queueJobStart i).window = s.window := by
  simp only [State.queueJobStart]
  simp
@[simp] theorem State.queueJobStart_receiver (s : State) (i : SlotId) : (s.queueJobStart i).receiver = s.receiver := by
  simp only [State.queueJobStart]
  simp
@[simp] theorem State.queueJobStart_voids (s : State) (i : SlotId) : (s.queueJobStart i).voids = s.voids := by
  simp only [State.queueJobStart]
  simp
@[simp] theorem State.queueJobStart_ports (s : State) (i : SlotId) : (s.queueJobStart i).ports = s.ports := by
  simp only [State.queueJobStart]
  simp
@[simp] theorem State.queueJobStart_sup (s : State) (i : SlotId) : (s.queueJobStart i).sup = s.sup := by
  simp only [State.queueJobStart]
  simp
@[simp] theorem State.queueJobStart_run (s : State) (i : SlotId) : (s.queueJobStart i).run = s.run := by
  simp only [State.queueJobStart]
  simp
@[simp] theorem State.queueJobStart_pending (s : State) (i : SlotId) : (s.queueJobStart i).pending = s.pending := by
  simp only [State.queueJobStart]
  simp
@[simp] theorem State.queueJobStart_slot (s : State) (i : SlotId) (k : SlotId) : (s.queueJobStart i).slot k = s.slot k := by
  cases k <;> simp [State.slot]
@[simp] theorem State.queueJobStart_port (s : State) (i : SlotId) (k : PortId) : (s.queueJobStart i).port k = s.port k := by
  simp [State.port]

/-! ### `State.drain` -/

@[simp] theorem State.drain_plan (s : State) (i : SlotId) : (s.drain i).plan = s.plan := by
  simp only [State.drain]
  simp
@[simp] theorem State.drain_queue (s : State) (i : SlotId) : (s.drain i).queue = s.queue := by
  simp only [State.drain]
  simp
@[simp] theorem State.drain_window (s : State) (i : SlotId) : (s.drain i).window = s.window := by
  simp only [State.drain]
  simp
@[simp] theorem State.drain_receiver (s : State) (i : SlotId) : (s.drain i).receiver = s.receiver := by
  simp only [State.drain]
  simp
@[simp] theorem State.drain_voids (s : State) (i : SlotId) : (s.drain i).voids = s.voids := by
  simp only [State.drain]
  simp
@[simp] theorem State.drain_ports (s : State) (i : SlotId) : (s.drain i).ports = s.ports := by
  simp only [State.drain]
  simp
@[simp] theorem State.drain_sup (s : State) (i : SlotId) : (s.drain i).sup = s.sup := by
  simp only [State.drain]
  simp
@[simp] theorem State.drain_run (s : State) (i : SlotId) : (s.drain i).run = s.run := by
  simp only [State.drain]
  simp
@[simp] theorem State.drain_pending (s : State) (i : SlotId) : (s.drain i).pending = s.pending := by
  simp only [State.drain]
  simp
@[simp] theorem State.drain_port (s : State) (i : SlotId) (k : PortId) : (s.drain i).port k = s.port k := by
  simp [State.port]

/-! ### `State.changeTakesEffect` -/

@[simp] theorem State.changeTakesEffect_plan (s : State)  : s.changeTakesEffect.plan = s.plan := by
  simp only [State.changeTakesEffect]
  (repeat' split) <;> simp
@[simp] theorem State.changeTakesEffect_queue (s : State)  : s.changeTakesEffect.queue = s.queue := by
  simp only [State.changeTakesEffect]
  (repeat' split) <;> simp
@[simp] theorem State.changeTakesEffect_window (s : State)  : s.changeTakesEffect.window = s.window := by
  simp only [State.changeTakesEffect]
  (repeat' split) <;> simp
@[simp] theorem State.changeTakesEffect_receiver (s : State)  : s.changeTakesEffect.receiver = s.receiver := by
  simp only [State.changeTakesEffect]
  (repeat' split) <;> simp
@[simp] theorem State.changeTakesEffect_voids (s : State)  : s.changeTakesEffect.voids = s.voids := by
  simp only [State.changeTakesEffect]
  (repeat' split) <;> simp
@[simp] theorem State.changeTakesEffect_ports (s : State)  : s.changeTakesEffect.ports = s.ports := by
  simp only [State.changeTakesEffect]
  (repeat' split) <;> simp
@[simp] theorem State.changeTakesEffect_run (s : State)  : s.changeTakesEffect.run = s.run := by
  simp only [State.changeTakesEffect]
  (repeat' split) <;> simp
@[simp] theorem State.changeTakesEffect_pending (s : State)  : s.changeTakesEffect.pending = s.pending := by
  simp only [State.changeTakesEffect]
  (repeat' split) <;> simp
@[simp] theorem State.changeTakesEffect_port (s : State) (k : PortId) : s.changeTakesEffect.port k = s.port k := by
  simp [State.port]

/-! ### `State.openingChanges` -/

@[simp] theorem State.openingChanges_plan (s : State) (q : Nat) : (s.openingChanges q).plan = s.plan := by
  simp only [State.openingChanges]
  (repeat' split) <;> simp
@[simp] theorem State.openingChanges_queue (s : State) (q : Nat) : (s.openingChanges q).queue = s.queue := by
  simp only [State.openingChanges]
  (repeat' split) <;> simp
@[simp] theorem State.openingChanges_window (s : State) (q : Nat) : (s.openingChanges q).window = s.window := by
  simp only [State.openingChanges]
  (repeat' split) <;> simp
@[simp] theorem State.openingChanges_receiver (s : State) (q : Nat) : (s.openingChanges q).receiver = s.receiver := by
  simp only [State.openingChanges]
  (repeat' split) <;> simp
@[simp] theorem State.openingChanges_voids (s : State) (q : Nat) : (s.openingChanges q).voids = s.voids := by
  simp only [State.openingChanges]
  (repeat' split) <;> simp
@[simp] theorem State.openingChanges_ports (s : State) (q : Nat) : (s.openingChanges q).ports = s.ports := by
  simp only [State.openingChanges]
  (repeat' split) <;> simp
@[simp] theorem State.openingChanges_run (s : State) (q : Nat) : (s.openingChanges q).run = s.run := by
  simp only [State.openingChanges]
  (repeat' split) <;> simp
@[simp] theorem State.openingChanges_pending (s : State) (q : Nat) : (s.openingChanges q).pending = s.pending := by
  simp only [State.openingChanges]
  (repeat' split) <;> simp
@[simp] theorem State.openingChanges_port (s : State) (q : Nat) (k : PortId) : (s.openingChanges q).port k = s.port k := by
  simp [State.port]

/-! ### `State.openingDrains` -/

@[simp] theorem State.openingDrains_plan (s : State) (q : Nat) : (s.openingDrains q).plan = s.plan := by
  simp only [State.openingDrains]
  (repeat' split) <;> simp
@[simp] theorem State.openingDrains_queue (s : State) (q : Nat) : (s.openingDrains q).queue = s.queue := by
  simp only [State.openingDrains]
  (repeat' split) <;> simp
@[simp] theorem State.openingDrains_window (s : State) (q : Nat) : (s.openingDrains q).window = s.window := by
  simp only [State.openingDrains]
  (repeat' split) <;> simp
@[simp] theorem State.openingDrains_receiver (s : State) (q : Nat) : (s.openingDrains q).receiver = s.receiver := by
  simp only [State.openingDrains]
  (repeat' split) <;> simp
@[simp] theorem State.openingDrains_voids (s : State) (q : Nat) : (s.openingDrains q).voids = s.voids := by
  simp only [State.openingDrains]
  (repeat' split) <;> simp
@[simp] theorem State.openingDrains_ports (s : State) (q : Nat) : (s.openingDrains q).ports = s.ports := by
  simp only [State.openingDrains]
  (repeat' split) <;> simp
@[simp] theorem State.openingDrains_run (s : State) (q : Nat) : (s.openingDrains q).run = s.run := by
  simp only [State.openingDrains]
  (repeat' split) <;> simp
@[simp] theorem State.openingDrains_pending (s : State) (q : Nat) : (s.openingDrains q).pending = s.pending := by
  simp only [State.openingDrains]
  (repeat' split) <;> simp
@[simp] theorem State.openingDrains_port (s : State) (q : Nat) (k : PortId) : (s.openingDrains q).port k = s.port k := by
  simp [State.port]

/-! ### `State.reportOpening` -/

@[simp] theorem State.reportOpening_plan (s : State) (q : Nat) : (s.reportOpening q).plan = s.plan := by
  simp only [State.reportOpening]
  simp
@[simp] theorem State.reportOpening_queue (s : State) (q : Nat) : (s.reportOpening q).queue = s.queue := by
  simp only [State.reportOpening]
  simp
@[simp] theorem State.reportOpening_window (s : State) (q : Nat) : (s.reportOpening q).window = s.window := by
  simp only [State.reportOpening]
  simp
@[simp] theorem State.reportOpening_receiver (s : State) (q : Nat) : (s.reportOpening q).receiver = s.receiver := by
  simp only [State.reportOpening]
  simp
@[simp] theorem State.reportOpening_voids (s : State) (q : Nat) : (s.reportOpening q).voids = s.voids := by
  simp only [State.reportOpening]
  simp
@[simp] theorem State.reportOpening_ports (s : State) (q : Nat) : (s.reportOpening q).ports = s.ports := by
  simp only [State.reportOpening]
  simp
@[simp] theorem State.reportOpening_run (s : State) (q : Nat) : (s.reportOpening q).run = s.run := by
  simp only [State.reportOpening]
  simp
@[simp] theorem State.reportOpening_pending (s : State) (q : Nat) : (s.reportOpening q).pending = s.pending := by
  simp only [State.reportOpening]
  simp
@[simp] theorem State.reportOpening_port (s : State) (q : Nat) (k : PortId) : (s.reportOpening q).port k = s.port k := by
  simp [State.port]

/-! ### `State.reportPass` -/

@[simp] theorem State.reportPass_plan (s : State) (p : Nat) : (s.reportPass p).plan = s.plan := by
  simp only [State.reportPass]
  (repeat' split) <;> simp
@[simp] theorem State.reportPass_queue (s : State) (p : Nat) : (s.reportPass p).queue = s.queue := by
  simp only [State.reportPass]
  (repeat' split) <;> simp
@[simp] theorem State.reportPass_window (s : State) (p : Nat) : (s.reportPass p).window = s.window := by
  simp only [State.reportPass]
  (repeat' split) <;> simp
@[simp] theorem State.reportPass_receiver (s : State) (p : Nat) : (s.reportPass p).receiver = s.receiver := by
  simp only [State.reportPass]
  (repeat' split) <;> simp
@[simp] theorem State.reportPass_voids (s : State) (p : Nat) : (s.reportPass p).voids = s.voids := by
  simp only [State.reportPass]
  (repeat' split) <;> simp
@[simp] theorem State.reportPass_ports (s : State) (p : Nat) : (s.reportPass p).ports = s.ports := by
  simp only [State.reportPass]
  (repeat' split) <;> simp
@[simp] theorem State.reportPass_run (s : State) (p : Nat) : (s.reportPass p).run = s.run := by
  simp only [State.reportPass]
  (repeat' split) <;> simp
@[simp] theorem State.reportPass_pending (s : State) (p : Nat) : (s.reportPass p).pending = s.pending := by
  simp only [State.reportPass]
  (repeat' split) <;> simp
@[simp] theorem State.reportPass_port (s : State) (p : Nat) (k : PortId) : (s.reportPass p).port k = s.port k := by
  simp [State.port]

/-! ### `State.reportExhausted` -/

@[simp] theorem State.reportExhausted_plan (s : State) (i : SlotId) : (s.reportExhausted i).plan = s.plan := by
  simp only [State.reportExhausted]
  (repeat' split) <;> simp
@[simp] theorem State.reportExhausted_queue (s : State) (i : SlotId) : (s.reportExhausted i).queue = s.queue := by
  simp only [State.reportExhausted]
  (repeat' split) <;> simp
@[simp] theorem State.reportExhausted_window (s : State) (i : SlotId) : (s.reportExhausted i).window = s.window := by
  simp only [State.reportExhausted]
  (repeat' split) <;> simp
@[simp] theorem State.reportExhausted_receiver (s : State) (i : SlotId) : (s.reportExhausted i).receiver = s.receiver := by
  simp only [State.reportExhausted]
  (repeat' split) <;> simp
@[simp] theorem State.reportExhausted_voids (s : State) (i : SlotId) : (s.reportExhausted i).voids = s.voids := by
  simp only [State.reportExhausted]
  (repeat' split) <;> simp
@[simp] theorem State.reportExhausted_ports (s : State) (i : SlotId) : (s.reportExhausted i).ports = s.ports := by
  simp only [State.reportExhausted]
  (repeat' split) <;> simp
@[simp] theorem State.reportExhausted_run (s : State) (i : SlotId) : (s.reportExhausted i).run = s.run := by
  simp only [State.reportExhausted]
  (repeat' split) <;> simp
@[simp] theorem State.reportExhausted_pending (s : State) (i : SlotId) : (s.reportExhausted i).pending = s.pending := by
  simp only [State.reportExhausted]
  (repeat' split) <;> simp
@[simp] theorem State.reportExhausted_port (s : State) (i : SlotId) (k : PortId) : (s.reportExhausted i).port k = s.port k := by
  simp [State.port]

/-! ### `State.restoreRemoved` -/

@[simp] theorem State.restoreRemoved_plan (s : State) (i : SlotId) (b : Option Before) : (s.restoreRemoved i b).plan = s.plan := by
  simp only [State.restoreRemoved]
  (repeat' split) <;> simp
@[simp] theorem State.restoreRemoved_queue (s : State) (i : SlotId) (b : Option Before) : (s.restoreRemoved i b).queue = s.queue := by
  simp only [State.restoreRemoved]
  (repeat' split) <;> simp
@[simp] theorem State.restoreRemoved_window (s : State) (i : SlotId) (b : Option Before) : (s.restoreRemoved i b).window = s.window := by
  simp only [State.restoreRemoved]
  (repeat' split) <;> simp
@[simp] theorem State.restoreRemoved_receiver (s : State) (i : SlotId) (b : Option Before) : (s.restoreRemoved i b).receiver = s.receiver := by
  simp only [State.restoreRemoved]
  (repeat' split) <;> simp
@[simp] theorem State.restoreRemoved_voids (s : State) (i : SlotId) (b : Option Before) : (s.restoreRemoved i b).voids = s.voids := by
  simp only [State.restoreRemoved]
  (repeat' split) <;> simp
@[simp] theorem State.restoreRemoved_account (s : State) (i : SlotId) (b : Option Before) : (s.restoreRemoved i b).account = s.account := by
  simp only [State.restoreRemoved]
  (repeat' split) <;> simp
@[simp] theorem State.restoreRemoved_ports (s : State) (i : SlotId) (b : Option Before) : (s.restoreRemoved i b).ports = s.ports := by
  simp only [State.restoreRemoved]
  (repeat' split) <;> simp
@[simp] theorem State.restoreRemoved_sup (s : State) (i : SlotId) (b : Option Before) : (s.restoreRemoved i b).sup = s.sup := by
  simp only [State.restoreRemoved]
  (repeat' split) <;> simp
@[simp] theorem State.restoreRemoved_run (s : State) (i : SlotId) (b : Option Before) : (s.restoreRemoved i b).run = s.run := by
  simp only [State.restoreRemoved]
  (repeat' split) <;> simp
@[simp] theorem State.restoreRemoved_pending (s : State) (i : SlotId) (b : Option Before) : (s.restoreRemoved i b).pending = s.pending := by
  simp only [State.restoreRemoved]
  (repeat' split) <;> simp
@[simp] theorem State.restoreRemoved_port (s : State) (i : SlotId) (b : Option Before) (k : PortId) : (s.restoreRemoved i b).port k = s.port k := by
  simp [State.port]

/-! ### `State.withdrawNote` -/

@[simp] theorem State.withdrawNote_plan (s : State) (i : SlotId) (b : Option Before) : (s.withdrawNote i b).plan = s.plan := by
  simp only [State.withdrawNote]
  (repeat' split) <;> simp
@[simp] theorem State.withdrawNote_queue (s : State) (i : SlotId) (b : Option Before) : (s.withdrawNote i b).queue = s.queue := by
  simp only [State.withdrawNote]
  (repeat' split) <;> simp
@[simp] theorem State.withdrawNote_window (s : State) (i : SlotId) (b : Option Before) : (s.withdrawNote i b).window = s.window := by
  simp only [State.withdrawNote]
  (repeat' split) <;> simp
@[simp] theorem State.withdrawNote_receiver (s : State) (i : SlotId) (b : Option Before) : (s.withdrawNote i b).receiver = s.receiver := by
  simp only [State.withdrawNote]
  (repeat' split) <;> simp
@[simp] theorem State.withdrawNote_voids (s : State) (i : SlotId) (b : Option Before) : (s.withdrawNote i b).voids = s.voids := by
  simp only [State.withdrawNote]
  (repeat' split) <;> simp
@[simp] theorem State.withdrawNote_account (s : State) (i : SlotId) (b : Option Before) : (s.withdrawNote i b).account = s.account := by
  simp only [State.withdrawNote]
  (repeat' split) <;> simp
@[simp] theorem State.withdrawNote_ports (s : State) (i : SlotId) (b : Option Before) : (s.withdrawNote i b).ports = s.ports := by
  simp only [State.withdrawNote]
  (repeat' split) <;> simp
@[simp] theorem State.withdrawNote_sup (s : State) (i : SlotId) (b : Option Before) : (s.withdrawNote i b).sup = s.sup := by
  simp only [State.withdrawNote]
  (repeat' split) <;> simp
@[simp] theorem State.withdrawNote_run (s : State) (i : SlotId) (b : Option Before) : (s.withdrawNote i b).run = s.run := by
  simp only [State.withdrawNote]
  (repeat' split) <;> simp
@[simp] theorem State.withdrawNote_pending (s : State) (i : SlotId) (b : Option Before) : (s.withdrawNote i b).pending = s.pending := by
  simp only [State.withdrawNote]
  (repeat' split) <;> simp
@[simp] theorem State.withdrawNote_port (s : State) (i : SlotId) (b : Option Before) (k : PortId) : (s.withdrawNote i b).port k = s.port k := by
  simp [State.port]

/-! ### `State.flush` -/

@[simp] theorem State.flush_plan (s : State) (q : Nat) : (s.flush q).plan = s.plan := by
  simp only [State.flush]
  simp
@[simp] theorem State.flush_window (s : State) (q : Nat) : (s.flush q).window = s.window := by
  simp only [State.flush]
  simp
@[simp] theorem State.flush_receiver (s : State) (q : Nat) : (s.flush q).receiver = s.receiver := by
  simp only [State.flush]
  simp
@[simp] theorem State.flush_account (s : State) (q : Nat) : (s.flush q).account = s.account := by
  simp only [State.flush]
  simp
@[simp] theorem State.flush_ports (s : State) (q : Nat) : (s.flush q).ports = s.ports := by
  simp only [State.flush]
  simp
@[simp] theorem State.flush_run (s : State) (q : Nat) : (s.flush q).run = s.run := by
  simp only [State.flush]
  simp
@[simp] theorem State.flush_pending (s : State) (q : Nat) : (s.flush q).pending = s.pending := by
  simp only [State.flush]
  simp
@[simp] theorem State.flush_port (s : State) (q : Nat) (k : PortId) : (s.flush q).port k = s.port k := by
  simp [State.port]

/-! ### `State.passTo` -/

@[simp] theorem State.passTo_plan (s : State) (base p : Nat) : (s.passTo base p).plan = s.plan := by
  simp only [State.passTo]
  simp
@[simp] theorem State.passTo_window (s : State) (base p : Nat) : (s.passTo base p).window = s.window := by
  simp only [State.passTo]
  simp
@[simp] theorem State.passTo_receiver (s : State) (base p : Nat) : (s.passTo base p).receiver = s.receiver := by
  simp only [State.passTo]
  simp
@[simp] theorem State.passTo_ports (s : State) (base p : Nat) : (s.passTo base p).ports = s.ports := by
  simp only [State.passTo]
  simp
@[simp] theorem State.passTo_run (s : State) (base p : Nat) : (s.passTo base p).run = s.run := by
  simp only [State.passTo]
  simp
@[simp] theorem State.passTo_pending (s : State) (base p : Nat) : (s.passTo base p).pending = s.pending := by
  simp only [State.passTo]
  simp
@[simp] theorem State.passTo_port (s : State) (base p : Nat) (k : PortId) : (s.passTo base p).port k = s.port k := by
  simp [State.port]

/-! ### `State.catchUp` -/

@[simp] theorem State.catchUp_plan (s : State) (r : Nat) : (s.catchUp r).plan = s.plan := by
  simp only [State.catchUp]
  (repeat' split) <;> simp
@[simp] theorem State.catchUp_window (s : State) (r : Nat) : (s.catchUp r).window = s.window := by
  simp only [State.catchUp]
  (repeat' split) <;> simp
@[simp] theorem State.catchUp_receiver (s : State) (r : Nat) : (s.catchUp r).receiver = s.receiver := by
  simp only [State.catchUp]
  (repeat' split) <;> simp
@[simp] theorem State.catchUp_ports (s : State) (r : Nat) : (s.catchUp r).ports = s.ports := by
  simp only [State.catchUp]
  (repeat' split) <;> simp
@[simp] theorem State.catchUp_run (s : State) (r : Nat) : (s.catchUp r).run = s.run := by
  simp only [State.catchUp]
  (repeat' split) <;> simp
@[simp] theorem State.catchUp_pending (s : State) (r : Nat) : (s.catchUp r).pending = s.pending := by
  simp only [State.catchUp]
  (repeat' split) <;> simp
@[simp] theorem State.catchUp_port (s : State) (r : Nat) (k : PortId) : (s.catchUp r).port k = s.port k := by
  simp [State.port]

/-! ### `State.takeRequest` -/

@[simp] theorem State.takeRequest_plan (s : State) (p : PortId) (q : Request) (r : Nat) : (s.takeRequest p q r).plan = s.plan := by
  simp only [State.takeRequest]
  (repeat' split) <;> simp
@[simp] theorem State.takeRequest_receiver (s : State) (p : PortId) (q : Request) (r : Nat) : (s.takeRequest p q r).receiver = s.receiver := by
  simp only [State.takeRequest]
  (repeat' split) <;> simp
@[simp] theorem State.takeRequest_run (s : State) (p : PortId) (q : Request) (r : Nat) : (s.takeRequest p q r).run = s.run := by
  simp only [State.takeRequest]
  (repeat' split) <;> simp
@[simp] theorem State.takeRequest_pending (s : State) (p : PortId) (q : Request) (r : Nat) : (s.takeRequest p q r).pending = s.pending := by
  simp only [State.takeRequest]
  (repeat' split) <;> simp

/-! ### `State.retakePort` -/

@[simp] theorem State.retakePort_plan (s : State) (p : PortId) : (State.retakePort p s).plan = s.plan := by
  simp only [State.retakePort]
  (repeat' split) <;> simp
@[simp] theorem State.retakePort_receiver (s : State) (p : PortId) : (State.retakePort p s).receiver = s.receiver := by
  simp only [State.retakePort]
  (repeat' split) <;> simp
@[simp] theorem State.retakePort_run (s : State) (p : PortId) : (State.retakePort p s).run = s.run := by
  simp only [State.retakePort]
  (repeat' split) <;> simp
@[simp] theorem State.retakePort_pending (s : State) (p : PortId) : (State.retakePort p s).pending = s.pending := by
  simp only [State.retakePort]
  (repeat' split) <;> simp

/-! ### `State.retakeHeld` -/

@[simp] theorem State.retakeHeld_plan (s : State)  : s.retakeHeld.plan = s.plan := by
  simp only [State.retakeHeld, State.settle_plan]
  rw [State.forPorts_field (fun t => t.plan) _ (fun p t => State.retakePort_plan t p)]
@[simp] theorem State.retakeHeld_receiver (s : State)  : s.retakeHeld.receiver = s.receiver := by
  simp only [State.retakeHeld, State.settle_receiver]
  rw [State.forPorts_field (fun t => t.receiver) _ (fun p t => State.retakePort_receiver t p)]
@[simp] theorem State.retakeHeld_run (s : State)  : s.retakeHeld.run = s.run := by
  simp only [State.retakeHeld, State.settle_run]
  rw [State.forPorts_field (fun t => t.run) _ (fun p t => State.retakePort_run t p)]
@[simp] theorem State.retakeHeld_pending (s : State)  : s.retakeHeld.pending = s.pending := by
  simp only [State.retakeHeld, State.settle_pending]
  rw [State.forPorts_field (fun t => t.pending) _ (fun p t => State.retakePort_pending t p)]

/-! ### `State.checkWindowHigh` -/

@[simp] theorem State.checkWindowHigh_plan (s : State)  : s.checkWindowHigh.plan = s.plan := by
  simp only [State.checkWindowHigh]
  simp
@[simp] theorem State.checkWindowHigh_slotA (s : State)  : s.checkWindowHigh.slotA = s.slotA := by
  simp only [State.checkWindowHigh]
  simp
@[simp] theorem State.checkWindowHigh_slotB (s : State)  : s.checkWindowHigh.slotB = s.slotB := by
  simp only [State.checkWindowHigh]
  simp
@[simp] theorem State.checkWindowHigh_queue (s : State)  : s.checkWindowHigh.queue = s.queue := by
  simp only [State.checkWindowHigh]
  simp
@[simp] theorem State.checkWindowHigh_receiver (s : State)  : s.checkWindowHigh.receiver = s.receiver := by
  simp only [State.checkWindowHigh]
  simp
@[simp] theorem State.checkWindowHigh_voids (s : State)  : s.checkWindowHigh.voids = s.voids := by
  simp only [State.checkWindowHigh]
  simp
@[simp] theorem State.checkWindowHigh_account (s : State)  : s.checkWindowHigh.account = s.account := by
  simp only [State.checkWindowHigh]
  simp
@[simp] theorem State.checkWindowHigh_ports (s : State)  : s.checkWindowHigh.ports = s.ports := by
  simp only [State.checkWindowHigh]
  simp
@[simp] theorem State.checkWindowHigh_run (s : State)  : s.checkWindowHigh.run = s.run := by
  simp only [State.checkWindowHigh]
  simp
@[simp] theorem State.checkWindowHigh_pending (s : State)  : s.checkWindowHigh.pending = s.pending := by
  simp only [State.checkWindowHigh]
  simp
@[simp] theorem State.checkWindowHigh_slot (s : State) (k : SlotId) : s.checkWindowHigh.slot k = s.slot k := by
  cases k <;> simp [State.slot]
@[simp] theorem State.checkWindowHigh_port (s : State) (k : PortId) : s.checkWindowHigh.port k = s.port k := by
  simp [State.port]

/-! ### `State.openDraft` -/

@[simp] theorem State.openDraft_plan (s : State) (d : Draft) (rest : List Draft) : (s.openDraft d rest).plan = s.plan := by
  simp only [State.openDraft]
  simp
@[simp] theorem State.openDraft_receiver (s : State) (d : Draft) (rest : List Draft) : (s.openDraft d rest).receiver = s.receiver := by
  simp only [State.openDraft]
  simp
@[simp] theorem State.openDraft_voids (s : State) (d : Draft) (rest : List Draft) : (s.openDraft d rest).voids = s.voids := by
  simp only [State.openDraft]
  simp
@[simp] theorem State.openDraft_run (s : State) (d : Draft) (rest : List Draft) : (s.openDraft d rest).run = s.run := by
  simp only [State.openDraft]
  simp
@[simp] theorem State.openDraft_pending (s : State) (d : Draft) (rest : List Draft) : (s.openDraft d rest).pending = s.pending := by
  simp only [State.openDraft]
  simp

/-! ### `State.openReady` -/

/-- What every opening keeps, the openings in turn keep. -/
theorem State.openReady_keeps {P : State → Prop} (h : ∀ t d rest, t.openable = some (d, rest) → P t → P (t.openDraft d rest)) {s : State}
    (hs : P s) : P s.openReady := by
  have one : ∀ t, P t → P t.openNext := by
    intro t ht
    unfold State.openNext
    split
    · exact ht
    · rename_i d rest ho
      exact h t d rest ho ht
  unfold State.openReady
  generalize s.queue.drafts = ds
  induction ds generalizing s with
  | nil => exact hs
  | cons d ds ih => exact ih (one s hs)

@[simp] theorem State.openReady_plan (s : State) : s.openReady.plan = s.plan :=
  State.openReady_keeps (P := fun t => t.plan = s.plan) (fun t d rest _ h => (t.openDraft_plan d rest).trans h) rfl
@[simp] theorem State.openReady_receiver (s : State) : s.openReady.receiver = s.receiver :=
  State.openReady_keeps (P := fun t => t.receiver = s.receiver) (fun t d rest _ h => (t.openDraft_receiver d rest).trans h) rfl
@[simp] theorem State.openReady_voids (s : State) : s.openReady.voids = s.voids :=
  State.openReady_keeps (P := fun t => t.voids = s.voids) (fun t d rest _ h => (t.openDraft_voids d rest).trans h) rfl
@[simp] theorem State.openReady_run (s : State) : s.openReady.run = s.run :=
  State.openReady_keeps (P := fun t => t.run = s.run) (fun t d rest _ h => (t.openDraft_run d rest).trans h) rfl
@[simp] theorem State.openReady_pending (s : State) : s.openReady.pending = s.pending :=
  State.openReady_keeps (P := fun t => t.pending = s.pending) (fun t d rest _ h => (t.openDraft_pending d rest).trans h) rfl

/-! ### `State.dropRecord` -/

@[simp] theorem State.dropRecord_plan (s : State) (r : Nat) : (s.dropRecord r).plan = s.plan := by simp [State.dropRecord]
@[simp] theorem State.dropRecord_slotA (s : State) (r : Nat) : (s.dropRecord r).slotA = s.slotA := by simp [State.dropRecord]
@[simp] theorem State.dropRecord_slotB (s : State) (r : Nat) : (s.dropRecord r).slotB = s.slotB := by simp [State.dropRecord]
@[simp] theorem State.dropRecord_queue (s : State) (r : Nat) : (s.dropRecord r).queue = s.queue := by simp [State.dropRecord]
@[simp] theorem State.dropRecord_receiver (s : State) (r : Nat) : (s.dropRecord r).receiver = s.receiver := by simp [State.dropRecord]
@[simp] theorem State.dropRecord_voids (s : State) (r : Nat) : (s.dropRecord r).voids = s.voids := by simp [State.dropRecord]
@[simp] theorem State.dropRecord_account (s : State) (r : Nat) : (s.dropRecord r).account = s.account := by simp [State.dropRecord]
@[simp] theorem State.dropRecord_ports (s : State) (r : Nat) : (s.dropRecord r).ports = s.ports := by simp [State.dropRecord]
@[simp] theorem State.dropRecord_run (s : State) (r : Nat) : (s.dropRecord r).run = s.run := by simp [State.dropRecord]
@[simp] theorem State.dropRecord_pending (s : State) (r : Nat) : (s.dropRecord r).pending = s.pending := by simp [State.dropRecord]
@[simp] theorem State.dropRecord_slot (s : State) (r : Nat) (k : SlotId) : (s.dropRecord r).slot k = s.slot k := by cases k <;> simp [State.slot]
@[simp] theorem State.dropRecord_port (s : State) (r : Nat) (k : PortId) : (s.dropRecord r).port k = s.port k := by simp [State.port]

/-! ### `State.settleRecord` -/

@[simp] theorem State.settleRecord_plan (s : State) (closed : Record) : (s.settleRecord closed).plan = s.plan := by
  simp only [State.settleRecord]
  simp
@[simp] theorem State.settleRecord_queue (s : State) (closed : Record) : (s.settleRecord closed).queue = s.queue := by
  simp only [State.settleRecord]
  simp
@[simp] theorem State.settleRecord_receiver (s : State) (closed : Record) : (s.settleRecord closed).receiver = s.receiver := by
  simp only [State.settleRecord]
  simp
@[simp] theorem State.settleRecord_voids (s : State) (closed : Record) : (s.settleRecord closed).voids = s.voids := by
  simp only [State.settleRecord]
  simp
@[simp] theorem State.settleRecord_account (s : State) (closed : Record) : (s.settleRecord closed).account = s.account := by
  simp only [State.settleRecord]
  simp
@[simp] theorem State.settleRecord_sup (s : State) (closed : Record) : (s.settleRecord closed).sup = s.sup := by
  simp only [State.settleRecord]
  simp
@[simp] theorem State.settleRecord_run (s : State) (closed : Record) : (s.settleRecord closed).run = s.run := by
  simp only [State.settleRecord]
  simp
@[simp] theorem State.settleRecord_pending (s : State) (closed : Record) : (s.settleRecord closed).pending = s.pending := by
  simp only [State.settleRecord]
  simp

/-! ### `State.closeRecord` -/

@[simp] theorem State.closeRecord_plan (s : State) (r : Nat) (kind : Closure) (codes : Bytes) : (s.closeRecord r kind codes).plan = s.plan := by
  simp only [State.closeRecord]
  (repeat' split) <;> simp
@[simp] theorem State.closeRecord_queue (s : State) (r : Nat) (kind : Closure) (codes : Bytes) : (s.closeRecord r kind codes).queue = s.queue := by
  simp only [State.closeRecord]
  (repeat' split) <;> simp
@[simp] theorem State.closeRecord_receiver (s : State) (r : Nat) (kind : Closure) (codes : Bytes) : (s.closeRecord r kind codes).receiver = s.receiver := by
  simp only [State.closeRecord]
  (repeat' split) <;> simp
@[simp] theorem State.closeRecord_run (s : State) (r : Nat) (kind : Closure) (codes : Bytes) : (s.closeRecord r kind codes).run = s.run := by
  simp only [State.closeRecord]
  (repeat' split) <;> simp
@[simp] theorem State.closeRecord_pending (s : State) (r : Nat) (kind : Closure) (codes : Bytes) : (s.closeRecord r kind codes).pending = s.pending := by
  simp only [State.closeRecord]
  (repeat' split) <;> simp

/-! ### `State.endClosing` -/

@[simp] theorem State.endClosing_plan (s : State) (r : Nat) : (s.endClosing r).plan = s.plan := by
  simp only [State.endClosing]
  (repeat' split) <;> simp
@[simp] theorem State.endClosing_slotA (s : State) (r : Nat) : (s.endClosing r).slotA = s.slotA := by
  simp only [State.endClosing]
  (repeat' split) <;> simp
@[simp] theorem State.endClosing_slotB (s : State) (r : Nat) : (s.endClosing r).slotB = s.slotB := by
  simp only [State.endClosing]
  (repeat' split) <;> simp
@[simp] theorem State.endClosing_queue (s : State) (r : Nat) : (s.endClosing r).queue = s.queue := by
  simp only [State.endClosing]
  (repeat' split) <;> simp
@[simp] theorem State.endClosing_voids (s : State) (r : Nat) : (s.endClosing r).voids = s.voids := by
  simp only [State.endClosing]
  (repeat' split) <;> simp
@[simp] theorem State.endClosing_ports (s : State) (r : Nat) : (s.endClosing r).ports = s.ports := by
  simp only [State.endClosing]
  (repeat' split) <;> simp
@[simp] theorem State.endClosing_sup (s : State) (r : Nat) : (s.endClosing r).sup = s.sup := by
  simp only [State.endClosing]
  (repeat' split) <;> simp
@[simp] theorem State.endClosing_run (s : State) (r : Nat) : (s.endClosing r).run = s.run := by
  simp only [State.endClosing]
  (repeat' split) <;> simp
@[simp] theorem State.endClosing_pending (s : State) (r : Nat) : (s.endClosing r).pending = s.pending := by
  simp only [State.endClosing]
  (repeat' split) <;> simp
@[simp] theorem State.endClosing_slot (s : State) (r : Nat) (k : SlotId) : (s.endClosing r).slot k = s.slot k := by
  cases k <;> simp [State.slot]
@[simp] theorem State.endClosing_port (s : State) (r : Nat) (k : PortId) : (s.endClosing r).port k = s.port k := by
  simp [State.port]

/-! ### `State.takeInsertions` -/

@[simp] theorem State.takeInsertions_plan (s : State) (n : Option Nat) : (s.takeInsertions n).plan = s.plan := by
  simp only [State.takeInsertions]
  (repeat' split) <;> simp
@[simp] theorem State.takeInsertions_slotA (s : State) (n : Option Nat) : (s.takeInsertions n).slotA = s.slotA := by
  simp only [State.takeInsertions]
  (repeat' split) <;> simp
@[simp] theorem State.takeInsertions_slotB (s : State) (n : Option Nat) : (s.takeInsertions n).slotB = s.slotB := by
  simp only [State.takeInsertions]
  (repeat' split) <;> simp
@[simp] theorem State.takeInsertions_queue (s : State) (n : Option Nat) : (s.takeInsertions n).queue = s.queue := by
  simp only [State.takeInsertions]
  (repeat' split) <;> simp
@[simp] theorem State.takeInsertions_ports (s : State) (n : Option Nat) : (s.takeInsertions n).ports = s.ports := by
  simp only [State.takeInsertions]
  (repeat' split) <;> simp
@[simp] theorem State.takeInsertions_run (s : State) (n : Option Nat) : (s.takeInsertions n).run = s.run := by
  simp only [State.takeInsertions]
  (repeat' split) <;> simp
@[simp] theorem State.takeInsertions_pending (s : State) (n : Option Nat) : (s.takeInsertions n).pending = s.pending := by
  simp only [State.takeInsertions]
  (repeat' split) <;> simp
@[simp] theorem State.takeInsertions_slot (s : State) (n : Option Nat) (k : SlotId) : (s.takeInsertions n).slot k = s.slot k := by
  cases k <;> simp [State.slot]
@[simp] theorem State.takeInsertions_port (s : State) (n : Option Nat) (k : PortId) : (s.takeInsertions n).port k = s.port k := by
  simp [State.port]

/-! ### `State.finishClosing` -/

@[simp] theorem State.finishClosing_plan (s : State)  : s.finishClosing.plan = s.plan := by
  simp [State.finishClosing]
@[simp] theorem State.finishClosing_slotA (s : State)  : s.finishClosing.slotA = s.slotA := by
  simp [State.finishClosing]
@[simp] theorem State.finishClosing_slotB (s : State)  : s.finishClosing.slotB = s.slotB := by
  simp [State.finishClosing]
@[simp] theorem State.finishClosing_queue (s : State)  : s.finishClosing.queue = s.queue := by
  simp [State.finishClosing]
@[simp] theorem State.finishClosing_ports (s : State)  : s.finishClosing.ports = s.ports := by
  simp [State.finishClosing]
@[simp] theorem State.finishClosing_run (s : State)  : s.finishClosing.run = s.run := by
  simp [State.finishClosing]
@[simp] theorem State.finishClosing_pending (s : State)  : s.finishClosing.pending = s.pending := by
  simp [State.finishClosing]
@[simp] theorem State.finishClosing_slot (s : State) (k : SlotId) : s.finishClosing.slot k = s.slot k := by
  cases k <;> simp [State.slot]
@[simp] theorem State.finishClosing_port (s : State) (k : PortId) : s.finishClosing.port k = s.port k := by
  simp [State.port]

/-! ### `State.beginClosing` -/

@[simp] theorem State.beginClosing_plan (s : State) (r : Nat) (kind : Closure) (codes : Bytes) : (s.beginClosing r kind codes).plan = s.plan := by
  simp only [State.beginClosing]
  (repeat' split) <;> simp
@[simp] theorem State.beginClosing_queue (s : State) (r : Nat) (kind : Closure) (codes : Bytes) : (s.beginClosing r kind codes).queue = s.queue := by
  simp only [State.beginClosing]
  (repeat' split) <;> simp
@[simp] theorem State.beginClosing_receiver (s : State) (r : Nat) (kind : Closure) (codes : Bytes) : (s.beginClosing r kind codes).receiver = s.receiver := by
  simp only [State.beginClosing]
  (repeat' split) <;> simp
@[simp] theorem State.beginClosing_voids (s : State) (r : Nat) (kind : Closure) (codes : Bytes) : (s.beginClosing r kind codes).voids = s.voids := by
  simp only [State.beginClosing]
  (repeat' split) <;> simp
@[simp] theorem State.beginClosing_account (s : State) (r : Nat) (kind : Closure) (codes : Bytes) : (s.beginClosing r kind codes).account = s.account := by
  simp only [State.beginClosing]
  (repeat' split) <;> simp
@[simp] theorem State.beginClosing_sup (s : State) (r : Nat) (kind : Closure) (codes : Bytes) : (s.beginClosing r kind codes).sup = s.sup := by
  simp only [State.beginClosing]
  (repeat' split) <;> simp
@[simp] theorem State.beginClosing_run (s : State) (r : Nat) (kind : Closure) (codes : Bytes) : (s.beginClosing r kind codes).run = s.run := by
  simp only [State.beginClosing]
  (repeat' split) <;> simp
@[simp] theorem State.beginClosing_pending (s : State) (r : Nat) (kind : Closure) (codes : Bytes) : (s.beginClosing r kind codes).pending = s.pending := by
  simp only [State.beginClosing]
  (repeat' split) <;> simp

/-! ### `State.checkBufferHigh` -/

@[simp] theorem State.checkBufferHigh_plan (s : State)  : s.checkBufferHigh.plan = s.plan := by
  simp only [State.checkBufferHigh]
  simp
@[simp] theorem State.checkBufferHigh_slotA (s : State)  : s.checkBufferHigh.slotA = s.slotA := by
  simp only [State.checkBufferHigh]
  simp
@[simp] theorem State.checkBufferHigh_slotB (s : State)  : s.checkBufferHigh.slotB = s.slotB := by
  simp only [State.checkBufferHigh]
  simp
@[simp] theorem State.checkBufferHigh_queue (s : State)  : s.checkBufferHigh.queue = s.queue := by
  simp only [State.checkBufferHigh]
  simp
@[simp] theorem State.checkBufferHigh_window (s : State)  : s.checkBufferHigh.window = s.window := by
  simp only [State.checkBufferHigh]
  simp
@[simp] theorem State.checkBufferHigh_receiver (s : State)  : s.checkBufferHigh.receiver = s.receiver := by
  simp only [State.checkBufferHigh]
  simp
@[simp] theorem State.checkBufferHigh_voids (s : State)  : s.checkBufferHigh.voids = s.voids := by
  simp only [State.checkBufferHigh]
  simp
@[simp] theorem State.checkBufferHigh_ports (s : State)  : s.checkBufferHigh.ports = s.ports := by
  simp only [State.checkBufferHigh]
  simp
@[simp] theorem State.checkBufferHigh_run (s : State)  : s.checkBufferHigh.run = s.run := by
  simp only [State.checkBufferHigh]
  simp
@[simp] theorem State.checkBufferHigh_pending (s : State)  : s.checkBufferHigh.pending = s.pending := by
  simp only [State.checkBufferHigh]
  simp
@[simp] theorem State.checkBufferHigh_slot (s : State) (k : SlotId) : s.checkBufferHigh.slot k = s.slot k := by
  cases k <;> simp [State.slot]
@[simp] theorem State.checkBufferHigh_port (s : State) (k : PortId) : s.checkBufferHigh.port k = s.port k := by
  simp [State.port]

/-! ### `State.stopTimers` -/

@[simp] theorem State.stopTimers_plan (s : State)  : s.stopTimers.plan = s.plan := by
  simp only [State.stopTimers]
  simp
@[simp] theorem State.stopTimers_slotA (s : State)  : s.stopTimers.slotA = s.slotA := by
  simp only [State.stopTimers]
  simp
@[simp] theorem State.stopTimers_slotB (s : State)  : s.stopTimers.slotB = s.slotB := by
  simp only [State.stopTimers]
  simp
@[simp] theorem State.stopTimers_queue (s : State)  : s.stopTimers.queue = s.queue := by
  simp only [State.stopTimers]
  simp
@[simp] theorem State.stopTimers_window (s : State)  : s.stopTimers.window = s.window := by
  simp only [State.stopTimers]
  simp
@[simp] theorem State.stopTimers_receiver (s : State)  : s.stopTimers.receiver = s.receiver := by
  simp only [State.stopTimers]
  simp
@[simp] theorem State.stopTimers_voids (s : State)  : s.stopTimers.voids = s.voids := by
  simp only [State.stopTimers]
  simp
@[simp] theorem State.stopTimers_account (s : State)  : s.stopTimers.account = s.account := by
  simp only [State.stopTimers]
  simp
@[simp] theorem State.stopTimers_sup (s : State)  : s.stopTimers.sup = s.sup := by
  simp only [State.stopTimers]
  simp
@[simp] theorem State.stopTimers_run (s : State)  : s.stopTimers.run = s.run := by
  simp only [State.stopTimers]
  simp
@[simp] theorem State.stopTimers_pending (s : State)  : s.stopTimers.pending = s.pending := by
  simp only [State.stopTimers]
  simp
@[simp] theorem State.stopTimers_slot (s : State) (k : SlotId) : s.stopTimers.slot k = s.slot k := by
  cases k <;> simp [State.slot]

/-! ### `State.recordLeaves` -/

@[simp] theorem State.recordLeaves_plan (s : State) (r : Nat) : (s.recordLeaves r).plan = s.plan := by
  simp only [State.recordLeaves]
  (repeat' split) <;> simp
@[simp] theorem State.recordLeaves_receiver (s : State) (r : Nat) : (s.recordLeaves r).receiver = s.receiver := by
  simp only [State.recordLeaves]
  (repeat' split) <;> simp
@[simp] theorem State.recordLeaves_run (s : State) (r : Nat) : (s.recordLeaves r).run = s.run := by
  simp only [State.recordLeaves]
  (repeat' split) <;> simp
@[simp] theorem State.recordLeaves_pending (s : State) (r : Nat) : (s.recordLeaves r).pending = s.pending := by
  simp only [State.recordLeaves]
  (repeat' split) <;> simp

/-! ### `State.itemAppended` -/

@[simp] theorem State.itemAppended_plan (s : State) (it : Item) : (s.itemAppended it).plan = s.plan := by
  cases it <;> simp [State.itemAppended]
@[simp] theorem State.itemAppended_receiver (s : State) (it : Item) : (s.itemAppended it).receiver = s.receiver := by
  cases it <;> simp [State.itemAppended]
@[simp] theorem State.itemAppended_run (s : State) (it : Item) : (s.itemAppended it).run = s.run := by
  cases it <;> simp [State.itemAppended]
@[simp] theorem State.itemAppended_pending (s : State) (it : Item) : (s.itemAppended it).pending = s.pending := by
  cases it <;> simp [State.itemAppended]

/-! ### `State.appendAttempt` -/

@[simp] theorem State.appendAttempt_plan (s : State)  : s.appendAttempt.plan = s.plan := by
  simp only [State.appendAttempt]
  (repeat' split) <;> simp
@[simp] theorem State.appendAttempt_receiver (s : State)  : s.appendAttempt.receiver = s.receiver := by
  simp only [State.appendAttempt]
  (repeat' split) <;> simp
@[simp] theorem State.appendAttempt_run (s : State)  : s.appendAttempt.run = s.run := by
  simp only [State.appendAttempt]
  (repeat' split) <;> simp
@[simp] theorem State.appendAttempt_pending (s : State)  : s.appendAttempt.pending = s.pending := by
  simp only [State.appendAttempt]
  (repeat' split) <;> simp

/-! ### `State.restartTimer` -/

@[simp] theorem State.restartTimer_plan (s : State) (p : PortId) : (s.restartTimer p).plan = s.plan := by
  simp only [State.restartTimer]
  (repeat' split) <;> simp
@[simp] theorem State.restartTimer_slotA (s : State) (p : PortId) : (s.restartTimer p).slotA = s.slotA := by
  simp only [State.restartTimer]
  (repeat' split) <;> simp
@[simp] theorem State.restartTimer_slotB (s : State) (p : PortId) : (s.restartTimer p).slotB = s.slotB := by
  simp only [State.restartTimer]
  (repeat' split) <;> simp
@[simp] theorem State.restartTimer_queue (s : State) (p : PortId) : (s.restartTimer p).queue = s.queue := by
  simp only [State.restartTimer]
  (repeat' split) <;> simp
@[simp] theorem State.restartTimer_window (s : State) (p : PortId) : (s.restartTimer p).window = s.window := by
  simp only [State.restartTimer]
  (repeat' split) <;> simp
@[simp] theorem State.restartTimer_receiver (s : State) (p : PortId) : (s.restartTimer p).receiver = s.receiver := by
  simp only [State.restartTimer]
  (repeat' split) <;> simp
@[simp] theorem State.restartTimer_voids (s : State) (p : PortId) : (s.restartTimer p).voids = s.voids := by
  simp only [State.restartTimer]
  (repeat' split) <;> simp
@[simp] theorem State.restartTimer_account (s : State) (p : PortId) : (s.restartTimer p).account = s.account := by
  simp only [State.restartTimer]
  (repeat' split) <;> simp
@[simp] theorem State.restartTimer_sup (s : State) (p : PortId) : (s.restartTimer p).sup = s.sup := by
  simp only [State.restartTimer]
  (repeat' split) <;> simp
@[simp] theorem State.restartTimer_run (s : State) (p : PortId) : (s.restartTimer p).run = s.run := by
  simp only [State.restartTimer]
  (repeat' split) <;> simp
@[simp] theorem State.restartTimer_pending (s : State) (p : PortId) : (s.restartTimer p).pending = s.pending := by
  simp only [State.restartTimer]
  (repeat' split) <;> simp
@[simp] theorem State.restartTimer_slot (s : State) (p : PortId) (k : SlotId) : (s.restartTimer p).slot k = s.slot k := by
  cases k <;> simp [State.slot]

/-! ### `State.expire` -/

@[simp] theorem State.expire_plan (s : State) (p : PortId) : (s.expire p).plan = s.plan := by
  simp only [State.expire]
  (repeat' split) <;> simp
@[simp] theorem State.expire_slotA (s : State) (p : PortId) : (s.expire p).slotA = s.slotA := by
  simp only [State.expire]
  (repeat' split) <;> simp
@[simp] theorem State.expire_slotB (s : State) (p : PortId) : (s.expire p).slotB = s.slotB := by
  simp only [State.expire]
  (repeat' split) <;> simp
@[simp] theorem State.expire_queue (s : State) (p : PortId) : (s.expire p).queue = s.queue := by
  simp only [State.expire]
  (repeat' split) <;> simp
@[simp] theorem State.expire_receiver (s : State) (p : PortId) : (s.expire p).receiver = s.receiver := by
  simp only [State.expire]
  (repeat' split) <;> simp
@[simp] theorem State.expire_voids (s : State) (p : PortId) : (s.expire p).voids = s.voids := by
  simp only [State.expire]
  (repeat' split) <;> simp
@[simp] theorem State.expire_account (s : State) (p : PortId) : (s.expire p).account = s.account := by
  simp only [State.expire]
  (repeat' split) <;> simp
@[simp] theorem State.expire_run (s : State) (p : PortId) : (s.expire p).run = s.run := by
  simp only [State.expire]
  (repeat' split) <;> simp
@[simp] theorem State.expire_pending (s : State) (p : PortId) : (s.expire p).pending = s.pending := by
  simp only [State.expire]
  (repeat' split) <;> simp
@[simp] theorem State.expire_slot (s : State) (p : PortId) (k : SlotId) : (s.expire p).slot k = s.slot k := by
  cases k <;> simp [State.slot]

/-! ### `State.portTick` -/

@[simp] theorem State.portTick_plan (s : State) (p : PortId) : (State.portTick p s).plan = s.plan := by
  simp only [State.portTick]
  (repeat' split) <;> simp
@[simp] theorem State.portTick_slotA (s : State) (p : PortId) : (State.portTick p s).slotA = s.slotA := by
  simp only [State.portTick]
  (repeat' split) <;> simp
@[simp] theorem State.portTick_slotB (s : State) (p : PortId) : (State.portTick p s).slotB = s.slotB := by
  simp only [State.portTick]
  (repeat' split) <;> simp
@[simp] theorem State.portTick_queue (s : State) (p : PortId) : (State.portTick p s).queue = s.queue := by
  simp only [State.portTick]
  (repeat' split) <;> simp
@[simp] theorem State.portTick_receiver (s : State) (p : PortId) : (State.portTick p s).receiver = s.receiver := by
  simp only [State.portTick]
  (repeat' split) <;> simp
@[simp] theorem State.portTick_voids (s : State) (p : PortId) : (State.portTick p s).voids = s.voids := by
  simp only [State.portTick]
  (repeat' split) <;> simp
@[simp] theorem State.portTick_account (s : State) (p : PortId) : (State.portTick p s).account = s.account := by
  simp only [State.portTick]
  (repeat' split) <;> simp
@[simp] theorem State.portTick_run (s : State) (p : PortId) : (State.portTick p s).run = s.run := by
  simp only [State.portTick]
  (repeat' split) <;> simp
@[simp] theorem State.portTick_pending (s : State) (p : PortId) : (State.portTick p s).pending = s.pending := by
  simp only [State.portTick]
  (repeat' split) <;> simp
@[simp] theorem State.portTick_slot (s : State) (p : PortId) (k : SlotId) : (State.portTick p s).slot k = s.slot k := by
  cases k <;> simp [State.slot]

/-! ### `State.gapTick` -/

@[simp] theorem State.gapTick_plan (s : State)  : s.gapTick.plan = s.plan := by
  simp only [State.gapTick]
  (repeat' split) <;> simp
@[simp] theorem State.gapTick_slotA (s : State)  : s.gapTick.slotA = s.slotA := by
  simp only [State.gapTick]
  (repeat' split) <;> simp
@[simp] theorem State.gapTick_slotB (s : State)  : s.gapTick.slotB = s.slotB := by
  simp only [State.gapTick]
  (repeat' split) <;> simp
@[simp] theorem State.gapTick_queue (s : State)  : s.gapTick.queue = s.queue := by
  simp only [State.gapTick]
  (repeat' split) <;> simp
@[simp] theorem State.gapTick_window (s : State)  : s.gapTick.window = s.window := by
  simp only [State.gapTick]
  (repeat' split) <;> simp
@[simp] theorem State.gapTick_voids (s : State)  : s.gapTick.voids = s.voids := by
  simp only [State.gapTick]
  (repeat' split) <;> simp
@[simp] theorem State.gapTick_account (s : State)  : s.gapTick.account = s.account := by
  simp only [State.gapTick]
  (repeat' split) <;> simp
@[simp] theorem State.gapTick_ports (s : State)  : s.gapTick.ports = s.ports := by
  simp only [State.gapTick]
  (repeat' split) <;> simp
@[simp] theorem State.gapTick_sup (s : State)  : s.gapTick.sup = s.sup := by
  simp only [State.gapTick]
  (repeat' split) <;> simp
@[simp] theorem State.gapTick_run (s : State)  : s.gapTick.run = s.run := by
  simp only [State.gapTick]
  (repeat' split) <;> simp
@[simp] theorem State.gapTick_pending (s : State)  : s.gapTick.pending = s.pending := by
  simp only [State.gapTick]
  (repeat' split) <;> simp
@[simp] theorem State.gapTick_slot (s : State) (k : SlotId) : s.gapTick.slot k = s.slot k := by
  cases k <;> simp [State.slot]
@[simp] theorem State.gapTick_port (s : State) (k : PortId) : s.gapTick.port k = s.port k := by
  simp [State.port]

/-! ### `State.tick` -/

@[simp] theorem State.tick_plan (s : State)  : s.tick.plan = s.plan := by
  simp only [State.tick, State.gapTick_plan]
  rw [State.forPorts_field (fun t => t.plan) _ (fun p t => State.portTick_plan t p)]
@[simp] theorem State.tick_slotA (s : State)  : s.tick.slotA = s.slotA := by
  simp only [State.tick, State.gapTick_slotA]
  rw [State.forPorts_field (fun t => t.slotA) _ (fun p t => State.portTick_slotA t p)]
@[simp] theorem State.tick_slotB (s : State)  : s.tick.slotB = s.slotB := by
  simp only [State.tick, State.gapTick_slotB]
  rw [State.forPorts_field (fun t => t.slotB) _ (fun p t => State.portTick_slotB t p)]
@[simp] theorem State.tick_queue (s : State)  : s.tick.queue = s.queue := by
  simp only [State.tick, State.gapTick_queue]
  rw [State.forPorts_field (fun t => t.queue) _ (fun p t => State.portTick_queue t p)]
@[simp] theorem State.tick_voids (s : State)  : s.tick.voids = s.voids := by
  simp only [State.tick, State.gapTick_voids]
  rw [State.forPorts_field (fun t => t.voids) _ (fun p t => State.portTick_voids t p)]
@[simp] theorem State.tick_account (s : State)  : s.tick.account = s.account := by
  simp only [State.tick, State.gapTick_account]
  rw [State.forPorts_field (fun t => t.account) _ (fun p t => State.portTick_account t p)]
@[simp] theorem State.tick_run (s : State)  : s.tick.run = s.run := by
  simp only [State.tick, State.gapTick_run]
  rw [State.forPorts_field (fun t => t.run) _ (fun p t => State.portTick_run t p)]
@[simp] theorem State.tick_pending (s : State)  : s.tick.pending = s.pending := by
  simp only [State.tick, State.gapTick_pending]
  rw [State.forPorts_field (fun t => t.pending) _ (fun p t => State.portTick_pending t p)]
@[simp] theorem State.tick_slot (s : State) (k : SlotId) : s.tick.slot k = s.slot k := by
  cases k <;> simp [State.slot]

/-! ### `State.endFetchShort` -/

@[simp] theorem State.endFetchShort_plan (s : State) (p : PortId) : (s.endFetchShort p).plan = s.plan := by
  simp only [State.endFetchShort]
  (repeat' split) <;> simp
@[simp] theorem State.endFetchShort_slotA (s : State) (p : PortId) : (s.endFetchShort p).slotA = s.slotA := by
  simp only [State.endFetchShort]
  (repeat' split) <;> simp
@[simp] theorem State.endFetchShort_slotB (s : State) (p : PortId) : (s.endFetchShort p).slotB = s.slotB := by
  simp only [State.endFetchShort]
  (repeat' split) <;> simp
@[simp] theorem State.endFetchShort_queue (s : State) (p : PortId) : (s.endFetchShort p).queue = s.queue := by
  simp only [State.endFetchShort]
  (repeat' split) <;> simp
@[simp] theorem State.endFetchShort_window (s : State) (p : PortId) : (s.endFetchShort p).window = s.window := by
  simp only [State.endFetchShort]
  (repeat' split) <;> simp
@[simp] theorem State.endFetchShort_receiver (s : State) (p : PortId) : (s.endFetchShort p).receiver = s.receiver := by
  simp only [State.endFetchShort]
  (repeat' split) <;> simp
@[simp] theorem State.endFetchShort_voids (s : State) (p : PortId) : (s.endFetchShort p).voids = s.voids := by
  simp only [State.endFetchShort]
  (repeat' split) <;> simp
@[simp] theorem State.endFetchShort_account (s : State) (p : PortId) : (s.endFetchShort p).account = s.account := by
  simp only [State.endFetchShort]
  (repeat' split) <;> simp
@[simp] theorem State.endFetchShort_sup (s : State) (p : PortId) : (s.endFetchShort p).sup = s.sup := by
  simp only [State.endFetchShort]
  (repeat' split) <;> simp
@[simp] theorem State.endFetchShort_run (s : State) (p : PortId) : (s.endFetchShort p).run = s.run := by
  simp only [State.endFetchShort]
  (repeat' split) <;> simp
@[simp] theorem State.endFetchShort_pending (s : State) (p : PortId) : (s.endFetchShort p).pending = s.pending := by
  simp only [State.endFetchShort]
  (repeat' split) <;> simp
@[simp] theorem State.endFetchShort_slot (s : State) (p : PortId) (k : SlotId) : (s.endFetchShort p).slot k = s.slot k := by
  cases k <;> simp [State.slot]

/-! ### `State.select` -/

@[simp] theorem State.select_plan (s : State) (p : PortId) (clockHigh : Bool) : (s.select p clockHigh).plan = s.plan := by
  simp only [State.select]
  (repeat' split) <;> simp
@[simp] theorem State.select_slotA (s : State) (p : PortId) (clockHigh : Bool) : (s.select p clockHigh).slotA = s.slotA := by
  simp only [State.select]
  (repeat' split) <;> simp
@[simp] theorem State.select_slotB (s : State) (p : PortId) (clockHigh : Bool) : (s.select p clockHigh).slotB = s.slotB := by
  simp only [State.select]
  (repeat' split) <;> simp
@[simp] theorem State.select_queue (s : State) (p : PortId) (clockHigh : Bool) : (s.select p clockHigh).queue = s.queue := by
  simp only [State.select]
  (repeat' split) <;> simp
@[simp] theorem State.select_window (s : State) (p : PortId) (clockHigh : Bool) : (s.select p clockHigh).window = s.window := by
  simp only [State.select]
  (repeat' split) <;> simp
@[simp] theorem State.select_receiver (s : State) (p : PortId) (clockHigh : Bool) : (s.select p clockHigh).receiver = s.receiver := by
  simp only [State.select]
  (repeat' split) <;> simp
@[simp] theorem State.select_voids (s : State) (p : PortId) (clockHigh : Bool) : (s.select p clockHigh).voids = s.voids := by
  simp only [State.select]
  (repeat' split) <;> simp
@[simp] theorem State.select_account (s : State) (p : PortId) (clockHigh : Bool) : (s.select p clockHigh).account = s.account := by
  simp only [State.select]
  (repeat' split) <;> simp
@[simp] theorem State.select_sup (s : State) (p : PortId) (clockHigh : Bool) : (s.select p clockHigh).sup = s.sup := by
  simp only [State.select]
  (repeat' split) <;> simp
@[simp] theorem State.select_run (s : State) (p : PortId) (clockHigh : Bool) : (s.select p clockHigh).run = s.run := by
  simp only [State.select]
  (repeat' split) <;> simp
@[simp] theorem State.select_pending (s : State) (p : PortId) (clockHigh : Bool) : (s.select p clockHigh).pending = s.pending := by
  simp only [State.select]
  (repeat' split) <;> simp
@[simp] theorem State.select_slot (s : State) (p : PortId) (clockHigh : Bool) (k : SlotId) : (s.select p clockHigh).slot k = s.slot k := by
  cases k <;> simp [State.slot]

/-! ### `State.frameTaken` -/

@[simp] theorem State.frameTaken_plan (s : State) (p : PortId) : (s.frameTaken p).plan = s.plan := by
  simp only [State.frameTaken]
  simp
@[simp] theorem State.frameTaken_slotA (s : State) (p : PortId) : (s.frameTaken p).slotA = s.slotA := by
  simp only [State.frameTaken]
  simp
@[simp] theorem State.frameTaken_slotB (s : State) (p : PortId) : (s.frameTaken p).slotB = s.slotB := by
  simp only [State.frameTaken]
  simp
@[simp] theorem State.frameTaken_queue (s : State) (p : PortId) : (s.frameTaken p).queue = s.queue := by
  simp only [State.frameTaken]
  simp
@[simp] theorem State.frameTaken_window (s : State) (p : PortId) : (s.frameTaken p).window = s.window := by
  simp only [State.frameTaken]
  simp
@[simp] theorem State.frameTaken_receiver (s : State) (p : PortId) : (s.frameTaken p).receiver = s.receiver := by
  simp only [State.frameTaken]
  simp
@[simp] theorem State.frameTaken_voids (s : State) (p : PortId) : (s.frameTaken p).voids = s.voids := by
  simp only [State.frameTaken]
  simp
@[simp] theorem State.frameTaken_account (s : State) (p : PortId) : (s.frameTaken p).account = s.account := by
  simp only [State.frameTaken]
  simp
@[simp] theorem State.frameTaken_sup (s : State) (p : PortId) : (s.frameTaken p).sup = s.sup := by
  simp only [State.frameTaken]
  simp
@[simp] theorem State.frameTaken_run (s : State) (p : PortId) : (s.frameTaken p).run = s.run := by
  simp only [State.frameTaken]
  simp
@[simp] theorem State.frameTaken_pending (s : State) (p : PortId) : (s.frameTaken p).pending = s.pending := by
  simp only [State.frameTaken]
  simp
@[simp] theorem State.frameTaken_slot (s : State) (p : PortId) (k : SlotId) : (s.frameTaken p).slot k = s.slot k := by
  cases k <;> simp [State.slot]

/-! ### `State.rejectFrame` -/

@[simp] theorem State.rejectFrame_plan (s : State) (p : PortId) : (s.rejectFrame p).plan = s.plan := by
  simp only [State.rejectFrame]
  simp
@[simp] theorem State.rejectFrame_slotA (s : State) (p : PortId) : (s.rejectFrame p).slotA = s.slotA := by
  simp only [State.rejectFrame]
  simp
@[simp] theorem State.rejectFrame_slotB (s : State) (p : PortId) : (s.rejectFrame p).slotB = s.slotB := by
  simp only [State.rejectFrame]
  simp
@[simp] theorem State.rejectFrame_queue (s : State) (p : PortId) : (s.rejectFrame p).queue = s.queue := by
  simp only [State.rejectFrame]
  simp
@[simp] theorem State.rejectFrame_window (s : State) (p : PortId) : (s.rejectFrame p).window = s.window := by
  simp only [State.rejectFrame]
  simp
@[simp] theorem State.rejectFrame_receiver (s : State) (p : PortId) : (s.rejectFrame p).receiver = s.receiver := by
  simp only [State.rejectFrame]
  simp
@[simp] theorem State.rejectFrame_voids (s : State) (p : PortId) : (s.rejectFrame p).voids = s.voids := by
  simp only [State.rejectFrame]
  simp
@[simp] theorem State.rejectFrame_account (s : State) (p : PortId) : (s.rejectFrame p).account = s.account := by
  simp only [State.rejectFrame]
  simp
@[simp] theorem State.rejectFrame_sup (s : State) (p : PortId) : (s.rejectFrame p).sup = s.sup := by
  simp only [State.rejectFrame]
  simp
@[simp] theorem State.rejectFrame_run (s : State) (p : PortId) : (s.rejectFrame p).run = s.run := by
  simp only [State.rejectFrame]
  simp
@[simp] theorem State.rejectFrame_pending (s : State) (p : PortId) : (s.rejectFrame p).pending = s.pending := by
  simp only [State.rejectFrame]
  simp
@[simp] theorem State.rejectFrame_slot (s : State) (p : PortId) (k : SlotId) : (s.rejectFrame p).slot k = s.slot k := by
  cases k <;> simp [State.slot]

/-! ### `State.acceptFrame` -/

@[simp] theorem State.acceptFrame_plan (s : State) (p : PortId) : (s.acceptFrame p).plan = s.plan := by
  simp only [State.acceptFrame]
  simp
@[simp] theorem State.acceptFrame_slotA (s : State) (p : PortId) : (s.acceptFrame p).slotA = s.slotA := by
  simp only [State.acceptFrame]
  simp
@[simp] theorem State.acceptFrame_slotB (s : State) (p : PortId) : (s.acceptFrame p).slotB = s.slotB := by
  simp only [State.acceptFrame]
  simp
@[simp] theorem State.acceptFrame_queue (s : State) (p : PortId) : (s.acceptFrame p).queue = s.queue := by
  simp only [State.acceptFrame]
  simp
@[simp] theorem State.acceptFrame_window (s : State) (p : PortId) : (s.acceptFrame p).window = s.window := by
  simp only [State.acceptFrame]
  simp
@[simp] theorem State.acceptFrame_receiver (s : State) (p : PortId) : (s.acceptFrame p).receiver = s.receiver := by
  simp only [State.acceptFrame]
  simp
@[simp] theorem State.acceptFrame_voids (s : State) (p : PortId) : (s.acceptFrame p).voids = s.voids := by
  simp only [State.acceptFrame]
  simp
@[simp] theorem State.acceptFrame_account (s : State) (p : PortId) : (s.acceptFrame p).account = s.account := by
  simp only [State.acceptFrame]
  simp
@[simp] theorem State.acceptFrame_sup (s : State) (p : PortId) : (s.acceptFrame p).sup = s.sup := by
  simp only [State.acceptFrame]
  simp
@[simp] theorem State.acceptFrame_run (s : State) (p : PortId) : (s.acceptFrame p).run = s.run := by
  simp only [State.acceptFrame]
  simp
@[simp] theorem State.acceptFrame_pending (s : State) (p : PortId) : (s.acceptFrame p).pending = s.pending := by
  simp only [State.acceptFrame]
  simp
@[simp] theorem State.acceptFrame_slot (s : State) (p : PortId) (k : SlotId) : (s.acceptFrame p).slot k = s.slot k := by
  cases k <;> simp [State.slot]

/-! ### `State.portAnswers` -/

@[simp] theorem State.portAnswers_plan (s : State) (p : PortId) (q : Request) (reason : Reason) (cursor : Nat) : (s.portAnswers p q reason cursor).plan = s.plan := by
  simp only [State.portAnswers]
  simp
@[simp] theorem State.portAnswers_slotA (s : State) (p : PortId) (q : Request) (reason : Reason) (cursor : Nat) : (s.portAnswers p q reason cursor).slotA = s.slotA := by
  simp only [State.portAnswers]
  simp
@[simp] theorem State.portAnswers_slotB (s : State) (p : PortId) (q : Request) (reason : Reason) (cursor : Nat) : (s.portAnswers p q reason cursor).slotB = s.slotB := by
  simp only [State.portAnswers]
  simp
@[simp] theorem State.portAnswers_queue (s : State) (p : PortId) (q : Request) (reason : Reason) (cursor : Nat) : (s.portAnswers p q reason cursor).queue = s.queue := by
  simp only [State.portAnswers]
  simp
@[simp] theorem State.portAnswers_window (s : State) (p : PortId) (q : Request) (reason : Reason) (cursor : Nat) : (s.portAnswers p q reason cursor).window = s.window := by
  simp only [State.portAnswers]
  simp
@[simp] theorem State.portAnswers_receiver (s : State) (p : PortId) (q : Request) (reason : Reason) (cursor : Nat) : (s.portAnswers p q reason cursor).receiver = s.receiver := by
  simp only [State.portAnswers]
  simp
@[simp] theorem State.portAnswers_voids (s : State) (p : PortId) (q : Request) (reason : Reason) (cursor : Nat) : (s.portAnswers p q reason cursor).voids = s.voids := by
  simp only [State.portAnswers]
  simp
@[simp] theorem State.portAnswers_account (s : State) (p : PortId) (q : Request) (reason : Reason) (cursor : Nat) : (s.portAnswers p q reason cursor).account = s.account := by
  simp only [State.portAnswers]
  simp
@[simp] theorem State.portAnswers_sup (s : State) (p : PortId) (q : Request) (reason : Reason) (cursor : Nat) : (s.portAnswers p q reason cursor).sup = s.sup := by
  simp only [State.portAnswers]
  simp
@[simp] theorem State.portAnswers_run (s : State) (p : PortId) (q : Request) (reason : Reason) (cursor : Nat) : (s.portAnswers p q reason cursor).run = s.run := by
  simp only [State.portAnswers]
  simp
@[simp] theorem State.portAnswers_pending (s : State) (p : PortId) (q : Request) (reason : Reason) (cursor : Nat) : (s.portAnswers p q reason cursor).pending = s.pending := by
  simp only [State.portAnswers]
  simp
@[simp] theorem State.portAnswers_slot (s : State) (p : PortId) (q : Request) (reason : Reason) (cursor : Nat) (k : SlotId) : (s.portAnswers p q reason cursor).slot k = s.slot k := by
  cases k <;> simp [State.slot]

/-! ### `State.refuseOrder` -/

@[simp] theorem State.refuseOrder_plan (s : State) (p : PortId) (q : Request) : (s.refuseOrder p q).plan = s.plan := by
  simp only [State.refuseOrder]
  simp
@[simp] theorem State.refuseOrder_slotA (s : State) (p : PortId) (q : Request) : (s.refuseOrder p q).slotA = s.slotA := by
  simp only [State.refuseOrder]
  simp
@[simp] theorem State.refuseOrder_slotB (s : State) (p : PortId) (q : Request) : (s.refuseOrder p q).slotB = s.slotB := by
  simp only [State.refuseOrder]
  simp
@[simp] theorem State.refuseOrder_queue (s : State) (p : PortId) (q : Request) : (s.refuseOrder p q).queue = s.queue := by
  simp only [State.refuseOrder]
  simp
@[simp] theorem State.refuseOrder_window (s : State) (p : PortId) (q : Request) : (s.refuseOrder p q).window = s.window := by
  simp only [State.refuseOrder]
  simp
@[simp] theorem State.refuseOrder_receiver (s : State) (p : PortId) (q : Request) : (s.refuseOrder p q).receiver = s.receiver := by
  simp only [State.refuseOrder]
  simp
@[simp] theorem State.refuseOrder_voids (s : State) (p : PortId) (q : Request) : (s.refuseOrder p q).voids = s.voids := by
  simp only [State.refuseOrder]
  simp
@[simp] theorem State.refuseOrder_account (s : State) (p : PortId) (q : Request) : (s.refuseOrder p q).account = s.account := by
  simp only [State.refuseOrder]
  simp
@[simp] theorem State.refuseOrder_sup (s : State) (p : PortId) (q : Request) : (s.refuseOrder p q).sup = s.sup := by
  simp only [State.refuseOrder]
  simp
@[simp] theorem State.refuseOrder_run (s : State) (p : PortId) (q : Request) : (s.refuseOrder p q).run = s.run := by
  simp only [State.refuseOrder]
  simp
@[simp] theorem State.refuseOrder_pending (s : State) (p : PortId) (q : Request) : (s.refuseOrder p q).pending = s.pending := by
  simp only [State.refuseOrder]
  simp
@[simp] theorem State.refuseOrder_slot (s : State) (p : PortId) (q : Request) (k : SlotId) : (s.refuseOrder p q).slot k = s.slot k := by
  cases k <;> simp [State.slot]

/-! ### `State.serve` -/

@[simp] theorem State.serve_plan (s : State) (r k : Nat) : (s.serve r k).plan = s.plan := by
  simp only [State.serve]
  simp
@[simp] theorem State.serve_slotA (s : State) (r k : Nat) : (s.serve r k).slotA = s.slotA := by
  simp only [State.serve]
  simp
@[simp] theorem State.serve_slotB (s : State) (r k : Nat) : (s.serve r k).slotB = s.slotB := by
  simp only [State.serve]
  simp
@[simp] theorem State.serve_queue (s : State) (r k : Nat) : (s.serve r k).queue = s.queue := by
  simp only [State.serve]
  simp
@[simp] theorem State.serve_receiver (s : State) (r k : Nat) : (s.serve r k).receiver = s.receiver := by
  simp only [State.serve]
  simp
@[simp] theorem State.serve_voids (s : State) (r k : Nat) : (s.serve r k).voids = s.voids := by
  simp only [State.serve]
  simp
@[simp] theorem State.serve_account (s : State) (r k : Nat) : (s.serve r k).account = s.account := by
  simp only [State.serve]
  simp
@[simp] theorem State.serve_ports (s : State) (r k : Nat) : (s.serve r k).ports = s.ports := by
  simp only [State.serve]
  simp
@[simp] theorem State.serve_sup (s : State) (r k : Nat) : (s.serve r k).sup = s.sup := by
  simp only [State.serve]
  simp
@[simp] theorem State.serve_run (s : State) (r k : Nat) : (s.serve r k).run = s.run := by
  simp only [State.serve]
  simp
@[simp] theorem State.serve_pending (s : State) (r k : Nat) : (s.serve r k).pending = s.pending := by
  simp only [State.serve]
  simp
@[simp] theorem State.serve_slot (s : State) (r k : Nat) (i : SlotId) : (s.serve r k).slot i = s.slot i := by
  cases i <;> simp [State.slot]
@[simp] theorem State.serve_port (s : State) (r k : Nat) (p : PortId) : (s.serve r k).port p = s.port p := by
  simp [State.port]

/-! ### `State.servedBy` -/

@[simp] theorem State.servedBy_plan (s : State) (p : PortId) (f : FetchOut) : (s.servedBy p f).plan = s.plan := by
  simp only [State.servedBy]
  (repeat' split) <;> simp
@[simp] theorem State.servedBy_slotA (s : State) (p : PortId) (f : FetchOut) : (s.servedBy p f).slotA = s.slotA := by
  simp only [State.servedBy]
  (repeat' split) <;> simp
@[simp] theorem State.servedBy_slotB (s : State) (p : PortId) (f : FetchOut) : (s.servedBy p f).slotB = s.slotB := by
  simp only [State.servedBy]
  (repeat' split) <;> simp
@[simp] theorem State.servedBy_queue (s : State) (p : PortId) (f : FetchOut) : (s.servedBy p f).queue = s.queue := by
  simp only [State.servedBy]
  (repeat' split) <;> simp
@[simp] theorem State.servedBy_receiver (s : State) (p : PortId) (f : FetchOut) : (s.servedBy p f).receiver = s.receiver := by
  simp only [State.servedBy]
  (repeat' split) <;> simp
@[simp] theorem State.servedBy_voids (s : State) (p : PortId) (f : FetchOut) : (s.servedBy p f).voids = s.voids := by
  simp only [State.servedBy]
  (repeat' split) <;> simp
@[simp] theorem State.servedBy_account (s : State) (p : PortId) (f : FetchOut) : (s.servedBy p f).account = s.account := by
  simp only [State.servedBy]
  (repeat' split) <;> simp
@[simp] theorem State.servedBy_ports (s : State) (p : PortId) (f : FetchOut) : (s.servedBy p f).ports = s.ports := by
  simp only [State.servedBy]
  (repeat' split) <;> simp
@[simp] theorem State.servedBy_sup (s : State) (p : PortId) (f : FetchOut) : (s.servedBy p f).sup = s.sup := by
  simp only [State.servedBy]
  (repeat' split) <;> simp
@[simp] theorem State.servedBy_run (s : State) (p : PortId) (f : FetchOut) : (s.servedBy p f).run = s.run := by
  simp only [State.servedBy]
  (repeat' split) <;> simp
@[simp] theorem State.servedBy_pending (s : State) (p : PortId) (f : FetchOut) : (s.servedBy p f).pending = s.pending := by
  simp only [State.servedBy]
  (repeat' split) <;> simp
@[simp] theorem State.servedBy_slot (s : State) (p : PortId) (f : FetchOut) (k : SlotId) : (s.servedBy p f).slot k = s.slot k := by
  cases k <;> simp [State.slot]
@[simp] theorem State.servedBy_port (s : State) (p : PortId) (f : FetchOut) (k : PortId) : (s.servedBy p f).port k = s.port k := by
  simp [State.port]

/-! ### `State.drawNothing` -/

@[simp] theorem State.drawNothing_plan (s : State) (f : Fill) : (s.drawNothing f).plan = s.plan := by
  simp only [State.drawNothing]
  simp
@[simp] theorem State.drawNothing_window (s : State) (f : Fill) : (s.drawNothing f).window = s.window := by
  simp only [State.drawNothing]
  simp
@[simp] theorem State.drawNothing_receiver (s : State) (f : Fill) : (s.drawNothing f).receiver = s.receiver := by
  simp only [State.drawNothing]
  simp
@[simp] theorem State.drawNothing_voids (s : State) (f : Fill) : (s.drawNothing f).voids = s.voids := by
  simp only [State.drawNothing]
  simp
@[simp] theorem State.drawNothing_account (s : State) (f : Fill) : (s.drawNothing f).account = s.account := by
  simp only [State.drawNothing]
  simp
@[simp] theorem State.drawNothing_ports (s : State) (f : Fill) : (s.drawNothing f).ports = s.ports := by
  simp only [State.drawNothing]
  simp
@[simp] theorem State.drawNothing_run (s : State) (f : Fill) : (s.drawNothing f).run = s.run := by
  simp only [State.drawNothing]
  simp
@[simp] theorem State.drawNothing_pending (s : State) (f : Fill) : (s.drawNothing f).pending = s.pending := by
  simp only [State.drawNothing]
  simp
@[simp] theorem State.drawNothing_port (s : State) (f : Fill) (k : PortId) : (s.drawNothing f).port k = s.port k := by
  simp [State.port]

/-! ### `State.drawIssues` -/

@[simp] theorem State.drawIssues_plan (s : State) (f : Fill) (x : Nat) : (s.drawIssues f x).plan = s.plan := by
  simp only [State.drawIssues]
  simp
@[simp] theorem State.drawIssues_slotA (s : State) (f : Fill) (x : Nat) : (s.drawIssues f x).slotA = s.slotA := by
  simp only [State.drawIssues]
  simp
@[simp] theorem State.drawIssues_slotB (s : State) (f : Fill) (x : Nat) : (s.drawIssues f x).slotB = s.slotB := by
  simp only [State.drawIssues]
  simp
@[simp] theorem State.drawIssues_window (s : State) (f : Fill) (x : Nat) : (s.drawIssues f x).window = s.window := by
  simp only [State.drawIssues]
  simp
@[simp] theorem State.drawIssues_receiver (s : State) (f : Fill) (x : Nat) : (s.drawIssues f x).receiver = s.receiver := by
  simp only [State.drawIssues]
  simp
@[simp] theorem State.drawIssues_account (s : State) (f : Fill) (x : Nat) : (s.drawIssues f x).account = s.account := by
  simp only [State.drawIssues]
  simp
@[simp] theorem State.drawIssues_ports (s : State) (f : Fill) (x : Nat) : (s.drawIssues f x).ports = s.ports := by
  simp only [State.drawIssues]
  simp
@[simp] theorem State.drawIssues_run (s : State) (f : Fill) (x : Nat) : (s.drawIssues f x).run = s.run := by
  simp only [State.drawIssues]
  simp
@[simp] theorem State.drawIssues_pending (s : State) (f : Fill) (x : Nat) : (s.drawIssues f x).pending = s.pending := by
  simp only [State.drawIssues]
  simp
@[simp] theorem State.drawIssues_slot (s : State) (f : Fill) (x : Nat) (k : SlotId) : (s.drawIssues f x).slot k = s.slot k := by
  cases k <;> simp [State.slot]
@[simp] theorem State.drawIssues_port (s : State) (f : Fill) (x : Nat) (k : PortId) : (s.drawIssues f x).port k = s.port k := by
  simp [State.port]

/-! ### `State.handSkipped` -/

@[simp] theorem State.handSkipped_plan (s : State) (f : Fill) : (s.handSkipped f).plan = s.plan := by
  simp only [State.handSkipped]
  (repeat' split) <;> simp
@[simp] theorem State.handSkipped_window (s : State) (f : Fill) : (s.handSkipped f).window = s.window := by
  simp only [State.handSkipped]
  (repeat' split) <;> simp
@[simp] theorem State.handSkipped_receiver (s : State) (f : Fill) : (s.handSkipped f).receiver = s.receiver := by
  simp only [State.handSkipped]
  (repeat' split) <;> simp
@[simp] theorem State.handSkipped_voids (s : State) (f : Fill) : (s.handSkipped f).voids = s.voids := by
  simp only [State.handSkipped]
  (repeat' split) <;> simp
@[simp] theorem State.handSkipped_account (s : State) (f : Fill) : (s.handSkipped f).account = s.account := by
  simp only [State.handSkipped]
  (repeat' split) <;> simp
@[simp] theorem State.handSkipped_ports (s : State) (f : Fill) : (s.handSkipped f).ports = s.ports := by
  simp only [State.handSkipped]
  (repeat' split) <;> simp
@[simp] theorem State.handSkipped_sup (s : State) (f : Fill) : (s.handSkipped f).sup = s.sup := by
  simp only [State.handSkipped]
  (repeat' split) <;> simp
@[simp] theorem State.handSkipped_run (s : State) (f : Fill) : (s.handSkipped f).run = s.run := by
  simp only [State.handSkipped]
  (repeat' split) <;> simp
@[simp] theorem State.handSkipped_pending (s : State) (f : Fill) : (s.handSkipped f).pending = s.pending := by
  simp only [State.handSkipped]
  (repeat' split) <;> simp
@[simp] theorem State.handSkipped_port (s : State) (f : Fill) (k : PortId) : (s.handSkipped f).port k = s.port k := by
  simp [State.port]

/-! ### `State.fillMakesDraft` -/

@[simp] theorem State.fillMakesDraft_plan (s : State) (f : Fill) : (s.fillMakesDraft f).plan = s.plan := by
  simp only [State.fillMakesDraft]
  (repeat' split) <;> simp
@[simp] theorem State.fillMakesDraft_window (s : State) (f : Fill) : (s.fillMakesDraft f).window = s.window := by
  simp only [State.fillMakesDraft]
  (repeat' split) <;> simp
@[simp] theorem State.fillMakesDraft_receiver (s : State) (f : Fill) : (s.fillMakesDraft f).receiver = s.receiver := by
  simp only [State.fillMakesDraft]
  (repeat' split) <;> simp
@[simp] theorem State.fillMakesDraft_voids (s : State) (f : Fill) : (s.fillMakesDraft f).voids = s.voids := by
  simp only [State.fillMakesDraft]
  (repeat' split) <;> simp
@[simp] theorem State.fillMakesDraft_account (s : State) (f : Fill) : (s.fillMakesDraft f).account = s.account := by
  simp only [State.fillMakesDraft]
  (repeat' split) <;> simp
@[simp] theorem State.fillMakesDraft_ports (s : State) (f : Fill) : (s.fillMakesDraft f).ports = s.ports := by
  simp only [State.fillMakesDraft]
  (repeat' split) <;> simp
@[simp] theorem State.fillMakesDraft_sup (s : State) (f : Fill) : (s.fillMakesDraft f).sup = s.sup := by
  simp only [State.fillMakesDraft]
  (repeat' split) <;> simp
@[simp] theorem State.fillMakesDraft_run (s : State) (f : Fill) : (s.fillMakesDraft f).run = s.run := by
  simp only [State.fillMakesDraft]
  (repeat' split) <;> simp
@[simp] theorem State.fillMakesDraft_pending (s : State) (f : Fill) : (s.fillMakesDraft f).pending = s.pending := by
  simp only [State.fillMakesDraft]
  (repeat' split) <;> simp
@[simp] theorem State.fillMakesDraft_port (s : State) (f : Fill) (k : PortId) : (s.fillMakesDraft f).port k = s.port k := by
  simp [State.port]

/-! ### `State.fillFindsNothing` -/

@[simp] theorem State.fillFindsNothing_plan (s : State) (f : Fill) : (s.fillFindsNothing f).plan = s.plan := by
  simp only [State.fillFindsNothing]
  simp
@[simp] theorem State.fillFindsNothing_window (s : State) (f : Fill) : (s.fillFindsNothing f).window = s.window := by
  simp only [State.fillFindsNothing]
  simp
@[simp] theorem State.fillFindsNothing_receiver (s : State) (f : Fill) : (s.fillFindsNothing f).receiver = s.receiver := by
  simp only [State.fillFindsNothing]
  simp
@[simp] theorem State.fillFindsNothing_voids (s : State) (f : Fill) : (s.fillFindsNothing f).voids = s.voids := by
  simp only [State.fillFindsNothing]
  simp
@[simp] theorem State.fillFindsNothing_ports (s : State) (f : Fill) : (s.fillFindsNothing f).ports = s.ports := by
  simp only [State.fillFindsNothing]
  simp
@[simp] theorem State.fillFindsNothing_run (s : State) (f : Fill) : (s.fillFindsNothing f).run = s.run := by
  simp only [State.fillFindsNothing]
  simp
@[simp] theorem State.fillFindsNothing_pending (s : State) (f : Fill) : (s.fillFindsNothing f).pending = s.pending := by
  simp only [State.fillFindsNothing]
  simp
@[simp] theorem State.fillFindsNothing_port (s : State) (f : Fill) (k : PortId) : (s.fillFindsNothing f).port k = s.port k := by
  simp [State.port]

/-! ### `State.takeWaste` -/

@[simp] theorem State.takeWaste_plan (s : State) (p : PortId) (q : Request) (r1 r2 : Nat) : (s.takeWaste p q r1 r2).plan = s.plan := by
  simp only [State.takeWaste]
  (repeat' split) <;> simp
@[simp] theorem State.takeWaste_slotA (s : State) (p : PortId) (q : Request) (r1 r2 : Nat) : (s.takeWaste p q r1 r2).slotA = s.slotA := by
  simp only [State.takeWaste]
  (repeat' split) <;> simp
@[simp] theorem State.takeWaste_slotB (s : State) (p : PortId) (q : Request) (r1 r2 : Nat) : (s.takeWaste p q r1 r2).slotB = s.slotB := by
  simp only [State.takeWaste]
  (repeat' split) <;> simp
@[simp] theorem State.takeWaste_queue (s : State) (p : PortId) (q : Request) (r1 r2 : Nat) : (s.takeWaste p q r1 r2).queue = s.queue := by
  simp only [State.takeWaste]
  (repeat' split) <;> simp
@[simp] theorem State.takeWaste_receiver (s : State) (p : PortId) (q : Request) (r1 r2 : Nat) : (s.takeWaste p q r1 r2).receiver = s.receiver := by
  simp only [State.takeWaste]
  (repeat' split) <;> simp
@[simp] theorem State.takeWaste_voids (s : State) (p : PortId) (q : Request) (r1 r2 : Nat) : (s.takeWaste p q r1 r2).voids = s.voids := by
  simp only [State.takeWaste]
  (repeat' split) <;> simp
@[simp] theorem State.takeWaste_account (s : State) (p : PortId) (q : Request) (r1 r2 : Nat) : (s.takeWaste p q r1 r2).account = s.account := by
  simp only [State.takeWaste]
  (repeat' split) <;> simp
@[simp] theorem State.takeWaste_sup (s : State) (p : PortId) (q : Request) (r1 r2 : Nat) : (s.takeWaste p q r1 r2).sup = s.sup := by
  simp only [State.takeWaste]
  (repeat' split) <;> simp
@[simp] theorem State.takeWaste_run (s : State) (p : PortId) (q : Request) (r1 r2 : Nat) : (s.takeWaste p q r1 r2).run = s.run := by
  simp only [State.takeWaste]
  (repeat' split) <;> simp
@[simp] theorem State.takeWaste_pending (s : State) (p : PortId) (q : Request) (r1 r2 : Nat) : (s.takeWaste p q r1 r2).pending = s.pending := by
  simp only [State.takeWaste]
  (repeat' split) <;> simp
@[simp] theorem State.takeWaste_slot (s : State) (p : PortId) (q : Request) (r1 r2 : Nat) (k : SlotId) : (s.takeWaste p q r1 r2).slot k = s.slot k := by
  cases k <;> simp [State.slot]

/-! ### `State.takeMisfire` -/

@[simp] theorem State.takeMisfire_plan (s : State) (p : PortId) (q : Request) (r : Nat) : (s.takeMisfire p q r).plan = s.plan := by
  simp only [State.takeMisfire]
  (repeat' split) <;> simp
@[simp] theorem State.takeMisfire_slotA (s : State) (p : PortId) (q : Request) (r : Nat) : (s.takeMisfire p q r).slotA = s.slotA := by
  simp only [State.takeMisfire]
  (repeat' split) <;> simp
@[simp] theorem State.takeMisfire_slotB (s : State) (p : PortId) (q : Request) (r : Nat) : (s.takeMisfire p q r).slotB = s.slotB := by
  simp only [State.takeMisfire]
  (repeat' split) <;> simp
@[simp] theorem State.takeMisfire_queue (s : State) (p : PortId) (q : Request) (r : Nat) : (s.takeMisfire p q r).queue = s.queue := by
  simp only [State.takeMisfire]
  (repeat' split) <;> simp
@[simp] theorem State.takeMisfire_receiver (s : State) (p : PortId) (q : Request) (r : Nat) : (s.takeMisfire p q r).receiver = s.receiver := by
  simp only [State.takeMisfire]
  (repeat' split) <;> simp
@[simp] theorem State.takeMisfire_voids (s : State) (p : PortId) (q : Request) (r : Nat) : (s.takeMisfire p q r).voids = s.voids := by
  simp only [State.takeMisfire]
  (repeat' split) <;> simp
@[simp] theorem State.takeMisfire_account (s : State) (p : PortId) (q : Request) (r : Nat) : (s.takeMisfire p q r).account = s.account := by
  simp only [State.takeMisfire]
  (repeat' split) <;> simp
@[simp] theorem State.takeMisfire_sup (s : State) (p : PortId) (q : Request) (r : Nat) : (s.takeMisfire p q r).sup = s.sup := by
  simp only [State.takeMisfire]
  (repeat' split) <;> simp
@[simp] theorem State.takeMisfire_run (s : State) (p : PortId) (q : Request) (r : Nat) : (s.takeMisfire p q r).run = s.run := by
  simp only [State.takeMisfire]
  (repeat' split) <;> simp
@[simp] theorem State.takeMisfire_pending (s : State) (p : PortId) (q : Request) (r : Nat) : (s.takeMisfire p q r).pending = s.pending := by
  simp only [State.takeMisfire]
  (repeat' split) <;> simp
@[simp] theorem State.takeMisfire_slot (s : State) (p : PortId) (q : Request) (r : Nat) (k : SlotId) : (s.takeMisfire p q r).slot k = s.slot k := by
  cases k <;> simp [State.slot]

/-! ### `State.stage` -/

@[simp] theorem State.stage_plan (s : State) (i j : SlotId) (rc : Nat) : (s.stage i j rc).plan = s.plan := by
  simp only [State.stage]
  simp
@[simp] theorem State.stage_receiver (s : State) (i j : SlotId) (rc : Nat) : (s.stage i j rc).receiver = s.receiver := by
  simp only [State.stage]
  simp
@[simp] theorem State.stage_account (s : State) (i j : SlotId) (rc : Nat) : (s.stage i j rc).account = s.account := by
  simp only [State.stage]
  simp
@[simp] theorem State.stage_run (s : State) (i j : SlotId) (rc : Nat) : (s.stage i j rc).run = s.run := by
  simp only [State.stage]
  simp
@[simp] theorem State.stage_pending (s : State) (i j : SlotId) (rc : Nat) : (s.stage i j rc).pending = s.pending := by
  simp only [State.stage]
  simp

/-! ### `State.endJob` -/

@[simp] theorem State.endJob_plan (s : State) (i : SlotId) : (s.endJob i).plan = s.plan := by
  simp only [State.endJob]
  simp
@[simp] theorem State.endJob_queue (s : State) (i : SlotId) : (s.endJob i).queue = s.queue := by
  simp only [State.endJob]
  simp
@[simp] theorem State.endJob_window (s : State) (i : SlotId) : (s.endJob i).window = s.window := by
  simp only [State.endJob]
  simp
@[simp] theorem State.endJob_receiver (s : State) (i : SlotId) : (s.endJob i).receiver = s.receiver := by
  simp only [State.endJob]
  simp
@[simp] theorem State.endJob_voids (s : State) (i : SlotId) : (s.endJob i).voids = s.voids := by
  simp only [State.endJob]
  simp
@[simp] theorem State.endJob_account (s : State) (i : SlotId) : (s.endJob i).account = s.account := by
  simp only [State.endJob]
  simp
@[simp] theorem State.endJob_ports (s : State) (i : SlotId) : (s.endJob i).ports = s.ports := by
  simp only [State.endJob]
  simp
@[simp] theorem State.endJob_sup (s : State) (i : SlotId) : (s.endJob i).sup = s.sup := by
  simp only [State.endJob]
  simp
@[simp] theorem State.endJob_run (s : State) (i : SlotId) : (s.endJob i).run = s.run := by
  simp only [State.endJob]
  simp
@[simp] theorem State.endJob_pending (s : State) (i : SlotId) : (s.endJob i).pending = s.pending := by
  simp only [State.endJob]
  simp
@[simp] theorem State.endJob_port (s : State) (i : SlotId) (k : PortId) : (s.endJob i).port k = s.port k := by
  simp [State.port]

/-! ### `State.killStaged` -/

@[simp] theorem State.killStaged_plan (s : State)  : s.killStaged.plan = s.plan := by
  simp only [State.killStaged]
  (repeat' split) <;> simp
@[simp] theorem State.killStaged_queue (s : State)  : s.killStaged.queue = s.queue := by
  simp only [State.killStaged]
  (repeat' split) <;> simp
@[simp] theorem State.killStaged_window (s : State)  : s.killStaged.window = s.window := by
  simp only [State.killStaged]
  (repeat' split) <;> simp
@[simp] theorem State.killStaged_receiver (s : State)  : s.killStaged.receiver = s.receiver := by
  simp only [State.killStaged]
  (repeat' split) <;> simp
@[simp] theorem State.killStaged_voids (s : State)  : s.killStaged.voids = s.voids := by
  simp only [State.killStaged]
  (repeat' split) <;> simp
@[simp] theorem State.killStaged_account (s : State)  : s.killStaged.account = s.account := by
  simp only [State.killStaged]
  (repeat' split) <;> simp
@[simp] theorem State.killStaged_ports (s : State)  : s.killStaged.ports = s.ports := by
  simp only [State.killStaged]
  (repeat' split) <;> simp
@[simp] theorem State.killStaged_sup (s : State)  : s.killStaged.sup = s.sup := by
  simp only [State.killStaged]
  (repeat' split) <;> simp
@[simp] theorem State.killStaged_run (s : State)  : s.killStaged.run = s.run := by
  simp only [State.killStaged]
  (repeat' split) <;> simp
@[simp] theorem State.killStaged_pending (s : State)  : s.killStaged.pending = s.pending := by
  simp only [State.killStaged]
  (repeat' split) <;> simp
@[simp] theorem State.killStaged_port (s : State) (k : PortId) : s.killStaged.port k = s.port k := by
  simp [State.port]

/-! ### `State.endRunning` -/

@[simp] theorem State.endRunning_plan (s : State)  : s.endRunning.plan = s.plan := by
  simp only [State.endRunning]
  (repeat' split) <;> simp
@[simp] theorem State.endRunning_queue (s : State)  : s.endRunning.queue = s.queue := by
  simp only [State.endRunning]
  (repeat' split) <;> simp
@[simp] theorem State.endRunning_window (s : State)  : s.endRunning.window = s.window := by
  simp only [State.endRunning]
  (repeat' split) <;> simp
@[simp] theorem State.endRunning_receiver (s : State)  : s.endRunning.receiver = s.receiver := by
  simp only [State.endRunning]
  (repeat' split) <;> simp
@[simp] theorem State.endRunning_voids (s : State)  : s.endRunning.voids = s.voids := by
  simp only [State.endRunning]
  (repeat' split) <;> simp
@[simp] theorem State.endRunning_account (s : State)  : s.endRunning.account = s.account := by
  simp only [State.endRunning]
  (repeat' split) <;> simp
@[simp] theorem State.endRunning_ports (s : State)  : s.endRunning.ports = s.ports := by
  simp only [State.endRunning]
  (repeat' split) <;> simp
@[simp] theorem State.endRunning_sup (s : State)  : s.endRunning.sup = s.sup := by
  simp only [State.endRunning]
  (repeat' split) <;> simp
@[simp] theorem State.endRunning_run (s : State)  : s.endRunning.run = s.run := by
  simp only [State.endRunning]
  (repeat' split) <;> simp
@[simp] theorem State.endRunning_pending (s : State)  : s.endRunning.pending = s.pending := by
  simp only [State.endRunning]
  (repeat' split) <;> simp
@[simp] theorem State.endRunning_port (s : State) (k : PortId) : s.endRunning.port k = s.port k := by
  simp [State.port]

/-! ### `State.stopNumbering` -/

@[simp] theorem State.stopNumbering_plan (s : State)  : s.stopNumbering.plan = s.plan := by
  simp only [State.stopNumbering]
  simp
@[simp] theorem State.stopNumbering_receiver (s : State)  : s.stopNumbering.receiver = s.receiver := by
  simp only [State.stopNumbering]
  simp
@[simp] theorem State.stopNumbering_run (s : State)  : s.stopNumbering.run = s.run := by
  simp only [State.stopNumbering]
  simp
@[simp] theorem State.stopNumbering_pending (s : State)  : s.stopNumbering.pending = s.pending := by
  simp only [State.stopNumbering]
  simp

/-! ### `State.abortAll` -/

@[simp] theorem State.abortAll_plan (s : State)  : s.abortAll.plan = s.plan := by
  have key : ∀ (l : List Nat) (t : State), (l.foldl (fun t r => t.closeRecord r .aborted []) t).plan = t.plan := by
    intro l
    induction l with
    | nil => intro t; rfl
    | cons r l ih => intro t; exact (ih _).trans (State.closeRecord_plan t r .aborted [])
  exact key _ s
@[simp] theorem State.abortAll_queue (s : State)  : s.abortAll.queue = s.queue := by
  have key : ∀ (l : List Nat) (t : State), (l.foldl (fun t r => t.closeRecord r .aborted []) t).queue = t.queue := by
    intro l
    induction l with
    | nil => intro t; rfl
    | cons r l ih => intro t; exact (ih _).trans (State.closeRecord_queue t r .aborted [])
  exact key _ s
@[simp] theorem State.abortAll_receiver (s : State)  : s.abortAll.receiver = s.receiver := by
  have key : ∀ (l : List Nat) (t : State), (l.foldl (fun t r => t.closeRecord r .aborted []) t).receiver = t.receiver := by
    intro l
    induction l with
    | nil => intro t; rfl
    | cons r l ih => intro t; exact (ih _).trans (State.closeRecord_receiver t r .aborted [])
  exact key _ s
@[simp] theorem State.abortAll_run (s : State)  : s.abortAll.run = s.run := by
  have key : ∀ (l : List Nat) (t : State), (l.foldl (fun t r => t.closeRecord r .aborted []) t).run = t.run := by
    intro l
    induction l with
    | nil => intro t; rfl
    | cons r l ih => intro t; exact (ih _).trans (State.closeRecord_run t r .aborted [])
  exact key _ s
@[simp] theorem State.abortAll_pending (s : State)  : s.abortAll.pending = s.pending := by
  have key : ∀ (l : List Nat) (t : State), (l.foldl (fun t r => t.closeRecord r .aborted []) t).pending = t.pending := by
    intro l
    induction l with
    | nil => intro t; rfl
    | cons r l ih => intro t; exact (ih _).trans (State.closeRecord_pending t r .aborted [])
  exact key _ s

/-! ### `State.postVoid` -/

@[simp] theorem State.postVoid_plan (s : State) (i : SlotId) (tag lo hi operator : Nat) : (s.postVoid i tag lo hi operator).plan = s.plan := by
  simp only [State.postVoid]
  (repeat' split) <;> simp
@[simp] theorem State.postVoid_receiver (s : State) (i : SlotId) (tag lo hi operator : Nat) : (s.postVoid i tag lo hi operator).receiver = s.receiver := by
  simp only [State.postVoid]
  (repeat' split) <;> simp
@[simp] theorem State.postVoid_run (s : State) (i : SlotId) (tag lo hi operator : Nat) : (s.postVoid i tag lo hi operator).run = s.run := by
  simp only [State.postVoid]
  (repeat' split) <;> simp
@[simp] theorem State.postVoid_pending (s : State) (i : SlotId) (tag lo hi operator : Nat) : (s.postVoid i tag lo hi operator).pending = s.pending := by
  simp only [State.postVoid]
  (repeat' split) <;> simp

/-! ### `State.frameVerdict` -/

@[simp] theorem State.frameVerdict_plan (s : State) (inserts : Option Nat) (f : Frame) : (s.frameVerdict inserts f).plan = s.plan := by
  simp only [State.frameVerdict]
  (repeat' split) <;> simp
@[simp] theorem State.frameVerdict_queue (s : State) (inserts : Option Nat) (f : Frame) : (s.frameVerdict inserts f).queue = s.queue := by
  simp only [State.frameVerdict]
  (repeat' split) <;> simp
@[simp] theorem State.frameVerdict_run (s : State) (inserts : Option Nat) (f : Frame) : (s.frameVerdict inserts f).run = s.run := by
  simp only [State.frameVerdict]
  (repeat' split) <;> simp
@[simp] theorem State.frameVerdict_pending (s : State) (inserts : Option Nat) (f : Frame) : (s.frameVerdict inserts f).pending = s.pending := by
  simp only [State.frameVerdict]
  (repeat' split) <;> simp

end Sys2Proof.Machine
end

