-- ==== Sys2Proof/Laws/Ownership.lean ====
section
/-! SUPPORT. Which slot owns a repeat, and the lowest repeat that may still open (R42, R43). -/

namespace Sys2Proof.Machine

/-! ### The RUNNING slot and the staged one -/

theorem State.runningSlot_of {s : State} {i : SlotId} (h : (s.slot i).state = .running) (h' : (s.slot i.other).state ≠ .running) :
    s.runningSlot = some i := by
  unfold State.runningSlot
  cases i
  · exact if_pos h
  · rw [if_neg (show ¬ s.slotA.state = _ from h'), if_pos (show s.slotB.state = _ from h)]

theorem State.runningSlot_state {s : State} {i : SlotId} (h : s.runningSlot = some i) : (s.slot i).state = .running := by
  unfold State.runningSlot at h
  split at h
  · cases h; assumption
  · split at h
    · cases h; assumption
    · cases h

theorem State.staged_none {s : State} {i : SlotId} (h : (s.slot i).change = none) (h' : (s.slot i.other).change = none) : s.staged = none := by
  unfold State.staged
  cases i
  · rw [show s.slotA.change = none from h, show s.slotB.change = none from h']; rfl
  · rw [show s.slotA.change = none from h', show s.slotB.change = none from h]; rfl

theorem State.staged_of {s : State} {i : SlotId} {rc : Nat} (h : (s.slot i).change = none) (h' : (s.slot i.other).change = some rc) :
    s.staged = some (i.other, rc) := by
  unfold State.staged
  cases i
  · rw [show s.slotA.change = none from h, show s.slotB.change = some rc from h']; rfl
  · rw [show s.slotA.change = some rc from h']

theorem State.staged_change {s : State} {j : SlotId} {rc : Nat} (h : s.staged = some (j, rc)) : (s.slot j).change = some rc := by
  unfold State.staged at h
  split at h
  · cases h; assumption
  · obtain ⟨a, ha, e⟩ := Option.map_eq_some_iff.mp h
    cases e; exact ha

/-! ### Ownership (R42) -/

/-- A slot owns the repeats its final repeat allows, up to the largest repeat index. -/
theorem State.ownedBy_iff (s : State) (i k : SlotId) (q : Nat) :
    s.ownedBy i q = some k ↔ k = i ∧ q ≤ maxRepeat ∧ (s.slot k).final.allows q = true := by
  unfold State.ownedBy
  constructor
  · intro h
    split at h
    · rename_i h1
      cases h
      obtain ⟨h1, h2⟩ := (Bool.and_eq_true _ _).mp h1
      exact ⟨rfl, of_decide_eq_true h2, h1⟩
    · cases h
  · rintro ⟨rfl, h1, h2⟩
    rw [if_pos]
    simp [h1, h2]

theorem Final.allows_mono {f : Final} {q p : Nat} (h : p ≤ q) (hq : f.allows q = true) : f.allows p = true := by
  cases f with
  | unset => rfl
  | known g => simp only [Final.allows, decide_eq_true_eq] at hq ⊢; omega
  | empty => exact hq

/-- A slot that owns a repeat owns every lower one, as far as its final repeat goes. -/
theorem State.ownedBy_mono (s : State) (i : SlotId) {q p : Nat} (h : p ≤ q) (ho : (s.ownedBy i q).isSome = true) :
    (s.ownedBy i p).isSome = true := by
  obtain ⟨k, hk⟩ := Option.isSome_iff_exists.mp ho
  obtain ⟨rfl, h1, h2⟩ := (s.ownedBy_iff _ _ _).mp hk
  exact Option.isSome_iff_exists.mpr ⟨k, (s.ownedBy_iff _ _ _).mpr ⟨rfl, h.trans h1, Final.allows_mono h h2⟩⟩

/-- An owner is RUNNING, or staged. -/
theorem State.ownerOf_cases {s : State} {q : Nat} {k : SlotId} (h : s.ownerOf q = some k) :
    s.runningSlot = some k ∨ ∃ rc, s.staged = some (k, rc) := by
  unfold State.ownerOf at h
  split at h
  · cases h
  · rename_i hr _
    obtain ⟨rfl, _⟩ := (s.ownedBy_iff _ _ _).mp h
    exact .inl hr
  · rename_i hr hs
    split at h
    · obtain ⟨rfl, _⟩ := (s.ownedBy_iff _ _ _).mp h
      exact .inr ⟨_, hs⟩
    · obtain ⟨rfl, _⟩ := (s.ownedBy_iff _ _ _).mp h
      exact .inl hr

/-! ### The draft base (R43) -/

/-- The draft base is the lowest repeat owned from the lowest unopened repeat and the pass floor up, and is none when none is owned. -/
theorem State.draftBase_spec (s : State) :
    let lo := max s.firstUnopened (s.queue.passFloor.getD 0)
    (∀ b, s.draftBase = some b → lo ≤ b ∧ (s.ownerOf b).isSome = true ∧ ∀ c, lo ≤ c → (s.ownerOf c).isSome = true → b ≤ c) ∧
    (s.draftBase = none → ∀ c, lo ≤ c → (s.ownerOf c).isSome = false) := by
  intro lo
  unfold State.draftBase
  simp only [show max s.firstUnopened (s.queue.passFloor.getD 0) = lo from rfl]
  by_cases h : (s.ownerOf lo).isSome = true
  · rw [if_pos h]
    refine ⟨fun b hb => ?_, nofun⟩
    cases hb
    exact ⟨le_rfl, h, fun c hc _ => hc⟩
  · rw [if_neg h]
    cases hr : s.runningSlot with
    | none =>
      have hn : ∀ c, s.ownerOf c = none := fun c => by unfold State.ownerOf; rw [hr]
      refine ⟨fun b hb => ?_, fun _ c _ => by rw [hn]; rfl⟩
      split at hb
      · rw [if_neg (by rw [hn]; simp)] at hb; cases hb
      · cases hb
    | some i =>
      cases hs : s.staged with
      | none =>
        refine ⟨nofun, fun _ c hc => ?_⟩
        have ho : ∀ c, s.ownerOf c = s.ownedBy i c := fun c => by unfold State.ownerOf; rw [hr, hs]
        rw [ho] at h ⊢
        exact Bool.eq_false_iff.mpr fun hx => h (s.ownedBy_mono i hc hx)
      | some z =>
        obtain ⟨j, rc⟩ := z
        have ho : ∀ c, s.ownerOf c = if rc ≤ c then s.ownedBy j c else s.ownedBy i c := fun c => by unfold State.ownerOf; rw [hr, hs]
        have low : ∀ c, lo ≤ c → (s.ownerOf c).isSome = true → rc ≤ c ∧ lo < rc := by
          intro c hc hx
          rw [ho] at hx h
          by_cases h1 : rc ≤ lo
          · rw [if_pos h1] at h
            rw [if_pos (by omega)] at hx
            exact absurd (s.ownedBy_mono j hc hx) h
          · rw [if_neg h1] at h
            refine ⟨?_, by omega⟩
            by_contra h2
            rw [if_neg h2] at hx
            exact h (s.ownedBy_mono i hc hx)
        dsimp only
        split
        · rename_i hc
          refine ⟨fun b hb => ?_, nofun⟩
          cases hb
          exact ⟨by omega, hc.2, fun c h1 h2 => (low c h1 h2).1⟩
        · rename_i hc
          refine ⟨nofun, fun _ c h1 => Bool.eq_false_iff.mpr fun hx => ?_⟩
          obtain ⟨a, b⟩ := low c h1 hx
          refine hc ⟨b, ?_⟩
          rw [ho, if_pos a] at hx
          rw [ho, if_pos le_rfl]
          exact s.ownedBy_mono j a hx

end Sys2Proof.Machine
end

