-- ==== Sys2Proof/Laws/Receiver.lean ====
section
/-! SUPPORT. Every step of the verdict receiver keeps its form. -/

namespace Sys2Proof.Machine

theorem Receiver.reset_ok : Receiver.reset.ok := by
  simp [Receiver.ok, Receiver.reset]

/-- The third tick after a byte (R87). -/
theorem Receiver.gapTimeout_ok {v : Receiver} (h : v.ok) (hg : v.gapTicks.isSome = true) :
    Receiver.ok { v with gapMark := true, gapTicks := none } := by
  obtain ⟨h1, h2, h3, h4, h5, h6, h7⟩ := h
  refine ⟨h1, h2, h3, fun _ => rfl, fun _ e => (nomatch e), fun g e => ?_, h7⟩
  rw [(h6 g e).1] at hg
  cases hg

theorem Receiver.gapTick_ok {v : Receiver} (h : v.ok) {n : Nat} (hn : v.gapTicks = some n) (hlt : ¬ 2 ≤ n) :
    Receiver.ok { v with gapTicks := some (n + 1) } := by
  obtain ⟨h1, h2, h3, h4, h5, h6, h7⟩ := h
  refine ⟨h1, h2, h3, fun e => ?_, fun m e => ?_, fun g e => ?_, h7⟩
  · have := h4 e
    rw [hn] at this
    cases this
  · cases e
    omega
  · have := (h6 g e).1
    rw [hn] at this
    cases this

/-- A start bit (R87). -/
theorem Receiver.startBit_ok {v : Receiver} (h : v.ok) :
    Receiver.ok { v with line := .receiving v.gapMark, gapMark := false, gapTicks := none } := by
  obtain ⟨h1, h2, h3, h4, h5, h6, h7⟩ := h
  exact ⟨h1, h2, h3, fun e => (nomatch e), fun _ e => (nomatch e), fun _ _ => ⟨rfl, rfl⟩, h7⟩

theorem markLoss_length (l : List FifoEntry) : (markLoss l).length = l.length := by
  induction l with
  | nil => rfl
  | cons e l ih =>
    cases l with
    | nil => rfl
    | cons f l => simpa [markLoss] using ih

theorem pushByte_length (l : List FifoEntry) (e : FifoEntry) (h : l.length ≤ fifoDepth) : (pushByte l e).length ≤ fifoDepth := by
  unfold pushByte
  split
  · rw [markLoss_length]
    exact h
  · simp only [List.length_append, List.length_singleton]
    omega

/-- A byte completes (R85, R86). -/
theorem Receiver.byteReceived_ok {v : Receiver} (h : v.ok) {g : Bool} (hl : v.line = .receiving g) (e : FifoEntry) (high : Bool) :
    Receiver.ok { v with fifo := pushByte v.fifo e, line := if high then .idle else .waitHigh, gapTicks := some 0 } := by
  obtain ⟨h1, h2, h3, h4, h5, h6, h7⟩ := h
  refine ⟨pushByte_length _ _ h1, h2, h3, fun e => ?_, fun n e => ?_, fun k e => ?_, h7⟩
  · have := (h6 g hl).2
    simp_all
  · cases e
    omega
  · cases high <;> cases e

theorem Receiver.lineHigh_ok {v : Receiver} (h : v.ok) : Receiver.ok { v with line := .idle } := by
  obtain ⟨h1, h2, h3, h4, h5, h6, h7⟩ := h
  exact ⟨h1, h2, h3, h4, h5, fun _ e => (nomatch e), h7⟩

/-- A new assembler state and frame with the counters within their widths. -/
theorem Receiver.assembler_ok {v : Receiver} (h : v.ok) {a : AsmState} {f : Option Frame} (hf : a = .hunt ↔ f = none)
    (hok : ∀ x, f = some x → x.ok a) {c1 c2 c3 c4 c5 : Nat} (k1 : c1 ≤ max32) (k2 : c2 ≤ max32) (k3 : c3 ≤ max32) (k4 : c4 ≤ max32)
    (k5 : c5 ≤ max32) :
    Receiver.ok { v with asm := a, frame := f, checksumFails := c1, framingFails := c2, duplicates := c3, shapeMismatches := c4,
                         noRecords := c5 } := by
  obtain ⟨h1, h2, h3, h4, h5, h6, h7, h8⟩ := h
  exact ⟨h1, hf, hok, h4, h5, h6, h7, k1, k2, k3, k4, k5⟩

theorem Receiver.hunt_ok {v : Receiver} (h : v.ok) : Receiver.ok { v with asm := .hunt, frame := none } :=
  Receiver.assembler_ok h (by simp) (fun _ e => by cases e) h.2.2.2.2.2.2.2.1 h.2.2.2.2.2.2.2.2.1 h.2.2.2.2.2.2.2.2.2.1
    h.2.2.2.2.2.2.2.2.2.2.1 h.2.2.2.2.2.2.2.2.2.2.2

theorem satAdd_le_top (t a b : Nat) : satAdd t a b ≤ t := Nat.min_le_right _ _

theorem Receiver.discardFrame_ok {v : Receiver} (h : v.ok) : v.discardFrame.ok :=
  Receiver.assembler_ok h (by simp) (fun _ e => by cases e) h.2.2.2.2.2.2.2.1 (satAdd_le_top _ _ _) h.2.2.2.2.2.2.2.2.2.1
    h.2.2.2.2.2.2.2.2.2.2.1 h.2.2.2.2.2.2.2.2.2.2.2

theorem Receiver.judge_ok {v : Receiver} (h : v.ok) {f : Frame} (hf : f.ok .handling) : (v.judge f).1.ok := by
  have k := h.2.2.2.2.2.2.2
  unfold Receiver.judge
  repeat' split
  · exact Receiver.assembler_ok h (by simp) (fun _ e => by cases e) (satAdd_le_top _ _ _) k.2.1 k.2.2.1 k.2.2.2.1 k.2.2.2.2
  · exact Receiver.assembler_ok h (by simp) (fun _ e => by cases e) k.1 k.2.1 (satAdd_le_top _ _ _) k.2.2.2.1 k.2.2.2.2
  · refine Receiver.assembler_ok h (by simp) (fun x e => ?_) k.1 k.2.1 k.2.2.1 k.2.2.2.1 k.2.2.2.2
    cases e
    exact hf

theorem Receiver.frame_ok {v : Receiver} (h : v.ok) {a : AsmState} {f : Frame} (ha : a ≠ .hunt) (hf : f.ok a) :
    Receiver.ok { v with asm := a, frame := some f } := by
  have k := h.2.2.2.2.2.2.2
  refine Receiver.assembler_ok h (by simp [ha]) (fun x e => ?_) k.1 k.2.1 k.2.2.1 k.2.2.2.1 k.2.2.2.2
  cases e
  exact hf

/-- A byte taken by the assembler (R88). -/
theorem Receiver.takeValue_ok {v : Receiver} (h : v.ok) (b : Byte) : (v.takeValue b).1.ok := by
  have hb : b.toNat < 256 := b.isLt
  unfold Receiver.takeValue
  split
  · split
    · exact Receiver.frame_ok h (by simp) (by simp [Frame.ok, Frame.begun])
    · exact h
  · rename_i f ha hf
    have := h.2.2.1 f hf
    rw [ha] at this
    obtain ⟨k1, k2, k3, k4, k5⟩ := this
    refine Receiver.frame_ok h (by simp) ⟨k1, ?_, hb, ?_, k5⟩
    · simp [k5]
    · simp [k4]
  · rename_i f ha hf
    have := h.2.2.1 f hf
    rw [ha] at this
    obtain ⟨k1, k2, k3, k4, k5⟩ := this
    have hidx : f.index * 256 + b.toNat < 256 ^ (f.indexBytes + 1) := by
      rw [pow_succ]
      omega
    refine Receiver.frame_ok h (by dsimp only; repeat' split
                                   all_goals simp) ⟨hidx, k2, k3, ?_⟩
    by_cases h4 : f.indexBytes + 1 < 4
    · simp only [h4, if_true]
      exact ⟨trivial, k5⟩
    · have : f.indexBytes + 1 = 4 := by omega
      simp only [this]
      by_cases hc : f.count = 0
      · simp [hc, k5]
      · simp [hc, k5]
        omega
  · rename_i f ha hf
    have := h.2.2.1 f hf
    rw [ha] at this
    obtain ⟨k1, k2, k3, k4, k5⟩ := this
    refine Receiver.frame_ok h (by dsimp only; split <;> simp) ⟨k1, by simp; omega, k3, ?_⟩
    by_cases hc : (f.codes ++ [b]).length < f.count
    · simp only [hc, if_true]
      exact ⟨k4, trivial⟩
    · simp only [hc, if_false]
      refine ⟨k4, ?_⟩
      simp at hc ⊢
      omega
  · rename_i f ha hf
    have := h.2.2.1 f hf
    rw [ha] at this
    exact Receiver.judge_ok h this
  · exact h

theorem Receiver.loss_ok {v : Receiver} (h : v.ok) : v.loss.ok := by
  unfold Receiver.loss
  split
  · have k := h.2.2.2.2.2.2.2
    refine Receiver.assembler_ok h (by rw [h.2.1]; simp) (fun x e => ?_) k.1 k.2.1 k.2.2.1 k.2.2.2.1 k.2.2.2.2
    obtain ⟨f, hf, rfl⟩ := Option.map_eq_some_iff.mp e
    exact h.2.2.1 f hf
  · exact h

theorem Receiver.rest_ok {v : Receiver} (h : v.ok) {e : FifoEntry} {rest : List FifoEntry} (he : v.fifo = e :: rest) :
    Receiver.ok { v with fifo := rest } := by
  obtain ⟨h1, h2⟩ := h
  refine ⟨?_, h2⟩
  rw [he, List.length_cons] at h1
  show rest.length ≤ fifoDepth
  omega

/-- The assembler's step (R88 to R90). -/
theorem Receiver.takeEntry_ok {v : Receiver} (h : v.ok) (e : FifoEntry) : (v.takeEntry e).1.ok := by
  unfold Receiver.takeEntry
  simp only []
  generalize (v.asm.inFrame && (e.framing || e.gapBefore)) = marks
  have h' : (if marks = true then v.discardFrame else v).ok := by
    split
    · exact Receiver.discardFrame_ok h
    · exact h
  revert h'
  generalize (if marks = true then v.discardFrame else v) = w
  intro h'
  have h2 : (if e.framing = true then (w, false) else w.takeValue e.value).1.ok := by
    split
    · exact h'
    · exact Receiver.takeValue_ok h' _
  split
  · exact Receiver.loss_ok h2
  · exact h2

theorem Receiver.clearGap_ok {v : Receiver} (h : v.ok) : Receiver.ok { v with gapMark := false } := by
  obtain ⟨h1, h2, h3, h4, h5, h6, h7⟩ := h
  exact ⟨h1, h2, h3, fun e => (nomatch e), h5, fun g e => ⟨(h6 g e).1, rfl⟩, h7⟩

theorem Receiver.shape_ok {v : Receiver} (h : v.ok) :
    Receiver.ok { v with shapeMismatches := satAdd max32 v.shapeMismatches 1 } := by
  obtain ⟨h1, h2, h3, h4, h5, h6, h7, h8, h9, h10, h11, h12⟩ := h
  exact ⟨h1, h2, h3, h4, h5, h6, h7, h8, h9, h10, satAdd_le_top _ _ _, h12⟩

theorem Receiver.noRecord_ok {v : Receiver} (h : v.ok) : Receiver.ok { v with noRecords := satAdd max32 v.noRecords 1 } := by
  obtain ⟨h1, h2, h3, h4, h5, h6, h7, h8, h9, h10, h11, h12⟩ := h
  exact ⟨h1, h2, h3, h4, h5, h6, h7, h8, h9, h10, h11, satAdd_le_top _ _ _⟩

theorem Receiver.lastVerdict_ok {v : Receiver} (h : v.ok) {r : Nat} (hr : r ≤ max32) : Receiver.ok { v with lastVerdict := some r } := by
  obtain ⟨h1, h2, h3, h4, h5, h6, h7, h8⟩ := h
  exact ⟨h1, h2, h3, h4, h5, h6, fun x e => by cases e; exact hr, h8⟩

theorem Receiver.noVerdict_ok {v : Receiver} (h : v.ok) : Receiver.ok { v with lastVerdict := none } := by
  obtain ⟨h1, h2, h3, h4, h5, h6, h7, h8⟩ := h
  exact ⟨h1, h2, h3, h4, h5, h6, fun x e => (nomatch e), h8⟩

theorem Receiver.divisorChanged_ok {v : Receiver} (h : v.ok) : v.divisorChanged.ok := by
  obtain ⟨h1, h2, h3, h4, h5, h6, h7, h8⟩ := h
  exact ⟨by simp [Receiver.divisorChanged], by simp [Receiver.divisorChanged], fun _ e => (nomatch e), fun e => (nomatch e),
    fun _ e => (nomatch e), fun _ e => (nomatch e), h7, h8⟩

/-- The repeat of a frame being handled is within 32 bits (R83). -/
theorem Receiver.handled_index_le {v : Receiver} (h : v.ok) {f : Frame} (ha : v.asm = .handling) (hf : v.frame = some f) :
    f.index ≤ max32 := by
  have := h.2.2.1 f hf
  rw [ha] at this
  have h4 : f.indexBytes = 4 := this.2.2.2.1
  have h1 := this.1
  rw [h4] at h1
  simp only [max32]
  omega

end Sys2Proof.Machine
end

