-- ==== Sys2Proof/Laws/Moves.lean ====
section
/-! SUPPORT. Every command is a sequence of moves: the elementary changes of the state, each with what is known where it is made. An
invariant that every move keeps, every command keeps. -/

namespace Sys2Proof.Machine

/-- A port's own work: its state, ply and timer stay, an unsettled slot appears only at an ACTIVE port, counts keep their widths. -/
def Port.Work (x y : Port) : Prop :=
  y.state = x.state ∧ y.ply = x.ply ∧ y.timer = x.timer ∧
  (y.slot.settled = true ∨ x.state = .active ∨ x.slot.settled = false) ∧
  y.cursor ≤ max x.cursor max32 ∧ y.late ≤ max x.late max16 ∧ y.order ≤ max x.order max16 ∧ y.rejected ≤ max x.rejected max16 ∧
  y.held ≤ max x.held max16

/-- A slot's own work: its place in the run stays. -/
def JobSlot.Work (x y : JobSlot) : Prop :=
  y.state = x.state ∧ y.tag = x.tag ∧ y.change = x.change ∧ y.first = x.first ∧ y.geometry = x.geometry ∧ (x.tally.ok → y.tally.ok) ∧
  y.source = x.source ∧ y.rules = x.rules ∧ y.counters = x.counters

/-- A record's own work: what it numbers stays, and once closed it stays closed. -/
def Record.Work (x y : Record) : Prop :=
  y.repeatIndex = x.repeatIndex ∧ y.slot = x.slot ∧ y.positions.map Position.entry = x.positions.map Position.entry ∧
  (y.closure = .awaiting → x.closure = .awaiting)

/-- A fill that numbers nothing more: its floor changes, or one position more is blank. -/
def Fill.Work (f g : Fill) : Prop :=
  g = { f with entries := g.entries, floor := g.floor } ∧ (g.entries = f.entries ∨ g.entries = f.entries ++ [.blank])

/-- The fill after a take. -/
def Fill.took (f : Fill) (t : TakeResult) : Fill := { f with entries := f.entries ++ [t.entry], skipped := f.skipped + t.skipped }

/-- The fill after a draw that issued `x` with the check character `c`. -/
def Fill.drew (f : Fill) (c : Option Byte) (x : Nat) : Fill :=
  { f with entries := f.entries ++ [{ value := some x, check := c, bookEnd := false }], drawn := f.drawn ++ [x], floor := none }

/-- A draft or the fill of slot `i` holds the before-state `b`. -/
def State.heldBefore (s : State) (i : SlotId) (b : Before) : Prop :=
  (∃ d ∈ s.queue.drafts, d.slot = i ∧ d.before = b) ∨ ∃ f, s.queue.fill = some f ∧ f.slot = i ∧ f.before = b

/-- A queue that only lost drafts or its fill, or had a draft's skipped delta changed. -/
def DraftQueue.Shrinks (q r : DraftQueue) : Prop :=
  r.drafts.length ≤ q.drafts.length ∧ (∀ d ∈ r.drafts, ∃ e ∈ q.drafts, d = { e with skipped := d.skipped }) ∧ (r.fill = q.fill ∨ r.fill = none)

/-- The ring's side of an append, with the item off the queue. -/
def State.appended (s : State) (at' : Nat) (bs : Bytes) (rest : List Item) : State :=
  { s with account := { s.account.placed at' bs with queue := rest, full := false } }

/-- STRT up to the fill it starts. -/
def State.startRunBase (s : State) (i : SlotId) : State :=
  let s := s.modSlot i fun j => { j with state := .running, first := some s.plan.lMax, final := .unset, change := none }
  let s := { s with
    slotA := { s.slotA with note := .unset }
    slotB := { s.slotB with note := .unset }
    window := .empty
    queue := .empty
    receiver := { s.receiver with lastVerdict := none } }
  s.forPorts fun p t => (t.modPort p (Port.started (t.plan.plyOf p))).restartTimer p

/-- One elementary change of the state, in a command that began at `o`. LDJB alone loads a slot, and it does so first. -/
inductive Move (o : State) : State → State → Prop
  | port (s : State) (p : PortId) (x : Port) (h : (s.port p).Work x) : Move o s (s.modPort p fun _ => x)
  | restart (s : State) (p : PortId) : Move o s (s.restartTimer p)
  | tick (s : State) (p : PortId) (n : Nat) (h : (s.port p).timer = some n) (hn : 1 < n) :
      Move o s (s.modPort p fun x => { x with timer := some (n - 1) })
  | lose (s : State) (p : PortId) (h : (s.port p).timer.isSome = true) :
      Move o s (s.modPort p fun x => { x with state := .lost, slot := .none, timer := none })
  | admitted (s : State) (p : PortId) (c : Nat) (h : (s.port p).state = .lost) (hp : (s.plan.plyOf p).isSome = true) (hc : c ≤ max32) :
      Move o s ((s.modPort p (Port.admitted c)).restartTimer p)
  | strt (s : State) (i : SlotId) (hp : s.plan.plies ≠ []) (hr : s.inRun = false) (hi : (s.slot i).state = .loaded) :
      Move o s (s.startRunBase i)
  | plan (s : State) (new : Plan) (hr : s.inRun = false)
      (hn : new = { s.plan with plies := [] } ∨ ∃ bs, planBlockOk bs = true ∧ new = planOf bs) : Move o s (s.storePlan new)
  | runRise (s : State) (h : s.run = false) : Move o s ({ s with run := true }.forPorts fun p t => t.restartTimer p)
  | runFall (s : State) : Move o s { s with run := false }.stopTimers
  | slot (s : State) (i : SlotId) (j : JobSlot) (h : (s.slot i).Work j) : Move o s (s.modSlot i fun _ => j)
  | load (i : SlotId) (bs : Bytes) (h : (o.slot i).state.loadable = true) (ht : jobTag bs ≠ 0) (hb : jobBlockOk bs = true) :
      Move o o (o.modSlot i fun _ => loadedJob bs)
  | restore (s : State) (i : SlotId) (b : Before) (h : s.heldBefore i b) : Move o s (s.modSlot i fun j => j.restore b)
  | stage (s : State) (i : SlotId) (rc : Nat) (hi : s.runningSlot = some i) (hs : s.staged = none)
      (hl : (s.slot i.other).state = .loaded) :
      Move o s (s.modSlot i.other fun x => { x with change := some rc, first := some rc })
  | drain (s : State) (i : SlotId) (h : (s.slot i).state = .running) (hs : s.staged = none) :
      Move o s (s.modSlot i fun j => { j with state := .draining })
  | change (s : State) (i j : SlotId) (rc : Nat) (hi : s.runningSlot = some i) (hj : s.staged = some (j, rc)) :
      Move o s ((s.modSlot i fun x => { x with state := .draining }).modSlot j fun x =>
        { x with state := if x.final = .empty then .draining else .running, change := none })
  | endRun (s : State) (i : SlotId) (h : s.runningSlot = some i) : Move o s (s.endJob i).killStaged
  | unstage (s : State) (h : s.runningSlot = none) : Move o s s.killStaged
  | enqueue (s : State) (it : Item) (hz : it.sizeOk)
      (h : ∀ i, it.isJobEndOf i = true → (s.slot i).state = .draining ∧ s.account.queue.any (Item.isJobEndOf i) = false) :
      Move o s (s.enqueue it)
  | bufferHigh (s : State) (b : Bool) : Move o s { s with account := { s.account with high := b } }
  | blocked (s : State) (h : s.account.queue ≠ []) : Move o s { s with account := { s.account with full := true, due := false } }
  | emptyQueue (s : State) (h : s.account.queue = []) : Move o s { s with account := { s.account with due := false } }
  | markDue (s : State) : Move o s s.markDue
  | append (s : State) (it : Item) (rest : List Item) (at' : Nat) (hq : s.account.queue = it :: rest) (hd : s.account.due = true)
      (hp : s.account.place (s.itemBytes it).length = some at') (hi : ∀ i, it.isJobEndOf i = false) :
      Move o s (s.appended at' (s.itemBytes it) rest)
  | appendEnd (s : State) (i : SlotId) (bs : Bytes) (rest : List Item) (at' : Nat) (hq : s.account.queue = .jobEnd i bs :: rest)
      (hd : s.account.due = true) (hp : s.account.place bs.length = some at') :
      Move o s (((s.appended at' bs rest).modSlot i fun j => { j with state := .ended }).stopTimers)
  | release (s : State) (h : s.account.count ≠ 0) : Move o s { s with account := s.account.released }
  | insert (s : State) (lo hi : Nat) (h : lo ≤ hi) : Move o s { s with voids := s.voids.insert (piecesWithout s.heldValues lo hi) }
  | draw (s : State) (f : Fill) (x : Nat) (h : s.fillAtWork .makeup = some f)
      (hw : x ≤ (s.slot f.slot).rules.whi) :
      Move o s ({ s with voids := s.voids.remove x }.setFill (some (f.drew ((s.slot f.slot).rules.checkOf x) x)))
  | clearList (s : State) : Move o s { s with voids := { s.voids with ranges := [], incomplete := false, dropped := 0 }.bump }
  | target (s : State) (t : Option Nat) : Move o s { s with window := { s.window with target := t } }
  | closing (s : State) (c : Option Closing) : Move o s (s.setClosing c)
  | windowHigh (s : State) (b : Bool) : Move o s { s with window := { s.window with high := b } }
  | records (s : State) (f : Record → Record)
      (h : ∀ x ∈ s.window.records, ∃ y ∈ s.window.records, y.repeatIndex = x.repeatIndex ∧ y.Work (f x)) :
      Move o s { s with window := { s.window with records := s.window.records.map f } }
  | leave (s : State) (r : Nat) :
      Move o s { s with window := { s.window with records := s.window.records.filter fun x => x.repeatIndex ≠ r } }
  | opens (s : State) (d : Draft) (rest : List Draft) (h : s.openable = some (d, rest)) :
      Move o s { s with
        queue := { s.queue with drafts := rest }
        window := { s.window with records := s.window.records ++ [s.openedRecord d], newest := some d.repeatIndex } }
  | startFill (s : State) (f : Fill) (h : s.nextFill = some f) : Move o s (s.setFill (some f))
  | take (s : State) (f : Fill) (i : Nat) (c : Counter) (h : s.fillAtWork .series = some f) (hc : (s.slot f.slot).counters[i]? = some c) :
      Move o s ((s.modSlot f.slot fun j => { j with counters := j.counters.set i (c.take (s.slot f.slot).rules).counter }).setFill
        (some (f.took (c.take (s.slot f.slot).rules))))
  | fillStep (s : State) (f g : Fill) (h : s.queue.fill = some f) (hn : f.entries.length < (s.slot f.slot).positions)
      (hg : f.Work g) : Move o s (s.setFill (some g))
  | draft (s : State) (f : Fill) (h : s.queue.fill = some f) :
      Move o s { s with queue := { s.queue with drafts := s.queue.drafts ++ [f.draft], fill := none } }
  | shrink (s : State) (q : DraftQueue) (h : s.queue.Shrinks q) : Move o s { s with queue := q }
  | receiver (s : State) (v : Receiver) (h : s.receiver.ok → v.ok) : Move o s { s with receiver := v }
  | sup (s : State) (u : Supervisor) (h : s.sup.ok → u.ok) : Move o s { s with sup := u }
  | reset (s : State) (a b : Bool) : Move o s { State.reset with sup := .reset a b, run := s.run, pending := s.pending }
  | softReset (s : State) (h : s.inRun = false) : Move o s s.softReset

/-- A sequence of moves. -/
abbrev Moves (o s t : State) : Prop := Relation.ReflTransGen (Move o) s t

variable {o : State}

theorem Moves.one {s t : State} (h : Move o s t) : Moves o s t := .single h

/-- What every move keeps, a sequence of moves keeps. -/
theorem Moves.keeps {P : State → Prop} (h : ∀ s t, Move o s t → P s → P t) {s t : State} (m : Moves o s t) (hs : P s) : P t := by
  induction m with
  | refl => exact hs
  | tail _ hm ih => exact h _ _ hm ih

/-- A move equal to another state. -/
theorem Moves.of_eq {s t u : State} (h : Moves o s t) (e : t = u) : Moves o s u := e ▸ h

/-! ### Single updates -/

theorem Record.Work.refl (x : Record) : x.Work x := ⟨rfl, rfl, rfl, id⟩

theorem Moves.raise (s : State) (e : Event) : Moves o s (s.raise e) := .one (.sup s _ fun h => h)

theorem Moves.raiseIf (s : State) (c : Bool) (e : Event) : Moves o s (s.raiseIf c e) := by
  cases c
  · exact .refl
  · exact Moves.raise s e

theorem Moves.modSlot (s : State) (i : SlotId) (f : JobSlot → JobSlot) (h : (s.slot i).Work (f (s.slot i))) :
    Moves o s (s.modSlot i f) :=
  (Moves.one (.slot s i _ h)).of_eq (by cases i <;> rfl)

theorem Moves.modPort (s : State) (p : PortId) (f : Port → Port) (h : (s.port p).Work (f (s.port p))) : Moves o s (s.modPort p f) :=
  .one (.port s p _ h)

theorem satAdd_le_max (t a b : Nat) : satAdd t a b ≤ max a t := by unfold satAdd; omega

theorem satAdd_le (t a b : Nat) : satAdd t a b ≤ t := by unfold satAdd; omega

/-- A port whose slot alone changes. -/
theorem Port.work_slot (x : Port) (y : ReqSlot) (h : y.settled = true ∨ x.state = .active ∨ x.slot.settled = false) :
    x.Work { x with slot := y } :=
  ⟨rfl, rfl, rfl, h, le_max_left _ _, le_max_left _ _, le_max_left _ _, le_max_left _ _, le_max_left _ _⟩

theorem Moves.setReqSlot (s : State) (p : PortId) (y : ReqSlot)
    (h : y.settled = true ∨ (s.port p).state = .active ∨ (s.port p).slot.settled = false) : Moves o s (s.setReqSlot p y) :=
  Moves.modPort s p _ (Port.work_slot _ _ h)

theorem Moves.forPorts (f : PortId → State → State) (h : ∀ p t, Moves o t (f p t)) (s : State) : Moves o s (s.forPorts f) :=
  State.forPorts_keeps (P := Moves o s) f (fun p t ht => ht.trans (h p t)) s .refl

/-! ### The window's work -/

theorem Moves.startFill (s : State) : Moves o s s.startFill := by
  unfold State.startFill
  split
  · rename_i f h
    exact .one (.startFill s f h)
  · exact .refl

theorem Moves.hold (s : State) (p : PortId) (q : Request) (h : (s.port p).slot.settled = false) : Moves o s (s.hold p q) := by
  unfold State.hold
  refine (Moves.modPort s p _ ?_).trans (Moves.raise _ _)
  exact ⟨rfl, rfl, rfl, .inr (.inr h), le_max_left _ _, le_max_left _ _, le_max_left _ _, le_max_left _ _, satAdd_le_max _ _ _⟩

theorem Moves.concludePort (p : PortId) (s : State) : Moves o s (State.concludePort p s) := by
  unfold State.concludePort
  split
  · rename_i q hq
    have hs : (s.port p).slot.settled = false := by rw [hq]; rfl
    split
    · exact Moves.setReqSlot s p _ (.inr (.inr hs))
    · split
      · exact Moves.hold s p q hs
      · exact .refl
  · rename_i q hq
    split
    · exact Moves.setReqSlot s p _ (.inr (.inr (by rw [hq]; rfl)))
    · exact .refl
  · exact .refl

theorem Moves.dropTarget (s : State) : Moves o s s.dropTarget := by
  unfold State.dropTarget
  split
  · exact .one (.target s none)
  · exact .refl

theorem Moves.settle (s : State) : Moves o s s.settle :=
  ((Moves.dropTarget s).trans (Moves.forPorts _ Moves.concludePort _)).trans (Moves.startFill _)

/-! ### The void list -/

theorem Moves.insertRange (s : State) {lo hi : Nat} (h : lo ≤ hi) : Moves o s (s.insertRange lo hi) :=
  (Moves.one (.insert s lo hi h)).trans (Moves.raiseIf _ _ _)

theorem Moves.insertValues (xs : List Nat) : ∀ s : State, Moves o s (s.insertValues xs) := by
  induction xs with
  | nil => exact fun _ => .refl
  | cons x xs ih => exact fun s => (Moves.insertRange s (Nat.le_refl x)).trans (ih (s.insertValue x))

/-! ### Job state -/

theorem JobSlot.startBytes_length (j : JobSlot) : j.startBytes.length = 32 := by
  simp [JobSlot.startBytes, recordHeader, beBytes]

theorem JobSlot.endBytes_length (j : JobSlot) : j.endBytes.length = 52 := by
  simp [JobSlot.endBytes, recordHeader, beBytes, Tally.bytes]

theorem postVoidBytes_length (tag lo hi operator : Nat) : (postVoidBytes tag lo hi operator).length = 24 := by
  simp [postVoidBytes, recordHeader, beBytes]

theorem Moves.queueJobEnd (s : State) (i : SlotId) : Moves o s (s.queueJobEnd i) := by
  unfold State.queueJobEnd
  split
  · rename_i h
    refine .one (.enqueue s _ (JobSlot.endBytes_length _) fun j hj => ?_)
    have : j = i := by simpa [Item.isJobEndOf] using hj
    subst this
    exact ⟨h.1, h.2.2⟩
  · exact .refl

theorem Moves.queueJobStart (s : State) (i : SlotId) : Moves o s (s.queueJobStart i) :=
  .one (.enqueue s _ (JobSlot.startBytes_length _) fun _ h => nomatch h)

theorem Moves.drain (s : State) (i : SlotId) (h : (s.slot i).state = .running) (hs : s.staged = none) : Moves o s (s.drain i) :=
  (Moves.one (.drain s i h hs)).trans (Moves.queueJobEnd _ _)

theorem Moves.changeTakesEffect (s : State) : Moves o s s.changeTakesEffect := by
  unfold State.changeTakesEffect
  split
  · rename_i i j rc hi hj
    exact (((((Moves.one (.change s i j rc hi hj)).trans (Moves.queueJobStart _ _)).trans (Moves.raise _ _)).trans
      (Moves.queueJobEnd _ _)).trans (Moves.queueJobEnd _ _))
  · exact .refl

theorem Moves.openingChanges (s : State) (q : Nat) : Moves o s (s.openingChanges q) := by
  unfold State.openingChanges
  repeat' split
  · exact Moves.changeTakesEffect s
  · exact .refl
  · exact .refl

theorem Moves.openingDrains (s : State) (q : Nat) : Moves o s (s.openingDrains q) := by
  unfold State.openingDrains
  split
  · rename_i i hi hs
    split
    · exact Moves.drain _ i (State.runningSlot_state hi) hs
    · exact .refl
  · exact .refl

theorem Moves.reportOpening (s : State) (q : Nat) : Moves o s (s.reportOpening q) :=
  (Moves.openingChanges s q).trans (Moves.openingDrains _ q)

theorem Moves.reportPass (s : State) (p : Nat) : Moves o s (s.reportPass p) := by
  unfold State.reportPass
  repeat' split
  · exact Moves.changeTakesEffect s
  · exact .refl
  · exact .refl

theorem Moves.reportExhausted (s : State) (i : SlotId) : Moves o s (s.reportExhausted i) := by
  unfold State.reportExhausted
  split
  · split
    · exact Moves.changeTakesEffect s
    · exact .refl
  · rename_i hs
    split
    · rename_i h
      exact Moves.drain s i h.1 hs
    · exact .refl

/-! ### Flushing and passing -/

theorem JobSlot.work_of {x y : JobSlot} (h1 : y.state = x.state) (h2 : y.tag = x.tag) (h3 : y.change = x.change)
    (h4 : y.first = x.first) (h5 : y.geometry = x.geometry) (h6 : y.tally = x.tally) (h7 : y.source = x.source) (h8 : y.rules = x.rules)
    (h9 : y.counters = x.counters) : x.Work y :=
  ⟨h1, h2, h3, h4, h5, fun h => h6 ▸ h, h7, h8, h9⟩

theorem Moves.restoreRemoved (s : State) (i : SlotId) (b : Option Before) (h : ∀ x, b = some x → s.heldBefore i x) :
    Moves o s (s.restoreRemoved i b) := by
  unfold State.restoreRemoved
  split
  · exact .one (.restore s i _ (h _ rfl))
  · exact .refl

/-- What a flush sets a slot back to, some draft or the fill of that slot holds. -/
theorem State.heldBefore_of_removed {s : State} {i : SlotId} {p : Draft → Bool} {g : Fill → Bool} {b : Before}
    (h : oldestRemoved i (s.queue.drafts.filter p) (s.queue.fill.filter g) = some b) : s.heldBefore i b := by
  unfold oldestRemoved at h
  split at h
  · rename_i d hd
    cases h
    exact .inl ⟨d, List.mem_of_mem_filter (List.mem_of_find?_eq_some hd), by simpa using List.find?_some hd, rfl⟩
  · obtain ⟨f, hf, rfl⟩ := Option.map_eq_some_iff.mp h
    obtain ⟨h1, h2⟩ := Option.filter_eq_some_iff.mp hf
    exact .inr ⟨f, (Option.filter_eq_some_iff.mp h1).1, by simpa using h2, rfl⟩

theorem Moves.withdrawNote (s : State) (i : SlotId) (b : Option Before) : Moves o s (s.withdrawNote i b) := by
  unfold State.withdrawNote
  split
  · exact Moves.modSlot s i _ (JobSlot.work_of rfl rfl rfl rfl rfl rfl rfl rfl rfl)
  · exact .refl

theorem DraftQueue.shrinks_filter (q : DraftQueue) (f : Draft → Bool) (g : Fill → Bool) (p : Option Nat) :
    q.Shrinks { drafts := q.drafts.filter f, fill := q.fill.filter g, passFloor := p } := by
  refine ⟨List.length_filter_le _ _, fun d hd => ⟨d, List.mem_of_mem_filter hd, rfl⟩, ?_⟩
  cases hq : q.fill with
  | none => exact .inl rfl
  | some x =>
    by_cases hx : g x = true
    · exact .inl (by simp [Option.filter, hx])
    · exact .inr (by simp [Option.filter, hx])

theorem Moves.flush (s : State) (q : Nat) : Moves o s (s.flush q) := by
  have key : ∀ a b : Option Before, (∀ x, a = some x → s.heldBefore .A x) → (∀ x, b = some x → s.heldBefore .B x) →
      ∀ r, s.queue.Shrinks r → Moves o s ((({ s with queue := r } : State).restoreRemoved .A a).restoreRemoved .B b) := by
    intro a b ha hb r hr
    refine Moves.of_eq (((Moves.restoreRemoved s .A a ha).trans (Moves.restoreRemoved _ .B b fun x h => ?_)).trans
      (Moves.one (.shrink _ r ?_))) ?_
    · simpa only [State.heldBefore, State.restoreRemoved_queue] using hb x h
    · simpa only [State.restoreRemoved_queue] using hr
    · cases a <;> cases b <;> rfl
  exact (((key _ _ (fun x h => State.heldBefore_of_removed h) (fun x h => State.heldBefore_of_removed h) _
    (DraftQueue.shrinks_filter _ _ _ _)).trans (Moves.insertValues _ _)).trans (Moves.withdrawNote _ _ _)).trans (Moves.withdrawNote _ _ _)

theorem Moves.passTo (s : State) (base p : Nat) : Moves o s (s.passTo base p) := by
  unfold State.passTo
  refine ((Moves.flush s base).trans (Moves.one (.shrink _ _ ?_))).trans (Moves.reportPass _ _)
  exact ⟨Nat.le_refl _, fun d hd => ⟨d, hd, rfl⟩, .inl rfl⟩

theorem Moves.catchUp (s : State) (r : Nat) : Moves o s (s.catchUp r) := by
  unfold State.catchUp
  repeat' split
  all_goals first | exact .refl | exact Moves.passTo s _ _

theorem Moves.raiseTarget (s : State) (r : Nat) : Moves o s (s.raiseTarget r) := .one (.target s _)

theorem Moves.takeRequest (s : State) (p : PortId) (q : Request) (r : Nat) (h : (s.port p).state = .active) :
    Moves o s (s.takeRequest p q r) := by
  unfold State.takeRequest
  repeat' split
  · exact Moves.setReqSlot s p _ (.inr (.inl h))
  · exact Moves.setReqSlot s p _ (.inr (.inl h))
  · exact Moves.setReqSlot s p _ (.inr (.inl h))
  · exact (((Moves.setReqSlot s p _ (.inr (.inl h))).trans (Moves.raiseTarget _ _)).trans (Moves.catchUp _ _)).trans (Moves.settle _)

theorem Moves.retakePort (p : PortId) (s : State) : Moves o s (State.retakePort p s) := by
  unfold State.retakePort
  split
  · rename_i q hq
    have hs : (s.port p).slot.settled = false := by rw [hq]; rfl
    have hc : ∀ r, Moves o s ((s.raiseTarget r).catchUp r) := fun r => (Moves.raiseTarget s r).trans (Moves.catchUp _ r)
    have hs' : ∀ r, (((s.raiseTarget r).catchUp r).port p).slot.settled = false := by
      intro r
      simpa using hs
    simp only []
    repeat' split
    · exact Moves.setReqSlot s p _ (.inr (.inr hs))
    · exact Moves.setReqSlot s p _ (.inr (.inr hs))
    · exact (hc _).trans (Moves.setReqSlot _ p _ (.inr (.inr (hs' _))))
    · exact hc _
    · exact (hc _).trans (Moves.setReqSlot _ p _ (.inr (.inr (hs' _))))
  · exact .refl

theorem Moves.retakeHeld (s : State) : Moves o s s.retakeHeld := (Moves.forPorts _ Moves.retakePort s).trans (Moves.settle _)

/-! ### Opening and closure -/

theorem Moves.checkWindowHigh (s : State) : Moves o s s.checkWindowHigh := (Moves.one (.windowHigh s _)).trans (Moves.raiseIf _ _ _)

theorem Moves.openDraft (s : State) (d : Draft) (rest : List Draft) (h : s.openable = some (d, rest)) :
    Moves o s (s.openDraft d rest) := by
  unfold State.openDraft
  refine ((((Moves.one (.opens s d rest h)).trans (Moves.modSlot _ _ _ ?_)).trans (Moves.checkWindowHigh _)).trans
    (Moves.reportOpening _ _)).trans (Moves.settle _)
  refine ⟨rfl, rfl, rfl, rfl, rfl, ?_, rfl, rfl, rfl⟩
  rintro ⟨h1, h2, h3, h4, h5, h6, h7, h8, h9, h10⟩
  exact ⟨satAdd_le _ _ _, satAdd_le _ _ _, h3, h4, h5, h6, h7, h8, satAdd_le _ _ _, satAdd_le _ _ _⟩

theorem Moves.openReady (s : State) : Moves o s s.openReady :=
  State.openReady_keeps (P := Moves o s) (fun t d rest ho h => h.trans (Moves.openDraft t d rest ho)) .refl

theorem Moves.dropRecord (s : State) (r : Nat) : Moves o s (s.dropRecord r) := (Moves.one (.leave s r)).trans (Moves.checkWindowHigh _)

theorem Moves.modRecord (s : State) (r : Nat) (f : Record → Record)
    (h : ∀ x ∈ s.window.records, x.repeatIndex = r → ∃ y ∈ s.window.records, y.repeatIndex = r ∧ y.Work (f x)) : Moves o s (s.modRecord r f) := by
  refine .one (.records s _ fun x hm => ?_)
  split
  · rename_i hx
    obtain ⟨y, hy, hr, hw⟩ := h x hm hx
    exact ⟨y, hy, hr.trans hx.symm, hw⟩
  · exact ⟨x, hm, rfl, Record.Work.refl x⟩

theorem Tally.closing_ok {t : Tally} (r : Record) (h : t.ok) : (t.closing r).ok := by
  obtain ⟨h1, h2, h3, h4, h5, h6, h7, h8, h9, h10⟩ := h
  exact ⟨h1, h2, satAdd_le _ _ _, satAdd_le _ _ _, satAdd_le _ _ _, satAdd_le _ _ _, satAdd_le _ _ _, h8, h9, h10⟩

theorem State.record_index {s : State} {r : Nat} {rec : Record} (h : s.record r = some rec) : rec.repeatIndex = r := by
  have := List.find?_some h
  simpa using this

theorem Port.work_recordCloses (r : Nat) (x : Port) : x.Work (x.recordCloses r) := by
  unfold Port.recordCloses
  simp only []
  repeat' split
  all_goals first
    | exact ⟨rfl, rfl, rfl, .inl (by simp [Port.lateReady, ReqSlot.settled]), le_max_left _ _, satAdd_le_max _ _ _, le_max_left _ _,
        le_max_left _ _, le_max_left _ _⟩
    | refine ⟨rfl, rfl, rfl, ?_, le_max_left _ _, le_max_left _ _, le_max_left _ _, le_max_left _ _, le_max_left _ _⟩
      simp_all [ReqSlot.settled]
  all_goals cases x.slot <;> simp_all

/-- Changing every port is changing one after another. -/
theorem State.forPorts_modPort (s : State) (f : Port → Port) : (s.forPorts fun p t => t.modPort p f) = s.mapPorts f := by
  have hf : ∀ {α : Type} (g : State → α), (∀ p t, g (State.modPort t p f) = g t) → g (s.forPorts fun p t => t.modPort p f) = g s :=
    fun g h => State.forPorts_field g _ h s
  refine State.eq_of_fields (hf State.plan fun _ _ => rfl) (hf State.slotA fun _ _ => rfl) (hf State.slotB fun _ _ => rfl)
    (hf State.queue fun _ _ => rfl) (hf State.window fun _ _ => rfl) (hf State.receiver fun _ _ => rfl)
    (hf State.voids fun _ _ => rfl) (hf State.account fun _ _ => rfl) (fun q => ?_) (hf State.sup fun _ _ => rfl)
    (hf State.run fun _ _ => rfl) (hf State.pending fun _ _ => rfl)
  rw [State.mapPorts_port]
  exact State.forPorts_port (I := fun _ => True) _ (fun _ => f) (fun _ _ _ => trivial) (fun p t _ => State.modPort_port_self t p f)
    (fun p q t _ h => State.modPort_port_of_ne t p q f h) s trivial q

/-- A change of every port is a sequence of moves when each port's is its own work. -/
theorem Moves.mapPorts (s : State) (f : Port → Port) (h : ∀ x : Port, x.Work (f x)) : Moves o s (s.mapPorts f) := by
  rw [← State.forPorts_modPort]
  exact Moves.forPorts _ (fun p t => Moves.modPort t p f (h _)) s

theorem Record.work_close (kind : Closure) (plan : PlySet) (codes : Bytes) (r : Record) (h : r.closure = .awaiting) :
    r.Work (r.close kind plan codes) := by
  refine ⟨rfl, rfl, ?_, fun _ => h⟩
  apply List.ext_getElem
  · simp [Record.close]
  · intro k h1 h2
    simp only [Record.close, List.getElem_map, List.getElem_mapIdx]
    unfold Position.settled
    split <;> rfl

theorem Moves.enqueueRepeat (s : State) (r : Nat) : Moves o s (s.enqueue (.repeatItem r)) :=
  .single (.enqueue s _ trivial fun _ h => nomatch h)

/-- Settling a record as its own closure. -/
theorem Moves.settleRecord (s : State) (rec : Record) (kind : Closure) (plan : PlySet) (codes : Bytes) {r : Nat}
    (h : s.record r = some rec) (hk : rec.closure = .awaiting) : Moves o s (s.settleRecord (rec.close kind plan codes)) := by
  unfold State.settleRecord
  refine ((Moves.modRecord s _ _ fun x _ _ => ?_).trans (Moves.modSlot _ _ _ ?_)).trans (Moves.mapPorts _ _ (Port.work_recordCloses _))
  · exact ⟨rec, List.mem_of_find?_eq_some h, rfl, Record.work_close kind plan codes rec hk⟩
  · exact ⟨rfl, rfl, rfl, rfl, rfl, Tally.closing_ok _, rfl, rfl, rfl⟩

theorem Moves.closeRecord (s : State) (r : Nat) (kind : Closure) (codes : Bytes) : Moves o s (s.closeRecord r kind codes) := by
  unfold State.closeRecord
  split
  · exact .refl
  · rename_i rec hrec
    split
    · exact .refl
    · rename_i hk
      exact ((Moves.settleRecord s rec kind _ codes hrec (not_not.mp hk)).trans (Moves.insertValues _ _)).trans (Moves.enqueueRepeat _ _)

theorem Moves.setClosing (s : State) (c : Option Closing) : Moves o s (s.setClosing c) := .one (.closing s c)

theorem Moves.beginClosing (s : State) (r : Nat) (kind : Closure) (codes : Bytes) : Moves o s (s.beginClosing r kind codes) := by
  unfold State.beginClosing
  split
  · exact .refl
  · rename_i rec hrec
    split
    · exact .refl
    · rename_i hk
      exact (Moves.settleRecord s rec kind _ codes hrec (not_not.mp hk)).trans (Moves.setClosing _ _)

theorem State.handled_spec {s : State} {f : Frame} (h : s.handled = some f) :
    s.receiver.asm = .handling ∧ s.receiver.frame = some f := by
  unfold State.handled at h
  split at h
  · exact ⟨by assumption, h⟩
  · cases h

theorem Moves.receiver (s : State) (v : Receiver) (h : s.receiver.ok → v.ok) : Moves o s { s with receiver := v } := .one (.receiver s v h)

theorem Moves.endHandling (s : State) : Moves o s s.endHandling := Moves.receiver s _ Receiver.hunt_ok

theorem Moves.endClosing (s : State) (r : Nat) : Moves o s (s.endClosing r) := by
  have h0 : Moves o s ((s.setClosing none).enqueue (.repeatItem r)) := (Moves.setClosing s none).trans (Moves.enqueueRepeat _ r)
  unfold State.endClosing
  dsimp only
  split
  · rename_i own
    obtain ⟨f, hf, hr⟩ := Option.any_eq_true _ _ |>.mp own
    obtain ⟨h1, h2⟩ := State.handled_spec hf
    refine (h0.trans (Moves.receiver _ _ fun k => ?_)).trans (Moves.endHandling _)
    exact Receiver.lastVerdict_ok k ((of_decide_eq_true hr) ▸ Receiver.handled_index_le k h1 h2)
  · exact h0

theorem Moves.takeInsertions (n : Option Nat) (s : State) : Moves o s (s.takeInsertions n) := by
  unfold State.takeInsertions
  split
  · exact .refl
  · dsimp only
    split
    · exact (Moves.insertValues _ s).trans (Moves.endClosing _ _)
    · exact (Moves.insertValues _ s).trans (Moves.setClosing _ _)

theorem Moves.finishClosing (s : State) : Moves o s s.finishClosing := Moves.takeInsertions none s

/-! ### The account buffer -/

theorem Moves.checkBufferHigh (s : State) : Moves o s s.checkBufferHigh := (Moves.one (.bufferHigh s _)).trans (Moves.raiseIf _ _ _)

theorem Moves.recordLeaves (s : State) (r : Nat) : Moves o s (s.recordLeaves r) := by
  unfold State.recordLeaves
  split
  · exact .refl
  · dsimp only
    refine (((Moves.dropRecord s r).trans ?_).trans (Moves.retakeHeld _)).trans (Moves.queueJobEnd _ _)
    split
    · exact Moves.openReady _
    · exact .refl

/-- The buffer high mark is examined by the account alone, so it may be examined after a slot and the timers changed. -/
theorem State.checkBufferHigh_ended (s : State) (i : SlotId) :
    ((((s.checkBufferHigh).modSlot i fun j => { j with state := .ended }).raise .jobEnded).stopTimers) =
      (((s.modSlot i fun j => { j with state := .ended }).stopTimers).checkBufferHigh).raise .jobEnded := by
  cases i <;>
  · simp only [State.checkBufferHigh, State.raiseIf]
    by_cases h : (decide (s.plan.bufHigh * 256 ≤ s.account.used) && !s.account.high) = true
    · rw [if_pos h]
      exact (if_pos h).symm ▸ rfl
    · rw [if_neg h]
      exact (if_neg h).symm ▸ rfl

theorem Moves.appendAttempt (s : State) (h : s.account.due = true) : Moves o s s.appendAttempt := by
  unfold State.appendAttempt
  split
  · rename_i hq
    exact .one (.emptyQueue s hq)
  · rename_i it rest hq
    simp only []
    split
    · rename_i hp
      exact (Moves.one (.blocked s (by rw [hq]; exact List.cons_ne_nil _ _))).trans (Moves.raiseIf _ _ _)
    · rename_i at' hp
      refine Relation.ReflTransGen.trans ?_ (Moves.one (.markDue _))
      cases it with
      | repeatItem r =>
        exact ((Moves.one (.append s _ rest at' hq h hp fun _ => rfl)).trans (Moves.checkBufferHigh _)).trans (Moves.recordLeaves _ r)
      | jobStart i bs => exact (Moves.one (.append s _ rest at' hq h hp fun _ => rfl)).trans (Moves.checkBufferHigh _)
      | postVoid bs => exact (Moves.one (.append s _ rest at' hq h hp fun _ => rfl)).trans (Moves.checkBufferHigh _)
      | jobEnd i bs =>
        refine Moves.of_eq ?_ (State.checkBufferHigh_ended _ i).symm
        exact ((Moves.one (.appendEnd s i bs rest at' hq h hp)).trans (Moves.checkBufferHigh _)).trans (Moves.raise _ _)

theorem Moves.appendAll : ∀ (n : Nat) (s : State), Moves o s (appendAll n s) := by
  intro n
  induction n with
  | zero => exact fun _ => .refl
  | succ n ih =>
    intro s
    unfold Machine.appendAll
    split
    · rename_i h
      exact (Moves.appendAttempt s h).trans (ih _)
    · exact .refl

/-! ### Timers and loss -/

theorem Moves.restartTimer (s : State) (p : PortId) : Moves o s (s.restartTimer p) := .one (.restart s p)

theorem Moves.plyLost (s : State) (k : Nat) : Moves o s (s.plyLost k) := by
  refine .one (.records s _ fun x hx => ⟨x, hx, rfl, ?_⟩)
  split
  · exact ⟨rfl, rfl, rfl, id⟩
  · exact Record.Work.refl x

theorem Moves.expire (s : State) (p : PortId) (h : (s.port p).timer.isSome = true) : Moves o s (s.expire p) := by
  unfold State.expire
  refine (Relation.ReflTransGen.trans (Moves.one (.lose s p h)) ?_).trans (Moves.raise _ _)
  split
  · exact Moves.plyLost _ _
  · exact .refl

theorem Moves.portTick (p : PortId) (s : State) : Moves o s (State.portTick p s) := by
  unfold State.portTick
  split
  · exact .refl
  · rename_i n hn
    split
    · exact Moves.expire s p (by rw [hn]; rfl)
    · rename_i h
      exact .one (.tick s p n hn (by omega))

theorem Moves.gapTimeout (s : State) (h : s.receiver.gapTicks.isSome = true) : Moves o s s.gapTimeout :=
  .one (.receiver s _ fun k => Receiver.gapTimeout_ok k h)

theorem Moves.gapTick (s : State) : Moves o s s.gapTick := by
  unfold State.gapTick
  split
  · exact .refl
  · rename_i n hn
    split
    · exact Moves.gapTimeout s (by rw [hn]; rfl)
    · rename_i h
      exact .one (.receiver s _ fun k => Receiver.gapTick_ok k hn h)

theorem Moves.tick (s : State) : Moves o s s.tick := (Moves.forPorts _ Moves.portTick s).trans (Moves.gapTick _)

/-! ### Bytes -/

theorem beNat_lt (bs : Bytes) : beNat bs < 256 ^ bs.length := by
  have key : ∀ (bs : Bytes) (a : Nat), bs.foldl (fun acc b => acc * 256 + b.toNat) a < (a + 1) * 256 ^ bs.length := by
    intro bs
    induction bs with
    | nil => intro a; simp
    | cons b bs ih =>
      intro a
      have hb : b.toNat < 256 := b.isLt
      calc _ < (a * 256 + b.toNat + 1) * 256 ^ bs.length := ih _
        _ ≤ ((a + 1) * 256) * 256 ^ bs.length := Nat.mul_le_mul_right _ (by omega)
        _ = _ := by rw [List.length_cons, pow_succ]; ring
  have h := key bs 0
  rwa [Nat.zero_add, Nat.one_mul] at h

theorem field_lt (bs : Bytes) (offset len : Nat) : field bs offset len < 256 ^ len :=
  lt_of_lt_of_le (beNat_lt _) (Nat.pow_le_pow_right (by omega) (by simp))

theorem padTo_length (n : Nat) (bs : Bytes) : (padTo n bs).length = n := by
  simp [padTo]

theorem beBytes_length (k n : Nat) : (beBytes k n).length = k := by
  induction k with
  | zero => rfl
  | succ k ih => simp [beBytes, ih]

/-! ### The tasks -/

theorem Moves.runPlan (bs : Bytes) (s : State) : Moves o s (runPlan bs s).2 := by
  unfold Machine.runPlan
  simp only []
  repeat' split
  · exact .refl
  · rename_i h _
    exact .one (.plan s _ (by simpa using h) (.inl rfl))
  · rename_i h _ hb
    exact .one (.plan s _ (by simpa using h) (.inr ⟨_, hb, rfl⟩))
  · exact .refl

theorem State.slotToLoad_loadable {s : State} {i : SlotId} (h : s.slotToLoad = some i) : (s.slot i).state.loadable = true := by
  unfold State.slotToLoad at h
  repeat' split at h
  all_goals cases h
  all_goals assumption

theorem Moves.runLdjb (bs : Bytes) (s : State) : Moves s s (runLdjb bs s).2 := by
  unfold Machine.runLdjb
  split
  · exact .refl
  · split
    · exact .refl
    · rename_i i hi
      split
      · exact .refl
      · rename_i hn
        unfold State.loadRefusal at hn
        split at hn
        · cases hn
        · rename_i ht
          split at hn
          · cases hn
          · rename_i hb
            exact .one (.load i _ (State.slotToLoad_loadable hi) (fun e => ht (.inl e)) (by simpa using hb))

theorem Moves.startRun (s : State) (i : SlotId) (hp : s.plan.plies ≠ []) (hr : s.inRun = false) (hi : (s.slot i).state = .loaded) :
    Moves o s (s.startRun i) :=
  ((Moves.one (.strt s i hp hr hi)).trans (Moves.queueJobStart _ i)).trans (Moves.settle _)

theorem Moves.runStrt (bs : Bytes) (s : State) : Moves o s (runStrt bs s).2 := by
  unfold Machine.runStrt
  split
  · exact .refl
  · rename_i h
    split
    · exact .refl
    · split
      · exact .refl
      · rename_i i _ hi
        have hr : s.inRun = false := by simpa using fun e => h (.inr e)
        dsimp only
        exact Moves.startRun s i (fun e => h (.inl e)) hr (not_not.mp hi)

theorem Moves.stage (s : State) (i : SlotId) (rc : Nat) (hi : s.runningSlot = some i) (hs : s.staged = none)
    (hl : (s.slot i.other).state = .loaded) : Moves o s (s.stage i i.other rc) := by
  unfold State.stage
  refine (((Moves.one (.stage s i rc hi hs hl)).trans (Moves.flush _ _)).trans (Moves.modSlot _ _ _ ?_)).trans (Moves.settle _)
  split
  · exact JobSlot.work_of rfl rfl rfl rfl rfl rfl rfl rfl rfl
  · exact JobSlot.work_of rfl rfl rfl rfl rfl rfl rfl rfl rfl

theorem Moves.runSwap (bs : Bytes) (s : State) : Moves o s (runSwap bs s).2 := by
  unfold Machine.runSwap
  dsimp only
  split
  · rename_i i hi hs
    split
    · exact .refl
    · rename_i hl
      split
      · exact .refl
      · split
        · exact .refl
        · split
          · exact .refl
          · dsimp only
            exact Moves.stage s i _ hi hs (not_not.mp hl)
  · exact .refl

theorem Moves.endRunning (s : State) : Moves o s s.endRunning := by
  unfold State.endRunning
  split
  · rename_i i hi
    exact .one (.endRun s i hi)
  · rename_i hi
    exact .one (.unstage s hi)

theorem Moves.stopNumbering (s : State) : Moves o s s.stopNumbering :=
  ((((Moves.flush s _).trans (Moves.endRunning _)).trans (Moves.retakeHeld _)).trans (Moves.queueJobEnd _ .A)).trans
    (Moves.queueJobEnd _ .B)

theorem Moves.runStop (bs : Bytes) (s : State) : Moves o s (runStop bs s).2 := by
  unfold Machine.runStop
  split
  · exact .refl
  · dsimp only
    exact Moves.stopNumbering s

theorem Moves.abortAll (s : State) : Moves o s s.abortAll := by
  have key : ∀ (l : List Nat) (t : State), Moves o s t → Moves o s (l.foldl (fun t r => t.closeRecord r .aborted []) t) := by
    intro l
    induction l with
    | nil => exact fun _ h => h
    | cons r l ih => exact fun t h => ih _ (h.trans (Moves.closeRecord t r _ _))
  exact key _ s .refl

theorem Moves.runQuit (bs : Bytes) (s : State) : Moves o s (runQuit bs s).2 := by
  unfold Machine.runQuit
  split
  · dsimp only
    exact ((Moves.finishClosing s).trans (Moves.abortAll _)).trans (Moves.stopNumbering _)
  · exact .refl

theorem Moves.runAdmt (bs : Bytes) (s : State) : Moves o s (runAdmt bs s).2 := by
  unfold Machine.runAdmt
  simp only []
  split
  · exact .refl
  · split
    · rename_i k hl hp
      refine .one (.admitted s _ _ hl (by rw [hp]; rfl) ?_)
      have := field_lt bs 1 4
      simp only [max32]
      omega
    · exact .refl

theorem Moves.runTaly (bs : Bytes) (s : State) : Moves o s (runTaly bs s).2 := by
  unfold Machine.runTaly
  split <;> exact .refl

theorem Moves.runNext (bs : Bytes) (s : State) : Moves o s (runNext bs s).2 := by
  unfold Machine.runNext
  simp only []
  split <;> exact .refl

theorem Moves.release (s : State) (h : s.account.count ≠ 0) : Moves o s s.release :=
  (((Moves.one (.release s h)).trans (Moves.checkBufferHigh _)).trans (Moves.one (.markDue _))).trans (Moves.appendAll _ _)

theorem Moves.runRlse (bs : Bytes) (s : State) : Moves o s (runRlse bs s).2 := by
  unfold Machine.runRlse
  split
  · exact .refl
  · rename_i h
    dsimp only
    exact Moves.release s h

theorem Moves.postVoid (s : State) (i : SlotId) (tag lo hi operator : Nat) (h : lo ≤ hi) :
    Moves o s (s.postVoid i tag lo hi operator) := by
  unfold State.postVoid
  dsimp only
  have h0 := ((Moves.modSlot (o := o) s i (fun j => { j with tally := j.tally.postVoid (hi - lo + 1) }) ?_).trans (Moves.insertRange _ h)).trans
    (.single (.enqueue _ (.postVoid (postVoidBytes tag lo hi operator)) (postVoidBytes_length _ _ _ _) fun _ h => nomatch h))
  · split
    · rename_i hq
      refine h0.trans (Moves.appendAttempt _ ?_)
      simp [State.enqueue, hq]
    · exact h0
  · refine ⟨rfl, rfl, rfl, rfl, rfl, ?_, rfl, rfl, rfl⟩
    rintro ⟨h1, h2, h3, h4, h5, h6, h7, h8, h9, h10⟩
    exact ⟨h1, h2, (Nat.sub_le _ _).trans h3, h4, h5, h6, h7, satAdd_le _ _ _, h9, h10⟩

theorem Moves.runPvod (bs : Bytes) (s : State) : Moves o s (runPvod bs s).2 := by
  unfold Machine.runPvod
  dsimp only
  split
  · exact .refl
  · rename_i h
    split
    · exact .refl
    · split
      · exact .refl
      · split
        · exact .refl
        · split
          · exact .refl
          · dsimp only
            exact Moves.postVoid s _ _ _ _ _ (by omega)

theorem Moves.runVlrd (bs : Bytes) (s : State) : Moves o s (runVlrd bs s).2 := by
  unfold Machine.runVlrd
  simp only []
  split <;> exact .refl

theorem Moves.runVlcl (bs : Bytes) (s : State) : Moves o s (runVlcl bs s).2 := by
  unfold Machine.runVlcl
  split
  · exact .refl
  · exact .one (.clearList s)

theorem Moves.runRset (bs : Bytes) (s : State) : Moves o s (runRset bs s).2 := by
  unfold Machine.runRset
  split
  · exact .refl
  · rename_i h
    exact .one (.softReset s (by simpa using h))

/-- A word makes the part do one of the fourteen tasks, or nothing. -/
theorem runWord_cases {P : (Bytes → State → TaskResult) → Prop} (word : BitVec 32) (hPlan : P Machine.runPlan) (hLdjb : P Machine.runLdjb) (hStrt : P Machine.runStrt) (hSwap : P Machine.runSwap) (hStop : P Machine.runStop) (hQuit : P Machine.runQuit) (hAdmt : P Machine.runAdmt) (hTaly : P Machine.runTaly) (hNext : P Machine.runNext) (hRlse : P Machine.runRlse) (hPvod : P Machine.runPvod) (hVlrd : P Machine.runVlrd) (hVlcl : P Machine.runVlcl) (hRset : P Machine.runRset)
    (hNone : P fun _ s => (.unrecognised, s)) : P (Machine.runWord word) := by
  unfold Machine.runWord
  refine iteInduction (fun _ => hPlan) fun _ => ?_
  refine iteInduction (fun _ => hLdjb) fun _ => ?_
  refine iteInduction (fun _ => hStrt) fun _ => ?_
  refine iteInduction (fun _ => hSwap) fun _ => ?_
  refine iteInduction (fun _ => hStop) fun _ => ?_
  refine iteInduction (fun _ => hQuit) fun _ => ?_
  refine iteInduction (fun _ => hAdmt) fun _ => ?_
  refine iteInduction (fun _ => hTaly) fun _ => ?_
  refine iteInduction (fun _ => hNext) fun _ => ?_
  refine iteInduction (fun _ => hRlse) fun _ => ?_
  refine iteInduction (fun _ => hPvod) fun _ => ?_
  refine iteInduction (fun _ => hVlrd) fun _ => ?_
  refine iteInduction (fun _ => hVlcl) fun _ => ?_
  refine iteInduction (fun _ => hRset) fun _ => ?_
  exact hNone

theorem Moves.runWord (word : BitVec 32) : ∀ (bs : Bytes) (s : State), Moves s s (runWord word bs s).2 :=
  runWord_cases (P := fun f => ∀ bs s, Moves s s (f bs s).2) word (fun bs s => Moves.runPlan bs s) Moves.runLdjb
    (fun bs s => Moves.runStrt bs s) (fun bs s => Moves.runSwap bs s) (fun bs s => Moves.runStop bs s) (fun bs s => Moves.runQuit bs s)
    (fun bs s => Moves.runAdmt bs s) (fun bs s => Moves.runTaly bs s) (fun bs s => Moves.runNext bs s) (fun bs s => Moves.runRlse bs s)
    (fun bs s => Moves.runPvod bs s) (fun bs s => Moves.runVlrd bs s) (fun bs s => Moves.runVlcl bs s) (fun bs s => Moves.runRset bs s)
    fun _ _ => .refl

theorem Moves.startTask (s : State) (word : BitVec 32) : Moves o s (s.startTask word) := by
  unfold State.startTask
  split
  · exact Moves.raise s _
  · exact .single (.sup _ _ fun ⟨h1, h2, h3, h4, h5, _⟩ => ⟨h1, h2, h3, h4, h5, fun e => nomatch e⟩)

theorem Moves.carryOut (s : State) (word : BitVec 32) (params : Bytes) (run : Bytes → State → TaskResult)
    (h : ∀ bs, Moves s s (run bs s).2) : Moves s s (s.carryOut word params run) :=
  (h params).trans (.single (.sup _ _ fun ⟨h1, h2, h3, h4, h5, _⟩ => ⟨h1, h2, h3, h4, h5, fun e => nomatch e⟩))

theorem Moves.taskRow (s : State) (word : BitVec 32) (run : Bytes → State → TaskResult) (h : ∀ bs, Moves s s (run bs s).2) :
    Moves s s (s.taskRow word run) := by
  unfold State.taskRow
  split
  · exact Moves.carryOut s _ _ _ h
  · split
    · exact Moves.carryOut s _ _ _ h
    · exact Moves.raise s _

theorem Moves.takeEffects (s : State) : Moves s s s.takeEffects := by
  unfold State.takeEffects
  repeat' split
  · exact Moves.carryOut s _ _ _ fun bs => Moves.runWord _ bs s
  · exact .refl
  · exact .refl

/-! ### The station ports -/

theorem Port.work_of {x y : Port} (h1 : y.state = x.state) (h2 : y.ply = x.ply) (h3 : y.timer = x.timer) (h4 : y.slot = x.slot)
    (h5 : y.cursor = x.cursor) (h6 : y.late ≤ max x.late max16) (h7 : y.order ≤ max x.order max16)
    (h8 : y.rejected ≤ max x.rejected max16) (h9 : y.held ≤ max x.held max16) : x.Work y := by
  refine ⟨h1, h2, h3, ?_, by omega, h6, h7, h8, h9⟩
  rw [h4]
  cases x.slot.settled <;> simp

theorem Moves.endFetchShort (s : State) (p : PortId) : Moves o s (s.endFetchShort p) := by
  unfold State.endFetchShort
  split
  · exact .refl
  · refine Moves.modPort s p _ ?_
    generalize s.port p = x
    dsimp only
    split
    · split
      · exact ⟨rfl, rfl, rfl, .inl rfl, le_max_left _ _, satAdd_le_max _ _ _, le_max_left _ _, le_max_left _ _, le_max_left _ _⟩
      · exact Port.work_of rfl rfl rfl rfl rfl (le_max_left _ _) (le_max_left _ _) (le_max_left _ _) (le_max_left _ _)
    · exact Port.work_of rfl rfl rfl rfl rfl (le_max_left _ _) (le_max_left _ _) (le_max_left _ _) (le_max_left _ _)

theorem Moves.select (s : State) (p : PortId) (clockHigh : Bool) : Moves o s (s.select p clockHigh) := by
  unfold State.select
  split
  · exact .refl
  · exact (Moves.endFetchShort s p).trans (Moves.modPort _ p _
      (Port.work_of rfl rfl rfl rfl rfl (le_max_left _ _) (le_max_left _ _) (le_max_left _ _) (le_max_left _ _)))

theorem Moves.frameTaken (s : State) (p : PortId) : Moves o s (s.frameTaken p) :=
  (Moves.select s p false).trans (Moves.modPort _ p _
    (Port.work_of rfl rfl rfl rfl rfl (le_max_left _ _) (le_max_left _ _) (le_max_left _ _) (le_max_left _ _)))

theorem Moves.rejectFrame (s : State) (p : PortId) : Moves o s (s.rejectFrame p) :=
  Moves.modPort _ p _
    (Port.work_of rfl rfl rfl rfl rfl (le_max_left _ _) (le_max_left _ _) (satAdd_le_max _ _ _) (le_max_left _ _))

theorem Moves.acceptFrame (s : State) (p : PortId) : Moves o s (s.acceptFrame p) :=
  (Moves.modPort _ p _
    (Port.work_of rfl rfl rfl rfl rfl (le_max_left _ _) (le_max_left _ _) (le_max_left _ _) (le_max_left _ _))).trans
    (Moves.restartTimer _ p)

theorem Moves.accepted (s : State) (p : PortId) : Moves o s ((s.frameTaken p).acceptFrame p) :=
  (Moves.frameTaken s p).trans (Moves.acceptFrame _ p)

theorem Moves.rejected (s : State) (p : PortId) : Moves o s ((s.frameTaken p).rejectFrame p) :=
  (Moves.frameTaken s p).trans (Moves.rejectFrame _ p)

theorem Moves.portAnswers (s : State) (p : PortId) (q : Request) (reason : Reason) (cursor : Nat) :
    Moves o s (s.portAnswers p q reason cursor) := Moves.setReqSlot s p _ (.inl rfl)

theorem Moves.refuseOrder (s : State) (p : PortId) (q : Request) : Moves o s (s.refuseOrder p q) :=
  (Moves.portAnswers s p q _ _).trans (Moves.modPort _ p _
    (Port.work_of rfl rfl rfl rfl rfl (le_max_left _ _) (satAdd_le_max _ _ _) (le_max_left _ _) (le_max_left _ _)))

theorem Moves.atPort (s : State) (p : PortId) (q : Request) (k : State → State)
    (h : (s.port p).state = .active → Moves o s (k s)) : Moves o s (s.atPort p q k) := by
  unfold State.atPort
  split
  · exact Moves.portAnswers s p q _ _
  · exact Moves.portAnswers s p q _ _
  · rename_i ha
    exact h ha

theorem Moves.requestFrame (p : PortId) (c : Nat) (s : State) (h : (s.port p).state = .active) :
    Moves o s (State.requestFrame p c s) := by
  unfold State.requestFrame
  dsimp only
  split
  · have h1 : Moves o s (if c = (s.port p).cursor then s.modPort p fun x => { x with newRun := false } else s) := by
      split
      · exact Moves.modPort s p _
          (Port.work_of rfl rfl rfl rfl rfl (le_max_left _ _) (le_max_left _ _) (le_max_left _ _) (le_max_left _ _))
      · exact .refl
    have h2 : ((if c = (s.port p).cursor then s.modPort p fun x => { x with newRun := false } else s).port p).state = .active := by
      split
      · simpa using h
      · exact h
    revert h1 h2
    generalize (if c = (s.port p).cursor then s.modPort p fun x => { x with newRun := false } else s) = u
    intro h1 h2
    split
    · exact h1.trans (Moves.portAnswers _ p _ _ _)
    · exact h1.trans (Moves.takeRequest _ p _ _ h2)
  · exact Moves.refuseOrder s p _

theorem Record.work_markWaste (x : Record) : x.Work x.markWaste := by
  refine ⟨rfl, rfl, ?_, id⟩
  simp only [Record.markWaste, List.map_map]
  refine List.map_congr_left fun p _ => ?_
  simp only [Function.comp]
  split <;> rfl

theorem Record.work_markMisfire (mask : BitVec 16) (x : Record) : x.Work (x.markMisfire mask) := by
  refine ⟨rfl, rfl, ?_, id⟩
  apply List.ext_getElem
  · simp [Record.markMisfire]
  · intro k h1 h2
    simp only [Record.markMisfire, List.getElem_map, List.getElem_mapIdx]
    split <;> rfl

theorem Moves.takeWaste (s : State) (p : PortId) (q : Request) (r1 r2 : Nat) (h : (s.port p).state = .active) :
    Moves o s (s.takeWaste p q r1 r2) := by
  unfold State.takeWaste
  split
  · exact Moves.setReqSlot s p _ (.inr (.inl h))
  · split
    · exact Moves.setReqSlot s p _ (.inr (.inl h))
    · dsimp only
      refine Relation.ReflTransGen.trans (Moves.one (.records s (fun x => if s.wasted r1 r2 x then x.markWaste else x)
        fun x hx => ⟨x, hx, rfl, ?_⟩)) (Moves.modPort _ p _ ?_)
      · split
        · exact Record.work_markWaste x
        · exact Record.Work.refl x
      · exact ⟨rfl, rfl, rfl, .inr (.inl h), le_max_left _ _, satAdd_le_max _ _ _, le_max_left _ _, le_max_left _ _, le_max_left _ _⟩

theorem Moves.wasteFrame (p : PortId) (c1 c2 : Nat) (s : State) (h : (s.port p).state = .active) :
    Moves o s (State.wasteFrame p c1 c2 s) := by
  unfold State.wasteFrame
  dsimp only
  split
  · exact Moves.portAnswers s p _ _ _
  · exact Moves.takeWaste s p _ _ _ h

theorem Moves.takeMisfire (s : State) (p : PortId) (q : Request) (r : Nat) (h : (s.port p).state = .active) :
    Moves o s (s.takeMisfire p q r) := by
  unfold State.takeMisfire
  split
  · exact Moves.setReqSlot s p _ (.inr (.inl h))
  · split
    · dsimp only
      refine (Moves.modRecord s r (Record.markMisfire q.mask) fun x hx hr => ⟨x, hx, hr, Record.work_markMisfire _ x⟩).trans
        (Moves.setReqSlot _ p _ (.inr (.inl ?_)))
      exact h
    · exact Moves.setReqSlot s p _ (.inr (.inl h))

theorem Moves.misfireFrame (p : PortId) (c : Nat) (mask : BitVec 16) (s : State) (h : (s.port p).state = .active) :
    Moves o s (State.misfireFrame p c mask s) := by
  unfold State.misfireFrame
  dsimp only
  split
  · exact Moves.refuseOrder s p _
  · split
    · exact Moves.portAnswers s p _ _ _
    · exact Moves.takeMisfire s p _ _ h

theorem Moves.servedBy (s : State) (p : PortId) (f : FetchOut) : Moves o s (s.servedBy p f) := by
  unfold State.servedBy
  split
  · split
    · refine Moves.modRecord s _ _ fun x hx hr => ⟨x, hx, hr, ?_⟩
      split
      · exact ⟨rfl, rfl, rfl, id⟩
      · exact Record.Work.refl x
    · exact .refl
  · exact .refl

theorem Port.work_fetched (f : FetchOut) (x : Port) : x.Work (x.fetched f) := by
  refine ⟨rfl, rfl, rfl, .inl rfl, ?_, ?_, le_max_left _ _, le_max_left _ _, le_max_left _ _⟩
  · dsimp only [Port.fetched]
    split
    · exact satAdd_le_max _ _ _
    · exact le_max_left _ _
  · dsimp only [Port.fetched]
    split
    · exact satAdd_le_max _ _ _
    · exact le_max_left _ _

theorem Port.work_answerReady (q : Request) (a : Answer) (x : Port) : x.Work (x.answerReady q a) := by
  refine ⟨rfl, rfl, rfl, .inl rfl, le_max_left _ _, ?_, le_max_left _ _, le_max_left _ _, le_max_left _ _⟩
  dsimp only [Port.answerReady]
  split
  · exact satAdd_le_max _ _ _
  · exact le_max_left _ _

/-! ### Fills -/

/-- A value that a lookup gives is not above the ceiling (R133). -/
theorem lookup_le {f g : Nat} : ∀ {rs : List (Nat × Nat)} {x : Nat}, lookup f g rs = some x → x ≤ g := by
  intro rs
  induction rs with
  | nil => intro x h; cases h
  | cons r rs ih =>
    intro x h
    simp only [lookup] at h
    split at h
    · exact ih h
    · split at h
      · cases h
        assumption
      · cases h

/-- A value that a draw issues is not above the ceiling (R133). -/
theorem drawLookups_le {passes : Nat → Bool} {g : Nat} {rs : List (Nat × Nat)} :
    ∀ {n f x : Nat}, drawLookups passes g rs n f = .issues x → x ≤ g := by
  intro n
  induction n with
  | zero => intro f x h; cases h
  | succ n ih =>
    intro f x h
    simp only [drawLookups] at h
    split at h
    · cases h
    · rename_i y hy
      split at h
      · exact ih h
      · cases h
        exact lookup_le hy

theorem State.fillAtWork_spec {s : State} {source : Source} {f : Fill} (h : s.fillAtWork source = some f) :
    s.queue.fill = some f ∧ (s.slot f.slot).source = source ∧ f.entries.length < (s.slot f.slot).positions := by
  unfold State.fillAtWork at h
  obtain ⟨h1, h2⟩ := Option.filter_eq_some_iff.mp h
  simpa using ⟨h1, by simpa using h2⟩

theorem Moves.fillStep (s : State) (f g : Fill) (h : s.queue.fill = some f) (hn : f.entries.length < (s.slot f.slot).positions)
    (hg : f.Work g) : Moves o s (s.setFill (some g)) := .one (.fillStep s f g h hn hg)

theorem Moves.drawNothing (s : State) (f : Fill) (h : s.queue.fill = some f)
    (hn : f.entries.length < (s.slot f.slot).positions) : Moves o s (s.drawNothing f) := by
  unfold State.drawNothing
  refine ((Moves.modSlot s f.slot _ (JobSlot.work_of rfl rfl rfl rfl rfl rfl rfl rfl rfl)).trans
    (Moves.fillStep _ f _ (by simpa using h) ?_ ⟨rfl, .inr rfl⟩)).trans (Moves.raiseIf _ _ _)
  rw [State.modSlot_slot_self]
  exact hn

theorem Moves.drawIssues (s : State) (f : Fill) (x : Nat) (h : s.fillAtWork .makeup = some f)
    (hw : x ≤ (s.slot f.slot).rules.whi) : Moves o s (s.drawIssues f x) :=
  (Moves.one (.draw s f x h hw)).trans (Moves.raiseIf _ _ _)

theorem Moves.handSkipped (s : State) (f : Fill) : Moves o s (s.handSkipped f) := by
  unfold State.handSkipped
  dsimp only
  split
  · refine .one (.shrink s _ ⟨by simp, fun d hd => ?_, .inl rfl⟩)
    obtain ⟨e, he, rfl⟩ := List.mem_map.mp hd
    refine ⟨e, he, ?_⟩
    split <;> rfl
  · refine Moves.modSlot s _ _ ⟨rfl, rfl, rfl, rfl, rfl, ?_, rfl, rfl, rfl⟩
    rintro ⟨h1, h2, h3, h4, h5, h6, h7, h8, h9, h10⟩
    exact ⟨h1, h2, h3, h4, h5, h6, h7, h8, h9, satAdd_le _ _ _⟩

theorem Moves.fillMakesDraft (s : State) (f : Fill) (h : s.queue.fill = some f) : Moves o s ((s.setFill none).fillMakesDraft f) := by
  unfold State.fillMakesDraft
  dsimp only
  split
  · exact (Moves.one (.draft s f h)).trans (Moves.modSlot _ _ _ (JobSlot.work_of rfl rfl rfl rfl rfl rfl rfl rfl rfl))
  · exact Moves.one (.draft s f h)

theorem Moves.fillFindsNothing (s : State) (f : Fill) : Moves o s (s.fillFindsNothing f) :=
  ((Moves.modSlot s _ _ (JobSlot.work_of rfl rfl rfl rfl rfl rfl rfl rfl rfl)).trans (Moves.handSkipped _ f)).trans (Moves.reportExhausted _ _)

theorem Moves.clearFill (s : State) : Moves o s (s.setFill none) :=
  .one (.shrink s _ ⟨Nat.le_refl _, fun d hd => ⟨d, hd, rfl⟩, .inr rfl⟩)

/-! ### Frames of the reader -/

theorem Moves.frameVerdict (inserts : Option Nat) (s : State) (f : Frame) (hf : s.receiver.ok → f.index ≤ max32) :
    Moves o s (s.frameVerdict inserts f) := by
  unfold State.frameVerdict
  have hno : Moves o s (({ s with receiver := { s.receiver with noRecords := satAdd max32 s.receiver.noRecords 1 } }.setLastVerdict
      f.index).endHandling) :=
    (Relation.ReflTransGen.trans (Moves.receiver s _ fun h => Receiver.lastVerdict_ok (Receiver.noRecord_ok h) (hf h))
      (Moves.endHandling _))
  split
  · split
    · split
      · exact ((Moves.receiver s _ Receiver.shape_ok).trans (Moves.raise _ _)).trans (Moves.endHandling _)
      · exact (Moves.beginClosing s _ _ _).trans (Moves.takeInsertions _ _)
    · exact hno
  · exact hno

/-! ### The supervisor port -/

theorem Supervisor.ok_of {u w : Supervisor} (h1 : w.param.length = u.param.length) (h2 : w.result.length = u.result.length)
    (h3 : w.sequence = u.sequence) (h4 : w.snapshot = u.snapshot) (h5 : w.onPage1 = u.onPage1) (h6 : w.running = u.running)
    (h7 : w.task = u.task) (h : u.ok) : w.ok := by
  obtain ⟨k1, k2, k3, k4, k5, k6⟩ := h
  exact ⟨h1.trans k1, h2.trans k2, h3 ▸ k3, h4 ▸ k4, by rw [h4, h5]; exact k5, by rw [h6, h7]; exact k6⟩

theorem Moves.setAck (s : State) (b : Bool) (n : Nat) : Moves o s (s.setAck b n) := .one (.sup s _ fun h => h)

theorem Moves.writeMask (s : State) (v : BitVec 32) : Moves o s (s.writeMask v) := .one (.sup s _ fun h => h)

theorem Moves.writeClear (s : State) (v : BitVec 32) : Moves o s (s.writeClear v) := .one (.sup s _ fun h => h)

theorem deliveredBytes_length (size : Nat) (count : Byte) (data : Bytes) : (deliveredBytes size count data).length ≤ size := by
  simp only [deliveredBytes, List.length_take]
  omega

theorem Moves.writeParam (s : State) (data : Bytes) (h : data.length ≤ 64) : Moves o s (s.writeParam data) := by
  refine .one (.sup s _ fun k => Supervisor.ok_of (u := s.sup) ?_ rfl rfl rfl rfl rfl rfl k)
  have := k.1
  simp only [List.length_append, List.length_drop]
  omega

theorem Moves.fourByteWrite (s : State) (data : Bytes) (k : State → BitVec 32 → State) (h : ∀ t w, Moves o t (k t w)) :
    Moves o s (s.fourByteWrite data k) := by
  unfold State.fourByteWrite
  split
  · exact (Moves.setAck s _ _).trans (h _ _)
  · exact Moves.setAck s _ _

theorem Moves.publish (s : State) : Moves o s s.publish := by
  unfold State.publish
  split
  · rename_i o _
    refine Relation.ReflTransGen.trans (.single (.sup s _ ?_)) (Moves.raise _ _)
    rintro ⟨h1, h2, h3, h4, h5, h6⟩
    refine ⟨h1, ?_, h3, h4, h5, fun _ => ?_⟩
    · cases o <;> exact padTo_length _ _
    · cases o <;> simp [TaskOutcome.word]
  · exact .refl

theorem State.page0_length (s : State) (n : Nat) : (s.page0 n).length = 16 := by
  simp [State.page0, stateRepeat, beBytes_length]

theorem State.page1_length (s : State) (n : Nat) : (s.page1 n).length = 16 := padTo_length _ _

theorem Moves.takeSnapshot (s : State) : Moves o s s.takeSnapshot := by
  refine .one (.sup s _ ?_)
  rintro ⟨h1, h2, h3, h4, h5, h6⟩
  refine ⟨h1, h2, Nat.mod_lt _ (by omega), fun x e => ?_, fun _ => rfl, h6⟩
  cases e
  exact ⟨State.page0_length _ _, State.page1_length _ _⟩

/-! ### Every command -/

theorem next_inj {s t : State} (h : (Host.Outcome.next s : Host.Outcome State Fault Refusal) = .next t) : s = t := by
  cases h
  rfl

theorem Moves.probe {p : PortId} {m : Moment Bool} {s t : State} (h : execProbe p m s = .next t) : Moves o s t := by
  cases m with
  | select clockHigh => cases next_inj h; exact Moves.select s p _
  | taken whole =>
    cases next_inj h
    split
    · exact Moves.accepted s p
    · exact Moves.rejected s p

/-- What a FETCH ended short leaves of a port's state. -/
theorem State.endFetchShort_state (s : State) (p : PortId) : ((s.endFetchShort p).port p).state = (s.port p).state := by
  unfold State.endFetchShort
  split
  · rfl
  · simp only [State.modPort_port_self]
    repeat' split
    all_goals rfl

/-- The state of a port after its frame was accepted. -/
theorem State.accepted_state (s : State) (p : PortId) : (((s.frameTaken p).acceptFrame p).port p).state = (s.port p).state := by
  unfold State.acceptFrame State.restartTimer State.frameTaken State.select
  split
  · simp
  · simp [State.endFetchShort_state]

theorem Moves.request {p : PortId} {m : Moment Bytes} {s t : State} (h : execRequest p m s = .next t) : Moves o s t := by
  cases m with
  | select clockHigh => cases next_inj h; exact Moves.select s p _
  | taken body =>
    cases next_inj h
    split
    · exact (Moves.accepted s p).trans (Moves.atPort _ p _ _ fun ha => Moves.requestFrame p _ _ ha)
    · exact Moves.rejected s p

theorem Moves.waste {p : PortId} {m : Moment Bytes} {s t : State} (h : execWaste p m s = .next t) : Moves o s t := by
  cases m with
  | select clockHigh => cases next_inj h; exact Moves.select s p _
  | taken body =>
    cases next_inj h
    split
    · exact (Moves.accepted s p).trans (Moves.atPort _ p _ _ fun ha => Moves.wasteFrame p _ _ _ ha)
    · exact Moves.rejected s p

theorem Moves.misfire {p : PortId} {m : Moment Bytes} {s t : State} (h : execMisfire p m s = .next t) : Moves o s t := by
  cases m with
  | select clockHigh => cases next_inj h; exact Moves.select s p _
  | taken body =>
    cases next_inj h
    split
    · exact (Moves.accepted s p).trans (Moves.atPort _ p _ _ fun ha => Moves.misfireFrame p _ _ _ ha)
    · exact Moves.rejected s p

theorem Moves.fetch {p : PortId} {m : Moment Bool} {s t : State} (h : execFetch p m s = .next t) : Moves o s t := by
  cases m with
  | select clockHigh => cases next_inj h; exact Moves.select s p _
  | taken whole =>
    cases next_inj h
    split
    · exact (Moves.accepted s p).trans (Moves.modPort _ p _
        (Port.work_of rfl rfl rfl rfl rfl (le_max_left _ _) (le_max_left _ _) (le_max_left _ _) (le_max_left _ _)))
    · exact Moves.rejected s p

theorem Moves.take {s t : State} (h : execTake s = .next t) : Moves o s t := by
  unfold execTake at h
  split at h
  · cases next_inj h
    exact .refl
  · rename_i f hf
    dsimp only at h
    split at h
    · cases next_inj h
      exact .refl
    · rename_i c hc
      cases next_inj h
      exact (Moves.one (.take s f _ c hf hc)).trans (Moves.raiseIf _ _ _)

theorem Moves.makeupDraw {n : Option Nat} {s t : State} (h : execMakeupDraw s n = .next t) : Moves o s t := by
  unfold execMakeupDraw at h
  split at h
  · cases next_inj h
    exact .refl
  · rename_i f hf
    obtain ⟨h1, _, h3⟩ := State.fillAtWork_spec hf
    dsimp only at h
    split at h
    · cases next_inj h
      exact Moves.fillStep s f _ h1 h3 ⟨rfl, .inr rfl⟩
    · split at h
      · rename_i hd
        cases next_inj h
        exact Moves.drawIssues s f _ hf (drawLookups_le hd)
      · cases next_inj h
        exact Moves.drawNothing s f h1 h3
      · cases next_inj h
        exact Moves.fillStep s f _ h1 h3 ⟨rfl, .inl rfl⟩

theorem Moves.fillComplete {s t : State} (h : execFillComplete s = .next t) : Moves o s t := by
  unfold execFillComplete at h
  split at h
  · cases next_inj h
    exact .refl
  · rename_i f hf
    split at h
    · cases next_inj h
      exact .refl
    · dsimp only at h
      split at h
      · cases next_inj h
        exact (Moves.fillMakesDraft s f hf).trans (Moves.settle _)
      · cases next_inj h
        exact ((Moves.clearFill s).trans (Moves.fillFindsNothing _ f)).trans (Moves.settle _)

/-- Every command is a sequence of moves, begun at the state that meets it. -/
theorem exec_moves (c : Instr) {s t : State} (h : exec c s = .next t) : Moves s s t := by
  cases c with
  | powerOnReset a b => cases next_inj h; exact .single (.reset s a b)
  | runRise =>
    cases next_inj h
    split
    · exact .refl
    · rename_i hr
      exact .single (.runRise s (by simpa using hr))
  | runFall => cases next_inj h; exact .single (.runFall s)
  | plan => cases next_inj h; exact Moves.taskRow s _ _ fun bs => Moves.runPlan bs s
  | ldjb => cases next_inj h; exact Moves.taskRow s _ _ fun bs => Moves.runLdjb bs s
  | strt => cases next_inj h; exact Moves.taskRow s _ _ fun bs => Moves.runStrt bs s
  | swap => cases next_inj h; exact Moves.taskRow s _ _ fun bs => Moves.runSwap bs s
  | stop => cases next_inj h; exact Moves.taskRow s _ _ fun bs => Moves.runStop bs s
  | quit => cases next_inj h; exact Moves.taskRow s _ _ fun bs => Moves.runQuit bs s
  | admt => cases next_inj h; exact Moves.taskRow s _ _ fun bs => Moves.runAdmt bs s
  | taly => cases next_inj h; exact Moves.taskRow s _ _ fun bs => Moves.runTaly bs s
  | next => cases next_inj h; exact Moves.taskRow s _ _ fun bs => Moves.runNext bs s
  | rlse => cases next_inj h; exact Moves.taskRow s _ _ fun bs => Moves.runRlse bs s
  | pvod => cases next_inj h; exact Moves.taskRow s _ _ fun bs => Moves.runPvod bs s
  | vlrd => cases next_inj h; exact Moves.taskRow s _ _ fun bs => Moves.runVlrd bs s
  | vlcl => cases next_inj h; exact Moves.taskRow s _ _ fun bs => Moves.runVlcl bs s
  | rset => cases next_inj h; exact Moves.taskRow s _ _ fun bs => Moves.runRset bs s
  | unknownTaskWord w => cases next_inj h; exact Moves.taskRow s _ _ fun bs => Moves.runWord w bs s
  | taskEnd => cases next_inj h; exact (Moves.takeEffects s).trans (Moves.publish _)
  | taskOverrun w => cases next_inj h; exact Moves.startTask s w
  | maskWrite v => cases next_inj h; exact Moves.writeMask s v
  | clearWrite v => cases next_inj h; exact Moves.writeClear s v
  | stateRead acked =>
    cases next_inj h
    dsimp only
    split
    · rename_i hp
      refine .single (.sup s _ ?_)
      rintro ⟨h1, h2, h3, h4, h5, h6⟩
      exact ⟨h1, h2, h3, h4, fun _ => h5 hp, h6⟩
    · refine (Moves.takeSnapshot s).trans (.single (.sup _ _ ?_))
      rintro ⟨h1, h2, h3, h4, h5, h6⟩
      exact ⟨h1, h2, h3, h4, fun _ => rfl, h6⟩
  | registerWrite slot count data =>
    cases next_inj h
    repeat' split
    · exact (Moves.setAck s _ _).trans (Moves.writeParam _ _ (deliveredBytes_length _ _ _))
    · exact Moves.fourByteWrite s _ _ Moves.startTask
    · exact Moves.fourByteWrite s _ _ Moves.writeMask
    · exact Moves.fourByteWrite s _ _ Moves.writeClear
    · exact Moves.setAck s _ _
    · exact Moves.setAck s _ _
  | probe p w => exact Moves.probe h
  | request p b => exact Moves.request h
  | waste p b => exact Moves.waste h
  | misfire p b => exact Moves.misfire h
  | fetch p w => exact Moves.fetch h
  | fetchComplete p =>
    simp only [exec, execFetchComplete] at h
    split at h
    · cases next_inj h
      exact .refl
    · split at h
      · cases next_inj h
        exact (Moves.servedBy s p _).trans (Moves.modPort _ p _ (Port.work_fetched _ _))
      · cases next_inj h
        exact Moves.modPort s p _
          (Port.work_of rfl rfl rfl rfl rfl (le_max_left _ _) (le_max_left _ _) (le_max_left _ _) (le_max_left _ _))
  | fetchEndedShort p => cases next_inj h; exact Moves.endFetchShort s p
  | unknownCommandFrame p command m =>
    cases m with
    | select clockHigh => cases next_inj h; exact Moves.select s p _
    | taken frame =>
      simp only [exec, execUnknownCommandFrame] at h
      split at h
      · exact Moves.probe h
      · exact Moves.request h
      · exact Moves.waste h
      · exact Moves.misfire h
      · exact Moves.fetch h
      · cases next_inj h
        exact Moves.rejected s p
  | silenceExpiry p =>
    cases next_inj h
    split
    · rename_i ht
      exact Moves.expire s p (by rw [Option.isSome_iff_exists]; obtain ⟨n, hn, _⟩ := (Option.any_eq_true _ _).mp ht; exact ⟨n, hn⟩)
    · exact .refl
  | recordOpen =>
    simp only [exec, execRecordOpen, State.openNext] at h
    cases next_inj h
    split
    · exact .refl
    · rename_i d rest ho
      exact Moves.openDraft s d rest ho
  | answerReady p =>
    simp only [exec, execAnswerReady] at h
    split at h
    · cases next_inj h
      exact Moves.modPort s p _ (Port.work_answerReady _ _ _)
    · cases next_inj h
      exact Moves.modPort s p _ (Port.work_answerReady _ _ _)
    · cases next_inj h
      exact .refl
  | take => exact Moves.take h
  | makeupDraw _ => exact Moves.makeupDraw h
  | fillComplete => exact Moves.fillComplete h
  | readerByteReceived v high =>
    cases next_inj h
    split
    · rename_i g hg
      exact Moves.receiver s _ fun k => Receiver.byteReceived_ok k hg _ _
    · exact .refl
  | gapTimeout =>
    cases next_inj h
    split
    · rename_i hg
      exact Moves.gapTimeout s (by rw [Option.isSome_iff_exists]; obtain ⟨n, hn, _⟩ := (Option.any_eq_true _ _).mp hg; exact ⟨n, hn⟩)
    · exact .refl
  | assemblerGapDiscard =>
    cases next_inj h
    split
    · dsimp only
      split
      · exact (Moves.receiver s _ fun k => Receiver.discardFrame_ok (Receiver.clearGap_ok k)).trans (Moves.raise _ _)
      · exact Moves.receiver s _ Receiver.clearGap_ok
    · exact .refl
  | assemblerTakeByte =>
    simp only [exec, execAssemblerTakeByte] at h
    split at h
    · cases next_inj h
      exact .refl
    · cases next_inj h
      exact .refl
    · rename_i e rest he _
      cases next_inj h
      exact (Moves.receiver s _ fun k => Receiver.takeEntry_ok (Receiver.rest_ok k he) e).trans (Moves.raiseIf _ _ _)
  | closeUnverified n =>
    simp only [exec, execCloseUnverified] at h
    split at h
    · cases next_inj h
      exact Moves.takeInsertions n s
    · cases next_inj h
      exact .refl
    · split at h
      · cases next_inj h
        exact .refl
      · cases next_inj h
        exact (Moves.beginClosing s _ _ _).trans (Moves.takeInsertions n _)
  | frameVerdict n =>
    simp only [exec, execFrameVerdict] at h
    split at h
    · cases next_inj h
      exact Moves.takeInsertions n s
    · cases next_inj h
      exact .refl
    · rename_i f _ hf
      split at h
      · cases next_inj h
        exact .refl
      · cases next_inj h
        obtain ⟨h1, h2⟩ := State.handled_spec hf
        exact Moves.frameVerdict n s f fun k => Receiver.handled_index_le k h1 h2
  | append =>
    cases next_inj h
    split
    · rename_i hd
      exact Moves.appendAttempt s hd
    · exact .refl
  | readerStartBit low =>
    cases next_inj h
    split
    · exact Moves.receiver s _ Receiver.startBit_ok
    · exact .refl
  | readerLineReturnsHigh =>
    cases next_inj h
    split
    · exact Moves.receiver s _ Receiver.lineHigh_ok
    · exact .refl

/-- A step takes the command at the front of the queue, which is a sequence of moves, or is one tick, which is too. -/
theorem step_moves {s t : State} (h : step s = .next t) :
    (s.pending = [] ∧ Moves s s t) ∨ ∃ c rest, s.pending = c :: rest ∧ Moves { s with pending := rest } { s with pending := rest } t := by
  unfold step at h
  split at h
  · rename_i hp
    cases next_inj h
    exact .inl ⟨hp, Moves.tick s⟩
  · rename_i c rest hp
    exact .inr ⟨c, rest, hp, exec_moves c h⟩

/-- An invariant that every move of a command keeps, where the state the command began at may be known to meet `I`, and that does not look
at the queue of commands, every step keeps. -/
theorem step_keeps_from {I P : State → Prop} (hq : ∀ s q, I s → P s → I { s with pending := q } ∧ P { s with pending := q })
    (hm : ∀ o, I o → P o → ∀ s t, Move o s t → P s → P t) {s t : State} (h : step s = .next t) (hi : I s) (hs : P s) : P t := by
  rcases step_moves h with ⟨_, m⟩ | ⟨_, rest, _, m⟩
  · exact m.keeps (hm s hi hs) hs
  · obtain ⟨hi', hs'⟩ := hq s rest hi hs
    exact m.keeps (hm _ hi' hs') hs'

/-- An invariant that every move keeps and that does not look at the queue of commands, every step keeps. -/
theorem step_keeps {P : State → Prop} (hq : ∀ s q, P s → P { s with pending := q }) (hm : ∀ o s t, Move o s t → P s → P t) {s t : State}
    (h : step s = .next t) (hs : P s) : P t :=
  step_keeps_from (I := fun _ => True) (fun s q _ hs => ⟨trivial, hq s q hs⟩) (fun o _ _ => hm o) h trivial hs

end Sys2Proof.Machine
end

