-- ==== Sys2Proof/Laws/Fields.lean ====
section
/-! SUPPORT. Fields of blocks: reading back what `beBytes` laid down, byte by byte and block by block. -/

namespace Sys2Proof.Machine

theorem foldl_bytes (l : Bytes) : ∀ x : Nat,
    l.foldl (fun acc (b : Byte) => acc * 256 + b.toNat) x = x * 256 ^ l.length + l.foldl (fun acc (b : Byte) => acc * 256 + b.toNat) 0 := by
  induction l with
  | nil => simp
  | cons c l ih =>
    intro x
    simp only [List.foldl_cons]
    rw [ih (x * 256 + c.toNat), ih (0 * 256 + c.toNat)]
    simp only [List.length_cons, pow_succ]
    ring

theorem beNat_append (a b : Bytes) : beNat (a ++ b) = beNat a * 256 ^ b.length + beNat b := by
  unfold beNat
  rw [List.foldl_append, foldl_bytes]

/-- A field reads back the number it was laid down for, within its width. -/
@[simp] theorem beNat_beBytes (k n : Nat) : beNat (beBytes k n) = n % 256 ^ k := by
  induction k with
  | zero => simp [beBytes, beNat, Nat.mod_one]
  | succ k ih =>
    have h : beBytes (k + 1) n = [BitVec.ofNat 8 (n / 256 ^ k)] ++ beBytes k n := rfl
    rw [h, beNat_append, ih, beBytes_length]
    simp only [beNat, List.foldl_cons, List.foldl_nil, BitVec.toNat_ofNat]
    have h' : n % 256 ^ (k + 1) = n % 256 ^ k + 256 ^ k * (n / 256 ^ k % 256) := by rw [pow_succ, Nat.mod_mul]
    rw [h']
    ring

/-- The field at the front of a block. -/
theorem field_front (bs post : Bytes) : field (bs ++ post) 0 bs.length = beNat bs := by
  unfold field
  rw [List.drop_zero, List.take_left]

/-- A field beyond the first bytes of a block is a field of the rest. -/
theorem field_skip (pre bs : Bytes) (k len : Nat) : field (pre ++ bs) (pre.length + k) len = field bs k len := by
  unfold field
  rw [List.drop_append, List.drop_eq_nil_of_le (by omega), List.nil_append, Nat.add_sub_cancel_left]

theorem field_cons_succ (b : Byte) (bs : Bytes) (k len : Nat) : field (b :: bs) (k + 1) len = field bs k len := rfl

theorem field_cons (b : Byte) (bs : Bytes) (off len : Nat) (h : 1 ≤ off) : field (b :: bs) off len = field bs (off - 1) len := by
  obtain ⟨k, rfl⟩ := Nat.exists_eq_add_of_le' h
  rfl

/-- A field laid down at the front by `beBytes`. -/
theorem field_beBytes (k n : Nat) (post : Bytes) : field (beBytes k n ++ post) 0 k = n % 256 ^ k := by
  have h := field_front (beBytes k n) post
  rw [beBytes_length, beNat_beBytes] at h
  exact h

/-- Skipping one field laid down by `beBytes`. -/
theorem field_past (w n : Nat) (post : Bytes) (off len : Nat) (h : w ≤ off) : field (beBytes w n ++ post) off len = field post (off - w) len := by
  have h' := field_skip (beBytes w n) post (off - w) len
  rw [beBytes_length, Nat.add_sub_cancel' h] at h'
  exact h'

theorem byteAt_past (w n : Nat) (post : Bytes) (off : Nat) (h : w ≤ off) : byteAt (beBytes w n ++ post) off = byteAt post (off - w) := by
  unfold byteAt
  rw [List.getD_append_right _ _ _ _ (by rw [beBytes_length]; exact h), beBytes_length]

theorem byteAt_beBytes_one (n : Nat) (post : Bytes) : byteAt (beBytes 1 n ++ post) 0 = BitVec.ofNat 8 n := by
  simp [byteAt, beBytes]

theorem byteAt_cons_zero (b : Byte) (bs : Bytes) : byteAt (b :: bs) 0 = b := rfl

theorem byteAt_cons_succ (b : Byte) (bs : Bytes) (k : Nat) : byteAt (b :: bs) (k + 1) = byteAt bs k := rfl

/-- A block padded with zeros, read at a place within it. -/
theorem padTo_get {n k : Nat} (bs : Bytes) (h : k < n) : (padTo n bs)[k]? = some (bs.getD k 0) := by
  unfold padTo
  rw [List.getElem?_take_of_lt h, List.getElem?_append]
  split
  · rename_i h'
    simp [List.getD, h']
  · rename_i h'
    rw [List.getElem?_replicate, if_pos (by omega)]
    simp [List.getD, List.getElem?_eq_none (by omega : bs.length ≤ k)]

end Sys2Proof.Machine
end

