-- ==== Sys2Proof/Laws/VoidRanges.lean ====
section
/-! SUPPORT. The void list's ranges: which values each operation lists, and that a merge keeps the form of R127. -/

namespace Sys2Proof.Machine

/-! ### The form of R127 -/

theorem rangesWf_nil : rangesWf [] := ⟨fun _ h => absurd h List.not_mem_nil, List.Pairwise.nil⟩

theorem rangesWf_tail {r : Nat × Nat} {rs : List (Nat × Nat)} (h : rangesWf (r :: rs)) : rangesWf rs :=
  ⟨fun x hx => h.1 x (List.mem_cons_of_mem _ hx), (List.pairwise_cons.mp h.2).2⟩

theorem rangesWf_head {r : Nat × Nat} {rs : List (Nat × Nat)} (h : rangesWf (r :: rs)) : r.1 ≤ r.2 :=
  h.1 r (List.mem_cons_self ..)

theorem rangesWf_lt {r x : Nat × Nat} {rs : List (Nat × Nat)} (h : rangesWf (r :: rs)) (hx : x ∈ rs) : r.2 + 1 < x.1 :=
  (List.pairwise_cons.mp h.2).1 x hx

theorem rangesWf_cons {r : Nat × Nat} {rs : List (Nat × Nat)} (h : rangesWf rs) (hr : r.1 ≤ r.2) (hlt : ∀ x ∈ rs, r.2 + 1 < x.1) :
    rangesWf (r :: rs) :=
  ⟨by
    intro x hx
    rcases List.mem_cons.mp hx with rfl | hx
    · exact hr
    · exact h.1 x hx, List.pairwise_cons.mpr ⟨hlt, h.2⟩⟩

theorem listed_iff (rs : List (Nat × Nat)) (x : Nat) : listed rs x = true ↔ ∃ r ∈ rs, r.1 ≤ x ∧ x ≤ r.2 := by
  simp [listed]

theorem listed_cons (r : Nat × Nat) (rs : List (Nat × Nat)) (x : Nat) :
    listed (r :: rs) x = true ↔ (r.1 ≤ x ∧ x ≤ r.2) ∨ listed rs x = true := by
  simp [listed]

theorem not_listed_nil (x : Nat) : ¬ listed [] x = true := by simp [listed]

/-- No value at or below the end of the first range is in a later one. -/
theorem not_listed_of_le {r : Nat × Nat} {rs : List (Nat × Nat)} (h : rangesWf (r :: rs)) {x : Nat} (hx : x ≤ r.2 + 1) :
    ¬ listed rs x = true := by
  rw [listed_iff]
  rintro ⟨y, hy, hlo, _⟩
  have := rangesWf_lt h hy
  omega

/-! ### Inserting -/

/-- Each range after a merge is one of those before that lies apart from the piece, or the merged one, which begins no lower than the
piece or some range. -/
theorem mem_mergePiece {rs : List (Nat × Nat)} {lo hi : Nat} {y : Nat × Nat} (hy : y ∈ mergePiece lo hi rs) (hlo : lo ≤ hi)
    (hrs : ∀ r ∈ rs, r.1 ≤ r.2) : y.1 ≤ y.2 ∧ (lo ≤ y.1 ∨ ∃ r ∈ rs, r.1 ≤ y.1) := by
  induction rs generalizing lo hi with
  | nil =>
    simp only [mergePiece, List.mem_singleton] at hy
    subst hy
    exact ⟨hlo, .inl le_rfl⟩
  | cons r rs ih =>
    have hr := hrs r (List.mem_cons_self ..)
    have ht : ∀ x ∈ rs, x.1 ≤ x.2 := fun x hx => hrs x (List.mem_cons_of_mem _ hx)
    simp only [mergePiece] at hy
    split at hy
    · rcases List.mem_cons.mp hy with rfl | hy
      · exact ⟨hr, .inr ⟨y, List.mem_cons_self .., le_rfl⟩⟩
      · obtain ⟨h1, h2 | ⟨q, hq, h2⟩⟩ := ih hy hlo ht
        · exact ⟨h1, .inl h2⟩
        · exact ⟨h1, .inr ⟨q, List.mem_cons_of_mem _ hq, h2⟩⟩
    · split at hy
      · rcases List.mem_cons.mp hy with rfl | hy
        · exact ⟨hlo, .inl le_rfl⟩
        · exact ⟨hrs y hy, .inr ⟨y, hy, le_rfl⟩⟩
      · obtain ⟨h1, h2⟩ := ih hy (by omega) ht
        refine ⟨h1, ?_⟩
        rcases h2 with h2 | ⟨q, hq, h2⟩
        · rcases Nat.le_total lo r.1 with h | h
          · exact .inl (by omega)
          · exact .inr ⟨r, List.mem_cons_self .., by omega⟩
        · exact .inr ⟨q, List.mem_cons_of_mem _ hq, h2⟩

/-- A merged piece keeps the form (R131). -/
theorem mergePiece_wf {rs : List (Nat × Nat)} (h : rangesWf rs) {lo hi : Nat} (hlo : lo ≤ hi) : rangesWf (mergePiece lo hi rs) := by
  induction rs generalizing lo hi with
  | nil => exact rangesWf_cons rangesWf_nil hlo fun _ hx => absurd hx List.not_mem_nil
  | cons r rs ih =>
    have ht := rangesWf_tail h
    have hr := rangesWf_head h
    simp only [mergePiece]
    split
    · rename_i hlt
      refine rangesWf_cons (ih ht hlo) hr fun x hx => ?_
      obtain ⟨_, h2 | ⟨q, hq, h2⟩⟩ := mem_mergePiece hx hlo ht.1
      · omega
      · have := rangesWf_lt h hq
        omega
    · split
      · rename_i h1 h2
        refine rangesWf_cons h hlo fun x hx => ?_
        rcases List.mem_cons.mp hx with rfl | hx
        · exact h2
        · have := rangesWf_lt h hx
          omega
      · exact ih ht (by omega)

/-- A merged piece lists the values that were listed and those of the piece (R131). -/
theorem listed_mergePiece {rs : List (Nat × Nat)} (h : rangesWf rs) {lo hi : Nat} (hlo : lo ≤ hi) (x : Nat) :
    listed (mergePiece lo hi rs) x = true ↔ listed rs x = true ∨ (lo ≤ x ∧ x ≤ hi) := by
  induction rs generalizing lo hi with
  | nil => simp [mergePiece, listed]
  | cons r rs ih =>
    have ht := rangesWf_tail h
    have hr := rangesWf_head h
    simp only [mergePiece]
    split
    · rw [listed_cons, ih ht hlo, listed_cons, or_assoc]
    · split
      · rw [listed_cons, or_comm]
      · rw [ih ht (by omega), listed_cons]
        have : (min lo r.1 ≤ x ∧ x ≤ max hi r.2) ↔ (r.1 ≤ x ∧ x ≤ r.2) ∨ (lo ≤ x ∧ x ≤ hi) := by omega
        rw [this]
        tauto

/-- A merge adds at most one range. -/
theorem mergePiece_length_le (rs : List (Nat × Nat)) (lo hi : Nat) : (mergePiece lo hi rs).length ≤ rs.length + 1 := by
  induction rs generalizing lo hi with
  | nil => simp [mergePiece]
  | cons r rs ih =>
    simp only [mergePiece]
    split
    · simpa using ih lo hi
    · split
      · simp
      · exact (ih _ _).trans (by simp)

theorem touches_iff (lo hi : Nat) (r : Nat × Nat) : touches lo hi r = true ↔ lo ≤ r.2 + 1 ∧ r.1 ≤ hi + 1 := by
  simp [touches]

/-- A piece that touches a range adds none. -/
theorem mergePiece_length_of_touches {rs : List (Nat × Nat)} (hw : rangesWf rs) {lo hi : Nat} (hlo : lo ≤ hi)
    (h : ∃ r ∈ rs, touches lo hi r = true) : (mergePiece lo hi rs).length ≤ rs.length := by
  induction rs generalizing lo hi with
  | nil => simp at h
  | cons r rs ih =>
    have ht := rangesWf_tail hw
    have hr := rangesWf_head hw
    simp only [mergePiece]
    split
    · rename_i hlt
      obtain ⟨q, hq, hq'⟩ := h
      rcases List.mem_cons.mp hq with rfl | hq
      · rw [touches_iff] at hq'
        omega
      · simpa using ih ht hlo ⟨q, hq, hq'⟩
    · split
      · rename_i h1 h2
        exfalso
        obtain ⟨q, hq, hq'⟩ := h
        rw [touches_iff] at hq'
        rcases List.mem_cons.mp hq with rfl | hq
        · omega
        · have := rangesWf_lt hw hq
          omega
      · exact (mergePiece_length_le rs _ _).trans (by simp)

/-! ### Leaving values out -/

/-- A value of a piece left when `h` is taken out is not `h`, and is one of the piece before. -/
theorem mem_cutPiece {h x : Nat} {p q : Nat × Nat} (hq : q ∈ cutPiece h p) (h1 : q.1 ≤ x) (h2 : x ≤ q.2) : x ≠ h ∧ p.1 ≤ x ∧ x ≤ p.2 := by
  unfold cutPiece at hq
  split at hq
  · rcases List.mem_append.mp hq with hq | hq <;> split at hq
    · obtain rfl := List.mem_singleton.mp hq; dsimp only at *; omega
    · cases hq
    · obtain rfl := List.mem_singleton.mp hq; dsimp only at *; omega
    · cases hq
  · obtain rfl := List.mem_singleton.mp hq
    omega

/-- A value of the pieces of a range is in the range and is none of those left out (R131). -/
theorem mem_piecesWithout {held : List Nat} {lo hi x : Nat} {q : Nat × Nat} (hq : q ∈ piecesWithout held lo hi) (h1 : q.1 ≤ x) (h2 : x ≤ q.2) :
    x ∉ held ∧ lo ≤ x ∧ x ≤ hi := by
  have key : ∀ (held : List Nat) (ps : List (Nat × Nat)), (∃ q ∈ held.foldl (fun ps h => ps.flatMap (cutPiece h)) ps, q.1 ≤ x ∧ x ≤ q.2) →
      x ∉ held ∧ ∃ p ∈ ps, p.1 ≤ x ∧ x ≤ p.2 := by
    intro held
    induction held with
    | nil => exact fun ps hq => ⟨List.not_mem_nil, hq⟩
    | cons h held ih =>
      intro ps hq
      obtain ⟨hn, p, hp, a, b⟩ := ih _ hq
      obtain ⟨r, hr, hc⟩ := List.mem_flatMap.mp hp
      obtain ⟨e1, e2⟩ := mem_cutPiece hc a b
      exact ⟨fun hm => (List.mem_cons.mp hm).elim e1 hn, r, hr, e2⟩
  obtain ⟨hn, p, hp, hx⟩ := key held _ ⟨q, hq, h1, h2⟩
  obtain rfl := List.mem_singleton.mp hp
  exact ⟨hn, hx⟩

/-! ### Removing -/

/-- A range list lists no value more when `x` is taken out, and no longer `x` (R134, R135). -/
theorem listed_removeRange (full : Bool) (x : Nat) {rs : List (Nat × Nat)} (hw : rangesWf rs) (y : Nat)
    (h : listed (removeRange full x rs).1 y = true) : listed rs y = true ∧ y ≠ x := by
  induction rs with
  | nil => cases h
  | cons r rs ih =>
    obtain ⟨lo, hi⟩ := r
    have hr : lo ≤ hi := rangesWf_head hw
    have above : listed rs y = true → hi + 1 < y := fun h => by
      by_contra hn
      exact not_listed_of_le hw (x := y) (by dsimp only; omega) h
    have hc := listed_cons (lo, hi) rs y
    simp only [removeRange] at h
    split at h
    · rcases (listed_cons _ _ _).mp h with h | h
      · exact ⟨hc.mpr (.inl h), by dsimp only at h; omega⟩
      · obtain ⟨a, b⟩ := ih (rangesWf_tail hw) h
        exact ⟨hc.mpr (.inr a), b⟩
    · have rest : listed rs y = true → listed ((lo, hi) :: rs) y = true ∧ y ≠ x :=
        fun h => ⟨hc.mpr (.inr h), by have := above h; omega⟩
      have own : ∀ {a b : Nat}, a ≤ y ∧ y ≤ b → lo ≤ a → b ≤ hi → x < a ∨ b < x → listed ((lo, hi) :: rs) y = true ∧ y ≠ x :=
        fun h1 h2 h3 h4 => ⟨hc.mpr (.inl ⟨by dsimp only; omega, by dsimp only; omega⟩), by omega⟩
      split at h
      · exact ((listed_cons _ _ _).mp h).elim (fun k => own k le_rfl le_rfl (by omega)) rest
      · split at h
        · exact rest h
        · split at h
          · exact ((listed_cons _ _ _).mp h).elim (fun k => own k (by omega) le_rfl (by omega)) rest
          · split at h
            · exact ((listed_cons _ _ _).mp h).elim (fun k => own k le_rfl (by omega) (by omega)) rest
            · split at h
              · exact ((listed_cons _ _ _).mp h).elim (fun k => own k (by omega) le_rfl (by omega)) rest
              · rcases (listed_cons _ _ _).mp h with k | h
                · exact own k le_rfl (by omega) (by omega)
                · exact ((listed_cons _ _ _).mp h).elim (fun k => own k (by omega) le_rfl (by omega)) rest

end Sys2Proof.Machine
end

