-- ==== Sys2Proof/Laws/Insertions.lean ====
section
/-! SUPPORT. Insertions of one value after another (R129 to R132): what they depend on, and the one event flag they raise. -/

namespace Sys2Proof.Machine

/-! ### What the held values depend on (R130) -/

theorem State.heldValues_congr {s t : State} (hq : t.queue = s.queue) (hw : t.window.records = s.window.records)
    (hs : ∀ i, (t.slot i).source = (s.slot i).source) : t.heldValues = s.heldValues := by
  unfold State.heldValues State.awaiting
  simp only [hq, hw, hs]

/-- The values held do not change while values are inserted. -/
@[simp] theorem State.insertRange_heldValues (s : State) (lo hi : Nat) : (s.insertRange lo hi).heldValues = s.heldValues :=
  State.heldValues_congr (by simp) (by simp) fun i => by simp

/-- What inserting values does to the void list depends on the held values and the void list alone. -/
theorem State.insertValues_voids_congr (xs : List Nat) : ∀ {s t : State}, t.heldValues = s.heldValues → t.voids = s.voids →
    (t.insertValues xs).voids = (s.insertValues xs).voids := by
  induction xs with
  | nil => exact fun _ h => h
  | cons x xs ih =>
    intro s t hh hv
    refine ih (s := s.insertRange x x) (t := t.insertRange x x) (by simpa using hh) ?_
    simp only [State.insertRange, State.raiseIf_voids, hh, hv]

theorem State.dropsInserting_congr {s t : State} (hh : t.heldValues = s.heldValues) (hv : t.voids = s.voids) (xs : List Nat) :
    t.dropsInserting xs ↔ s.dropsInserting xs := by
  unfold State.dropsInserting
  simp only [hh, State.insertValues_voids_congr _ hh hv]

/-! ### One value -/

/-- The pieces of one value: itself, unless it is held. -/
theorem piecesWithout_self (held : List Nat) (x : Nat) : piecesWithout held x x = if x ∈ held then [] else [(x, x)] := by
  have nil : ∀ held : List Nat, held.foldl (fun ps h => ps.flatMap (cutPiece h)) [] = [] := by
    intro held
    induction held with
    | nil => rfl
    | cons h held ih => exact ih
  unfold piecesWithout
  induction held with
  | nil => rfl
  | cons h held ih =>
    simp only [List.foldl_cons, List.flatMap_cons, List.flatMap_nil, List.append_nil, List.mem_cons]
    by_cases e : x = h
    · subst e
      rw [show cutPiece x (x, x) = [] by simp [cutPiece], nil, if_pos (.inl rfl)]
    · rw [show cutPiece h (x, x) = [(x, x)] by unfold cutPiece; rw [if_neg (by dsimp only; omega)], ih]
      simp [e]

/-- A merged piece lists its values. -/
theorem listed_mergePiece_self {lo hi x : Nat} (h1 : lo ≤ x) (h2 : x ≤ hi) (rs : List (Nat × Nat)) :
    listed (mergePiece lo hi rs) x = true := by
  induction rs generalizing lo hi with
  | nil => simp [mergePiece, listed, h1, h2]
  | cons r rs ih =>
    simp only [mergePiece]
    split
    · rw [listed_cons]; exact .inr (ih h1 h2)
    · split
      · rw [listed_cons]; exact .inl ⟨h1, h2⟩
      · exact ih (by omega) (by omega)

/-- A value placed on its own is dropped exactly when it is not listed then. -/
theorem VoidList.drops_iff (v : VoidList) (x : Nat) : v.drops (x, x) = true ↔ listed (v.place (x, x)).ranges x = false := by
  unfold VoidList.place
  constructor
  · intro h
    rw [if_pos h]
    simp only [VoidList.drops, Bool.and_eq_true, Bool.not_eq_true', List.any_eq_false, touches_iff] at h
    refine List.any_eq_false.mpr fun r hr => ?_
    have := h.1 r hr
    simp only [Bool.and_eq_true, decide_eq_true_eq]
    omega
  · intro h
    by_contra hn
    rw [if_neg hn, listed_mergePiece_self le_rfl le_rfl] at h
    cases h

/-- Inserting one value: it raises VOID_LIST_INCOMPLETE when the value is not held and is not listed then, and no other flag. -/
theorem State.insertValue_flagsDrop (s : State) (x : Nat) :
    s.FlagsDrop (s.insertValue x) (x ∉ s.heldValues ∧ listed (s.insertValue x).voids.ranges x = false) := by
  have hv : (s.insertValue x).voids = s.voids.insert (piecesWithout s.heldValues x x) := by simp [State.insertValue, State.insertRange]
  have he : (s.insertValue x).sup.events =
      if s.voids.dropsSome (piecesWithout s.heldValues x x) = true then s.sup.events ||| 0x800 else s.sup.events := by
    simp only [State.insertValue, State.insertRange, State.raiseIf]
    split <;> rfl
  unfold State.FlagsDrop
  rw [hv, he, piecesWithout_self]
  by_cases hx : x ∈ s.heldValues
  · simp [hx, VoidList.dropsSome]
  · have hr : (s.voids.insert [(x, x)]).ranges = (s.voids.place (x, x)).ranges := by
      unfold VoidList.insert
      dsimp only [List.foldl_cons, List.foldl_nil]
      split_ifs <;> rfl
    rw [if_neg hx, hr]
    simp only [VoidList.dropsSome, Bool.or_false, VoidList.drops_iff, hx, not_false_iff, true_and]
    exact ⟨fun h => if_pos h, fun h => if_neg h⟩

/-! ### Values in turn -/

theorem State.dropsInserting_nil (s : State) : ¬ s.dropsInserting [] := by
  rintro ⟨k, x, h, _⟩
  simp at h

theorem State.dropsInserting_cons (s : State) (x : Nat) (xs : List Nat) :
    s.dropsInserting (x :: xs) ↔
      (x ∉ s.heldValues ∧ listed (s.insertValue x).voids.ranges x = false) ∨ (s.insertValue x).dropsInserting xs := by
  have hh : (s.insertValue x).heldValues = s.heldValues := State.insertRange_heldValues s x x
  unfold State.dropsInserting
  rw [hh]
  constructor
  · rintro ⟨k, y, hk, h⟩
    cases k with
    | zero => cases hk; exact .inl h
    | succ k => exact .inr ⟨k, y, hk, h⟩
  · rintro (h | ⟨k, y, hk, h⟩)
    · exact ⟨0, x, rfl, h⟩
    · exact ⟨k + 1, y, hk, h⟩

theorem State.FlagsDrop.refl (s : State) {p : Prop} (h : ¬ p) : s.FlagsDrop s p := ⟨fun hp => absurd hp h, fun _ => rfl⟩

theorem State.FlagsDrop.trans {s t u : State} {p q : Prop} (h : s.FlagsDrop t p) (k : t.FlagsDrop u q) : s.FlagsDrop u (p ∨ q) := by
  obtain ⟨h1, h2⟩ := h
  obtain ⟨k1, k2⟩ := k
  by_cases hp : p <;> by_cases hq : q
  · refine ⟨fun _ => by rw [k1 hq, h1 hp, BitVec.or_assoc, BitVec.or_self], fun h => absurd (.inl hp) h⟩
  · exact ⟨fun _ => by rw [k2 hq, h1 hp], fun h => absurd (.inl hp) h⟩
  · exact ⟨fun _ => by rw [k1 hq, h2 hp], fun h => absurd (.inr hq) h⟩
  · exact ⟨fun h => absurd h (not_or.mpr ⟨hp, hq⟩), fun _ => by rw [k2 hq, h2 hp]⟩

theorem State.FlagsDrop.congr {s s' t t' : State} {p q : Prop} (h : s.FlagsDrop t p) (hs : s'.sup.events = s.sup.events)
    (ht : t'.sup.events = t.sup.events) (hp : q ↔ p) : s'.FlagsDrop t' q := by
  unfold State.FlagsDrop
  rw [hs, ht, hp]
  exact h

/-- Inserting values one at a time raises VOID_LIST_INCOMPLETE exactly when one of them is dropped, and no other flag (R131). -/
theorem State.insertValues_flagsDrop (xs : List Nat) : ∀ s : State, s.FlagsDrop (s.insertValues xs) (s.dropsInserting xs) := by
  induction xs with
  | nil => exact fun s => .refl s s.dropsInserting_nil
  | cons x xs ih =>
    intro s
    exact ((s.insertValue_flagsDrop x).trans (ih (s.insertValue x))).congr rfl rfl (s.dropsInserting_cons x xs)

end Sys2Proof.Machine
end

