-- ==== Sys2Proof/Laws/Raises.lean ====
section
/-! SUPPORT. What the shared operations do at the supervisor port: they raise events there, and touch nothing else of it. -/

namespace Sys2Proof.Machine

/-- From `s` to `t` the supervisor port saw events raised, and nothing else. -/
def State.Raises (s t : State) : Prop := ∃ e, t.sup = { s.sup with events := s.sup.events ||| e }

theorem State.Raises.of_eq {s t : State} (h : t.sup = s.sup) : s.Raises t := ⟨0, by rw [h]; simp⟩

theorem State.Raises.refl (s : State) : s.Raises s := .of_eq rfl

theorem State.Raises.trans {s t u : State} (h : s.Raises t) (k : t.Raises u) : s.Raises u := by
  obtain ⟨e, he⟩ := h
  obtain ⟨f, hf⟩ := k
  exact ⟨e ||| f, by rw [hf, he]; simp [BitVec.or_assoc]⟩

/-- Blocks beside the port may change first. -/
theorem State.Raises.from {s s' t : State} (h : s'.Raises t) (e : s'.sup = s.sup) : s.Raises t := by
  obtain ⟨x, hx⟩ := h
  exact ⟨x, by rw [hx, e]⟩

theorem State.Raises.into {s t t' : State} (h : s.Raises t) (e : t'.sup = t.sup) : s.Raises t' := by
  obtain ⟨x, hx⟩ := h
  exact ⟨x, by rw [e, hx]⟩

theorem State.raises_raise (s : State) (e : Event) : s.Raises (s.raise e) := ⟨e.flag, rfl⟩

theorem State.raises_raiseIf (s : State) (c : Bool) (e : Event) : s.Raises (s.raiseIf c e) := by
  cases c
  · exact .refl s
  · exact s.raises_raise e

theorem State.raises_forPorts (f : PortId → State → State) (h : ∀ (p : PortId) (t : State), t.Raises (f p t)) (s : State) : s.Raises (s.forPorts f) :=
  State.forPorts_keeps (P := fun t => s.Raises t) f (fun p t ht => ht.trans (h p t)) s (.refl s)

theorem State.raises_hold (s : State) (p : PortId) (q : Request) : s.Raises (s.hold p q) := (State.raises_raise _ _).from rfl

theorem State.raises_setReqSlot (s : State) (p : PortId) (x : ReqSlot) : s.Raises (s.setReqSlot p x) := .of_eq rfl

theorem State.raises_concludePort (p : PortId) (s : State) : s.Raises (State.concludePort p s) := by
  unfold State.concludePort
  (repeat' split) <;> first
    | exact .refl s
    | exact s.raises_hold _ _

theorem State.raises_settle (s : State) : s.Raises s.settle :=
  .into (t := s.dropTarget.forPorts State.concludePort)
    ((State.raises_forPorts _ State.raises_concludePort _).from (State.dropTarget_sup s)) (State.startFill_sup _)

theorem State.raises_insertRange (s : State) (lo hi : Nat) : s.Raises (s.insertRange lo hi) :=
  (State.raises_raiseIf _ _ _).from rfl

theorem State.raises_insertValues (xs : List Nat) : ∀ s : State, s.Raises (s.insertValues xs) := by
  induction xs with
  | nil => exact .refl
  | cons x xs ih => exact fun s => (s.raises_insertRange x x).trans (ih (s.insertValue x))

theorem State.raises_changeTakesEffect (s : State) : s.Raises s.changeTakesEffect := by
  unfold State.changeTakesEffect
  split
  · refine .into ?_ (State.queueJobEnd_sup _ _)
    refine .into ?_ (State.queueJobEnd_sup _ _)
    exact (State.raises_raise _ _).from (by simp)
  · exact .refl s

theorem State.raises_openingChanges (s : State) (q : Nat) : s.Raises (s.openingChanges q) := by
  unfold State.openingChanges
  (repeat' split) <;> first
    | exact .refl s
    | exact s.raises_changeTakesEffect

theorem State.raises_openingDrains (s : State) (q : Nat) : s.Raises (s.openingDrains q) := by
  unfold State.openingDrains
  (repeat' split) <;> exact .of_eq (by simp)

theorem State.raises_reportOpening (s : State) (q : Nat) : s.Raises (s.reportOpening q) :=
  (s.raises_openingChanges q).trans (State.raises_openingDrains _ q)

theorem State.raises_reportPass (s : State) (p : Nat) : s.Raises (s.reportPass p) := by
  unfold State.reportPass
  (repeat' split) <;> first
    | exact .refl s
    | exact s.raises_changeTakesEffect

theorem State.raises_reportExhausted (s : State) (i : SlotId) : s.Raises (s.reportExhausted i) := by
  unfold State.reportExhausted
  (repeat' split) <;> first
    | exact .refl s
    | exact s.raises_changeTakesEffect
    | exact .of_eq (by simp)

theorem State.raises_flush (s : State) (q : Nat) : s.Raises (s.flush q) := by
  simp only [State.flush]
  refine .into ?_ (State.withdrawNote_sup _ _ _)
  refine .into ?_ (State.withdrawNote_sup _ _ _)
  exact (State.raises_insertValues _ _).from (by simp)

theorem State.raises_passTo (s : State) (base p : Nat) : s.Raises (s.passTo base p) :=
  (s.raises_flush base).trans ((State.raises_reportPass _ p).from rfl)

theorem State.raises_catchUp (s : State) (r : Nat) : s.Raises (s.catchUp r) := by
  unfold State.catchUp
  (repeat' split) <;> first
    | exact .refl s
    | exact s.raises_passTo _ _

theorem State.raises_raiseTarget_catchUp (s : State) (r : Nat) : s.Raises ((s.raiseTarget r).catchUp r) :=
  (State.raises_catchUp _ r).from (State.raiseTarget_sup s r)

theorem State.raises_takeRequest (s : State) (p : PortId) (q : Request) (r : Nat) : s.Raises (s.takeRequest p q r) := by
  unfold State.takeRequest
  refine iteInduction (fun _ => s.raises_setReqSlot p _) fun _ => ?_
  refine iteInduction (fun _ => s.raises_setReqSlot p _) fun _ => ?_
  refine iteInduction (fun _ => s.raises_setReqSlot p _) fun _ => ?_
  exact ((s.raises_setReqSlot p _).trans (State.raises_raiseTarget_catchUp _ r)).trans (State.raises_settle _)

theorem State.raises_retakePort (p : PortId) (s : State) : s.Raises (State.retakePort p s) := by
  unfold State.retakePort
  split
  · rename_i q _
    dsimp only
    refine iteInduction (fun _ => s.raises_setReqSlot p _) fun _ => ?_
    refine iteInduction (fun _ => s.raises_setReqSlot p _) fun _ => ?_
    refine .trans (s.raises_raiseTarget_catchUp q.repeatIndex) ?_
    split
    · exact State.raises_setReqSlot _ _ _
    · exact iteInduction (fun _ => .refl _) fun _ => State.raises_setReqSlot _ _ _
  · exact .refl s

theorem State.raises_retakeHeld (s : State) : s.Raises s.retakeHeld :=
  (State.raises_forPorts _ State.raises_retakePort s).trans (State.raises_settle _)

theorem State.raises_checkWindowHigh (s : State) : s.Raises s.checkWindowHigh := (State.raises_raiseIf _ _ _).from rfl

theorem State.raises_openDraft (s : State) (d : Draft) (rest : List Draft) : s.Raises (s.openDraft d rest) := by
  simp only [State.openDraft]
  refine .trans ?_ (State.raises_settle _)
  refine .trans ?_ (State.raises_reportOpening _ _)
  exact (State.raises_checkWindowHigh _).from (by simp)

theorem State.raises_openReady (s : State) : s.Raises s.openReady :=
  State.openReady_keeps (P := s.Raises) (fun t d rest _ h => h.trans (t.raises_openDraft d rest)) (.refl s)

theorem State.raises_dropRecord (s : State) (r : Nat) : s.Raises (s.dropRecord r) := (State.raises_checkWindowHigh _).from rfl

theorem State.raises_closeRecord (s : State) (r : Nat) (kind : Closure) (codes : Bytes) : s.Raises (s.closeRecord r kind codes) := by
  unfold State.closeRecord
  split
  · exact .refl s
  · split
    · exact .refl s
    · refine .into ?_ (State.enqueue_sup _ _)
      exact (State.raises_insertValues _ _).from (State.settleRecord_sup _ _)

theorem State.raises_takeInsertions (n : Option Nat) (s : State) : s.Raises (s.takeInsertions n) := by
  unfold State.takeInsertions
  split
  · exact .refl s
  · dsimp only
    split
    · exact (State.raises_insertValues _ s).into (State.endClosing_sup _ _)
    · exact (State.raises_insertValues _ s).into (State.setClosing_sup _ _)

theorem State.raises_finishClosing (s : State) : s.Raises s.finishClosing := State.raises_takeInsertions none s

theorem State.raises_checkBufferHigh (s : State) : s.Raises s.checkBufferHigh := (State.raises_raiseIf _ _ _).from rfl

theorem State.raises_recordLeaves (s : State) (r : Nat) : s.Raises (s.recordLeaves r) := by
  unfold State.recordLeaves
  split
  · exact .refl s
  · refine .into ?_ (State.queueJobEnd_sup _ _)
    refine .trans ((State.raises_dropRecord s r).trans ?_) (State.raises_retakeHeld _)
    exact iteInduction (fun _ => State.raises_openReady _) fun _ => .refl _

theorem State.raises_itemAppended (s : State) (it : Item) : s.Raises (s.itemAppended it) := by
  cases it with
  | repeatItem r => exact s.raises_recordLeaves r
  | jobStart _ _ => exact .refl s
  | jobEnd i _ => exact ((State.raises_raise _ _).from (State.modSlot_sup _ _ _)).into (State.stopTimers_sup _)
  | postVoid _ => exact .refl s

theorem State.raises_appendAttempt (s : State) : s.Raises s.appendAttempt := by
  unfold State.appendAttempt
  split
  · exact .of_eq rfl
  · dsimp only
    split
    · exact (State.raises_raiseIf _ _ _).from rfl
    · refine .into ?_ (State.markDue_sup _)
      exact ((State.raises_checkBufferHigh _).trans (State.raises_itemAppended _ _)).from rfl

theorem State.raises_appendAll : ∀ (n : Nat) (s : State), s.Raises (appendAll n s)
  | 0, s => .refl s
  | n + 1, s => by
    unfold appendAll
    split
    · exact s.raises_appendAttempt.trans (State.raises_appendAll n _)
    · exact .refl s

theorem State.raises_expire (s : State) (p : PortId) : s.Raises (s.expire p) := by
  unfold State.expire
  dsimp only
  split <;> exact (State.raises_raise _ _).from (by simp)

theorem State.raises_portTick (p : PortId) (s : State) : s.Raises (State.portTick p s) := by
  unfold State.portTick
  split
  · exact .refl s
  · exact iteInduction (fun _ => s.raises_expire p) fun _ => .of_eq rfl

theorem State.raises_tick (s : State) : s.Raises s.tick :=
  (State.raises_forPorts _ State.raises_portTick s).into (State.gapTick_sup _)

theorem State.raises_startRun (s : State) (i : SlotId) : s.Raises (s.startRun i) := by
  simp only [State.startRun]
  refine .trans (t := State.queueJobStart _ _) ?_ (State.raises_settle _)
  refine .of_eq ?_
  rw [State.queueJobStart_sup]
  rw [State.forPorts_field State.sup _ (by intro p t; simp)]
  simp

theorem State.raises_stage (s : State) (i j : SlotId) (rc : Nat) : s.Raises (s.stage i j rc) := by
  simp only [State.stage]
  refine .trans ?_ (State.raises_settle _)
  refine .into ?_ (State.modSlot_sup _ _ _)
  exact (State.raises_flush _ _).from (State.modSlot_sup _ _ _)

theorem State.raises_stopNumbering (s : State) : s.Raises s.stopNumbering := by
  refine .into ?_ (State.queueJobEnd_sup _ _)
  refine .into ?_ (State.queueJobEnd_sup _ _)
  refine .trans (t := (s.flush s.firstUnopened).endRunning) ?_ (State.raises_retakeHeld _)
  exact (s.raises_flush _).into (State.endRunning_sup _)

theorem State.raises_abortAll (s : State) : s.Raises s.abortAll := by
  have key : ∀ (l : List Nat) (t : State), t.Raises (l.foldl (fun t r => t.closeRecord r .aborted []) t) := by
    intro l
    induction l with
    | nil => exact .refl
    | cons r l ih => exact fun t => (t.raises_closeRecord r .aborted []).trans (ih _)
  exact key _ s

theorem State.raises_release (s : State) : s.Raises s.release := by
  refine .trans (t := State.markDue _) ?_ (State.raises_appendAll _ _)
  exact .into (t := State.checkBufferHigh _) (.from (State.raises_checkBufferHigh { s with account := s.account.released }) rfl)
    (State.markDue_sup _)

theorem State.raises_postVoid (s : State) (i : SlotId) (tag lo hi operator : Nat) : s.Raises (s.postVoid i tag lo hi operator) := by
  unfold State.postVoid
  dsimp only
  have h : s.Raises (((s.modSlot i fun j => { j with tally := j.tally.postVoid (hi - lo + 1) }).insertRange lo hi).enqueue
      (.postVoid (postVoidBytes tag lo hi operator))) :=
    ((State.raises_insertRange _ _ _).from (State.modSlot_sup _ _ _)).into (State.enqueue_sup _ _)
  split
  · exact h.trans (State.raises_appendAttempt _)
  · exact h

theorem State.raises_drawNothing (s : State) (f : Fill) : s.Raises (s.drawNothing f) :=
  (State.raises_raiseIf _ _ _).from (by simp)

theorem State.raises_drawIssues (s : State) (f : Fill) (x : Nat) : s.Raises (s.drawIssues f x) :=
  (State.raises_raiseIf _ _ _).from (by simp)

theorem State.raises_fillFindsNothing (s : State) (f : Fill) : s.Raises (s.fillFindsNothing f) :=
  (State.raises_reportExhausted _ _).from (by simp)

/-- What a task leaves before TASK_END: a refusal, with a code of R182, leaves the whole state; a task carried out, or a word not recognised,
leaves RESULT, MASK and the bus address (R181, R182, R189). -/
def TaskOk (s : State) (r : TaskResult) : Prop :=
  (∃ code, 1 ≤ code ∧ code ≤ 12 ∧ r = (.refusal code, s)) ∨
    ((∀ code, r.1 ≠ .refusal code) ∧ r.2.sup.result = s.sup.result ∧ r.2.sup.mask = s.sup.mask ∧ r.2.sup.address = s.sup.address)

theorem TaskOk.refused {s : State} (code : Nat) (h1 : 1 ≤ code := by decide) (h2 : code ≤ 12 := by decide) :
    TaskOk s (.refusal code, s) := .inl ⟨code, h1, h2, rfl⟩

theorem TaskOk.done {s t : State} (bs : Bytes) (h : s.Raises t) : TaskOk s (.carriedOut bs, t) := by
  obtain ⟨e, he⟩ := h
  exact .inr ⟨by simp, by simp [he], by simp [he], by simp [he]⟩

theorem runPlan_ok (bs : Bytes) (s : State) : TaskOk s (runPlan bs s) := by
  unfold runPlan
  dsimp only
  refine iteInduction (fun _ => .refused 2) fun _ => ?_
  refine iteInduction (fun _ => .done _ (.of_eq rfl)) fun _ => ?_
  exact iteInduction (fun _ => .done _ (.of_eq rfl)) fun _ => .refused 3

theorem loadRefusal_code {s : State} {i : SlotId} {bs : Bytes} {o : TaskOutcome} (h : s.loadRefusal i bs = some o) :
    ∃ code, 1 ≤ code ∧ code ≤ 12 ∧ o = .refusal code := by
  unfold State.loadRefusal at h
  (repeat' split at h) <;> first
    | exact ⟨_, by decide, by decide, (Option.some.inj h).symm⟩
    | cases h

theorem runLdjb_ok (bs : Bytes) (s : State) : TaskOk s (runLdjb bs s) := by
  unfold runLdjb
  refine iteInduction (fun _ => .refused 2) fun _ => ?_
  split
  · exact .refused 1
  · split
    · rename_i h
      obtain ⟨code, h1, h2, rfl⟩ := loadRefusal_code h
      exact .refused code h1 h2
    · exact .done _ (.of_eq (State.modSlot_sup _ _ _))

theorem runStrt_ok (bs : Bytes) (s : State) : TaskOk s (runStrt bs s) := by
  unfold runStrt
  refine iteInduction (fun _ => .refused 2) fun _ => ?_
  split
  · exact .refused 3
  · exact iteInduction (fun _ => .refused 2) fun _ => .done _ (s.raises_startRun _)

theorem runSwap_ok (bs : Bytes) (s : State) : TaskOk s (runSwap bs s) := by
  unfold runSwap
  dsimp only
  split
  · refine iteInduction (fun _ => .refused 2) fun _ => ?_
    refine iteInduction (fun _ => .refused 3) fun _ => ?_
    refine iteInduction (fun _ => .refused 6) fun _ => ?_
    exact iteInduction (fun _ => .refused 7) fun _ => .done _ (s.raises_stage _ _ _)
  · exact .refused 2

theorem runStop_ok (bs : Bytes) (s : State) : TaskOk s (runStop bs s) := by
  unfold runStop
  split
  · exact .refused 2
  · exact .done _ s.raises_stopNumbering

theorem runQuit_ok (bs : Bytes) (s : State) : TaskOk s (runQuit bs s) := by
  unfold runQuit
  exact iteInduction (fun _ => .done _ ((s.raises_finishClosing.trans (State.raises_abortAll _)).trans (State.raises_stopNumbering _))) fun _ => .refused 2

theorem runAdmt_ok (bs : Bytes) (s : State) : TaskOk s (runAdmt bs s) := by
  unfold runAdmt
  dsimp only
  refine iteInduction (fun _ => .refused 3) fun _ => ?_
  split
  · exact .done _ (.of_eq ((State.restartTimer_sup _ _).trans (State.modPort_sup _ _ _)))
  · exact .refused 2

theorem runTaly_ok (bs : Bytes) (s : State) : TaskOk s (runTaly bs s) := by
  unfold runTaly
  split
  · exact .refused 3
  · exact .done _ (.refl s)

theorem runNext_ok (bs : Bytes) (s : State) : TaskOk s (runNext bs s) := by
  unfold runNext
  exact iteInduction (fun _ => .refused 9) fun _ => .done _ (.refl s)

theorem runRlse_ok (bs : Bytes) (s : State) : TaskOk s (runRlse bs s) := by
  unfold runRlse
  exact iteInduction (fun _ => .refused 9) fun _ => .done _ s.raises_release

theorem runPvod_ok (bs : Bytes) (s : State) : TaskOk s (runPvod bs s) := by
  unfold runPvod
  dsimp only
  refine iteInduction (fun _ => .refused 3) fun _ => ?_
  split
  · exact .refused 5
  · refine iteInduction (fun _ => .refused 12) fun _ => ?_
    refine iteInduction (fun _ => .refused 10) fun _ => ?_
    exact iteInduction (fun _ => .refused 11) fun _ => .done _ (s.raises_postVoid _ _ _ _ _)

theorem runVlrd_ok (bs : Bytes) (s : State) : TaskOk s (runVlrd bs s) := by
  unfold runVlrd
  exact iteInduction (fun _ => .refused 3) fun _ => .done _ (.refl s)

theorem runVlcl_ok (bs : Bytes) (s : State) : TaskOk s (runVlcl bs s) := by
  unfold runVlcl
  exact iteInduction (fun _ => .refused 2) fun _ => .done _ (.of_eq rfl)

theorem runRset_ok (bs : Bytes) (s : State) : TaskOk s (runRset bs s) := by
  unfold runRset
  exact iteInduction (fun _ => .refused 2) fun _ => .inr ⟨by simp, rfl, rfl, rfl⟩

theorem runWord_ok (word : BitVec 32) : ∀ (bs : Bytes) (s : State), TaskOk s (runWord word bs s) :=
  runWord_cases (P := fun f => ∀ bs s, TaskOk s (f bs s)) word runPlan_ok runLdjb_ok runStrt_ok runSwap_ok runStop_ok runQuit_ok runAdmt_ok
    runTaly_ok runNext_ok runRlse_ok runPvod_ok runVlrd_ok runVlcl_ok runRset_ok fun _ _ => .inr ⟨by simp, rfl, rfl, rfl⟩

end Sys2Proof.Machine
end

