-- ==== Sys2Proof/Laws/Settle.lean ====
section
/-! SUPPORT. What settling does (R45, R64, R66, R67): each waiting request is concluded, held or left, the opening target may go, and the
next fill may start. Nothing else changes. -/

namespace Sys2Proof.Machine

/-- `t` has the work of `s`: only the ports, the supervisor port and the opening target may differ. -/
def State.SameWork (s t : State) : Prop :=
  ∃ ps u w, t = { s with ports := ps, sup := u, window := { s.window with target := w } }

theorem State.SameWork.refl (s : State) : s.SameWork s := ⟨_, _, _, rfl⟩

theorem State.SameWork.trans {s t u : State} (h : s.SameWork t) (k : t.SameWork u) : s.SameWork u := by
  obtain ⟨_, _, _, rfl⟩ := h
  obtain ⟨_, _, _, rfl⟩ := k
  exact ⟨_, _, _, rfl⟩

theorem State.SameWork.concludes {s t : State} (h : s.SameWork t) (r : Nat) : t.concludes r = s.concludes r := by
  obtain ⟨_, _, _, rfl⟩ := h; rfl

theorem State.SameWork.blockedAt {s t : State} (h : s.SameWork t) (r : Nat) : t.blockedAt r = s.blockedAt r := by
  obtain ⟨_, _, _, rfl⟩ := h; rfl

theorem State.SameWork.nextFill {s t : State} (h : s.SameWork t) : t.nextFill = s.nextFill := by
  obtain ⟨_, _, _, rfl⟩ := h; rfl

theorem State.SameWork.draftBase {s t : State} (h : s.SameWork t) : t.draftBase = s.draftBase := by
  obtain ⟨_, _, _, rfl⟩ := h; rfl

theorem State.SameWork.queue {s t : State} (h : s.SameWork t) : t.queue = s.queue := by
  obtain ⟨_, _, _, rfl⟩ := h; rfl

/-- What concluding does to a port (R66, R67). -/
def State.concluded (s : State) (x : Port) : Port :=
  match x.slot with
  | .preparing q .waiting =>
    match s.concludes q.repeatIndex with
    | some a => { x with slot := .preparing q (.building a) }
    | none => if s.blockedAt q.repeatIndex then { x with slot := .held q .waiting, held := satAdd max16 x.held 1 } else x
  | .held q .waiting =>
    match s.concludes q.repeatIndex with
    | some a => { x with slot := .held q (.building a) }
    | none => x
  | _ => x

theorem State.SameWork.concluded {s t : State} (h : s.SameWork t) (x : Port) : t.concluded x = s.concluded x := by
  simp only [State.concluded, h.concludes, h.blockedAt]

theorem State.sameWork_concludePort (p : PortId) (s : State) : s.SameWork (State.concludePort p s) := by
  unfold State.concludePort
  repeat' split
  all_goals exact ⟨_, _, _, rfl⟩

theorem State.concludePort_port_self (p : PortId) (s : State) : (State.concludePort p s).port p = s.concluded (s.port p) := by
  unfold State.concludePort State.concluded
  repeat' split
  all_goals simp_all [State.setReqSlot, State.hold]

theorem State.concludePort_port_of_ne (p q : PortId) (s : State) (h : q ≠ p) : (State.concludePort p s).port q = s.port q := by
  unfold State.concludePort
  repeat' split
  all_goals first
    | rfl
    | exact State.modPort_port_of_ne s p q _ h
    | (rw [State.hold, State.raise_port]; exact State.modPort_port_of_ne s p q _ h)

theorem State.dropTarget_window (s : State) : s.dropTarget.window =
    { s.window with target := if s.draftBase.all (fun b => s.window.target.any fun t => t < b) then none else s.window.target } := by
  unfold State.dropTarget
  split <;> rfl

theorem State.sameWork_dropTarget (s : State) : s.SameWork s.dropTarget := by
  unfold State.dropTarget
  split
  all_goals exact ⟨_, _, _, rfl⟩

theorem State.sameWork_conclude (s : State) : s.SameWork (s.dropTarget.forPorts State.concludePort) :=
  State.forPorts_keeps (P := fun t => s.SameWork t) _ (fun p t ht => ht.trans (State.sameWork_concludePort p t)) _
    (State.sameWork_dropTarget s)

/-- A port after settling. -/
theorem State.settle_port (s : State) (p : PortId) : s.settle.port p = s.concluded (s.port p) := by
  have h : (s.dropTarget.forPorts State.concludePort).port p = s.concluded (s.dropTarget.port p) := by
    rw [State.forPorts_port (I := fun t => s.SameWork t) _ (fun _ => s.concluded)]
    · exact fun p t ht => ht.trans (State.sameWork_concludePort p t)
    · exact fun p t ht => by rw [State.concludePort_port_self, ht.concluded]
    · exact fun p q t _ hne => State.concludePort_port_of_ne p q t hne
    · exact State.sameWork_dropTarget s
  rw [State.settle, State.startFill_port, h, State.port, s.dropTarget_ports]
  rfl

/-- The queue after settling: the next fill has started, if one can (R45). -/
theorem State.settle_queue (s : State) : s.settle.queue = { s.queue with fill := s.nextFill.orElse fun _ => s.queue.fill } := by
  have h := State.sameWork_conclude s
  unfold State.settle State.startFill
  rw [h.nextFill]
  cases hn : s.nextFill with
  | some f => simp only [h.queue]; rfl
  | none => simp only [h.queue]; rfl

/-- The opening target after settling (R64). -/
theorem State.settle_window (s : State) : s.settle.window = s.dropTarget.window := by
  rw [State.settle, State.startFill_window, State.forPorts_field (fun t => t.window) _ (fun p t => State.concludePort_window t p)]

@[simp] theorem State.settle_records (s : State) : s.settle.window.records = s.window.records := by
  rw [State.settle_window, State.dropTarget_window]

@[simp] theorem State.settle_newest (s : State) : s.settle.window.newest = s.window.newest := by
  rw [State.settle_window, State.dropTarget_window]

@[simp] theorem State.settle_high (s : State) : s.settle.window.high = s.window.high := by
  rw [State.settle_window, State.dropTarget_window]

@[simp] theorem State.settle_drafts (s : State) : s.settle.queue.drafts = s.queue.drafts := by rw [State.settle_queue]

@[simp] theorem State.settle_passFloor (s : State) : s.settle.queue.passFloor = s.queue.passFloor := by rw [State.settle_queue]

/-- A fill that settling starts begins with nothing made, for a repeat its slot owns, from the counters as they stand (R23, R45). -/
theorem State.nextFill_spec {s : State} {f : Fill} (h : s.nextFill = some f) :
    f.entries = [] ∧ f.skipped = 0 ∧ f.drawn = [] ∧ f.before = (s.slot f.slot).before ∧ s.ownerOf f.target = some f.slot ∧
      (s.slot f.slot).note.allows f.target = true ∧ s.queue.fill = none ∧ s.queue.drafts.length < maxDrafts ∧
      ∃ b, s.draftBase = some b ∧ f.target = b + s.queue.drafts.length := by
  unfold State.nextFill at h
  split at h
  · cases h
  · rename_i hc
    simp only [not_or, Bool.not_eq_true, Option.isSome_eq_false_iff, Option.isNone_iff_eq_none, not_le] at hc
    split at h
    · cases h
    · rename_i b hb
      dsimp only at h
      split at h
      · cases h
      · rename_i i hi
        split at h
        · cases h
          exact ⟨rfl, rfl, rfl, rfl, hi, ‹_›, hc.1, hc.2, b, hb, rfl⟩
        · cases h

end Sys2Proof.Machine
end

