-- ==== Sys2Proof/Laws/JobControl.lean ====
section
/-! SUPPORT. What job control does when a staged change takes effect (R115 to R117): which slot runs, which drains, what joins the pending
queue and which event is raised; and that it only ever adds items behind the pending queue. -/

namespace Sys2Proof.Machine

/-- The account of `t` is that of `s` with items behind; an append becomes due when they join an empty queue (R148). -/
def State.Queued (s t : State) : Prop :=
  ∃ more, t.account = { s.account with
    queue := s.account.queue ++ more, due := s.account.due || (s.account.queue.isEmpty && !more.isEmpty) }

theorem State.Queued.of_eq {s t : State} (h : t.account = s.account) : s.Queued t := ⟨[], by rw [h]; simp⟩
theorem State.Queued.refl (s : State) : s.Queued s := .of_eq rfl
theorem State.Queued.trans {s t u : State} (h : s.Queued t) (k : t.Queued u) : s.Queued u := by
  obtain ⟨m, h⟩ := h
  obtain ⟨m', k⟩ := k
  refine ⟨m ++ m', ?_⟩
  rw [k, h]
  cases s.account.due <;> cases s.account.queue <;> cases m <;> simp
theorem State.Queued.from {s s' t : State} (h : s'.Queued t) (e : s'.account = s.account) : s.Queued t := (State.Queued.of_eq e).trans h
theorem State.Queued.into {s t t' : State} (h : s.Queued t) (e : t'.account = t.account) : s.Queued t' := h.trans (.of_eq e)

theorem State.queued_enqueue (s : State) (it : Item) : s.Queued (s.enqueue it) := ⟨[it], by simp [State.enqueue]⟩

/-- Whether an append is due, after items joined. -/
theorem State.Queued.due {s t : State} (h : s.Queued t) :
    t.account.due = (s.account.due || (s.account.queue.isEmpty && !t.account.queue.isEmpty)) := by
  obtain ⟨m, h⟩ := h
  rw [h]
  cases s.account.queue <;> simp

theorem State.queued_queueJobEnd (s : State) (i : SlotId) : s.Queued (s.queueJobEnd i) := by
  unfold State.queueJobEnd
  split
  · exact State.queued_enqueue _ _
  · exact .refl s
theorem State.queued_drain (s : State) (i : SlotId) : s.Queued (s.drain i) := (State.queued_queueJobEnd _ _).from (by simp)
theorem State.queued_changeTakesEffect (s : State) : s.Queued s.changeTakesEffect := by
  unfold State.changeTakesEffect
  split
  · refine .trans ?_ (State.queued_queueJobEnd _ _)
    refine .trans ?_ (State.queued_queueJobEnd _ _)
    refine .into ?_ (State.raise_account _ _)
    exact (State.queued_enqueue _ _).from (by simp)
  · exact .refl s
theorem State.queued_openingChanges (s : State) (q : Nat) : s.Queued (s.openingChanges q) := by
  unfold State.openingChanges
  repeat' split
  · exact State.queued_changeTakesEffect s
  · exact .refl s
  · exact .refl s
theorem State.queued_openingDrains (s : State) (q : Nat) : s.Queued (s.openingDrains q) := by
  unfold State.openingDrains
  repeat' split
  · exact State.queued_drain _ _
  · exact .refl s
  · exact .refl s
theorem State.queued_reportOpening (s : State) (q : Nat) : s.Queued (s.reportOpening q) :=
  (State.queued_openingChanges _ _).trans (State.queued_openingDrains _ _)

/-- Only the state and the change repeat of a slot differ. -/
def JobSlot.Same (x y : JobSlot) : Prop := y = { x with state := y.state, change := y.change }
theorem JobSlot.Same.refl (x : JobSlot) : x.Same x := rfl
theorem JobSlot.Same.trans {x y z : JobSlot} (h : x.Same y) (k : y.Same z) : x.Same z := by
  unfold JobSlot.Same at *; rw [h] at k; exact k

def State.SameSlots (s t : State) : Prop := ∀ k, (s.slot k).Same (t.slot k)
theorem State.SameSlots.refl (s : State) : s.SameSlots s := fun _ => rfl
theorem State.SameSlots.trans {s t u : State} (h : s.SameSlots t) (k : t.SameSlots u) : s.SameSlots u := fun i => (h i).trans (k i)
theorem State.sameSlots_drain (s : State) (i : SlotId) : s.SameSlots (s.drain i) := by
  intro k; simp only [State.drain, State.queueJobEnd_slot]
  cases i <;> cases k <;> rfl
theorem State.sameSlots_changeTakesEffect (s : State) : s.SameSlots s.changeTakesEffect := by
  intro k
  unfold State.changeTakesEffect
  split
  · simp only [State.queueJobEnd_slot, State.raise_slot, State.queueJobStart_slot]
    rename_i old new _ _ _
    cases old <;> cases new <;> cases k <;> rfl
  · rfl
theorem State.sameSlots_reportOpening (s : State) (q : Nat) : s.SameSlots (s.reportOpening q) := by
  have a : s.SameSlots (s.openingChanges q) := by
    unfold State.openingChanges
    repeat' split
    · exact State.sameSlots_changeTakesEffect s
    · exact .refl s
    · exact .refl s
  refine a.trans ?_
  show (s.openingChanges q).SameSlots ((s.openingChanges q).openingDrains q)
  generalize s.openingChanges q = u
  unfold State.openingDrains
  repeat' split
  · exact State.sameSlots_drain _ _
  · exact .refl u
  · exact .refl u

/-- A change takes effect: who runs, who drains. -/
theorem State.changeTakesEffect_slot {s : State} {i j : SlotId} {rc : Nat} (h1 : s.runningSlot = some i) (h2 : s.staged = some (j, rc)) (hne : i ≠ j) :
    s.changeTakesEffect.slot i = { s.slot i with state := .draining } ∧
    s.changeTakesEffect.slot j = { s.slot j with state := if (s.slot j).final = .empty then .draining else .running, change := none } := by
  unfold State.changeTakesEffect
  rw [h1, h2]
  simp only [State.queueJobEnd_slot, State.raise_slot, State.queueJobStart_slot]
  cases i <;> cases j <;> first | exact absurd rfl hne | exact ⟨rfl, rfl⟩

theorem State.changeTakesEffect_queued {s : State} {i j : SlotId} {rc : Nat} (h1 : s.runningSlot = some i) (h2 : s.staged = some (j, rc)) (hne : i ≠ j) :
    ∃ more, s.changeTakesEffect.account.queue = s.account.queue ++ .jobStart j (s.slot j).startBytes :: more := by
  unfold State.changeTakesEffect
  rw [h1, h2]
  dsimp only
  generalize hu : ((s.modSlot i fun j => { j with state := .draining }).modSlot j fun j => { j with state := if j.final = .empty then .draining else .running, change := none }) = u
  have e1 : (u.slot j).startBytes = (s.slot j).startBytes := by rw [← hu]; cases i <;> cases j <;> rfl
  have e2 : u.account = s.account := by rw [← hu]; simp
  have := (State.queued_queueJobEnd ((u.queueJobStart j).raise .jobChanged) j).trans (State.queued_queueJobEnd _ i)
  obtain ⟨m, h⟩ := this
  refine ⟨m, ?_⟩
  rw [h]
  simp only [State.raise_account, State.queueJobStart, State.enqueue, e1, e2]
  simp

theorem State.changeTakesEffect_event {s : State} {i j : SlotId} {rc : Nat} (h1 : s.runningSlot = some i) (h2 : s.staged = some (j, rc)) :
    s.changeTakesEffect.sup.events.getLsbD 8 = true := by
  unfold State.changeTakesEffect
  rw [h1, h2]
  simp only [State.queueJobEnd_sup]
  simp [State.raise, Event.flag, Event.place]

/-- An event that is raised stays raised. -/
theorem State.Raises.bit {s t : State} (h : s.Raises t) {k : Nat} (hk : s.sup.events.getLsbD k = true) : t.sup.events.getLsbD k = true := by
  obtain ⟨e, he⟩ := h
  rw [he]; simp [hk]

/-! ### The items a report adds -/

/-- The JOB_END that a slot queues when it is looked at (R122). -/
def State.endItems (s : State) (k : SlotId) : List Item :=
  if (s.slot k).state = .draining ∧ s.holdsRecordOf k = false ∧ s.account.queue.any (Item.isJobEndOf k) = false then
    [.jobEnd k (s.slot k).endBytes]
  else []

theorem State.queueJobEnd_items (s : State) (k : SlotId) : (s.queueJobEnd k).account.queue = s.account.queue ++ s.endItems k := by
  unfold State.queueJobEnd State.endItems
  split
  · rfl
  · simp

theorem State.queueJobEnd_holdsRecordOf (s : State) (k i : SlotId) : (s.queueJobEnd k).holdsRecordOf i = s.holdsRecordOf i := by
  unfold State.holdsRecordOf
  rw [State.queueJobEnd_window]

theorem SlotId.other_ne (i : SlotId) : i.other ≠ i := by cases i <;> simp

/-- A slot with no JOB_END waiting becomes DRAINING: its JOB_END joins where it has no record. -/
theorem State.drain_items {s : State} {i : SlotId} (hp : s.account.queue.any (Item.isJobEndOf i) = false) :
    (s.drain i).account.queue = s.account.queue ++ if s.holdsRecordOf i = false then [Item.jobEnd i (s.slot i).endBytes] else [] := by
  have ha : (s.modSlot i fun j => { j with state := .draining }).account = s.account := State.modSlot_account ..
  have hh : (s.modSlot i fun j => { j with state := .draining }).holdsRecordOf i = s.holdsRecordOf i := by
    unfold State.holdsRecordOf
    rw [State.modSlot_window]
  unfold State.drain
  rw [State.queueJobEnd_items, State.endItems, ha, hh, State.modSlot_slot_self, hp]
  simp only [true_and, and_true]
  rfl

theorem State.drain_slot (s : State) (i k : SlotId) :
    (s.drain i).slot k = if k = i then { s.slot i with state := .draining } else s.slot k := by
  unfold State.drain
  rw [State.queueJobEnd_slot, State.modSlot_slot]

/-- The items that a change in effect adds: the new slot's JOB_START, its JOB_END where it is EMPTY, the old slot's JOB_END (R112, R116, R117). -/
theorem State.changeTakesEffect_items {s : State} {i j : SlotId} {rc : Nat} (h1 : s.runningSlot = some i) (h2 : s.staged = some (j, rc))
    (hne : i ≠ j) (pi : s.account.queue.any (Item.isJobEndOf i) = false) (pj : s.account.queue.any (Item.isJobEndOf j) = false) :
    s.changeTakesEffect.account.queue = s.account.queue ++ .jobStart j (s.slot j).startBytes ::
      ((if (s.slot j).final = .empty ∧ s.holdsRecordOf j = false then [Item.jobEnd j (s.slot j).endBytes] else []) ++
        (if s.holdsRecordOf i = false then [Item.jobEnd i (s.slot i).endBytes] else [])) := by
  unfold State.changeTakesEffect
  rw [h1, h2]
  dsimp only
  generalize hu : ((s.modSlot i fun j => { j with state := .draining }).modSlot j fun j =>
    { j with state := if j.final = .empty then .draining else .running, change := none }) = u
  have ui : u.slot i = { s.slot i with state := .draining } := by
    rw [← hu, State.modSlot_slot, if_neg hne, State.modSlot_slot_self]
  have uj : u.slot j = { s.slot j with state := if (s.slot j).final = .empty then .draining else .running, change := none } := by
    rw [← hu, State.modSlot_slot_self, State.modSlot_slot, if_neg hne.symm]
  have ua : u.account = s.account := by rw [← hu]; simp
  have uh : ∀ k, u.holdsRecordOf k = s.holdsRecordOf k := by intro k; unfold State.holdsRecordOf; rw [← hu]; simp
  generalize hv : (u.queueJobStart j).raise .jobChanged = v
  have va : v.account.queue = s.account.queue ++ [.jobStart j (s.slot j).startBytes] := by
    rw [← hv, State.raise_account]; unfold State.queueJobStart State.enqueue; dsimp only; rw [ua, uj]; rfl
  have vs : ∀ k, v.slot k = u.slot k := by intro k; rw [← hv]; cases k <;> rfl
  have vh : ∀ k, v.holdsRecordOf k = s.holdsRecordOf k := fun k => by rw [← uh, ← hv]; rfl
  have e1 : v.endItems j = if (s.slot j).final = .empty ∧ s.holdsRecordOf j = false then [Item.jobEnd j (s.slot j).endBytes] else [] := by
    unfold State.endItems
    rw [vs, vh, va, uj, List.any_append, pj]
    simp only [List.any_cons, List.any_nil, Item.isJobEndOf, Bool.or_false]
    by_cases hf : (s.slot j).final = .empty <;> (simp [hf]; try rfl)
  have e2 : (v.queueJobEnd j).endItems i = if s.holdsRecordOf i = false then [Item.jobEnd i (s.slot i).endBytes] else [] := by
    have hx : (if (s.slot j).final = .empty ∧ s.holdsRecordOf j = false then [Item.jobEnd j (s.slot j).endBytes] else []).any
        (Item.isJobEndOf i) = false := by
      split <;> simp [Item.isJobEndOf, hne]
    unfold State.endItems
    rw [State.queueJobEnd_slot, vs, State.queueJobEnd_holdsRecordOf, vh, State.queueJobEnd_items, va, e1, ui, List.any_append,
      List.any_append, pi, hx]
    simp [Item.isJobEndOf]
    rfl
  rw [State.queueJobEnd_items, State.queueJobEnd_items, va, e1, e2]
  simp

/-- A report of an opening at `b`, whole: a staged change that takes effect makes its slot RUNNING, or DRAINING where it is EMPTY or ends with
`b`, and the other DRAINING; one that does not leaves both; with none staged the RUNNING slot drains where it ends with `b`; and which
items join the pending queue (R115 to R117, R120, R122). -/
theorem State.reportOpening_spec (s : State) (b : Nat)
    (hj : ∀ k, s.account.queue.any (Item.isJobEndOf k) = true → (s.slot k).state = .draining)
    (hc : ∀ i : SlotId, ∀ rc, (s.slot i).change = some rc → (s.slot i).state = .loaded) :
    let t := s.reportOpening b
    let ends := fun k : SlotId => if (t.slot k).state = .draining ∧ ∀ y ∈ s.window.records, y.slot ≠ k then
          [Item.jobEnd k (t.slot k).endBytes] else []
    (∀ i j rc, s.runningSlot = some i → s.staged = some (j, rc) →
         let empty := (s.slot j).final = .empty
         (rc ≤ b ∨ (empty ∧ (s.slot i).final = .known b) →
           (t.slot i).state = .draining ∧ (t.slot j).change = none ∧
           (t.slot j).state = (if empty ∨ ((s.slot j).note ≠ .unset ∧ (s.slot j).final = .known b) then .draining else .running) ∧
           t.account.queue = s.account.queue ++ .jobStart j (s.slot j).startBytes :: (if empty then ends j ++ ends i else ends i ++ ends j)) ∧
         (b < rc → ¬ (empty ∧ (s.slot i).final = .known b) → t = s ∧ (s.slot j).state = .loaded ∧ (s.slot j).change = some rc)) ∧
       (∀ i, s.runningSlot = some i → s.staged = none →
         (t.slot i).state = (if (s.slot i).note ≠ .unset ∧ (s.slot i).final = .known b then .draining else .running) ∧
         (t.slot i.other).state = (s.slot i.other).state ∧ t.account.queue = s.account.queue ++ ends i) := by
  intro t ends'
  have hold : ∀ k, s.holdsRecordOf k = false ↔ ∀ y ∈ s.window.records, y.slot ≠ k := by
    intro k; unfold State.holdsRecordOf; rw [List.any_eq_false]; simp
  have none_waits : ∀ k, (s.slot k).state ≠ .draining → s.account.queue.any (Item.isJobEndOf k) = false :=
    fun k h => Bool.eq_false_iff.mpr fun e => h (hj k e)
  have ts : ∀ k, (t.slot k).endBytes = (s.slot k).endBytes := by
    intro k; have := State.sameSlots_reportOpening s b k; unfold JobSlot.Same at this; rw [this]; rfl
  refine ⟨fun i j rc hr hst => ?_, fun i hr hst => ?_⟩
  · have hi := State.runningSlot_state hr
    have hjc := State.staged_change hst
    have hjl := hc j rc hjc
    have hne : i ≠ j := by rintro rfl; rw [hi] at hjl; cases hjl
    have hio : i.other = j := by cases i <;> cases j <;> first | rfl | exact absurd rfl hne
    have pi := none_waits i (by rw [hi]; nofun)
    have pj := none_waits j (by rw [hjl]; nofun)
    refine ⟨fun hcase => ?_, fun hlt hn => ?_⟩
    · have eoc : s.openingChanges b = s.changeTakesEffect := by
        unfold State.openingChanges
        rw [hst]
        dsimp only
        rw [if_pos (hcase.imp id fun h => ⟨h.1, by rw [hr, Option.map_some, h.2]⟩)]
      obtain ⟨ci, cj⟩ := State.changeTakesEffect_slot hr hst hne
      have hq := State.changeTakesEffect_items hr hst hne pi pj
      have uw : s.changeTakesEffect.window = s.window := by simp
      have ht : t = s.changeTakesEffect.openingDrains b := by show (s.openingChanges b).openingDrains b = _; rw [eoc]
      generalize s.changeTakesEffect = u at ci cj hq ht uw
      have ust : u.staged = none := by
        refine State.staged_none (i := i) ?_ (by rw [hio, cj])
        rw [ci]
        cases hx : (s.slot i).change with
        | none => rfl
        | some r => have := hc i r hx; rw [hi] at this; cases this
      have uh : u.holdsRecordOf j = s.holdsRecordOf j := by unfold State.holdsRecordOf; rw [uw]
      by_cases hf : (s.slot j).final = .empty
      · rw [if_pos hf] at cj
        have urun : u.runningSlot = none := by
          have a : (u.slot i).state = .draining := by rw [ci]
          have b : (u.slot j).state = .draining := by rw [cj]
          unfold State.runningSlot
          cases i <;> cases j <;> first | exact absurd rfl hne | simp_all [State.slot]
        have e4 : t = u := by rw [ht]; unfold State.openingDrains; rw [urun]
        have ti : (t.slot i).state = .draining := by rw [e4, ci]
        have tj : (t.slot j).state = .draining := by rw [e4, cj]
        refine ⟨ti, by rw [e4, cj], by rw [tj, if_pos (Or.inl hf)], ?_⟩
        show t.account.queue = _ ++ _ :: (if _ then ends' j ++ ends' i else _)
        rw [if_pos hf, e4, hq]
        simp only [ends', ti, tj, true_and, ts, hf, ← hold]
      · rw [if_neg hf] at cj
        have urun : u.runningSlot = some j := by
          have b : (u.slot j.other).state ≠ .running := by
            rw [← hio, show i.other.other = i by cases i <;> rfl, ci]; nofun
          exact State.runningSlot_of (by rw [cj]) b
        have e4 : t = if (s.slot j).note ≠ .unset ∧ (s.slot j).final = .known b then u.drain j else u := by
          rw [ht]; unfold State.openingDrains; rw [urun, ust]; dsimp only; rw [cj]
        have hq' : u.account.queue = s.account.queue ++ .jobStart j (s.slot j).startBytes ::
            (if s.holdsRecordOf i = false then [Item.jobEnd i (s.slot i).endBytes] else []) := by
          rw [hq]; simp [hf]
        by_cases hn : (s.slot j).note ≠ .unset ∧ (s.slot j).final = .known b
        · rw [if_pos hn] at e4
          have ti : (t.slot i).state = .draining := by rw [e4, State.drain_slot, if_neg hne, ci]
          have tj : (t.slot j).state = .draining := by rw [e4, State.drain_slot, if_pos rfl]
          refine ⟨ti, by rw [e4, State.drain_slot, if_pos rfl, cj], by rw [tj, if_pos (Or.inr hn)], ?_⟩
          have hx : u.account.queue.any (Item.isJobEndOf j) = false := by
            rw [hq', List.any_append, pj]
            split <;> simp [Item.isJobEndOf, Ne.symm hne]
          show t.account.queue = _ ++ _ :: (if _ then _ else ends' i ++ ends' j)
          rw [if_neg hf]
          simp only [ends', ti, tj, true_and, ts, ← hold]
          rw [e4, State.drain_items hx, hq', uh, cj]
          simp
          rfl
        · rw [if_neg hn] at e4
          have ti : (t.slot i).state = .draining := by rw [e4, ci]
          have tj : (t.slot j).state = .running := by rw [e4, cj]
          refine ⟨ti, by rw [e4, cj], by rw [tj, if_neg fun h => h.elim hf hn], ?_⟩
          show t.account.queue = _ ++ _ :: (if _ then _ else ends' i ++ ends' j)
          rw [if_neg hf, e4, hq']
          simp only [ends', ti, tj, true_and, ts, ← hold]
          simp
    · refine ⟨?_, hjl, hjc⟩
      have eoc : s.openingChanges b = s := by
        unfold State.openingChanges
        rw [hst]
        dsimp only
        rw [if_neg]
        rintro (h | ⟨h1, h2⟩)
        · omega
        · rw [hr, Option.map_some] at h2; exact hn ⟨h1, Option.some.inj h2⟩
      show (s.openingChanges b).openingDrains b = _
      rw [eoc]; unfold State.openingDrains; rw [hr, hst]
  · have hi := State.runningSlot_state hr
    have eoc : s.openingChanges b = s := by unfold State.openingChanges; rw [hst]
    have e4 : t = if (s.slot i).note ≠ .unset ∧ (s.slot i).final = .known b then s.drain i else s := by
      show (s.openingChanges b).openingDrains b = _
      rw [eoc]; unfold State.openingDrains; rw [hr, hst]
    by_cases hn : (s.slot i).note ≠ .unset ∧ (s.slot i).final = .known b
    · rw [if_pos hn] at e4
      have ti : (t.slot i).state = .draining := by rw [e4, State.drain_slot, if_pos rfl]
      refine ⟨by rw [ti, if_pos hn], by rw [e4, State.drain_slot, if_neg (SlotId.other_ne i)], ?_⟩
      simp only [ends', ti, true_and, ts, ← hold]
      rw [e4, State.drain_items (none_waits i (by rw [hi]; nofun))]
    · rw [if_neg hn] at e4
      have ti : (t.slot i).state = .running := by rw [e4, hi]
      refine ⟨by rw [ti, if_neg hn], by rw [e4], ?_⟩
      show _ = _ ++ ends' i
      simp only [ends', ti]
      rw [e4]; simp

end Sys2Proof.Machine
end

