-- ==== Sys2Proof/Laws/Memory.lean ====
section
/-! SUPPORT. The account ring's bytes: what a write leaves at each offset, and that every operation keeps the canonical form. -/

namespace Sys2Proof.Machine

theorem Memory.wf_nil : Memory.wf [] := ⟨List.Pairwise.nil, fun _ h => absurd h List.not_mem_nil⟩

theorem Memory.wf_tail {c : Host.Cell} {m : Memory} (h : Memory.wf (c :: m)) : Memory.wf m :=
  ⟨(List.pairwise_cons.mp h.1).2, fun d hd => h.2 d (List.mem_cons_of_mem _ hd)⟩

theorem Memory.head_lt {c : Host.Cell} {m : Memory} (h : Memory.wf (c :: m)) {d : Host.Cell} (hd : d ∈ m) : c.1 < d.1 :=
  (List.pairwise_cons.mp h.1).1 d hd

theorem Memory.wf_cons {c : Host.Cell} {m : Memory} (hm : Memory.wf m) (hc : c.2 ≠ Config.unwrittenByte)
    (hlt : ∀ d ∈ m, c.1 < d.1) : Memory.wf (c :: m) :=
  ⟨List.pairwise_cons.mpr ⟨hlt, hm.1⟩, by
    intro d hd
    rcases List.mem_cons.mp hd with rfl | hd
    · exact hc
    · exact hm.2 d hd⟩

/-- A cell of a written ring is a cell of the ring before, or the one written. -/
theorem Memory.mem_write {m : Memory} {a : Nat} {b : Byte} {d : Host.Cell} (h : d ∈ Memory.write m a b) : d ∈ m ∨ d = (a, b) := by
  induction m with
  | nil =>
    simp only [Memory.write] at h
    split at h <;> simp_all
  | cons c m ih =>
    obtain ⟨k, c⟩ := c
    simp only [Memory.write] at h
    split at h
    · rcases List.mem_cons.mp h with rfl | h
      · exact .inl (List.mem_cons_self ..)
      · rcases ih h with h | h
        · exact .inl (List.mem_cons_of_mem _ h)
        · exact .inr h
    · split at h
      · split at h
        · exact .inl (List.mem_cons_of_mem _ h)
        · rcases List.mem_cons.mp h with h | h
          · exact .inr h
          · exact .inl (List.mem_cons_of_mem _ h)
      · split at h
        · exact .inl h
        · rcases List.mem_cons.mp h with h | h
          · exact .inr h
          · exact .inl h

/-- A write keeps the canonical form. -/
theorem Memory.write_wf {m : Memory} (h : Memory.wf m) (a : Nat) (b : Byte) : Memory.wf (Memory.write m a b) := by
  induction m with
  | nil =>
    simp only [Memory.write]
    split
    · exact h
    · rename_i hb
      exact Memory.wf_cons Memory.wf_nil hb fun _ hd => absurd hd List.not_mem_nil
  | cons c m ih =>
    obtain ⟨k, c⟩ := c
    have hm := Memory.wf_tail h
    have hc : c ≠ Config.unwrittenByte := h.2 (k, c) (List.mem_cons_self ..)
    simp only [Memory.write]
    split
    · rename_i hk
      refine Memory.wf_cons (ih hm) hc fun d hd => ?_
      rcases Memory.mem_write hd with hd | rfl
      · exact Memory.head_lt h hd
      · exact hk
    · split
      · rename_i hk
        subst hk
        split
        · exact hm
        · rename_i hb
          exact Memory.wf_cons hm hb fun d hd => Memory.head_lt h hd
      · rename_i h1 h2
        split
        · exact h
        · rename_i hb
          refine Memory.wf_cons h hb fun d hd => ?_
          rcases List.mem_cons.mp hd with rfl | hd
          · exact lt_of_le_of_ne (not_lt.mp h1) (Ne.symm h2)
          · exact lt_trans (lt_of_le_of_ne (not_lt.mp h1) (Ne.symm h2)) (Memory.head_lt h hd)

/-- Writing bytes keeps the canonical form. -/
theorem Memory.writeBytes_wf {m : Memory} (h : Memory.wf m) (a : Nat) (bs : Bytes) : Memory.wf (Memory.writeBytes m a bs) := by
  induction bs generalizing m a with
  | nil => exact h
  | cons b bs ih => exact ih (Memory.write_wf h a b) (a + 1)

theorem Memory.read_of_lt {m : Memory} {a : Nat} (h : ∀ d ∈ m, a < d.1) : Memory.read m a = Config.unwrittenByte := by
  induction m with
  | nil => rfl
  | cons c m ih =>
    obtain ⟨k, c⟩ := c
    have hk : a < k := h (k, c) (List.mem_cons_self ..)
    simp only [Memory.read, if_neg (Nat.ne_of_gt hk)]
    exact ih fun d hd => h d (List.mem_cons_of_mem _ hd)

/-- A read after a write to the same offset gives the byte written; every other offset reads as before. -/
theorem Memory.read_write {m : Memory} (h : Memory.wf m) (a x : Nat) (b : Byte) :
    Memory.read (Memory.write m a b) x = if x = a then b else Memory.read m x := by
  induction m with
  | nil =>
    simp only [Memory.write]
    split <;> rename_i hb <;> by_cases hx : x = a <;> simp [Memory.read, hb, hx, eq_comm]
    exact fun e => absurd e.symm hx
  | cons c m ih =>
    obtain ⟨k, c⟩ := c
    have hm := Memory.wf_tail h
    have hlow : ∀ y, y ≤ k → Memory.read m y = Config.unwrittenByte := fun y hy =>
      Memory.read_of_lt fun d hd => lt_of_le_of_lt hy (Memory.head_lt h hd)
    simp only [Memory.write]
    split
    · rename_i hk
      simp only [Memory.read, ih hm]
      by_cases hx : x = a
      · subst hx
        rw [if_neg (Nat.ne_of_lt hk)]
        simp
      · simp [hx]
    · split
      · rename_i hk
        subst hk
        split
        · rename_i hb
          by_cases hx : x = k
          · subst hx
            simp [hlow x le_rfl, hb]
          · simp [Memory.read, hx, Ne.symm hx]
        · by_cases hx : x = k
          · simp [Memory.read, hx]
          · simp [Memory.read, hx, Ne.symm hx]
      · rename_i h1 h2
        have hak : a < k := lt_of_le_of_ne (not_lt.mp h1) (Ne.symm h2)
        split
        · rename_i hb
          by_cases hx : x = a
          · subst hx
            simp [Memory.read, h2, hlow x (le_of_lt hak), hb]
          · simp [hx]
        · by_cases hx : x = a
          · simp [Memory.read, hx]
          · simp [Memory.read, hx, Ne.symm hx]

/-- Writing bytes writes each at its own offset and leaves every other offset as it was. -/
theorem Memory.read_writeBytes {m : Memory} (h : Memory.wf m) (a : Nat) (bs : Bytes) (x : Nat) :
    Memory.read (Memory.writeBytes m a bs) x = if a ≤ x ∧ x < a + bs.length then bs.getD (x - a) 0 else Memory.read m x := by
  induction bs generalizing m a with
  | nil =>
    rw [if_neg (by simp)]
    rfl
  | cons b bs ih =>
    simp only [Memory.writeBytes, ih (Memory.write_wf h a b), Memory.read_write h, List.length_cons]
    by_cases hx : x = a
    · subst hx
      rw [if_neg (by omega), if_pos rfl, if_pos (by omega)]
      simp
    · by_cases hin : a + 1 ≤ x ∧ x < a + 1 + bs.length
      · rw [if_pos hin, if_pos (by omega)]
        have : x - a = (x - (a + 1)) + 1 := by omega
        rw [this]
        simp
      · rw [if_neg hin, if_neg hx, if_neg (by omega)]

theorem Memory.readBytes_length (m : Memory) (a n : Nat) : (Memory.readBytes m a n).length = n := by
  induction n generalizing a with
  | zero => rfl
  | succ n ih => simp [Memory.readBytes, ih]

/-- Reading back what was written gives the bytes written. -/
theorem Memory.readBytes_writeBytes {m : Memory} (h : Memory.wf m) (a : Nat) (bs : Bytes) :
    Memory.readBytes (Memory.writeBytes m a bs) a bs.length = bs := by
  have key : ∀ (n k : Nat), k + n = bs.length →
      Memory.readBytes (Memory.writeBytes m a bs) (a + k) n = bs.drop k := by
    intro n
    induction n with
    | zero => intro k hk; simp [Memory.readBytes, List.drop_eq_nil_of_le (by omega : bs.length ≤ k)]
    | succ n ih =>
      intro k hk
      have hlt : k < bs.length := by omega
      rw [Memory.readBytes, Memory.read_writeBytes h, if_pos (by omega), List.drop_eq_getElem_cons hlt]
      congr 1
      · have : a + k - a = k := by omega
        rw [this, List.getD_eq_getElem _ _ hlt]
      · have := ih (k + 1) (by omega)
        rwa [← Nat.add_assoc] at this
  simpa using key bs.length 0 (by omega)

/-- The ring is in canonical form at reset. -/
theorem Account.reset_ring_wf : Memory.wf Account.reset.ring := Memory.wf_nil

end Sys2Proof.Machine
end

