-- ==== Sys2Proof/Laws/Numbering.lean ====
section
/-! SUPPORT. The numbering stays within its job (R17, R34): a move, a take, a load and a restore keep every counter in the domain and its
ordinal within the span; and a slot that LDJB may load has no number outstanding. -/

namespace Sys2Proof.Machine

theorem Rules.domain_pos (r : Rules) : 0 < r.domain := Nat.pow_pos (by decide)

/-- An exact value reduced to the domain lies in it. -/
theorem Rules.reduced_lt (r : Rules) (t : Int) : (t % (r.domain : Int)).toNat < r.domain := by
  have hp : (0 : Int) < r.domain := by exact_mod_cast r.domain_pos
  have h1 := Int.emod_lt_of_pos t hp
  have h2 := Int.emod_nonneg t hp.ne'
  omega

/-- A move keeps the counter within its rules where the span has room for it (R32 to R34). -/
theorem Rules.within_move {r : Rules} {c : Counter} {k : Nat} (h : r.within c.v c.o) (hk : c.o + k ≤ r.span) :
    r.within (c.move r k).1.v (c.move r k).1.o := by
  unfold Counter.move
  dsimp only
  split
  · rename_i ht
    refine ⟨?_, hk⟩
    change (r.moveTarget c.v k).toNat < r.domain
    omega
  · split
    · exact ⟨r.reduced_lt _, hk⟩
    · split
      · exact ⟨h.1, hk⟩
      · exact ⟨h.1, hk⟩

/-- A jump does not pass the span (R28). -/
theorem jumpCount_le {r : Rules} {c : Counter} (x : Nat × Nat) (h : c.o ≤ r.span) : c.o + jumpCount r c x ≤ r.span := by
  unfold jumpCount
  omega

/-- A take keeps its counter within the rules and issues a value of the domain (R34). -/
theorem Rules.within_take {r : Rules} {c : Counter} (h : r.within c.v c.o) :
    r.within (c.take r).counter.v (c.take r).counter.o ∧ ∀ v, (c.take r).entry.value = some v → v < 10 ^ r.width := by
  have key : ∀ (n : Nat) (c : Counter) (k : Nat) (b : Bool), r.within c.v c.o →
      r.within (takeLoop r n c k b).counter.v (takeLoop r n c k b).counter.o ∧
      ∀ v, (takeLoop r n c k b).entry.value = some v → v < 10 ^ r.width := by
    intro n
    induction n with
    | zero => exact fun c k b h => ⟨h, fun v e => nomatch e⟩
    | succ n ih =>
      intro c k b h
      unfold takeLoop
      split
      · exact ⟨h, fun v e => nomatch e⟩
      · rename_i hs
        have h1 : c.o + 1 ≤ r.span := by have := not_or.mp hs; omega
        split
        · exact ⟨h, fun v e => nomatch e⟩
        · split
          · exact ih _ _ _ (Rules.within_move h (jumpCount_le _ h.2))
          · dsimp only
            split
            · exact ih _ _ _ (Rules.within_move h h1)
            · exact ⟨Rules.within_move h h1, fun v e => by cases e; exact h.1⟩
  exact key _ c 0 false h

/-- The counters at load are within the rules (R21). -/
theorem Rules.within_counters {r : Rules} (lanes : Nat) (hs : r.start < 10 ^ r.width) : ∀ c ∈ r.counters lanes, r.within c.v c.o := by
  intro c hc
  unfold Rules.counters at hc
  split at hc
  · obtain rfl := List.mem_singleton.mp hc
    exact ⟨hs, Nat.zero_le _⟩
  · obtain ⟨a, _, rfl⟩ := List.mem_map.mp hc
    exact ⟨r.reduced_lt _, Nat.zero_le _⟩

/-- Counters set back to a before-state within the rules are within them (R26). -/
theorem Rules.within_restore {r : Rules} {bs : List CounterSnap} (cs : List Counter) (h : ∀ b ∈ bs, r.within b.v b.o) :
    ∀ c ∈ List.zipWith Counter.restore cs bs, r.within c.v c.o := by
  intro c hc
  obtain ⟨k, hk, rfl⟩ := List.getElem_of_mem hc
  rw [List.getElem_zipWith]
  exact h _ (List.getElem_mem _)

/-- A job that LDJB accepts starts, and ends its make-up window, in its domain (R17, R18). -/
theorem jobRules_domain {bs : Bytes} (hb : jobBlockOk bs = true) :
    (jobRules bs).start < 10 ^ (jobRules bs).width ∧ (jobRules bs).whi < 10 ^ (jobRules bs).width := by
  unfold jobBlockOk at hb
  dsimp only at hb
  have hb := ((Bool.and_eq_true _ _).mp hb).2
  cases e : jobSource bs with
  | makeup =>
    have e1 : (jobRules bs).start = 0 := by unfold jobRules; dsimp only; rw [e]; rfl
    rw [e] at hb
    rw [e1]
    exact ⟨Rules.domain_pos _, of_decide_eq_true ((Bool.and_eq_true _ _).mp hb).2⟩
  | series =>
    have e1 : (jobRules bs).whi = 0 := by unfold jobRules; dsimp only; rw [e]; rfl
    rw [e] at hb
    rw [e1]
    simp only [Bool.and_eq_true, decide_eq_true_eq] at hb
    exact ⟨hb.1.1.1.1.1.1.1, Rules.domain_pos _⟩

/-- A slot that LDJB may load is no draft's, not the fill's and no record's. -/
theorem State.unused_of_loadable {s : State} (hs : s.slotsOk) (hb : s.booksOk) {i : SlotId} (h : (s.slot i).state.loadable = true) :
    (∀ d ∈ s.queue.drafts, d.slot ≠ i) ∧ (∀ f, s.queue.fill = some f → f.slot ≠ i) ∧ ∀ x ∈ s.window.records, x.slot ≠ i := by
  have owner : ∀ q, s.ownerOf q ≠ some i := by
    intro q e
    rcases State.ownerOf_cases e with e | ⟨rc, e⟩
    · rw [State.runningSlot_state e] at h; cases h
    · rw [((hs.2 i).2.1 rc (State.staged_change e)).1] at h; cases h
  refine ⟨fun d hd e => ?_, fun f hf e => ?_, fun x hx e => ?_⟩
  · obtain ⟨k, hk, hkd⟩ := List.getElem_of_mem hd
    obtain ⟨_, _, _, ho⟩ := hb.1 k d (by rw [List.getElem?_eq_getElem hk, hkd])
    exact owner _ (e ▸ ho)
  · obtain ⟨_, _, _, ho⟩ := hb.2.1 f hf
    exact owner _ (e ▸ ho)
  · have hr := (hb.2.2.2.1 x hx).1
    rw [e] at hr
    cases hi : (s.slot i).state <;> simp [hi, SlotState.loadable, SlotState.inRun] at h hr

end Sys2Proof.Machine
end

