-- ==== Sys2Proof/Laws/Openings.lean ====
section
/-! SUPPORT. Openings in turn (R63, R64): when RECORD_OPEN opens, what one opening does to the drafts, the records and the high mark, and what
a resumed opening leaves. -/

namespace Sys2Proof.Machine

/-- The drafts that may open are those the words of the statements give. -/
theorem State.openable_iff (s : State) (d : Draft) (rest : List Draft) :
    s.openable = some (d, rest) ↔ ∃ g, s.queue.drafts = d :: rest ∧ s.draftBase = some d.repeatIndex ∧ s.window.target = some g ∧
      d.repeatIndex ≤ g ∧ ∀ y, s.window.records.head? = some y → d.repeatIndex < y.repeatIndex + 48 := by
  have head : ∀ b, s.oldest.all (fun o => b < o + windowSpan) = true ↔ ∀ y, s.window.records.head? = some y → b < y.repeatIndex + 48 := by
    intro b
    unfold State.oldest
    cases s.window.records.head? with
    | none => simp
    | some y =>
      simp only [Option.map_some, Option.all_some, decide_eq_true_eq, Option.some.injEq, forall_eq']
      rfl
  unfold State.openable
  constructor
  · intro h
    split at h
    · rename_i g b e es hg hb hd
      split at h
      · rename_i hc
        cases h
        obtain ⟨h1, rfl, h3⟩ := hc
        exact ⟨g, hd, hb, hg, h1, (head _).mp h3⟩
      · cases h
    · cases h
  · rintro ⟨g, hd, hb, hg, h1, h2⟩
    rw [hd, hb, hg]
    exact if_pos ⟨h1, rfl, (head _).mpr h2⟩

/-- The window may open exactly when it has a draft to open. -/
theorem State.mayOpen_iff (s : State) : s.mayOpen ↔ ∃ d rest, s.openable = some (d, rest) := by
  simp only [State.openable_iff]; rfl

/-- A window that may not open stays as it is. -/
theorem State.openNext_of_not {s : State} (h : ¬ s.mayOpen) : s.openNext = s := by
  unfold State.openNext
  split
  · rfl
  · rename_i d rest ho; exact absurd ((State.mayOpen_iff s).mpr ⟨d, rest, ho⟩) h

/-- One opening takes the oldest draft, adds its record and sets the high mark by the occupancy (R63, R82). -/
theorem State.openDraft_facts (s : State) (d : Draft) (rest : List Draft) :
    (s.openDraft d rest).queue.drafts = rest ∧
    (s.openDraft d rest).window.records = s.window.records ++ [s.openedRecord d] ∧
    (s.openDraft d rest).window.high = decide (s.plan.winHigh ≤ s.window.records.length + 1) := by
  unfold State.openDraft
  dsimp only
  refine ⟨?_, ?_, ?_⟩
  · rw [State.settle_drafts, State.reportOpening_queue]; simp [State.checkWindowHigh]
  · rw [State.settle_records, State.reportOpening_window]; simp [State.checkWindowHigh]
  · rw [State.settle_high, State.reportOpening_window]; simp [State.checkWindowHigh, State.occupancy]

/-- Openings in turn (H6): a number of them, each of a draft that may open then, until none may; the oldest drafts become the newest records. -/
theorem State.openReady_spec (s : State) : ∃ k, s.opensTo k s.openReady ∧ ¬ s.openReady.mayOpen ∧
    s.openReady.queue.drafts = s.queue.drafts.drop k ∧
    s.openReady.window.records.map Record.repeatIndex = s.window.records.map Record.repeatIndex ++ (s.queue.drafts.take k).map Draft.repeatIndex ∧
    (s.window.high = decide (s.plan.winHigh ≤ s.window.records.length) →
      s.openReady.window.high = decide (s.plan.winHigh ≤ s.openReady.window.records.length)) := by
  have stay : ∀ (ds : List Draft) {t : State}, ¬ t.mayOpen → ds.foldl (fun t _ => t.openNext) t = t := by
    intro ds
    induction ds with
    | nil => exact fun _ => rfl
    | cons d ds ih => intro t h; rw [List.foldl_cons, State.openNext_of_not h]; exact ih h
  have key : ∀ (ds : List Draft) (t : State), t.queue.drafts.length ≤ ds.length →
      let u := ds.foldl (fun t _ => t.openNext) t
      ∃ k, t.opensTo k u ∧ ¬ u.mayOpen ∧ u.queue.drafts = t.queue.drafts.drop k ∧
        u.window.records.map Record.repeatIndex = t.window.records.map Record.repeatIndex ++ (t.queue.drafts.take k).map Draft.repeatIndex ∧
        (t.window.high = decide (t.plan.winHigh ≤ t.window.records.length) → u.window.high = decide (t.plan.winHigh ≤ u.window.records.length)) := by
    intro ds
    induction ds with
    | nil =>
      intro t hl
      refine ⟨0, rfl, ?_, by simp, by simp, id⟩
      rintro ⟨d, rest, g, hd, _⟩
      change t.queue.drafts = d :: rest at hd
      rw [hd] at hl
      simp at hl
    | cons e ds ih =>
      intro t hl
      dsimp only
      by_cases hm : t.mayOpen
      · obtain ⟨d, rest, ho⟩ := t.mayOpen_iff.mp hm
        obtain ⟨g, hd, -⟩ := (t.openable_iff d rest).mp ho
        have hn : t.openNext = t.openDraft d rest := by unfold State.openNext; rw [ho]
        obtain ⟨h1, h2, h3⟩ := t.openDraft_facts d rest
        rw [List.foldl_cons, hn]
        obtain ⟨k, k1, k2, k3, k4, k5⟩ := ih (t.openDraft d rest) (by rw [h1]; rw [hd] at hl; simpa using hl)
        refine ⟨k + 1, ⟨hm, t.openDraft d rest, by rw [← hn]; rfl, k1⟩, k2, ?_, ?_, fun _ => ?_⟩
        · rw [k3, h1, hd]; rfl
        · rw [k4, h1, h2, hd]; simp [State.openedRecord]
        · rw [t.openDraft_plan] at k5; exact k5 (by rw [h3, h2]; simp)
      · refine ⟨0, ?_⟩
        rw [stay (e :: ds) hm]
        exact ⟨rfl, hm, by simp, by simp, id⟩
  exact key _ s le_rfl

end Sys2Proof.Machine
end

