-- ==== Sys2Proof/Laws/Settled.lean ====
section
/-! SUPPORT. Settling in the words of the statements (R45, R64, R66, R67): what settling leaves is `State.Settled`, and nothing else
changes. -/

namespace Sys2Proof.Machine

/-- The answer that concludes a waiting request, case by case (R66). -/
theorem State.concludes_cases (s : State) (r : Nat) :
    ((∃ n, s.window.newest = some n ∧ r ≤ n) → s.concludes r = some (s.classify r)) ∧
    ((¬ ∃ n, s.window.newest = some n ∧ r ≤ n) → s.passed r → s.concludes r = some (.late r)) ∧
    ((¬ ∃ n, s.window.newest = some n ∧ r ≤ n) → ¬ s.passed r → s.blankTo r → s.concludes r = some (.blank r)) ∧
    ((¬ ∃ n, s.window.newest = some n ∧ r ≤ n) → ¬ s.passed r → ¬ s.blankTo r → s.concludes r = none) := by
  have hn : s.atOrBelowNewest r = true ↔ ∃ n, s.window.newest = some n ∧ r ≤ n := by
    unfold State.atOrBelowNewest; cases s.window.newest <;> simp
  have hp : s.belowFloor r = true ↔ s.passed r := by
    unfold State.belowFloor State.passed; cases s.queue.passFloor <;> simp
  rw [← hn, ← hp]
  unfold State.concludes State.blankTo
  refine ⟨fun h => by rw [if_pos h], fun h k => by rw [if_neg h, if_pos k], fun h k l => ?_, fun h k l => ?_⟩
  · rw [if_neg h, if_neg k]
    cases hb : s.draftBase with
    | none => rfl
    | some b => simp only [if_pos (l b hb)]
  · rw [if_neg h, if_neg k]
    cases hb : s.draftBase with
    | none => exact absurd (fun b h' => by rw [hb] at h'; cases h') l
    | some b =>
      refine if_neg fun h' => l fun c hc => ?_
      rw [hb] at hc; cases hc; exact h'

/-- Where a repeat up to `r` remains to be opened, the opening is blocked exactly at the span limit (R64, R67). -/
theorem State.blockedAt_iff {s : State} {r : Nat} (h : ¬ s.blankTo r) : s.blockedAt r = true ↔ s.spanStops := by
  unfold State.blankTo at h
  push Not at h
  obtain ⟨b, hb, hr⟩ := h
  unfold State.blockedAt State.spanStops State.oldest
  rw [hb]
  cases hx : s.window.records.head? with
  | none => simp
  | some x =>
    simp only [Option.map_some, Bool.and_eq_true, decide_eq_true_eq]
    constructor
    · rintro ⟨h1, h2⟩; exact ⟨b, x, rfl, rfl, h1⟩
    · rintro ⟨b', x', h1, h2, h3⟩
      cases h1; cases h2
      exact ⟨h3, hr⟩

/-- A port after concluding is settled (R66, R67). -/
theorem State.settlesPort_concluded (s : State) (x : Port) : s.SettlesPort x (s.concluded x) := by
  refine ⟨fun q hq => ?_, fun q hq => ?_, fun h => ?_⟩
  · obtain ⟨h1, h2, h3, h4⟩ := s.concludes_cases q.repeatIndex
    simp only [State.concluded, hq]
    refine ⟨fun a => by rw [h1 a], fun a b => by rw [h2 a b], fun a b c => by rw [h3 a b c], fun a b c d => ?_, fun a b c d => ?_⟩
    · rw [h4 a b c]; exact if_pos ((State.blockedAt_iff c).mpr d)
    · rw [h4 a b c]; exact if_neg fun h => d ((State.blockedAt_iff c).mp h)
  · obtain ⟨h1, h2, h3, h4⟩ := s.concludes_cases q.repeatIndex
    simp only [State.concluded, hq]
    exact ⟨fun a => by rw [h1 a], fun a b => by rw [h2 a b], fun a b c => by rw [h3 a b c], fun a b c => by rw [h4 a b c]⟩
  · unfold State.concluded
    split
    · rename_i q hq; exact absurd hq (h q).1
    · rename_i q hq; exact absurd hq (h q).2
    · rfl

/-- The request at port `p` becomes held when it is concluded. -/
def State.holdsAt (s : State) (p : PortId) : Prop := ∃ q r, (s.port p).slot = .preparing q .waiting ∧ (s.concluded (s.port p)).slot = .held r .waiting

theorem State.concludePort_events (p : PortId) (s : State) :
    (s.holdsAt p → (State.concludePort p s).sup.events = s.sup.events ||| 0x008) ∧
    (¬ s.holdsAt p → (State.concludePort p s).sup.events = s.sup.events) := by
  unfold State.holdsAt State.concluded State.concludePort
  split
  · rename_i q hq
    simp only [hq]
    cases hc : s.concludes q.repeatIndex with
    | some a =>
      refine ⟨?_, fun _ => rfl⟩
      rintro ⟨_, _, _, h⟩; cases h
    | none =>
      dsimp only
      split
      · exact ⟨fun _ => rfl, fun h => absurd ⟨q, q, rfl, rfl⟩ h⟩
      · refine ⟨?_, fun _ => rfl⟩
        rintro ⟨_, _, _, h⟩; rw [hq] at h; cases h
  · rename_i q hq
    simp only [hq]
    refine ⟨?_, fun _ => ?_⟩
    · rintro ⟨_, _, h, _⟩; cases h
    · split <;> rfl
  · rename_i h1 h2
    refine ⟨?_, fun _ => ?_⟩
    · rintro ⟨q, _, h, _⟩; exact absurd h (h1 q)
    · first
        | rfl
        | (split
           · rename_i q hq; exact absurd hq (h1 q)
           · rename_i q hq; exact absurd hq (h2 q)
           · rfl)

theorem State.conclude_events (s : State) : ∀ (l : List PortId) (t : State), l.Nodup → s.SameWork t → (∀ p ∈ l, t.port p = s.port p) →
    ((∃ p ∈ l, s.holdsAt p) → (l.foldl (fun t p => State.concludePort p t) t).sup.events = t.sup.events ||| 0x008) ∧
    ((¬ ∃ p ∈ l, s.holdsAt p) → (l.foldl (fun t p => State.concludePort p t) t).sup.events = t.sup.events) := by
  intro l
  induction l with
  | nil => intro t _ _ _; simp
  | cons p l ih =>
    intro t hd hw hp
    obtain ⟨hpl, hd⟩ := List.nodup_cons.mp hd
    have same : t.holdsAt p ↔ s.holdsAt p := by unfold State.holdsAt; rw [hw.concluded, hp p (by simp)]
    obtain ⟨e1, e2⟩ := State.concludePort_events p t
    rw [same] at e1 e2
    obtain ⟨i1, i2⟩ := ih (State.concludePort p t) hd (hw.trans (State.sameWork_concludePort p t)) fun q hq => by
      rw [State.concludePort_port_of_ne p q t (by rintro rfl; exact hpl hq)]; exact hp q (by simp [hq])
    rw [List.foldl_cons]
    by_cases a : s.holdsAt p <;> by_cases b : ∃ q ∈ l, s.holdsAt q
    · refine ⟨fun _ => ?_, fun h => absurd ⟨p, by simp, a⟩ h⟩
      rw [i1 b, e1 a, BitVec.or_assoc, BitVec.or_self]
    · refine ⟨fun _ => ?_, fun h => absurd ⟨p, by simp, a⟩ h⟩
      rw [i2 b, e1 a]
    · obtain ⟨q, hq, h⟩ := b
      refine ⟨fun _ => ?_, fun hn => absurd ⟨q, by simp [hq], h⟩ hn⟩
      rw [i1 ⟨q, hq, h⟩, e2 a]
    · refine ⟨?_, fun _ => by rw [i2 b, e2 a]⟩
      rintro ⟨q, hq, h⟩
      rcases List.mem_cons.mp hq with rfl | hq
      · exact absurd h a
      · exact absurd ⟨q, hq, h⟩ b

/-- Settling changes the fill in flight, the opening target, the ports and the event flags, and nothing else. -/
theorem State.settle_eq (s : State) : s.settle = { s with
    queue := { s.queue with fill := s.settle.queue.fill }
    window := { s.window with target := s.settle.window.target }
    ports := s.settle.ports
    sup := { s.sup with events := s.settle.sup.events } } := by
  obtain ⟨e, he⟩ := State.raises_settle s
  have h1 := State.settle_plan s
  have h2 := State.settle_slotA s
  have h3 := State.settle_slotB s
  have h4 : s.settle.queue = { s.queue with fill := s.settle.queue.fill } := by rw [State.settle_queue]
  have h5 : s.settle.window = { s.window with target := s.settle.window.target } := by rw [State.settle_window, State.dropTarget_window]
  have h6 := State.settle_receiver s
  have h7 := State.settle_voids s
  have h8 := State.settle_account s
  have h9 : s.settle.sup = { s.sup with events := s.settle.sup.events } := by rw [he]
  have h10 := State.settle_run s
  have h11 := State.settle_pending s
  generalize s.settle = t at *
  exact State.eq_of_fields h1 h2 h3 h4 h5 h6 h7 h8 (fun _ => rfl) h9 h10 h11

/-- What an opening would meet does not depend on the fill in flight, the target, the ports or the event flags. -/
theorem State.opening_congr (s : State) (f : Option Fill) (w : Option Nat) (ps : Vector Port 6) (e : BitVec 12) :
    let t : State := { s with queue := { s.queue with fill := f }, window := { s.window with target := w }, ports := ps, sup := { s.sup with events := e } }
    t.draftBase = s.draftBase ∧ (∀ x, t.concluded x = s.concluded x) ∧
      ({ t with queue := { t.queue with fill := none } } : State).nextFill = ({ s with queue := { s.queue with fill := none } } : State).nextFill :=
  ⟨rfl, fun _ => rfl, rfl⟩

/-- What settling leaves (R45, R64, R66, R67). -/
theorem State.settle_settled (s : State) : s.settle.Settled s.queue.fill s.window.target s.port s.sup.events := by
  have hw : s.settle.window = s.dropTarget.window := State.settle_window s
  obtain ⟨base, cl, next⟩ : s.settle.draftBase = s.draftBase ∧ (∀ x, s.settle.concluded x = s.concluded x) ∧
      ({ s.settle with queue := { s.settle.queue with fill := none } } : State).nextFill =
        ({ s with queue := { s.queue with fill := none } } : State).nextFill := by
    have h := s.settle_eq
    generalize s.settle = t at h ⊢
    rw [h]
    exact s.opening_congr _ _ _ _
  have blank : ∀ g, s.settle.blankTo g ↔ s.blankTo g := fun g => by unfold State.blankTo; rw [base]
  have ht : s.settle.window.target = if s.draftBase.all (fun b => s.window.target.any fun t => t < b) then none else s.window.target := by
    rw [hw, State.dropTarget_window]
  refine ⟨fun f hf => ?_, fun hf => ?_, fun g hg hb => ?_, fun g hg hb => ?_, fun hg => ?_, fun p => ?_, ?_⟩
  · have : s.nextFill = none := by unfold State.nextFill; rw [if_pos (by simp [hf])]
    rw [State.settle_queue, this, hf]; rfl
  · rw [next, show ({ s with queue := { s.queue with fill := none } } : State) = s by rw [← hf]]
    rw [State.settle_queue, hf]
    cases s.nextFill <;> rfl
  · rw [ht, hg]
    rw [blank, State.blankTo] at hb
    push Not at hb
    obtain ⟨b, h1, h2⟩ := hb
    rw [if_neg]
    rw [h1]; simp; omega
  · rw [ht, hg, if_pos]
    rw [blank, State.blankTo] at hb
    cases h1 : s.draftBase with
    | none => rfl
    | some b => have := hb b h1; simp; omega
  · rw [ht, hg]; split <;> rfl
  · rw [State.settle_port, ← cl]; exact State.settlesPort_concluded _ _
  · have key := State.conclude_events s allPorts s.dropTarget (by decide) (State.sameWork_dropTarget s)
      (fun p _ => by rw [State.port, State.port, s.dropTarget_ports])
    rw [show allPorts.foldl (fun t p => State.concludePort p t) s.dropTarget = s.dropTarget.forPorts State.concludePort from rfl] at key
    have e1 : s.settle.sup.events = (s.dropTarget.forPorts State.concludePort).sup.events := by
      rw [State.settle, State.startFill_sup]
    have e2 : s.dropTarget.sup.events = s.sup.events := by rw [State.dropTarget_sup]
    have e3 : (∃ p q r, (s.port p).slot = .preparing q .waiting ∧ (s.settle.port p).slot = .held r .waiting) ↔ ∃ p ∈ allPorts, s.holdsAt p := by
      simp only [State.settle_port]
      constructor
      · rintro ⟨p, q, r, h⟩; exact ⟨p, (show ∀ p : PortId, p ∈ allPorts by decide) p, q, r, h⟩
      · rintro ⟨p, _, q, r, h⟩; exact ⟨p, q, r, h⟩
    rw [e1, ← e2]
    generalize (s.dropTarget.forPorts State.concludePort).sup.events = E at key
    exact ⟨fun h => key.1 (e3.mp h), fun h => key.2 fun k => h (e3.mpr k)⟩

end Sys2Proof.Machine
end

