-- ==== Sys2Proof/Laws/Tasks.lean ====
section
/-! SUPPORT. The course of a task (R180, R181, R183): what a task row does where it takes its task, and what the end of a task publishes. -/

namespace Sys2Proof.Machine

/-- A row that takes its task carries it out from the block it takes. -/
theorem State.taskRow_of_takesTask {s : State} {i : Instr} {bs : Bytes} {word : BitVec 32} (h : s.takesTask i bs)
    (hw : taskWordOf i = some word) (run : Bytes → State → TaskResult) : s.taskRow word run = s.carryOut word bs run := by
  rcases h with ⟨h, rfl⟩ | h
  · simp only [State.taskRow, h]
  · simp only [State.taskRow, h, hw, Option.getD_some, and_self, if_true]

/-- A task that leaves the state as it was, a refusal among them. -/
theorem State.carryOut_same {s : State} {i : Instr} {bs : Bytes} {word : BitVec 32} {run : Bytes → State → TaskResult} {o : TaskOutcome}
    (hw : taskWordOf i = some word) (hr : run bs s = (o, s)) : s.carryOut word bs run = s.taskTaken i bs o := by
  simp only [State.carryOut, hr, State.taskTaken, hw, Option.getD_some]

/-- A task whose effects have not been taken waits for its own row. -/
theorem State.startTask_takesTask {s : State} {i : Instr} {word : BitVec 32} (hr : s.sup.running = none) (hw : taskWordOf i = some word) :
    (s.startTask word).takesTask i s.sup.param := by
  refine .inr ?_
  simp [State.startTask, hr, hw]

@[simp] theorem State.carryOut_running (s : State) (word : BitVec 32) (bs : Bytes) (run : Bytes → State → TaskResult) :
    (s.carryOut word bs run).sup.running = some { word, params := bs, outcome := some (run bs s).1 } := rfl

@[simp] theorem State.carryOut_task (s : State) (word : BitVec 32) (bs : Bytes) (run : Bytes → State → TaskResult) :
    (s.carryOut word bs run).sup.task = word := rfl

/-- A task with its outcome waiting takes no effects again. -/
theorem State.takeEffects_of_outcome {s : State} {r : TaskRun} {o : TaskOutcome} (hr : s.sup.running = some r) (ho : r.outcome = some o) :
    s.takeEffects = s := by
  simp [State.takeEffects, hr, ho]

/-- The effects that the end of a task takes are those of its word. -/
theorem State.takeEffects_of_none {s : State} {r : TaskRun} (hr : s.sup.running = some r) (ho : r.outcome = none) :
    s.takeEffects = s.carryOut r.word r.params (runWord r.word) := by
  simp [State.takeEffects, hr, ho]

/-- The end of a task publishes its outcome (R181). -/
theorem State.publish_of_outcome {s : State} {r : TaskRun} {o : TaskOutcome} (hr : s.sup.running = some r) (ho : r.outcome = some o) :
    s.publish = { s with sup := { s.sup with task := o.word, result := o.block, running := none } }.raise .taskDone := by
  simp [State.publish, hr, ho]

end Sys2Proof.Machine
end

