-- ==== Sys2Proof/WellFormed.lean ====
section
/-! DEFINITION. Which commands are well formed: an operand that makes the event another row's is not. The machine takes an
ill-formed command all the same, as the row its operands say (log 27). -/

namespace Sys2Proof

/-- The event is the row's own: an unknown task word names no task (R180), an unknown command byte is none of the five (R163),
and a register write is none of the four-byte writes that have rows of their own (R179). -/
def Instr.wellFormed : Instr → Bool
  | .unknownTaskWord word => !Machine.taskWords.contains word
  | .unknownCommandFrame _ (some command) _ => !Machine.stationCommands.contains command
  | .registerWrite slot count data =>
    !([Machine.slotTask, Machine.slotMask, Machine.slotClear].contains slot && (Machine.deliveredBytes 4 count data).length == 4)
  | _ => true

end Sys2Proof
end

