-- ==== Sys2Proof/Tests/Slice0.lean ====
section
/-! SUPPORT. Tests: the well-formedness checks, the manual's worked examples step by step, and for each obligation with premises a
state that meets them. -/

namespace Sys2Proof.Tests

open Sys2Proof Sys2Proof.Machine

-- One thread: each test waits for the kernel, and a thread that waits keeps its stack.
set_option Elab.async false

/-! ### Helpers -/

/-- The state a command leaves; every command leaves one. -/
def after (c : Instr) (s : State) : State :=
  match exec c s with
  | .next t => t
  | _ => s

/-- The code a task refused with, the first byte of its results when carried out plus 100, 999 when the word is unknown. -/
def answered (s : State) : Nat :=
  match s.sup.running.bind TaskRun.outcome with
  | some (.carriedOut bs) => 100 + (byteAt bs 0).toNat
  | some (.refusal code) => code
  | some .unrecognised => 999
  | none => 1000

/-- The manual's characters as bytes, in ASCII (log 39). -/
def chars (s : String) : Bytes := s.toList.map fun c => BitVec.ofNat 8 c.toNat

/-- Two plies: port 0 with lead 2, port 1 with lead 0. -/
def plan2 : Plan :=
  { plies := [{ port := 0, lead := 2 }, { port := 1, lead := 0 }], silence := 50, divisor := 130, winHigh := 48, bufHigh := 32 }

/-- The job of 2.9: STACKED, two lanes of two, MOD11SKIP. -/
def rules29 : Rules :=
  { Rules.cleared with
    start := 990, step := 1, width := 6, mode := .stacked, span := 500, scheme := .mod11skip, bookSize := 50, lead := chars "B" }

def geometry22 : Geometry := { lanes := 2, around := 2, order := .aroundFirst }

/-- The job of 2.10: SEQUENTIAL with two skip ranges and a span of six. -/
def rules210 : Rules :=
  { Rules.cleared with start := 10, step := 1, width := 3, span := 6, skips := [(12, 13), (15, 40)] }

def counter (v o : Nat) : Counter := { v, o, exhausted := false, domainEnded := false, raised := false }

def job (r : Rules) (g : Geometry) (cs : List Counter) : JobSlot :=
  { JobSlot.cleared with state := .running, tag := 7, rules := r, geometry := g, counters := cs, first := some 2 }

def fillFor (j : JobSlot) : Fill := { slot := .A, target := 2, before := j.before, entries := [], skipped := 0, drawn := [], floor := none }

/-- An ACTIVE port of ply `k`. -/
def station (k : Nat) : Port := { Port.reset with state := .active, ply := some k, cursor := 3 }

/-- A run of job `j` in slot A over `plan2`, with a fill of it in flight. -/
def running (j : JobSlot) : State :=
  { State.reset with
    plan := plan2, slotA := j, queue := { drafts := [], fill := some (fillFor j), passFloor := none },
    ports := #v[station 0, station 1, .reset, .reset, .reset, .reset], run := true }

def job29 : JobSlot := job rules29 geometry22 [counter 990 0, counter 1490 0]

/-- The run with the job of 2.9. -/
def run29 : State := running job29

def withParam (s : State) (bs : Bytes) : State := { s with sup := { s.sup with param := padTo 64 bs } }

def entry (v : Nat) : Entry := { value := some v, check := none, bookEnd := false }

def blankEntry : Entry := { value := none, check := none, bookEnd := false }

def position (v : Nat) : Position := { entry := entry v, waste := false, misfire := false, outcome := .open }

/-- An AWAITING record of slot A for repeat `r` with the values 100 r and 100 r + 1 and a blank position. -/
def record (r : Nat) : Record :=
  { repeatIndex := r, slot := .A, served := 0, lost := 0, closure := .awaiting,
    positions := [position (100 * r), position (100 * r + 1), Position.opened blankEntry] }

def draft (q : Nat) : Draft :=
  { repeatIndex := q, slot := .A, entries := [entry (100 * q)], skipped := 0, drawn := [], before := job29.before }

/-- The run with records 2 and 3 open and newest 3. -/
def open23 : State :=
  { run29 with window := { records := [record 2, record 3], newest := some 3, target := none, high := false, closing := none } }

def withPort0 (s : State) (f : Port → Port) : State := s.modPort 0 f

def asked (r : Nat) : Request := { kind := .request, first := r, last := r, mask := 0, repeats := some (r, r), isNew := true }

def taskRun (o : TaskOutcome) : TaskRun := { word := 0x54414C59, params := [], outcome := some o }

def loaded : JobSlot := { job29 with state := .loaded, first := none }

def busy : State := { State.reset with sup := { State.reset.sup with running := some (taskRun (.carriedOut [])) } }

/-! ### Well-formedness: each check refuses -/

theorem test_ill_unknown_word : (Instr.unknownTaskWord 0x504C414E).wellFormed = false := by decide
theorem test_ill_unknown_command : (Instr.unknownCommandFrame 0 (some 0x31) (.taken [])).wellFormed = false := by decide
theorem test_ill_register_write : (Instr.registerWrite 0x31 4 [0, 0, 0, 1]).wellFormed = false := by decide
theorem test_well_formed : (Instr.registerWrite 0x21 64 []).wellFormed = true ∧ (Instr.unknownTaskWord 0).wellFormed = true ∧
    (Instr.unknownCommandFrame 0 none (.taken [])).wellFormed = true := by decide

/-- The table gives no bits, so no word spells a command. -/
theorem test_no_word : decodeTableWord 8 0x31 = none ∧ State.reset.withFetchWord 8 0x31 = State.reset := by decide

/-! ### Chapter 2: worked cases -/

/-- The strings of 2.7. -/
theorem test_render :
    ({ Rules.cleared with width := 6, spaceFill := true, lead := chars "AB", sepSpace := true, scheme := .mod10w } : Rules).render 42
      (({ Rules.cleared with width := 6, scheme := .mod10w } : Rules).checkOf 42) = chars "AB    42 0" ∧
    rules29.render 990 (rules29.checkOf 990) = chars "B0009903" ∧
    ({ Rules.cleared with width := 3, spaceFill := true } : Rules).render 0 none = chars "  0" := by decide +kernel

/-- The check characters of 4725 and 4721 in 2.7. -/
theorem test_check :
    [Scheme.mod7, .mod10w, .mod11x, .mod11skip].map (fun k => ({ Rules.cleared with width := 6, scheme := k } : Rules).checkOf 4725) =
      ['0', '8', '2', '2'].map (fun c => some (BitVec.ofNat 8 c.toNat)) ∧
    ({ Rules.cleared with width := 6, scheme := .mod11x } : Rules).checkOf 4721 = some 0x58 ∧
    ({ Rules.cleared with width := 6, scheme := .mod11skip } : Rules).skipsValue 4721 = true := by decide +kernel

/-- 2.3: the first and the second job of the span table. -/
theorem test_span :
    ({ Rules.cleared with width := 4, start := 9000, step := 5, mode := .stacked, span := 200 } : Rules).spanFits 2 = false ∧
    ({ Rules.cleared with width := 4, start := 9000, step := 5, mode := .stacked, span := 100 } : Rules).spanFits 2 = true := by
  decide +kernel

/-- 2.9: p0 issues 990, then p1 991, both from lane 0. -/
theorem test_take_issues :
    ((after .take (after .take run29)).queue.fill.map fun f => f.entries.map Entry.value) = some [some 990, some 991] ∧
    (after .take (after .take run29)).slotA.counters = [counter 992 2, counter 1490 0] := by decide +kernel

/-- 2.9, second fill: 992 is skipped and 993 issued. -/
theorem test_take_skips :
    let s := after .take (running (job rules29 geometry22 [counter 992 2, counter 1492 2]))
    (s.queue.fill.map fun f => (f.entries.map Entry.value, f.skipped)) = some ([some 993], 1) ∧
    s.slotA.counters = [counter 994 4, counter 1492 2] := by decide +kernel

/-- 2.10, p2 and p3: a jump of two, then a capped jump of one that exhausts the counter. -/
theorem test_take_jumps :
    let g : Geometry := { lanes := 1, around := 4, order := .acrossFirst }
    let s := after .take (running (job rules210 g [counter 12 2]))
    let t := after .take s
    s.slotA.counters = [counter 15 5] ∧ (t.queue.fill.map fun f => (f.entries.map Entry.value, f.skipped)) = some ([some 14, none], 3) ∧
    t.slotA.counters.map Counter.o = [6] ∧ t.sup.events.getLsbD 10 = true := by decide +kernel

/-- 2.12, p1: a descending step wraps from 0 to 9998. -/
theorem test_take_wraps :
    let r : Rules := { Rules.cleared with start := 2, step := 2, descending := true, width := 4, wrap := true, span := 5000 }
    (after .take (running (job r { lanes := 1, around := 4, order := .acrossFirst } [counter 0 1]))).slotA.counters =
      [counter 9998 2] := by decide +kernel

/-- The make-up job of 2.13. -/
def makeup213 : JobSlot :=
  { job { Rules.cleared with width := 6, scheme := .mod11skip, lead := chars "B", wlo := 1000, whi := 1099 } geometry22 [] with
    source := .makeup }

/-- 2.13: the first draw takes 1005, and with [1009, 1012] left the next takes 1010 and splits it. -/
theorem test_draw :
    let s := running makeup213
    let s1 := after .makeupDraw { s with voids := { s.voids with ranges := [(990, 991), (1005, 1012), (1040, 1040)] } }
    let s2 := after .makeupDraw { s with voids := { s.voids with ranges := [(990, 991), (1009, 1012), (1040, 1040)] } }
    (s1.queue.fill.map Fill.drawn) = some [1005] ∧ s1.voids.ranges = [(990, 991), (1006, 1012), (1040, 1040)] ∧
    (s2.queue.fill.map Fill.drawn) = some [1010] ∧ s2.voids.ranges = [(990, 991), (1009, 1009), (1011, 1012), (1040, 1040)] := by
  decide +kernel

/-! ### Chapter 7: the list at its limit (7.6) -/

def full76 : State :=
  { State.reset with voids := { State.reset.voids with ranges := (List.range 256).map fun k => (10 * k, 10 * k + 2) } }

/-- 7.6: 13 joins a range, 5 is dropped and flagged. -/
theorem test_insert_full :
    let s := (full76.insertValue 13).insertValue 5
    s.voids.ranges.length = 256 ∧ s.voids.ranges[1]? = some (10, 13) ∧ s.voids.dropped = 1 ∧ s.voids.incomplete = true ∧
    s.sup.events = 0x800 := by decide +kernel

/-- 7.6: the range 14 to 19 joins two ranges; a split of the 256th range keeps the part above. -/
theorem test_split_full :
    ((full76.insertValue 13).insertRange 14 19).voids.ranges.length = 255 ∧
    (full76.voids.remove 41).ranges[4]? = some (42, 42) ∧ (full76.voids.remove 41).dropped = 1 := by decide +kernel

/-! ### Chapter 8: the full ring (8.4) -/

/-- 8.4: with 58 records to 8119 and 8192 bytes, one more of 140 bytes fits only once two are released, and then at 0. -/
theorem test_ring :
    let a : Account := { State.reset.account with ring := [(0, 1), (1, 16)], wo := 8120, count := 58 }
    a.used = 8120 ∧ a.place 140 = none ∧ a.released.ro = 140 ∧ a.released.place 140 = none ∧
    ({ a with ro := 280, count := 56 } : Account).place 140 = some 0 ∧
    (({ a with ro := 280, count := 56 } : Account).placed 0 (List.replicate 140 1)).used = 8052 := by decide +kernel

/-! ### Chapters 9 and 11: bytes -/

/-- The status byte of an ACTIVE port with a READY answer, new-run and reject set (R190). -/
theorem test_status_byte :
    ({ station 0 with slot := .ready (asked 3) (.leadIn 3), newRun := true, reject := true } : Port).statusByte = 0x7C := by decide

/-- The frames of R190, written byte by byte: REQUEST 3 is 00 00 00 03 and the check byte CC. -/
theorem test_frame : encodeRequest 3 = [0, 0, 0, 3, 0xCC] ∧ frameAccepted 0x31 5 [0, 0, 0, 3, 0xCC] = true ∧
    decodeFrame 2 (some 0x31) [0, 0, 0, 3, 0xCC] = .request 2 (.taken [0, 0, 0, 3, 0xCC]) := by decide +kernel

/-- The PLAN block of R191, written byte by byte. -/
theorem test_plan_block : encodePlan plan2 = padTo 64 [2, 0, 2, 1, 0, 0, 0, 0, 0, 0, 0, 0, 0, 0, 50, 0, 130, 48, 32] := by decide +kernel

/-! ### Transactions, lookups and insertions apart -/

/-- R162, R171: an answer made ready between select and the end of the command byte goes out behind the status byte of the select
(ACTIVE, PREPARING), in the mode of the select. -/
theorem test_select_status :
    let s := open23.setReqSlot 0 (.preparing (asked 2) (.building (.leadIn 1)))
    let t := after (.fetch 0 (.taken true)) (after (.answerReady 0) (after (.fetch 0 (.select true)) s))
    (t.port 0).out = [0x50, 0x02, 0, 4, 0, 0, 0, 1, 0xF9] ∧ (t.port 0).mode3 = true ∧ t.clockedOut 0 11 = (t.port 0).out ++ [0, 0] := by
  decide +kernel

/-- R132: two values of a closure, one inserted now and one later; only then does the record join the pending queue. -/
theorem test_closure_in_parts :
    let s := { open23 with receiver := { Receiver.reset with
      asm := .handling, frame := some { count := 0, indexBytes := 4, index := 9, codes := [], sum := 0, damaged := false } } }
    let t := after (.closeUnverified (some 1)) s
    let u := after (.closeUnverified (some 1)) t
    t.voids.ranges = [(200, 200)] ∧ t.window.closing = some { repeatIndex := 2, values := [201] } ∧ t.account.queue = [] ∧
    u.voids.ranges = [(200, 201)] ∧ u.window.closing = none ∧ u.account.queue = [.repeatItem 2] ∧ after .closeUnverified s = u := by decide +kernel

/-- R133: between two lookups 1001 enters below the floor unseen and 1006 above it is taken. -/
theorem test_draw_in_parts :
    let s := running { makeup213 with rules := { makeup213.rules with wlo := 1009 } }
    let t := after (.makeupDraw (some 1)) { s with voids := { s.voids with ranges := [(1009, 1012)] } }
    let u := after (.makeupDraw (some 1)) ((t.insertValue 1001))
    (t.queue.fill.map fun f => (f.drawn, f.floor)) = some ([], some 1010) ∧ (u.queue.fill.map fun f => (f.drawn, f.floor)) = some ([1010], none) ∧
    u.voids.ranges = [(1001, 1001), (1009, 1009), (1011, 1012)] := by decide +kernel

/-- R67: a held request is answered BLANK when a fill that numbers nothing leaves no repeat owned. -/
theorem test_held_blank :
    let s := { open23 with queue := { drafts := [], fill := some { fillFor job29 with target := 50, entries := List.replicate 4 blankEntry },
                                      passFloor := none }, window := { open23.window with newest := some 49 } }
    ((after .fillComplete (s.setReqSlot 1 (.held (asked 60) .waiting))).port 1).slot =
      .held (asked 60) (.building (.blank 60)) := by decide +kernel

/-! ### A state that meets the premises of each obligation -/

/-- A task row meets its task in any idle state, with the block in PARAM, and while its own task waits for its effects. -/
theorem test_takesTask (i : Instr) (bs : Bytes) (s : State) (h : s.sup.running = none) :
    (withParam s bs).takesTask i (padTo 64 bs) ∧
    ({ s with sup := { s.sup with running := some { word := (taskWordOf i).getD 0, params := bs, outcome := none } } } : State).takesTask i bs :=
  ⟨.inl ⟨h, rfl⟩, .inr rfl⟩

theorem test_StepTakesFrontCommand_premises :
    ({ State.reset with pending := [.append, .take] } : State).pending = .append :: [.take] := rfl

/-- Timers stopped, at 2 and at 1; the gap timing off, at 1 and at 2. -/
theorem test_IdleStepIsOneTick_premises :
    let s : State := { State.reset with
      ports := #v[.reset, { Port.reset with timer := some 2 }, { Port.reset with timer := some 1 }, .reset, .reset, .reset] }
    s.pending = [] ∧ (s.port 0).timer = none ∧ (s.port 1).timer = some 2 ∧ (s.port 2).timer = some 1 ∧ s.receiver.gapTicks = none ∧
    (∀ n ∈ [1, 2], ({ s.receiver with gapTicks := some n } : Receiver).gapTicks = some n) := by decide +kernel

theorem test_RunEdgesStartAndStopTimers_premises : State.reset.run = false ∧ run29.run = true := by decide

theorem test_SilenceExpiryLosesPort_premises :
    (∀ n ∈ [1, 2], ((withPort0 open23 fun x => { x with timer := some n }).port 0).timer = some n) ∧ (open23.port 0).ply = some 0 ∧
    (open23.port 0).timer = none := by decide +kernel

theorem test_TaskStartsAndRefusalChangesNothing_premises :
    taskWordOf .strt = some 0x53545254 ∧ taskWordOf (.unknownTaskWord 0) = some 0 ∧ State.reset.sup.running = none ∧
    answered (after .strt State.reset) = 2 ∧ (0x504C414D : BitVec 32) ∉ [0x504C414E, 0x4C444A42, 0x53545254, 0x53574150, 0x53544F50,
      0x51554954, 0x41444D54, 0x54414C59, 0x4E455854, 0x524C5345, 0x50564F44, 0x564C5244, 0x564C434C, 0x52534554] := by decide +kernel

theorem test_TaskWriteDuringTaskIsDiscarded_premises :
    busy.sup.running = some (taskRun (.carriedOut [])) ∧ (taskWordOf .plan).isSome = true ∧
    taskWordOf .plan ≠ some (taskRun (.carriedOut [])).word ∧ (taskRun (.carriedOut [])).outcome.isSome = true ∧
    4 ≤ (4 : Byte).toNat := by decide

/-- A task of each outcome. -/
theorem test_TaskEndPublishesOutcome_premises :
    ∀ o ∈ [TaskOutcome.carriedOut [1], .refusal 12, .unrecognised],
      ({ busy with sup := { busy.sup with running := some (taskRun o) } } : State).sup.running = some (taskRun o) ∧
      (taskRun o).outcome = some o ∧ ({ taskRun o with outcome := none } : TaskRun).outcome = none ∧
      taskWordOf .taly = some (taskRun o).word := by decide

theorem test_MaskAndClearWriteTheirPlaces_premises :
    11 < 12 ∧ (State.reset.sup.events ||| 0x800).getLsbD 11 = true ∧ (0x800 : BitVec 32).getLsbD 11 = true := by decide

theorem test_StateReadSendsOnePage_premises :
    State.reset.sup.onPage1 = false ∧ (after (.stateRead 16) State.reset).sup.onPage1 = true ∧
    ((after (.stateRead 16) State.reset).sup.snapshot.any fun x => x.page1.length = 16) = true ∧ (127 : Nat) < 128 ∧
    (loaded.change = none ∧ ({ loaded with change := some 9 } : JobSlot).change = some 9) ∧
    open23.window.records.head? = some (record 2) ∧ open23.window.newest = some 3 ∧ run29.window.records = [] ∧
    run29.queue.drafts.length ≤ 7 := by decide +kernel

theorem test_RegisterWriteBySlot_premises :
    State.reset.sup.running = none ∧ min (min (4 : Byte).toNat 4) [0, 0, (0 : Byte)].length < 4 ∧
    [0, 0, 0, (1 : Byte)].take 4 = [0, 0, 0, 1] ∧ 4 ≤ (4 : Byte).toNat ∧
    (0x23 : Byte) ∉ [0x20, 0x21, 0x22, 0x30, 0x31, 0x32, 0x40] := by decide

/-- Six plies with leads to 44, and one ply. -/
def plan6 : Plan :=
  { plan2 with plies := (List.range 6).map fun k => { port := Fin.ofNat 6 (5 - k), lead := 44 - k }, winHigh := 1, bufHigh := 255 }

theorem test_PlanStoresOrRefuses_premises :
    State.reset.sup.running = none ∧ State.reset.inRun = false ∧
    (∀ p ∈ [plan6, { plan2 with plies := [{ port := 5, lead := 44 }] }],
      let bs := encodePlan p
      let n := (byteAt bs 0).toNat
      1 ≤ n ∧ n ≤ 6 ∧ (∀ k, k < n → (byteAt bs (1 + 2 * k)).toNat ≤ 5 ∧ (byteAt bs (2 + 2 * k)).toNat ≤ 44) ∧
      (∀ j, j < n → ∀ k, k < n → j ≠ k → byteAt bs (1 + 2 * j) ≠ byteAt bs (1 + 2 * k)) ∧
      field bs 15 2 ≠ 0 ∧ byteAt bs 17 ≠ 0 ∧ byteAt bs 18 ≠ 0) := by decide +kernel

/-- A block for each case R5 refuses, a run, and a ply count of 0. -/
theorem test_PlanStoresOrRefuses_refused :
    (byteAt [7] 0).toNat = 7 ∧ (byteAt [1, 6, 0] 1).toNat = 6 ∧ (byteAt [1, 0, 45] 2).toNat = 45 ∧
    byteAt [2, 3, 0, 3, 1] 1 = byteAt [2, 3, 0, 3, 1] 3 ∧ field (encodePlan { plan2 with divisor := 0 }) 15 2 = 0 ∧
    byteAt (encodePlan { plan2 with winHigh := 0 }) 17 = 0 ∧ byteAt (encodePlan { plan2 with bufHigh := 0 }) 18 = 0 ∧
    run29.inRun = true ∧ (byteAt State.reset.sup.param 0).toNat = 0 := by decide +kernel

/-- The plan in place, and a block in PARAM. -/
def loading (bs : Bytes) : State := withParam { State.reset with plan := plan2 } bs

/-- STATE, BUSY, and the slot picked: A, and B when A holds a job. -/
theorem test_LdjbChecksInOrder_slots :
    State.reset.plan.plies = [] ∧ (loading []).plan.plies ≠ [] ∧ (loading []).picksSlot .A ∧
    ({ loading [] with slotA := loaded } : State).picksSlot .B ∧
    ¬ ∃ i, ({ loading [] with slotA := loaded, slotB := loaded } : State).picksSlot i := by
  refine ⟨by decide, by decide, ⟨Or.inl rfl, nofun⟩, ⟨Or.inl rfl, fun _ h => by revert h; decide⟩, ?_⟩
  rintro ⟨i, h, -⟩
  cases i <;> exact absurd h (by decide)

/-- TAG, RANGE, SPAN and INCOMPLETE in turn. -/
theorem test_LdjbChecksInOrder_premises :
    jobTag (encodeJob 0 .series geometry22 rules29) = 0 ∧
    (loaded.state ∈ [SlotState.loaded, .running, .draining] ∧ loaded.tag = jobTag (encodeJob 7 .series geometry22 rules29)) ∧
    jobBlockOk (encodeJob 7 .series { geometry22 with lanes := 5 } rules29) = false ∧
    (let r := jobRules (encodeJob 7 .series geometry22 { rules29 with start := 999501, span := 500 })
     r.wrap = false ∧ r.mode = .stacked ∧ (10 ^ r.width : Nat) ≤ r.start + (0 * r.span + (r.span - 1)) * r.step + 500) ∧
    jobBlockOk (encodeJob 7 .series geometry22 rules29) = true ∧
    jobSource (encodeJob 7 .makeup geometry22 makeup213.rules) = .makeup := by decide +kernel

theorem test_LdjbChecksInOrder_span :
    (jobRules (encodeJob 7 .series geometry22 { rules29 with start := 999500 })).spanLeaves 2 := by
  refine ⟨1, 499, ?_, ?_, ?_⟩ <;> decide +kernel

theorem test_LdjbLoadsJob_premises :
    let bs := encodeJob 7 .series geometry22 rules29
    (loading bs).sup.running = none ∧ (loading bs).plan.plies ≠ [] ∧ jobTag bs ≠ 0 ∧ ((loading bs).slot .B).state = .free ∧
    jobBlockOk bs = true ∧ (jobRules bs).spanFits (jobGeometry bs).lanes = true ∧ jobSource bs = .series := by decide +kernel

/-- The last lane's last value is 999999, inside the domain. -/
theorem test_LdjbLoadsJob_boundary :
    ¬ (jobRules (encodeJob 7 .series geometry22 { rules29 with start := 999000 })).spanLeaves 2 := by
  rintro ⟨a, n, ha, hn, h⟩
  have h1 : a < 2 := ha
  have h2 : n = 0 ∨ n = 499 := hn
  rcases h2 with rfl | rfl <;> interval_cases a <;> revert h <;> decide +kernel

def startable : State := { loading [0] with slotA := loaded }

theorem test_StrtBeginsRun_premises :
    startable.sup.running = none ∧ startable.plan.plies ≠ [] ∧ startable.plan.lMax ≤ 44 ∧ startable.inRun = false ∧
    byteAt startable.sup.param 0 = 0 ∧ (startable.slot .A).state = .loaded ∧ startable.slotA.change = none ∧
    startable.slotB.change = none := by decide +kernel

/-- A job loaded behind the running one. -/
def behind (s : State) (rc : Nat) : State := withParam { s with slotB := { loaded with tag := 8 } } (beBytes 4 rc)

theorem test_RunTaskRefusals_premises :
    State.reset.sup.running = none ∧ State.reset.plan.plies = [] ∧ (byteAt (loading [2]).sup.param 0).toNat = 2 ∧
    (loading [1]).slotB.state ≠ .loaded ∧ run29.slotA.state = .running ∧ run29.slotB.state ≠ .loaded ∧
    (behind open23 4294967251).slotB.state = .loaded ∧ field (behind open23 4294967251).sup.param 0 4 = 4294967251 ∧
    ({ loaded with geometry := { geometry22 with lanes := 1 } } : JobSlot).geometry.lanes ≠ run29.slotA.geometry.lanes ∧
    field (behind open23 3).sup.param 0 4 ≤ 3 ∧ open23.window.newest = some 3 ∧ field (behind run29 1).sup.param 0 4 < run29.plan.lMax ∧
    run29.window.newest = none ∧ ({ loaded with change := some 9 } : JobSlot).change.isSome = true := by decide +kernel

theorem test_AdmtAdmitsLostPort_premises :
    let s := withParam (withPort0 run29 fun x => { x with state := .lost }) [0, 0, 0, 0, 9]
    s.sup.running = none ∧ (byteAt s.sup.param 0).toNat = 0 ∧ (s.port 0).state = .lost ∧ s.plan.plyOf 0 = some 0 ∧
    (s.port 1).state ≠ .lost ∧ s.plan.plyOf 5 = none ∧ 5 < (byteAt [6] 0).toNat := by decide +kernel

theorem test_RsetKeepsFourStores_premises : State.reset.sup.running = none ∧ State.reset.inRun = false := by decide

theorem test_TalyReportsSlot_premises :
    byteAt [1] 0 = BitVec.ofNat 8 SlotId.B.code ∧ byteAt [0] 0 = BitVec.ofNat 8 SlotId.A.code ∧ (byteAt [2] 0).toNat = 2 ∧
    run29.sup.running = none ∧ run29.slotA.final = .unset ∧ ({ job29 with final := .known 9 } : JobSlot).final = .known 9 ∧
    State.reset.sup.running = none ∧ State.reset.slot .A = .cleared ∧ State.reset.window.records = [] := by
  decide +kernel

theorem test_VlrdReportsAndVlclEmpties_premises :
    field [0, 255] 0 2 = 255 ∧ field [1, 0] 0 2 = 256 ∧ full76.voids.ranges[246 + 9]? = some (2550, 2552) ∧
    full76.sup.running = none ∧ makeup213.source = .makeup ∧ makeup213.state ∈ [SlotState.loaded, .running, .draining] ∧
    full76.slotA.source ≠ .makeup ∧ full76.slotB.source ≠ .makeup := by decide +kernel

theorem test_PlanBlockRoundTrip_premises :
    plan2.ok ∧ plan2.plies ≠ [] ∧
    (let s := withParam State.reset (encodePlan plan2)
     s.sup.running = none ∧ s.inRun = false ∧ s.sup.param = encodePlan plan2) := by
  refine ⟨?_, by decide, by decide +kernel⟩
  unfold Plan.ok
  decide +kernel

theorem test_JobBlockRoundTrip_premises :
    65535 ≤ 65535 ∧ geometry22.inRange ∧ ({ rules210 with span := 1000, lead := chars "AZ9" } : Rules).inRange .series ∧
    makeup213.rules.inRange .makeup := by
  refine ⟨by decide, ?_, ?_, ?_⟩
  · unfold Geometry.inRange; decide
  · unfold Rules.inRange; decide +kernel
  · unfold Rules.inRange; decide +kernel

theorem test_FrameRoundTrip_premises :
    4294967295 < 2 ^ 32 ∧ (0 : Byte) ≠ (encodeRequest 4294967295).getD 4 0 ∧ (0 : Byte) ≠ (encodeWaste 0 4294967295).getD 8 0 ∧
    (0 : Byte) ≠ (encodeMisfire 0 0xFFFF).getD 6 0 := by decide +kernel

/-- A counter at its span, one exhausted, one whose value is free, skipped by the scheme, and in a skip range. -/
theorem test_TakeIssuesOrGoesOn_premises :
    let f := fillFor job29
    run29.queue.fill = some f ∧ (run29.slot f.slot).source = .series ∧ f.entries.length < (run29.slot f.slot).positions ∧
    (run29.slot f.slot).counters[run29.counterServing f]? = some (counter 990 0) ∧ rules29.span ≤ (counter 990 500).o ∧
    (counter 990 499).o < rules29.span ∧ rules29.skipsValue 990 = false ∧ rules29.skipsValue 992 = true ∧
    (rules29.skips.find? fun x => decide (x.1 ≤ 990 ∧ 990 ≤ x.2)) = none ∧
    (rules210.skips.find? fun x => decide (x.1 ≤ 40 ∧ 40 ≤ x.2)) = some (15, 40) := by decide +kernel

theorem test_DrawTakesLowestValue_premises :
    let s := { running makeup213 with voids := { full76.voids with ranges := (full76.voids.ranges.drop 100) } }
    s.queue.fill = some (fillFor makeup213) ∧ (s.slot .A).source = .makeup ∧ (0 : Nat) < (s.slot .A).positions ∧
    (s.slot .A).draw.exhausted = false ∧ listed s.voids.ranges 1000 = true ∧ makeup213.rules.skipsValue 1000 = false ∧
    makeup213.rules.wlo ≤ 1000 ∧ 1000 ≤ makeup213.rules.whi ∧ rangesWf s.voids.ranges ∧ s.voids.ranges.length = 156 ∧
    makeup213.rules.whi + 2 ≤ 101 + makeup213.rules.wlo ∧ makeup213.rules.skipsValue 1009 = true ∧
    ({ fillFor makeup213 with floor := some 1100 } : Fill).floor.getD 1000 = 1100 ∧
    ({ makeup213 with draw := { exhausted := true, raised := true } } : JobSlot).draw.exhausted = true := by decide +kernel

/-- A full list whose range from 1010 is split at 1011, and not at its ends. -/
theorem test_DrawTakesLowestValue_full :
    full76.voids.ranges.length = 256 ∧ (1010, 1012) ∈ full76.voids.ranges ∧ rangesWf full76.voids.ranges ∧
    full76.voids.incomplete = false ∧ full76.voids.dropped = 0 ∧ full76.voids.removeDrops 1011 = true ∧
    (∀ x ∈ [1010, 1012], full76.voids.removeDrops x = false ∧ ∀ r ∈ full76.voids.ranges, ¬ (r.1 < x ∧ x < r.2)) ∧
    (({ full76.voids with changes := 65535 } : VoidList).remove 1012).changes = 0 ∧ (full76.voids.remove 1011).changes = 1 := by decide +kernel

/-- 7.6: of values inserted 5 is dropped and 13 is not, at a flush too. -/
theorem test_dropsInserting_full :
    full76.dropsInserting [13, 5] ∧ ¬ full76.dropsInserting [13] ∧
    ({ full76 with queue := { full76.queue with drafts := [{ draft 5 with drawn := [5] }] } } : State).flushDrops 4 := by
  refine ⟨⟨1, 5, rfl, by decide +kernel, by decide +kernel⟩, ?_, ⟨0, 5, rfl, by decide +kernel, by decide +kernel⟩⟩
  rintro ⟨k, x, h, _, hl⟩
  cases k with
  | zero => cases h; exact absurd hl (by decide +kernel)
  | succ k => cases h

theorem test_InsertionListsValues_premises :
    rangesWf full76.voids.ranges ∧ full76.voids.ranges.length = 256 ∧ 5 ∉ full76.heldValues ∧
    (∀ x ∈ full76.voids.ranges, x.2 + 1 < 5 ∨ 5 + 1 < x.1) ∧ State.reset.voids.ranges.length < 256 ∧
    listed full76.voids.ranges 10 = true ∧ listed full76.voids.ranges 12 = true ∧
    ((List.range (6 + 1 - 4)).filter fun d => decide (4 + d ∉ full76.heldValues)).length ≠ 0 ∧
    (∀ x ∈ full76.voids.ranges, x.2 + 1 < 4 ∨ 6 + 1 < x.1) := by decide +kernel

/-- The full list of 7.6 with 5 held by a make-up draft, at the largest change count. -/
def fullHeld : State :=
  { full76 with
    slotA := makeup213, queue := { full76.queue with drafts := [{ draft 2 with drawn := [5] }] }
    voids := { full76.voids with changes := 65535 } }

theorem test_InsertionListsValues_held : fullHeld.voids.ok ∧ fullHeld.heldValues = [5] ∧ 4 < 5 ∧ 5 < 6 ∧ (10, 12) ∈ fullHeld.voids.ranges := by
  refine ⟨?_, by decide +kernel⟩
  unfold VoidList.ok
  decide +kernel

/-- R131 on a full list: the pieces 4 and 6 beside the held 5 are dropped as one change, 13 joins the range before it, 10 to 12 change nothing. -/
theorem test_InsertionListsValues_touch :
    let t := fullHeld.insertRange 4 6
    let u := fullHeld.insertRange 13 13
    t.voids = { fullHeld.voids with incomplete := true, dropped := 2, changes := 0 } ∧ listed u.voids.ranges 13 = true ∧
    u.voids.dropped = 0 ∧ u.voids.changes = 0 ∧ fullHeld.insertRange 10 12 = fullHeld := by decide +kernel

/-- A fill whose positions are all settled, with and without a number. -/
def filled (es : List Entry) : State :=
  { run29 with queue := { run29.queue with fill := some { fillFor job29 with entries := es } } }

theorem test_FillCompletes_premises :
    (filled [entry 1, blankEntry, blankEntry, blankEntry]).queue.fill =
      some { fillFor job29 with entries := [entry 1, blankEntry, blankEntry, blankEntry] } ∧
    job29.positions ≤ [entry 1, blankEntry, blankEntry, blankEntry].length ∧
    (∃ e ∈ [entry 1, blankEntry, blankEntry, blankEntry], e.value.isSome = true) ∧
    (∀ e ∈ List.replicate 4 blankEntry, e.value = none) ∧
    (∃ r, ({ job29 with first := some 1 } : JobSlot).first = some r ∧ r < (fillFor job29).target) ∧
    (∃ d ∈ [draft 1], d.slot = (fillFor job29).slot ∧ d.repeatIndex + 1 = (fillFor job29).target) ∧
    (∃ c ∈ job29.counters, c.exhausted ≠ true) ∧ run29.staged = none ∧ run29.runningSlot = some .A ∧
    ({ run29 with slotB := { loaded with change := some 9 } } : State).staged = some (.B, 9) := by
  refine ⟨by decide +kernel, by decide, by decide, by decide, ⟨1, rfl, by decide⟩, by decide, by decide, by decide +kernel, by decide +kernel,
    by decide +kernel⟩

/-- The run with a job staged at `rc` in slot B. -/
def stagedAt (rc : Nat) (s : State) : State := { s with slotB := { loaded with tag := 8, change := some rc, first := some rc } }

/-- No slot RUNNING; one RUNNING alone; and with a job staged at 9, the repeats 8 and 9. -/
theorem test_FillCompletes_owners :
    (∀ k, (State.reset.slot k).state ≠ .running) ∧ State.reset.ownerOf 2 = none ∧ State.reset.draftBase = none ∧
    (run29.slot .A).state = .running ∧ (run29.slot SlotId.A.other).state ≠ .running ∧ (run29.slot .A).change = none ∧
    (run29.slot SlotId.A.other).change = none ∧ run29.ownerOf 2 = some .A ∧ run29.draftBase = some 2 ∧
    ((stagedAt 9 open23).slot SlotId.A.other).change = some 9 ∧ (stagedAt 9 open23).ownerOf 8 = some .A ∧
    (stagedAt 9 open23).ownerOf 9 = some .B ∧ run29.ownerOf 4294967250 = some .A ∧ run29.ownerOf 4294967251 = none := by
  refine ⟨?_, ?_⟩
  · intro k; cases k <;> decide +kernel
  · decide +kernel

/-- Drafts 4 and 5 of slot A and a fill for 6. -/
def queued : State :=
  { open23 with queue := { drafts := [draft 4, draft 5], fill := some { fillFor job29 with target := 6 }, passFloor := none } }

theorem test_FlushTakesBackNumbers_premises :
    (queued.queue.drafts.find? fun d => decide (d.slot = .A ∧ 5 ≤ d.repeatIndex)) = some (draft 5) ∧
    (queued.queue.drafts.find? fun d => decide (d.slot = .A ∧ 6 ≤ d.repeatIndex)) = none ∧
    queued.queue.fill = some { fillFor job29 with target := 6 } ∧
    (queued.queue.drafts.find? fun d => decide (d.slot = .B ∧ 5 ≤ d.repeatIndex)) = none ∧
    (queued.slot .A).counters[1]? = some (counter 1490 0) ∧ (draft 5).before.counters[1]?.isSome = true := by decide +kernel

/-- The first repeat a SWAP may name is newest + 1, or L_max before the first opening. -/
theorem test_SwapStagesChange_premises :
    (∀ s ∈ [behind open23 4, behind run29 2], s.sup.running = none ∧ s.slotA.state = .running ∧ s.slotB.state = .loaded ∧
      s.slotA.change = none ∧ s.slotB.change = none ∧ s.slotA.geometry = s.slotB.geometry) ∧
    3 < field (behind open23 4).sup.param 0 4 ∧ open23.window.newest = some 3 ∧
    run29.plan.lMax ≤ field (behind run29 2).sup.param 0 4 ∧ run29.window.newest = none := by decide +kernel

/-- A run with a staged job and a request that waits, and one that is held. -/
theorem test_StopEndsNumbering_premises :
    let s := { queued with slotB := { loaded with tag := 8, change := some 9, first := some 9 } }
    let t := (s.setReqSlot 0 (.preparing (asked 4) .waiting)).setReqSlot 1 (.held (asked 60) .waiting)
    t.sup.running = none ∧ (t.slot .A).state = .running ∧ (t.slot .B).state ≠ .running ∧ (t.slot .A).change = none ∧
    (t.slot .B).change.isSome = true ∧ queued.slotB.change = none ∧ (t.port 0).slot = .preparing (asked 4) .waiting ∧
    (t.port 1).slot = .held (asked 60) .waiting ∧ t.atOrBelowNewest 4 = false ∧ t.plan.lMax ≤ 4 ∧
    (t.slot .B).counters.length = 2 := by decide +kernel

/-- The same with the closure of repeat 2 in progress. -/
theorem test_QuitAbortsOpenRecords_closing :
    ({ open23 with window := { open23.window with closing := some { repeatIndex := 2, values := [200] } } } : State).finishClosing.window.closing =
      none := by decide +kernel

theorem test_QuitAbortsOpenRecords_premises :
    open23.sup.running = none ∧ open23.inRun = true ∧ open23.slotsOk ∧ open23.window.ok ∧ open23.voids.ok ∧
    ∀ i, (open23.slot i).tally.ok := by
  refine ⟨by decide +kernel, by decide +kernel, ⟨by decide +kernel, fun i => ?_⟩, ?_, ?_, fun i => ?_⟩
  · cases i <;> refine ⟨by decide +kernel, fun rc h => ?_, by decide +kernel, by decide +kernel⟩ <;> cases h
  · unfold Window.ok; decide +kernel
  · unfold VoidList.ok; decide +kernel
  · cases i <;> (unfold Tally.ok; decide +kernel)

/-- A ring with one POST_VOID record of 24 bytes, one that reaches the tail mark, and one with an item waiting. -/
def oneRecord : Account := { State.reset.account with ring := [(0, 4)], wo := 24, count := 1 }

theorem test_NextReadsAndReleaseFrees_premises :
    State.reset.sup.running = none ∧ State.reset.account.count = 0 ∧ oneRecord.count ≠ 0 ∧ oneRecord.queue = [] ∧
    ({ oneRecord with tail := some 24, wo := 0 } : Account).tail = some (0 + oneRecord.oldestSize) ∧
    ({ oneRecord with queue := [.postVoid []], due := true } : Account).queue ≠ [] := by decide +kernel

/-- R146: the used bytes of an empty ring, of the example behind R147 before and after its append (T = 8100), and of a full ring. -/
theorem test_used :
    [((7, 7, 0, none), 0), ((8100, 500, 1, none), 7600), ((140, 500, 2, some 8100), 7832), ((0, 0, 1, none), 8192)].all (fun x =>
      ({ State.reset.account with wo := x.1.1, ro := x.1.2.1, count := x.1.2.2.1, tail := x.1.2.2.2 } : Account).used = x.2) = true := by decide +kernel

/-- The run with ten delivered numbers and a post-void block for the range 5 to 14 of its job. -/
def voiding (tag lo hi : Nat) : State :=
  withParam { open23 with slotA := { job29 with tally := { Tally.zero with delivered := 10 } } }
    (beBytes 2 tag ++ beBytes 5 lo ++ beBytes 5 hi)

theorem test_PostVoidChecksAndEffects_premises :
    let s := voiding 7 5 14
    s.sup.running = none ∧ field s.sup.param 0 2 = 7 ∧ field s.sup.param 2 5 = 5 ∧ field s.sup.param 7 5 = 14 ∧
    (s.slot .A).state ≠ .free ∧ (s.slot .A).tag = 7 ∧ (s.slot .B).tag ≠ 7 ∧ 14 - 5 + 1 ≤ (s.slot .A).tally.delivered ∧
    s.openIn 5 14 = false ∧ s.account.queue.countP Item.isSmall < 8 := by decide +kernel

/-- RANGE, TAG, UNDERFLOW, OPEN and QUEUE in turn. -/
theorem test_PostVoidChecksAndEffects_refused :
    answered (after .pvod (voiding 7 6 5)) = 3 ∧ answered (after .pvod (voiding 7 0 10000000000)) = 3 ∧
    answered (after .pvod (voiding 0 5 14)) = 5 ∧ answered (after .pvod (voiding 7 5 15)) = 12 ∧
    answered (after .pvod (voiding 7 192 201)) = 10 ∧
    answered (after .pvod { voiding 7 5 14 with account := { Account.reset with queue := List.replicate 8 (.postVoid []) } }) = 11 := by
  decide +kernel

def startItem : Item := .jobStart .A loaded.startBytes

def waiting (a : Account) : State := { State.reset with account := { a with queue := [startItem], due := true } }

/-- An item of 32 bytes: to an empty ring, to the last 32 bytes, behind the tail, and with no room by one byte. -/
theorem test_AppendPlacesRecordOrWaits_premises :
    ∀ x ∈ [(0, 0, 0, some 0), (8160, 100, 1, some 8160), (8161, 33, 1, some 0), (8161, 32, 1, none), (100, 133, 1, some 100),
      (100, 132, 1, none), (8161, 8161, 0, some 0), (7, 7, 1, none)],
      let a : Account := { State.reset.account with wo := x.1, ro := x.2.1, count := x.2.2.1 }
      let s := waiting a
      s.account.queue = [startItem] ∧ s.account.due = true ∧ a.place 32 = x.2.2.2 ∧ (s.itemBytes startItem).length = 32 ∧
      Memory.wf s.account.ring ∧ s.account.wo < ringSize ∧ s.account.ro < ringSize ∧ s.account.full = false := by decide +kernel

/-- A JOB_END and a REPEAT item in front, each of which fits. -/
theorem test_AppendEffectByItem_premises :
    (waiting Account.reset).account.place 32 = some 0 ∧ startItem.isSmall = true ∧ startItem.isJobEndOf .A = false ∧
    (∀ it ∈ [Item.jobEnd .A job29.endBytes, .repeatItem 2],
      let s := { open23 with account := { Account.reset with queue := [it], due := true } }
      (s.account.place (s.itemBytes it).length).isSome = true) ∧ open23.record 2 = some (record 2) := by decide +kernel

/-- A REPEAT item in front with a request held: another record stays in the window, or the last one leaves and the base is near. -/
theorem test_AppendEffectByItem_retake :
    (let s := open23.setReqSlot 1 (.held (asked 50) .waiting)
     (s.port 1).slot = .held (asked 50) .waiting ∧ (s.window.records.filter fun y => decide (y.repeatIndex ≠ 2)) ≠ [] ∧
     (asked 50).repeatIndex = 50) ∧
    (let s := { open23 with window := { open23.window with records := [record 3] } }
     s.draftBase = some 4 ∧ max s.firstUnopened (51 - 47) ≤ 4 ∧ ¬ max s.firstUnopened (52 - 47) ≤ 4) := by decide +kernel

/-- The window of H6 with newest 49: the opening has stopped at 50, for which a draft is ready, and requests for 50 and 60 are held. -/
def stalled : State :=
  let s := { open23 with
    queue := { drafts := [draft 50], fill := none, passFloor := none }
    window := { open23.window with records := [{ record 2 with closure := .verified }, record 3], newest := some 49, target := some 60 }
    account := { Account.reset with queue := [.repeatItem 2], due := true } }
  (s.setReqSlot 0 (.held (asked 50) .waiting)).setReqSlot 1 (.held (asked 60) .waiting)

theorem test_AppendEffectByItem_stopped :
    stalled.window.target = some 60 ∧ stalled.draftBase = some 50 ∧ stalled.oldest = some 2 ∧ (stalled.account.place 36).isSome = true ∧
    (stalled.itemBytes (.repeatItem 2)).length = 36 ∧ open23.window.target = none := by decide +kernel

/-- H6: record 2 leaves, record 50 opens, the request for 50 is answered NUMBERS; the one for 60 stays held, neither counted nor raised again (R67). -/
theorem test_leaving_resumes_opening :
    let t := after .append stalled
    t.window.records.map Record.repeatIndex = [3, 50] ∧ t.window.newest = some 50 ∧ t.queue.drafts = [] ∧
    (match (t.port 0).slot with | .held _ (.building (.numbers 50 7 _)) => true | _ => false) = true ∧
    t.port 1 = stalled.port 1 ∧ t.sup.events = stalled.sup.events := by decide +kernel

/-- A port not selected, one selected, and a place inside and one beyond the chosen byte. -/
theorem test_ProbeShowsPort_premises :
    (open23.port 0).fetch = none ∧ (open23.port 0).selected = false ∧ selectAt (.request 0 (.select true)) = some (0, true) ∧
    ((after (.probe 0 (.select false)) open23).port 0).selected = true ∧ ((after (.probe 0 (.select false)) open23).port 0).fetch = none ∧
    (after (.probe 0 (.select false)) open23).clockedOut 0 2 = [0x40, 0] := by decide +kernel

theorem test_RejectedFramesOnlyCount_premises :
    (open23.port 0).fetch = none ∧ (0x35 : Byte) ∉ [0x30, 0x31, 0x32, 0x33, 0x34] ∧ [0, 0, 0, (3 : Byte)].length < 5 ∧
    (0x31 + (([0, 0, 0, 3, 0xCD] : Bytes).map BitVec.toNat).sum) % 256 ≠ 0 := by decide +kernel

/-- A CLOSED, a LOST and an ACTIVE port; REQUEST and MISFIRE off the cursor, an inverted WASTE, impressions whose repeat is above the
largest. -/
theorem test_PortAnswersRefusals_premises :
    (run29.port 0).fetch = none ∧ (run29.port 2).state = .closed ∧
    ((withPort0 run29 fun x => { x with state := .lost }).port 0).state = .lost ∧ (run29.acceptedPort 0).state = .active ∧
    (run29.acceptedPort 0).cursor = 3 ∧ run29.leadAt 0 = 2 ∧ frameAccepted 0x31 5 (encodeRequest 4) = true ∧
    frameAccepted 0x31 5 (encodeRequest 4294967249) = true ∧ 4294967250 < 4294967249 + run29.leadAt 0 ∧
    field (encodeRequest 4294967249) 0 4 = 4294967249 ∧ frameAccepted 0x32 9 (encodeWaste 2 1) = true ∧
    field (encodeWaste 0 64) 4 4 - field (encodeWaste 0 64) 0 4 = 64 ∧ frameAccepted 0x33 7 (encodeMisfire 3 1) = true ∧
    field (encodeMisfire 3 1) 0 4 = 3 := by decide +kernel

/-- Requests at port 1 (lead 0, cursor 3): for repeat 1 below L_max, 2 and 3 at or below newest, and 3 below a pass floor. -/
theorem test_RequestAnsweredFromWindow_premises :
    (open23.port 1).fetch = none ∧ (open23.port 1).state = .active ∧ (open23.port 1).ply = some 1 ∧
    open23.plan.plies[1]? = some { port := 1, lead := 0 } ∧ frameAccepted 0x31 5 (encodeRequest 3) = true ∧
    field (encodeRequest 3) 0 4 = (open23.port 1).cursor ∧ field (encodeRequest 2) 0 4 + 1 = (open23.port 1).cursor ∧
    open23.inRun = true ∧ State.reset.inRun = false ∧ 1 < open23.plan.lMax ∧ open23.plan.lMax ≤ 2 ∧ open23.window.newest = some 3 ∧
    open23.record 3 = some (record 3) ∧ (record 3).closure = .awaiting ∧
    ({ record 3 with closure := .verified } : Record).closure ≠ .awaiting ∧
    ({ open23 with window := { open23.window with records := [record 3] } } : State).record 2 = none ∧
    ({ open23 with window := { open23.window with records := [record 1, record 3] } } : State).record 2 = none ∧
    ({ run29 with queue := { run29.queue with passFloor := some 4 } } : State).queue.passFloor = some 4 ∧
    run29.window.newest = none := by decide +kernel

/-- A request for repeat 5 above newest at port 0 (lead 2, cursor 3): with a record 48 below the draft base, with an empty window far
behind, with no repeat owned. -/
theorem test_RequestOpensOrHolds_premises :
    (open23.port 0).fetch = none ∧ (open23.port 0).state = .active ∧ (open23.port 0).ply = some 0 ∧
    open23.plan.plies[0]? = some { port := 0, lead := 2 } ∧ frameAccepted 0x31 5 (encodeRequest 3) = true ∧ open23.inRun = true ∧
    field (encodeRequest 3) 0 4 = (open23.port 0).cursor ∧ open23.plan.lMax ≤ 5 ∧ open23.window.newest = some 3 ∧
    open23.queue.passFloor = none ∧ open23.draftBase = some 4 ∧
    ({ open23 with window := { open23.window with newest := some 49 } } : State).draftBase = some (2 + 48) ∧
    run29.window.records = [] ∧ run29.draftBase = some 2 ∧ 2 < max 2 (50 - 47) ∧
    ({ open23 with slotA := { job29 with final := .known 3 } } : State).draftBase = none := by decide +kernel

theorem test_WasteMarksRecords_premises :
    (open23.port 1).fetch = none ∧ (open23.port 1).state = .active ∧ (open23.port 1).ply = some 1 ∧
    open23.plan.plies[1]? = some { port := 1, lead := 0 } ∧ frameAccepted 0x32 9 (encodeWaste 2 3) = true ∧
    field (encodeWaste 2 3) 0 4 = 2 ∧ field (encodeWaste 2 3) 4 4 = 3 ∧ open23.inRun = true ∧ open23.window.newest = some 3 ∧
    field (encodeWaste 2 4) 4 4 = 4 ∧ field (encodeWaste 0 63) 4 4 - field (encodeWaste 0 63) 0 4 = 63 := by decide +kernel

/-- Misfires at port 1: on repeat 2 (AWAITING, then closed), on 1 below L_max, above newest with and without a pass floor above. -/
theorem test_MisfireMarksPositions_premises :
    (open23.port 1).fetch = none ∧ frameAccepted 0x33 7 (encodeMisfire 2 0xFFFF) = true ∧ field (encodeMisfire 2 0xFFFF) 0 4 = 2 ∧
    2 < (open23.port 1).cursor ∧ open23.record 2 = some (record 2) ∧ open23.window.newest = some 3 ∧
    (run29.record 2 = none ∧ run29.window.newest = none ∧ run29.queue.passFloor = none) ∧
    ({ open23 with window := { open23.window with records := [record 1, record 3] } } : State).record 2 = none ∧
    ({ open23 with window := { open23.window with records := [record 3] } } : State).window.records.head? = some (record 3) := by
  decide +kernel

def readyAt (a : Answer) : State := withPort0 open23 fun x => { x with slot := .ready (asked 2) a }

def clocking (fromReady closed : Bool) : State :=
  withPort0 (readyAt (.numbers 2 7 [])) fun x =>
    { x with fetch := some { answer := .numbers 2 7 [], fromReady, isNew := true, recordClosed := closed } }

theorem test_FetchClocksChosenAnswer_premises :
    ((readyAt (.leadIn 1)).port 0).fetch = none ∧ ((readyAt (.leadIn 1)).port 0).slot = .ready (asked 2) (.leadIn 1) ∧
    (open23.port 0).slot = .none ∧
    (let s := open23.setReqSlot 0 (.held (asked 2) (.building (.late 2)))
     (s.port 0).fetch = none ∧ (s.port 0).selected = false ∧ (s.port 0).slot = .held (asked 2) (.building (.late 2))) := by decide +kernel

theorem test_FetchEndedShortLeavesAnswer_premises :
    (open23.port 0).fetch = none ∧ ((clocking true true).port 0).slot = .ready (asked 2) (.numbers 2 7 []) ∧
    (((clocking true true).port 0).fetch.any fun f => f.fromReady && f.recordClosed) = true ∧
    (((clocking false false).port 0).fetch.any fun f => !f.fromReady && !f.recordClosed) = true ∧
    frameAt (.probe 0 (.taken true)) = some 0 ∧ frameAt (.waste 1 (.select true)) = some 1 := by decide +kernel

theorem test_FetchCompleteServes_premises :
    ((clocking true false).port 0).fetch.isSome = true ∧ (((clocking false false).port 0).fetch.any fun f => !f.fromReady) = true ∧
    ((clocking true false).port 0).ply = some 0 ∧ ((clocking true false).port 0).state = .active := by decide +kernel

/-- The draft base 4 opens with the target at 4, beside records 2 and 3. -/
def opening : State :=
  { open23 with
    queue := { drafts := [draft 4, draft 5], fill := none, passFloor := none }, window := { open23.window with target := some 4 } }

theorem test_RecordOpenMakesRecord_premises :
    opening.queue.drafts = [draft 4, draft 5] ∧ opening.window.target = some 4 ∧ opening.draftBase = some (draft 4).repeatIndex ∧
    opening.window.records.head? = some (record 2) ∧ 4 < (record 2).repeatIndex + 48 ∧ opening.runningSlot = some .A ∧
    opening.staged = none ∧
    ({ opening with slotB := { loaded with tag := 8, change := some 4, first := some 4 } } : State).staged = some (.B, 4) := by
  decide +kernel

theorem test_RecordOpenMakesRecord_slots : opening.slotsOk := by
  refine ⟨by decide +kernel, fun i => ?_⟩
  cases i <;> refine ⟨by decide +kernel, fun rc h => ?_, by decide +kernel, by decide +kernel⟩ <;> cases h

/-- The same with a job staged above the opened repeat, and staged EMPTY behind a job that ends with it (R117). -/
def openingAbove : State := stagedAt 9 opening

def openingEmpty : State :=
  let s := stagedAt 9 opening
  { s with slotA := { s.slotA with final := .known 4, note := .known 4 }, slotB := { s.slotB with final := .empty, note := .empty } }

theorem test_RecordOpenMakesRecord_staged :
    ∀ s ∈ [openingAbove, openingEmpty], s.queue.drafts = [draft 4, draft 5] ∧ s.window.target = some 4 ∧ s.draftBase = some 4 ∧
      s.window.records.head? = some (record 2) ∧ s.runningSlot = some .A ∧ s.staged = some (.B, 9) ∧ (s.slot .B).final ≠ .known 4 ∧
      ((s.slot .B).final = .empty → (s.slot .A).final = .known 4) ∧ openingEmpty.slotB.final = .empty := by decide +kernel

theorem test_RecordOpenMakesRecord_staged_slots : openingAbove.slotsOk ∧ openingEmpty.slotsOk := by
  refine ⟨⟨by decide +kernel, fun i => ?_⟩, ⟨by decide +kernel, fun i => ?_⟩⟩ <;> cases i <;>
    refine ⟨by decide +kernel, fun rc h => ?_, by decide +kernel, by decide +kernel⟩ <;> cases h <;> decide +kernel

theorem test_AnswerReadyFillsSlot_premises :
    ((open23.setReqSlot 0 (.held (asked 2) (.building (.late 2)))).port 0).slot = .held (asked 2) (.building (.late 2)) ∧
    ((open23.setReqSlot 0 (.preparing (asked 2) (.building (.blank 2)))).port 0).slot =
      .preparing (asked 2) (.building (.blank 2)) ∧
    (open23.port 0).slot = .none := by decide +kernel

/-- A numbered position of a record of the two-ply plan: marked, unserved by a LOST ply, and served by both. -/
theorem test_ClosureSettlesOutcomes_premises :
    (let x := { record 2 with served := 3 }
     x.positions[0]? = some (position 200) ∧ ((x.close .verified plan2.plySet [4]).positions[0]?.map Position.outcome) = some .noForm ∧
     ((x.close .verified plan2.plySet [0]).positions[0]?.map Position.outcome) = some .delivered ∧
     ((x.close .verified plan2.plySet [0]).positions[2]?.map Position.outcome) = some .blank ∧
     (({ x with lost := 2, served := 1 }.close .unverified plan2.plySet []).positions[0]?.map Position.outcome) = some .stationLost ∧
     (({ x with served := 1 }.close .verified plan2.plySet []).positions[0]?.map Position.outcome) = some .unserved) ∧
    plan2.ok := by
  refine ⟨by decide +kernel, ?_⟩
  unfold Plan.ok
  decide +kernel

theorem test_ClosureTakesEffect_premises :
    open23.record 2 = some (record 2) ∧ (record 2).closure = .awaiting ∧ Closure.verified ≠ .awaiting ∧
    ((clocking true false).port 0).slot = .ready (asked 2) (.numbers 2 7 []) ∧
    (((clocking true false).port 0).fetch.any fun f => f.numbersFor 2) = true ∧
    ((open23.setReqSlot 0 (.preparing (asked 2) (.building (.numbers 2 7 [])))).port 0).slot =
      .preparing (asked 2) (.building (.numbers 2 7 [])) ∧
    ((readyAt (.late 2)).port 0).slot = .ready (asked 2) (.late 2) ∧ ((readyAt (.late 2)).port 0).fetch = none ∧
    (open23.port 1).slot = .none := by decide +kernel

/-- A good frame for repeat 3 with three codes, of which one record below is AWAITING. -/
def frame3 : Frame := { count := 3, indexBytes := 4, index := 3, codes := [0, 0, 0], sum := 0, damaged := false }

def handling (rs : List Record) : State :=
  { open23 with
    window := { open23.window with records := rs }, receiver := { Receiver.reset with asm := .handling, frame := some frame3 } }

theorem test_HandlingClosesRecords_premises :
    (handling [record 2, record 3]).receiver.asm = .handling ∧ (handling [record 2, record 3]).receiver.frame = some frame3 ∧
    (record 2).closure = .awaiting ∧ (record 2).repeatIndex < frame3.index ∧
    (∀ y ∈ (handling [record 3]).window.records, ¬ y.repeatIndex < frame3.index) ∧
    (handling [record 3]).record frame3.index = some (record 3) ∧ frame3.codes.length = (record 3).positions.length ∧
    ({ frame3 with codes := [0] } : Frame).codes.length ≠ (record 3).positions.length ∧ (handling []).record frame3.index = none ∧
    (handling [record 3]).window.closing = none ∧ [200, 201].length ≤ 2 ∧ 1 < [200, 201].length ∧
    (let s := handling [record 3]
     ({ s with window := { s.window with closing := some { repeatIndex := 2, values := [201] } } } : State).window.closing =
       some { repeatIndex := 2, values := [201] }) := by
  decide +kernel

theorem test_HandlingClosesRecords_window : (handling [record 2, record 3]).window.ok := by
  unfold Window.ok
  decide +kernel

def fifoByte (v : Byte) : FifoEntry := { value := v, framing := false, gapBefore := false, lossAfter := false }

/-- The line idle, receiving with 31 and with 32 bytes held, waiting to return high, and a gap being timed. -/
theorem test_LineSideTakesBytes_premises :
    Receiver.reset.line = .idle ∧ (∀ n ∈ [31, 32], ({ Receiver.reset with fifo := List.replicate n (fifoByte 0), line := .receiving true } :
      Receiver).line = .receiving true) ∧ (List.replicate 31 (fifoByte 0)).length < 32 ∧
    List.replicate 32 (fifoByte 0) = List.replicate 31 (fifoByte 0) ++ [fifoByte 0] ∧
    ({ Receiver.reset with line := .waitHigh } : Receiver).line = .waitHigh ∧
    (∀ n ∈ [1, 2], ({ Receiver.reset with gapTicks := some n } : Receiver).gapTicks = some n) ∧ Receiver.reset.gapTicks = none := by
  decide +kernel

/-- A receiver in `asm` with the frame `f` and one byte. -/
def assembling (asm : AsmState) (f : Option Frame) (e : FifoEntry) : Receiver := { Receiver.reset with asm, frame := f, fifo := [e] }

/-- The last code of a frame, its check byte right and wrong, and a gap with nothing held. -/
theorem test_AssemblerTakesByteByState_premises :
    (assembling .codes (some { frame3 with codes := [0, 0] }) (fifoByte 0)).frame = some { frame3 with codes := [0, 0] } ∧
    ({ frame3 with codes := [0, 0] } : Frame).codes.length + 1 = frame3.count ∧
    (assembling .check (some frame3) (fifoByte 1)).fifo = [fifoByte 1] ∧ frame3.sum + (fifoByte 1).value ≠ 0 ∧
    frame3.sum + (fifoByte 0).value = 0 ∧ (assembling .hunt none (fifoByte 0xA5)).asm = .hunt ∧
    ({ Receiver.reset with gapMark := true, asm := .index, frame := some frame3 } : Receiver).fifo = [] := by decide +kernel

/-- HANDLING with a byte held and with a gap mark, and a gap mark behind a byte (R88, R90, R91): nothing is taken and no gap acts. -/
theorem test_AssemblerTakesByteByState_waits :
    (∀ v ∈ [{ assembling .handling (some frame3) (fifoByte 0xA5) with gapMark := true }, { assembling .handling (some frame3) (fifoByte 0) with fifo := [], gapMark := true }],
      let s := { open23 with receiver := v }
      after .assemblerTakeByte s = s ∧ after .assemblerGapDiscard s = s) ∧
    let s := { open23 with receiver := { assembling .index (some frame3) (fifoByte 0) with gapMark := true } }
    after .assemblerGapDiscard s = s ∧ after .assemblerTakeByte s ≠ s := by decide +kernel

/-- A frame for repeat 3 with the last verdict repeat at 3 and at 2. -/
theorem test_DuplicateFrameIsDiscarded_premises :
    ∀ l ∈ [some 3, some 2, none],
      let v := { assembling .check (some frame3) (fifoByte 0) with lastVerdict := l }
      v.asm = .check ∧ v.frame = some frame3 ∧ v.fifo = [fifoByte 0] ∧ (fifoByte 0).framing = false ∧ (fifoByte 0).gapBefore = false ∧
      frame3.damaged = false ∧ frame3.sum + (fifoByte 0).value = 0 := by decide +kernel

/-- A run with a timer running at each bound station, and what steps keep. -/
def steady : State :=
  { queued with
    slotA := { job29 with tally := { Tally.zero with issued := 4 } }
    ports := #v[{ station 0 with timer := some 500 }, { station 1 with timer := some 1 }, .reset, .reset, .reset, .reset]
    pending := [.recordOpen] }

theorem test_StepKeepsRunInOrder_premises :
    (∃ t, step steady = .next t) ∧ steady.window.ok ∧ steady.portsOk ∧ steady.queue.ok := by
  refine ⟨⟨_, rfl⟩, ?_, ?_, ?_⟩
  · unfold Window.ok; decide +kernel
  · unfold State.portsOk; decide +kernel
  · unfold DraftQueue.ok; decide +kernel

theorem test_StepKeepsRunInOrder_timers : steady.timersOk := by
  have h : ∀ p : PortId, (steady.port p).timer = none ∨ (steady.port p).timer = some 500 ∨ (steady.port p).timer = some 1 := by
    decide +kernel
  intro p
  refine ⟨by revert p; decide +kernel, fun n hn => ?_⟩
  rcases h p with e | e | e <;> rw [e] at hn <;> cases hn <;> decide +kernel

/-- The books of the run with drafts 4 and 5 and a fill for 6, with four numbers issued and open. -/
theorem test_StepKeepsRunInOrder_books : steady.booksOk := by
  refine ⟨fun k d h => ?_, fun f h => ?_, fun i h => ?_, fun x h => ?_, by decide +kernel, by decide +kernel⟩
  · match k, h with
    | 0, h => cases h; exact ⟨4, by decide +kernel, by decide +kernel, by decide +kernel⟩
    | 1, h => cases h; exact ⟨4, by decide +kernel, by decide +kernel, by decide +kernel⟩
    | k + 2, h => cases h
  · cases h; exact ⟨4, by decide +kernel, by decide +kernel, by decide +kernel⟩
  · cases i
    · exact ⟨2, by decide +kernel, by decide +kernel⟩
    · exact absurd h (by decide +kernel)
  · revert x; decide +kernel

theorem issues_of_all (r : Rules) (es : List Entry) (h : (es.all fun e => e.value.all fun v => decide (v < 10 ^ r.width)) = true) :
    r.issues es := by
  intro e he v hv
  have h1 := List.all_eq_true.mp h e he
  rw [hv] at h1
  simpa using h1

/-- The numbering of the same run, in a domain of six digits: the counters, the values of the drafts, the fill and the records. -/
theorem test_StepKeepsRunInOrder_numbers : steady.numbersOk := by
  refine ⟨fun i => ?_, ?_, fun f h => ?_, fun x h => issues_of_all _ _ ?_⟩
  · cases i <;> refine ⟨by decide +kernel, by decide +kernel, ?_⟩ <;> unfold Rules.within <;> decide +kernel
  · intro d h
    refine ⟨issues_of_all _ _ ?_, ?_⟩
    · revert d; decide +kernel
    · unfold Rules.within; revert d; decide +kernel
  · obtain rfl : { fillFor job29 with target := 6 } = f := Option.some.inj h
    exact ⟨nofun, by unfold Rules.within; decide +kernel⟩
  · revert x; decide +kernel

theorem test_StepKeepsRunInOrder_slots : steady.slotsOk := by
  refine ⟨by decide +kernel, fun i => ?_⟩
  cases i <;> refine ⟨by decide +kernel, fun rc h => ?_, by decide +kernel, by decide +kernel⟩ <;> cases h

theorem test_StepKeepsStoresInOrder_balance :
    steady.window.ok ∧ steady.slotsOk ∧ steady.booksOk ∧ (∀ i, steady.balanced i) ∧
    ∃ t, step steady = .next t ∧ ∀ i, (t.slot i).tally.unsaturated := by
  refine ⟨test_StepKeepsRunInOrder_premises.2.1, test_StepKeepsRunInOrder_slots, test_StepKeepsRunInOrder_books, fun i => ?_, _, rfl, fun i => ?_⟩
  · cases i
    · intro; decide +kernel
    · exact fun h => absurd rfl h
  · cases i <;> (unfold Tally.unsaturated; decide +kernel)

theorem test_StepKeepsStoresInOrder_premises :
    (full76.voids.ok ∧ steady.plan.ok ∧ (∀ i, (steady.slot i).tally.ok) ∧ (waiting oneRecord).account.ok) ∧ steady.sizesOk := by
  refine ⟨⟨?_, ?_, fun i => ?_, ?_, ?_⟩, ?_, ?_, ?_⟩
  · unfold VoidList.ok; decide +kernel
  · unfold Plan.ok; decide +kernel
  · cases i <;> (unfold Tally.ok; decide +kernel)
  · decide +kernel
  · refine ⟨by decide +kernel, by decide +kernel, nofun, fun it h => ?_, by decide +kernel, by decide +kernel⟩
    obtain rfl : it = startItem := by simpa [waiting] using h
    exact (by decide +kernel : loaded.startBytes.length = 32)
  · intro i; cases i <;> decide +kernel
  · intro f h
    obtain rfl : { fillFor job29 with target := 6 } = f := Option.some.inj h
    decide +kernel
  · decide +kernel

/-- A MAKEUP job with a draft and a fill that have drawn 1005 and 1010, which are held and not listed. -/
def drawing : State :=
  { run29 with
    slotA := makeup213
    voids := { State.reset.voids with ranges := [(1006, 1009), (1011, 1012)] }
    queue := { run29.queue with
      drafts := [{ draft 2 with entries := [entry 1005, blankEntry], drawn := [1005] }]
      fill := some { fillFor makeup213 with target := 3, entries := [entry 1010], drawn := [1010] } } }

theorem test_StepKeepsStoresInOrder_drawn : drawing.voids.ok ∧ drawing.drawnOk ∧ drawing.heldValues = [1005, 1010] := by
  refine ⟨?_, ⟨by decide +kernel, fun f h _ => ?_, by decide +kernel⟩, by decide +kernel⟩
  · unfold VoidList.ok; decide +kernel
  · obtain rfl : _ = f := Option.some.inj h
    decide +kernel

theorem test_StepKeepsStoresInOrder_slots : drawing.slotsOk := by
  refine ⟨by decide +kernel, fun i => ?_⟩
  cases i <;> refine ⟨by decide +kernel, fun rc h => ?_, by decide +kernel, by decide +kernel⟩ <;> cases h

theorem test_StepKeepsStoresInOrder_books : drawing.booksOk := by
  refine ⟨fun k d h => ?_, fun f h => ?_, fun i h => ?_, fun x h => ?_, by decide +kernel, by decide +kernel⟩
  · match k, h with
    | 0, h => cases h; exact ⟨2, by decide +kernel, by decide +kernel, by decide +kernel⟩
    | k + 1, h => cases h
  · cases h; exact ⟨2, by decide +kernel, by decide +kernel, by decide +kernel⟩
  · cases i
    · exact ⟨2, by decide +kernel, by decide +kernel⟩
    · exact absurd h (by decide +kernel)
  · cases h

/-- A frame in progress in each assembler state, and the supervisor port while a task executes. -/
theorem test_StepKeepsStoresInOrder_receiver :
    (assembling .check (some frame3) (fifoByte 0)).ok ∧ busy.sup.param.length = 64 ∧ busy.sup.result.length = 160 := by
  refine ⟨⟨by decide, by decide, fun f h => ?_, by decide, nofun, nofun, nofun, ?_⟩, by decide +kernel, by decide +kernel⟩
  · obtain rfl : frame3 = f := Option.some.inj h
    exact ⟨by decide, by decide, by decide, rfl, rfl⟩
  · decide

end Sys2Proof.Tests
end

section
/-! Closure settles the outcome of each position (R96, R97). -/

namespace Sys2Proof.Machine

/-! ### Sets of plies -/

theorem PlySet.ne_zero_iff (x : PlySet) : x ≠ 0 ↔ ∃ k, x.getLsbD k = true := by
  constructor
  · intro hne
    by_contra hnone
    refine hne (BitVec.eq_of_getLsbD_eq fun k _ => ?_)
    simpa using not_exists.mp hnone k
  · rintro ⟨k, hk⟩ rfl
    simp at hk

section
variable {p : Plan}

/-- `Plan.ok` keeps the plies within the six bits of a ply set. -/
theorem Plan.getLsbD_plySet (h : p.ok) (k : Nat) : p.plySet.getLsbD k = decide (k < p.plies.length) := by
  have hlen : p.plies.length ≤ 6 := h.1
  rw [Plan.plySet, BitVec.getLsbD_ofNat, Nat.testBit_two_pow_sub_one]
  simp only [Bool.and_eq_right_iff_imp, decide_eq_true_eq]
  omega

theorem Plan.getLsbD_plySet_and_not (h : p.ok) (served : PlySet) (k : Nat) :
    (p.plySet &&& ~~~served).getLsbD k = true ↔ k < p.plies.length ∧ ¬ served.getLsbD k = true := by
  have hlen : p.plies.length ≤ 6 := h.1
  simp only [BitVec.getLsbD_and, Plan.getLsbD_plySet h, BitVec.getLsbD_not, Bool.and_eq_true, decide_eq_true_eq,
    Bool.not_eq_true', Bool.not_eq_true]
  exact and_congr_right fun hk => and_iff_right (by omega)

/-- The sign of R97's UNSERVED: some plan ply has not served. -/
theorem Plan.unserved_ne_zero_iff (h : p.ok) (served : PlySet) :
    p.plySet &&& ~~~served ≠ 0 ↔ ¬ ∀ k, k < p.plies.length → served.getLsbD k = true := by
  simp only [PlySet.ne_zero_iff, Plan.getLsbD_plySet_and_not h, not_forall, exists_prop]

/-- The sign of R97's STATION_LOST: some plan ply was lost and has not served. -/
theorem Plan.lostOne_ne_zero_iff (h : p.ok) (served lost : PlySet) :
    p.plySet &&& lost &&& ~~~served ≠ 0 ↔
      ∃ k, k < p.plies.length ∧ lost.getLsbD k = true ∧ ¬ served.getLsbD k = true := by
  rw [BitVec.and_assoc, BitVec.and_comm lost, ← BitVec.and_assoc, PlySet.ne_zero_iff]
  refine exists_congr fun k => ?_
  rw [BitVec.getLsbD_and, Bool.and_eq_true, Plan.getLsbD_plySet_and_not h, and_assoc, and_comm (a := ¬ _)]

end

/-! ### Verdicts and the rows of R97 -/

/-- What the code of a frame makes of a position that no earlier row settles (R96). -/
theorem verdictOf_getD (code : Byte) : (verdictOf code).getD .delivered =
    if code.toNat = 0 then .delivered else if code.toNat = 1 then .plyMissing else if code.toNat = 2 then .mismatch
    else if code.toNat = 4 then .noForm else .unreadable := by
  simp only [verdictOf, ← BitVec.toNat_inj, BitVec.ofNat_eq_ofNat, BitVec.toNat_ofNat]
  split_ifs <;> rfl

theorem verdictOf_getD_eq_delivered {code : Byte} (h : (verdictOf code).getD .delivered = .delivered) : code.toNat = 0 := by
  rw [verdictOf_getD] at h
  split_ifs at h with h0
  exact h0

section
variable {kind : Closure} {plan served lost : PlySet} {z : Position} {code : Byte}

theorem settleOutcome_waste (hk : kind ≠ .aborted) (hw : z.waste = true) :
    settleOutcome kind plan served lost z code = .waste := by
  simp [settleOutcome, hk, hw]

theorem settleOutcome_misfire (hk : kind ≠ .aborted) (hw : z.waste = false) (hm : z.misfire = true) :
    settleOutcome kind plan served lost z code = .misfire := by
  simp [settleOutcome, hk, hw, hm]

/-- Without a mark the plies decide, and the verdict only when all have served. -/
theorem settleOutcome_unmarked (hk : kind ≠ .aborted) (hw : z.waste = false) (hm : z.misfire = false) :
    settleOutcome kind plan served lost z code =
      if plan &&& lost &&& ~~~served ≠ 0 then .stationLost else if plan &&& ~~~served ≠ 0 then .unserved
      else if kind = .verified then (verdictOf code).getD .delivered else .unverified := by
  simp [settleOutcome, hk, hw, hm]

theorem settleOutcome_eq_delivered (h : settleOutcome kind plan served lost z code = .delivered) :
    kind = .verified ∧ ¬ plan &&& ~~~served ≠ 0 ∧ z.waste = false ∧ z.misfire = false ∧ code.toNat = 0 := by
  rw [settleOutcome] at h
  split_ifs at h with _ hw hm _ hserved hv
  exact ⟨hv, hserved, Bool.eq_false_iff.mpr hw, Bool.eq_false_iff.mpr hm, verdictOf_getD_eq_delivered h⟩

theorem Position.settled_blank (h : z.entry.value = none) : (z.settled kind plan served lost code).outcome = .blank := by
  simp [Position.settled, Position.numbered, h]

theorem Position.settled_numbered (h : z.entry.value.isSome = true) :
    (z.settled kind plan served lost code).outcome = settleOutcome kind plan served lost z code := by
  simp [Position.settled, Position.numbered, h]

theorem Position.settled_eq_delivered (h : (z.settled kind plan served lost code).outcome = .delivered) :
    settleOutcome kind plan served lost z code = .delivered := by
  cases hv : z.entry.value with
  | none => rw [Position.settled_blank hv] at h; cases h
  | some v => rwa [Position.settled_numbered (by simp [hv])] at h

end

theorem Record.close_getElem? (kind : Closure) (plan : PlySet) (codes : Bytes) (x : Record) (i : Nat) :
    (x.close kind plan codes).positions[i]? =
      x.positions[i]?.map fun z => z.settled kind plan x.served x.lost (codes.getD i 0) :=
  List.getElem?_mapIdx

/-- Settles O52: the closed position is the position settled, and R97's rows are the branches of `settleOutcome`. -/
theorem closureSettlesOutcomes : Obligations.ClosureSettlesOutcomes := by
  intro kind codes x i z w s hplan hkind hz hw code served lostOne allServed
  obtain rfl : z.settled kind s.plan.plySet x.served x.lost (codes.getD i 0) = w := by
    simpa only [Record.close_getElem?, hz, Option.map_some, Option.some.injEq] using hw
  have hlost : s.plan.plySet &&& x.lost &&& ~~~x.served ≠ 0 ↔ lostOne := Plan.lostOne_ne_zero_iff hplan _ _
  have hunserved : s.plan.plySet &&& ~~~x.served ≠ 0 ↔ ¬ allServed := Plan.unserved_ne_zero_iff hplan _
  refine ⟨rfl, Position.settled_blank, fun hnum => ?_, fun hd => ?_⟩
  · rw [Position.settled_numbered hnum]
    refine ⟨fun ha => by subst ha; rfl, fun ha => ⟨settleOutcome_waste ha, settleOutcome_misfire ha, fun hwaste hmis => ?_⟩⟩
    rw [settleOutcome_unmarked ha hwaste hmis]
    simp only [hlost, hunserved]
    refine ⟨fun hl => if_pos hl, fun hl hs => by rw [if_neg hl, if_pos hs], fun hs => ?_⟩
    have hnot : ¬ lostOne := fun ⟨k, hk, _, hns⟩ => hns (hs k hk)
    rw [if_neg hnot, if_neg (not_not_intro hs)]
    exact ⟨fun hk => by subst hk; rfl, fun hk => (if_pos hk).trans (verdictOf_getD _)⟩
  · obtain ⟨hv, hs, hmarks⟩ := settleOutcome_eq_delivered (Position.settled_eq_delivered hd)
    exact ⟨hv, not_not.mp (mt hunserved.mpr hs), hmarks⟩

end Sys2Proof.Machine
end

section
/-! A good frame at its check byte (R89, R91, R92). -/

namespace Sys2Proof.Machine

section
variable {v : Receiver} {f : Frame}

theorem Receiver.loss_of_not_inFrame (h : v.asm.inFrame = false) : v.loss = v := by
  simp [Receiver.loss, h]

/-- At the check byte the frame ends: it is discarded or handled. -/
theorem Receiver.judge_not_inFrame (v : Receiver) (f : Frame) : (v.judge f).1.asm.inFrame = false := by
  unfold Receiver.judge
  split_ifs <;> rfl

theorem Receiver.judge_duplicate {l : Nat} (hdam : f.damaged = false) (hsum : f.sum = 0) (hl : v.lastVerdict = some l)
    (hle : f.index ≤ l) :
    v.judge f = ({ v with asm := .hunt, frame := none, duplicates := satAdd max32 v.duplicates 1 }, true) := by
  simp [Receiver.judge, hdam, hsum, hl, hle]

theorem Receiver.judge_handled (hdam : f.damaged = false) (hsum : f.sum = 0) (hlt : ∀ l, v.lastVerdict = some l → l < f.index) :
    v.judge f = ({ v with asm := .handling, frame := some f }, false) := by
  have hnone : v.lastVerdict.any (fun l => f.index ≤ l) = false := by
    simpa [Option.any_eq_false] using hlt
  simp [Receiver.judge, hdam, hsum, hnone]

/-- In CHECK an unmarked byte ends the frame; its loss mark comes too late to damage it. -/
theorem Receiver.takeEntry_check {e : FifoEntry} (hasm : v.asm = .check) (hf : v.frame = some f) (hfr : e.framing = false)
    (hgap : e.gapBefore = false) : v.takeEntry e = v.judge { f with sum := f.sum + e.value } := by
  have hval : v.takeValue e.value = v.judge { f with sum := f.sum + e.value } := by
    simp [Receiver.takeValue, hasm, hf]
  simp [Receiver.takeEntry, hfr, hgap, hval, Receiver.loss_of_not_inFrame (Receiver.judge_not_inFrame _ _)]

end

theorem exec_assemblerTakeByte {s : State} {e : FifoEntry} {rest : List FifoEntry} (hasm : s.receiver.asm ≠ .handling)
    (hfifo : s.receiver.fifo = e :: rest) :
    exec .assemblerTakeByte s =
      let r := ({ s.receiver with fifo := rest } : Receiver).takeEntry e
      .next ({ s with receiver := r.1 }.raiseIf r.2 .readerDiscard) := by
  simp only [exec, execAssemblerTakeByte, hfifo]

/-- Settles O57: the byte taken is the check byte, and `judge` compares the frame's repeat with the last verdict repeat. -/
theorem duplicateFrameIsDiscarded : Obligations.DuplicateFrameIsDiscarded := by
  intro f e rest s hasm hf hfifo hfr hgap hdam hsum u
  have htake : exec .assemblerTakeByte s =
      let r := u.judge { f with sum := f.sum + e.value }
      .next ({ s with receiver := r.1 }.raiseIf r.2 .readerDiscard) := by
    rw [exec_assemblerTakeByte (by simp [hasm]) hfifo, Receiver.takeEntry_check (v := u) hasm hf hfr hgap]
  rw [hsum] at htake
  refine ⟨fun l hl hle => ?_, fun hlt => ?_⟩
  · rw [htake, Receiver.judge_duplicate (v := u) (f := { f with sum := 0 }) hdam rfl hl hle]
    rfl
  · rw [htake, Receiver.judge_handled (v := u) (f := { f with sum := 0 }) hdam rfl hlt]
    rfl

end Sys2Proof.Machine
end

section
/-! MASK, CLEAR and the attention line, place by place (R184 to R186). -/

namespace Sys2Proof.Machine

section
variable (s : State) (value : BitVec 32)

theorem exec_maskWrite : exec (.maskWrite value) s = .next (s.writeMask value) := rfl

theorem exec_clearWrite : exec (.clearWrite value) s = .next (s.writeClear value) := rfl

theorem State.writeMask_frame : s.writeMask value = { s with sup := { s.sup with mask := (s.writeMask value).sup.mask } } := rfl

theorem State.writeClear_frame :
    s.writeClear value = { s with sup := { s.sup with events := (s.writeClear value).sup.events } } := rfl

/-- R186: each of the twelve enables is the written place. -/
theorem State.writeMask_mask_getLsbD {j : Nat} (hj : j < 12) :
    (s.writeMask value).sup.mask.getLsbD j = value.getLsbD j := by
  simp [State.writeMask, hj]

/-- R185: a flag stays exactly where the written place is 0. -/
theorem State.writeClear_events_getLsbD {j : Nat} (hj : j < 12) :
    (s.writeClear value).sup.events.getLsbD j = (s.sup.events.getLsbD j && !value.getLsbD j) := by
  simp [State.writeClear, hj]

/-- R186: the line is released exactly while EVENTS and MASK share no place. -/
theorem State.attention_eq_false_iff :
    s.attention = false ↔ ∀ j, j < 12 → (s.sup.events.getLsbD j && s.sup.mask.getLsbD j) = false := by
  simp [State.attention, BitVec.eq_of_getLsbD_eq_iff]

theorem State.attention_iff :
    s.attention = true ↔ ∃ j, j < 12 ∧ s.sup.events.getLsbD j = true ∧ s.sup.mask.getLsbD j = true := by
  rw [← Bool.not_eq_false, State.attention_eq_false_iff]
  simp only [not_forall, exists_prop, Bool.not_eq_false, Bool.and_eq_true]

end

/-- Settles O10: both writes act place by place, and the line is the meeting of EVENTS and MASK. -/
theorem maskAndClearWriteTheirPlaces : Obligations.MaskAndClearWriteTheirPlaces := by
  intro value s
  exact ⟨⟨s.writeMask value, exec_maskWrite s value, s.writeMask_frame value, fun _ => s.writeMask_mask_getLsbD value⟩,
    s.attention_iff,
    s.writeClear value, exec_clearWrite s value, s.writeClear_frame value, fun _ => s.writeClear_events_getLsbD value⟩

end Sys2Proof.Machine
end
section
/-! What the moves that Laws leaves open keep of each block: STRT's base, PLAN, an item placed, the timers' restart at a RUN edge. -/

namespace Sys2Proof.Machine

/-! ### `State.startRunBase` -/

theorem State.startRunBase_field {α : Type} (g : State → α) (s : State) (i : SlotId)
    (hport : ∀ (t : State) (p : PortId) (f : Port → Port), g (t.modPort p f) = g t) :
    g (s.startRunBase i) =
      g { (s.modSlot i fun j => { j with state := .running, first := some s.plan.lMax, final := .unset, change := none }) with
        slotA := { (s.modSlot i fun j => { j with state := .running, first := some s.plan.lMax, final := .unset, change := none }).slotA
          with note := .unset }
        slotB := { (s.modSlot i fun j => { j with state := .running, first := some s.plan.lMax, final := .unset, change := none }).slotB
          with note := .unset }
        window := .empty, queue := .empty, receiver := { s.receiver with lastVerdict := none } } := by
  unfold State.startRunBase
  rw [State.forPorts_field g _ (fun p t => by rw [State.restartTimer, hport, hport])]
  cases i <;> rfl

@[simp] theorem State.startRunBase_window (s : State) (i : SlotId) : (s.startRunBase i).window = .empty := by
  rw [State.startRunBase_field State.window _ _ fun _ _ _ => rfl]

@[simp] theorem State.startRunBase_queue (s : State) (i : SlotId) : (s.startRunBase i).queue = .empty := by
  rw [State.startRunBase_field State.queue _ _ fun _ _ _ => rfl]

@[simp] theorem State.startRunBase_plan (s : State) (i : SlotId) : (s.startRunBase i).plan = s.plan := by
  rw [State.startRunBase_field State.plan _ _ fun _ _ _ => rfl]; cases i <;> rfl

@[simp] theorem State.startRunBase_voids (s : State) (i : SlotId) : (s.startRunBase i).voids = s.voids := by
  rw [State.startRunBase_field State.voids _ _ fun _ _ _ => rfl]; cases i <;> rfl

@[simp] theorem State.startRunBase_account (s : State) (i : SlotId) : (s.startRunBase i).account = s.account := by
  rw [State.startRunBase_field State.account _ _ fun _ _ _ => rfl]; cases i <;> rfl

@[simp] theorem State.startRunBase_sup (s : State) (i : SlotId) : (s.startRunBase i).sup = s.sup := by
  rw [State.startRunBase_field State.sup _ _ fun _ _ _ => rfl]; cases i <;> rfl

@[simp] theorem State.startRunBase_run (s : State) (i : SlotId) : (s.startRunBase i).run = s.run := by
  rw [State.startRunBase_field State.run _ _ fun _ _ _ => rfl]; cases i <;> rfl

@[simp] theorem State.startRunBase_pending (s : State) (i : SlotId) : (s.startRunBase i).pending = s.pending := by
  rw [State.startRunBase_field State.pending _ _ fun _ _ _ => rfl]; cases i <;> rfl

@[simp] theorem State.startRunBase_receiver (s : State) (i : SlotId) :
    (s.startRunBase i).receiver = { s.receiver with lastVerdict := none } := by
  rw [State.startRunBase_field State.receiver _ _ fun _ _ _ => rfl]

theorem State.startRunBase_slot (s : State) (i k : SlotId) :
    (s.startRunBase i).slot k = if k = i
      then { s.slot i with state := .running, first := some s.plan.lMax, final := .unset, change := none, note := .unset }
      else { s.slot k with note := .unset } := by
  rw [State.startRunBase_field (State.slot · k) _ _ fun _ _ _ => by simp]
  cases i <;> cases k <;> rfl

/-! ### `State.storePlan` and `State.appended` -/

@[simp] theorem State.storePlan_slotA (s : State) (new : Plan) : (s.storePlan new).slotA = s.slotA := rfl

@[simp] theorem State.storePlan_slotB (s : State) (new : Plan) : (s.storePlan new).slotB = s.slotB := rfl

@[simp] theorem State.storePlan_queue (s : State) (new : Plan) : (s.storePlan new).queue = s.queue := rfl

@[simp] theorem State.storePlan_window (s : State) (new : Plan) : (s.storePlan new).window = s.window := rfl

@[simp] theorem State.storePlan_voids (s : State) (new : Plan) : (s.storePlan new).voids = s.voids := rfl

@[simp] theorem State.storePlan_account (s : State) (new : Plan) : (s.storePlan new).account = s.account := rfl

@[simp] theorem State.storePlan_sup (s : State) (new : Plan) : (s.storePlan new).sup = s.sup := rfl

@[simp] theorem State.storePlan_run (s : State) (new : Plan) : (s.storePlan new).run = s.run := rfl

@[simp] theorem State.storePlan_pending (s : State) (new : Plan) : (s.storePlan new).pending = s.pending := rfl

@[simp] theorem State.storePlan_plan (s : State) (new : Plan) : (s.storePlan new).plan = new := rfl

@[simp] theorem State.storePlan_slot (s : State) (new : Plan) (i : SlotId) : (s.storePlan new).slot i = s.slot i := by cases i <;> rfl

@[simp] theorem State.storePlan_port (s : State) (new : Plan) (p : PortId) :
    (s.storePlan new).port p = (s.port p).closeByPlan := by
  simp [State.storePlan, State.port]

@[simp] theorem State.appended_plan (s : State) (at' : Nat) (bs : Bytes) (rest : List Item) : (s.appended at' bs rest).plan = s.plan := rfl

@[simp] theorem State.appended_slotA (s : State) (at' : Nat) (bs : Bytes) (rest : List Item) : (s.appended at' bs rest).slotA = s.slotA := rfl

@[simp] theorem State.appended_slotB (s : State) (at' : Nat) (bs : Bytes) (rest : List Item) : (s.appended at' bs rest).slotB = s.slotB := rfl

@[simp] theorem State.appended_queue (s : State) (at' : Nat) (bs : Bytes) (rest : List Item) : (s.appended at' bs rest).queue = s.queue := rfl

@[simp] theorem State.appended_window (s : State) (at' : Nat) (bs : Bytes) (rest : List Item) : (s.appended at' bs rest).window = s.window := rfl

@[simp] theorem State.appended_receiver (s : State) (at' : Nat) (bs : Bytes) (rest : List Item) : (s.appended at' bs rest).receiver = s.receiver := rfl

@[simp] theorem State.appended_voids (s : State) (at' : Nat) (bs : Bytes) (rest : List Item) : (s.appended at' bs rest).voids = s.voids := rfl

@[simp] theorem State.appended_ports (s : State) (at' : Nat) (bs : Bytes) (rest : List Item) : (s.appended at' bs rest).ports = s.ports := rfl

@[simp] theorem State.appended_sup (s : State) (at' : Nat) (bs : Bytes) (rest : List Item) : (s.appended at' bs rest).sup = s.sup := rfl

@[simp] theorem State.appended_run (s : State) (at' : Nat) (bs : Bytes) (rest : List Item) : (s.appended at' bs rest).run = s.run := rfl

@[simp] theorem State.appended_pending (s : State) (at' : Nat) (bs : Bytes) (rest : List Item) : (s.appended at' bs rest).pending = s.pending := rfl

@[simp] theorem State.appended_slot (s : State) (at' : Nat) (bs : Bytes) (rest : List Item) (i : SlotId) :
    (s.appended at' bs rest).slot i = s.slot i := by cases i <;> rfl

@[simp] theorem State.appended_port (s : State) (at' : Nat) (bs : Bytes) (rest : List Item) (p : PortId) :
    (s.appended at' bs rest).port p = s.port p := rfl

@[simp] theorem State.appended_items (s : State) (at' : Nat) (bs : Bytes) (rest : List Item) :
    (s.appended at' bs rest).account.queue = rest := rfl

/-! ### The restart of every timer -/

@[simp] theorem State.restartAll_plan (s : State) : (s.forPorts fun p t => t.restartTimer p).plan = s.plan :=
  State.forPorts_field State.plan _ (fun p t => by simp) s

@[simp] theorem State.restartAll_slotA (s : State) : (s.forPorts fun p t => t.restartTimer p).slotA = s.slotA :=
  State.forPorts_field State.slotA _ (fun p t => by simp) s

@[simp] theorem State.restartAll_slotB (s : State) : (s.forPorts fun p t => t.restartTimer p).slotB = s.slotB :=
  State.forPorts_field State.slotB _ (fun p t => by simp) s

@[simp] theorem State.restartAll_queue (s : State) : (s.forPorts fun p t => t.restartTimer p).queue = s.queue :=
  State.forPorts_field State.queue _ (fun p t => by simp) s

@[simp] theorem State.restartAll_window (s : State) : (s.forPorts fun p t => t.restartTimer p).window = s.window :=
  State.forPorts_field State.window _ (fun p t => by simp) s

@[simp] theorem State.restartAll_receiver (s : State) : (s.forPorts fun p t => t.restartTimer p).receiver = s.receiver :=
  State.forPorts_field State.receiver _ (fun p t => by simp) s

@[simp] theorem State.restartAll_voids (s : State) : (s.forPorts fun p t => t.restartTimer p).voids = s.voids :=
  State.forPorts_field State.voids _ (fun p t => by simp) s

@[simp] theorem State.restartAll_account (s : State) : (s.forPorts fun p t => t.restartTimer p).account = s.account :=
  State.forPorts_field State.account _ (fun p t => by simp) s

@[simp] theorem State.restartAll_sup (s : State) : (s.forPorts fun p t => t.restartTimer p).sup = s.sup :=
  State.forPorts_field State.sup _ (fun p t => by simp) s

@[simp] theorem State.restartAll_run (s : State) : (s.forPorts fun p t => t.restartTimer p).run = s.run :=
  State.forPorts_field State.run _ (fun p t => by simp) s

@[simp] theorem State.restartAll_pending (s : State) : (s.forPorts fun p t => t.restartTimer p).pending = s.pending :=
  State.forPorts_field State.pending _ (fun p t => by simp) s

@[simp] theorem State.restartAll_slot (s : State) (i : SlotId) : (s.forPorts fun p t => t.restartTimer p).slot i = s.slot i :=
  State.forPorts_field (State.slot · i) _ (fun p t => by simp) s

end Sys2Proof.Machine
end

section
/-! What every elementary move keeps of the window, the job slots, the ports, the timers and the draft queue (O58). -/

namespace Sys2Proof.Machine

/-! ### The window (R55, R57, R58) -/

theorem Window.ok_of_records {w v : Window} (h : w.ok) (hn : v.newest = w.newest)
    (hr : (v.records.map Record.repeatIndex).Sublist (w.records.map Record.repeatIndex)) : v.ok := by
  obtain ⟨hasc, hall⟩ := h
  have hmem : ∀ x ∈ v.records, ∃ y ∈ w.records, y.repeatIndex = x.repeatIndex := fun x hx => by
    simpa using hr.subset (List.mem_map_of_mem hx)
  refine ⟨List.pairwise_map.mp ((List.pairwise_map.mpr hasc).sublist hr), fun x hx => ?_⟩
  obtain ⟨y, hy, hyx⟩ := hmem x hx
  obtain ⟨hspan, hnew, hmax⟩ := hall y hy
  rw [← hyx, hn]
  refine ⟨fun z hz => ?_, hnew, hmax⟩
  obtain ⟨u, hu, huz⟩ := hmem z hz
  exact huz ▸ hspan u hu

theorem Window.ok_empty : Window.empty.ok := ⟨List.Pairwise.nil, nofun⟩

theorem State.ownerOf_le {s : State} {q : Nat} (h : (s.ownerOf q).isSome = true) : q ≤ maxRepeat := by
  obtain ⟨k, hk⟩ := Option.isSome_iff_exists.mp h
  unfold State.ownerOf at hk
  split at hk
  · cases hk
  · exact ((s.ownedBy_iff _ k q).mp hk).2.1
  · split at hk <;> exact ((s.ownedBy_iff _ k q).mp hk).2.1

theorem State.newest_lt_firstUnopened {s : State} {n : Nat} (h : s.window.newest = some n) : s.firstUnopened = n + 1 := by
  simp [State.firstUnopened, h]

/-- The next record opens above newest, below oldest + 48 and within the repeat indices (R58, R63). -/
theorem State.openable_window_ok {s : State} {d : Draft} {rest : List Draft} (h : s.openable = some (d, rest)) (hw : s.window.ok) :
    Window.ok { s.window with records := s.window.records ++ [s.openedRecord d], newest := some d.repeatIndex } := by
  obtain ⟨g, -, hbase, -, -, hspan⟩ := (s.openable_iff d rest).mp h
  obtain ⟨hlo, howned, -⟩ := s.draftBase_spec.1 _ hbase
  have hmax : d.repeatIndex ≤ maxRepeat := State.ownerOf_le howned
  obtain ⟨hasc, hall⟩ := hw
  have hbelow : ∀ x ∈ s.window.records, x.repeatIndex < d.repeatIndex := fun x hx => by
    obtain ⟨n, hn, hxn⟩ := (Option.any_eq_true _ _).mp (hall x hx).2.1
    have := State.newest_lt_firstUnopened hn
    simp only [decide_eq_true_eq] at hxn
    omega
  have habove : ∀ x ∈ s.window.records, d.repeatIndex < x.repeatIndex + 48 := fun x hx => by
    cases hr : s.window.records with
    | nil => simp [hr] at hx
    | cons y ys =>
      have hy := hspan y (by simp [hr])
      rw [hr] at hx hasc
      rcases List.mem_cons.mp hx with rfl | hx
      · exact hy
      · have := List.rel_of_pairwise_cons hasc hx
        omega
  refine ⟨List.pairwise_append.mpr ⟨hasc, List.pairwise_singleton _ _, fun x hx y hy => ?_⟩, fun x hx => ?_⟩
  · obtain rfl := List.mem_singleton.mp hy
    exact hbelow x hx
  · rcases List.mem_append.mp hx with hx | hx
    · have := hall x hx
      refine ⟨fun y hy => ?_, by simpa using (hbelow x hx).le, this.2.2⟩
      rcases List.mem_append.mp hy with hy | hy
      · exact this.1 y hy
      · obtain rfl := List.mem_singleton.mp hy
        exact habove x hx
    · obtain rfl := List.mem_singleton.mp hx
      refine ⟨fun y hy => ?_, by simp [State.openedRecord], hmax⟩
      rcases List.mem_append.mp hy with hy | hy
      · have := hbelow y hy
        simp only [State.openedRecord, windowSpan]
        omega
      · obtain rfl := List.mem_singleton.mp hy
        simp [windowSpan]

section
variable {o s t : State}

theorem Move.window_ok (m : Move o s t) (h : s.window.ok) : t.window.ok := by
  cases m with
  | strt => rw [State.startRunBase_window]; exact Window.ok_empty
  | reset | softReset => exact Window.ok_empty
  | target | closing | windowHigh => exact Window.ok_of_records h rfl (.refl _)
  | records _ f hf =>
    refine Window.ok_of_records h rfl ?_
    have : (s.window.records.map f).map Record.repeatIndex = s.window.records.map Record.repeatIndex := by
      rw [List.map_map]
      refine List.map_congr_left fun x hx => ?_
      obtain ⟨y, -, hyx, hw⟩ := hf x hx
      exact hw.1.trans hyx
    exact this ▸ .refl _
  | leave => exact Window.ok_of_records h rfl (List.filter_sublist.map _)
  | opens _ d rest hd => exact State.openable_window_ok hd h
  | _ => simpa using h

end

end Sys2Proof.Machine
end
section
/-! What every elementary move keeps of the job slots (O58: R104, R105, R114, R122). -/

namespace Sys2Proof.Machine

section
variable {o s t : State}

/-- What `State.slotsOk` reads of a slot stands. -/
def JobSlot.SameStanding (x y : JobSlot) : Prop := y.state = x.state ∧ y.tag = x.tag ∧ y.change = x.change ∧ y.first = x.first

theorem State.slotsOk_of_same (h : s.slotsOk) (hs : ∀ i, (s.slot i).SameStanding (t.slot i))
    (hq : t.account.queue.Sublist s.account.queue) : t.slotsOk := by
  obtain ⟨hone, hall⟩ := h
  have hA := hs .A
  have hB := hs .B
  simp only [State.slot_A, State.slot_B, JobSlot.SameStanding] at hA hB
  refine ⟨by rw [hA.1, hB.1]; exact hone, fun i => ?_⟩
  obtain ⟨htag, hchange, hcount, hend⟩ := hall i
  obtain ⟨e1, e2, e3, e4⟩ := hs i
  obtain ⟨f1, -, -, -⟩ := hs i.other
  rw [e1, e2, e3, e4, f1]
  refine ⟨htag, hchange, (hq.countP_le).trans hcount, fun hany => hend ?_⟩
  rw [List.any_eq_true] at hany ⊢
  obtain ⟨it, hit, hi⟩ := hany
  exact ⟨it, hq.subset hit, hi⟩

theorem State.slot_congr (hA : t.slotA = s.slotA) (hB : t.slotB = s.slotB) (k : SlotId) : t.slot k = s.slot k := by
  cases k <;> assumption

theorem State.slotsOk_of_slots (h : s.slotsOk) (hA : t.slotA = s.slotA) (hB : t.slotB = s.slotB)
    (hq : t.account.queue.Sublist s.account.queue) : t.slotsOk :=
  State.slotsOk_of_same h (fun k => State.slot_congr hA hB k ▸ ⟨rfl, rfl, rfl, rfl⟩) hq

/-- A slot that is not in the run and waits for nothing has no JOB_END queued. -/
theorem State.slotsOk.no_jobEnd (h : s.slotsOk) {i : SlotId} (hi : (s.slot i).state ≠ .draining) :
    s.account.queue.any (Item.isJobEndOf i) = false :=
  Bool.eq_false_iff.mpr fun e => hi ((h.2 i).2.2.2 e)

/-- The RUNNING slot is the one `State.runningSlot` answers. -/
theorem State.slotsOk.running (h : s.slotsOk) {i : SlotId} (hi : (s.slot i).state = .running) : s.runningSlot = some i := by
  refine State.runningSlot_of hi fun h' => h.1 ?_
  cases i
  · exact ⟨hi, h'⟩
  · exact ⟨h', hi⟩

/-- A staged slot stands beside the RUNNING one, and is the one `State.staged` answers. -/
theorem State.slotsOk.staged (h : s.slotsOk) {j : SlotId} {rc : Nat} (hj : (s.slot j).change = some rc) :
    s.staged = some (j, rc) ∧ (s.slot j).state = .loaded ∧ (s.slot j).first = some rc ∧ (s.slot j.other).state = .running ∧
      s.runningSlot = some j.other ∧ (s.slot j.other).change = none := by
  obtain ⟨hl, hf, hr⟩ := (h.2 j).2.1 rc hj
  have hn : (s.slot j.other).change = none := by
    cases hc : (s.slot j.other).change with
    | none => rfl
    | some x => rw [((h.2 j.other).2.1 x hc).1] at hr; cases hr
  refine ⟨?_, hl, hf, hr, h.running hr, hn⟩
  cases j
  · simpa using State.staged_of hn hj
  · simpa using State.staged_of hn hj

theorem State.slotsOk.staged_slot (h : s.slotsOk) {j : SlotId} {rc : Nat} (hj : s.staged = some (j, rc)) :
    (s.slot j).change = some rc ∧ (s.slot j).state = .loaded ∧ (s.slot j).first = some rc ∧ (s.slot j.other).state = .running ∧
      s.runningSlot = some j.other ∧ (s.slot j.other).change = none :=
  ⟨State.staged_change hj, (h.staged (State.staged_change hj)).2⟩

theorem State.change_none (h : s.staged = none) (i : SlotId) : (s.slot i).change = none := by
  unfold State.staged at h
  cases hA : s.slotA.change with
  | some rc => simp [hA] at h
  | none =>
    cases i
    · exact hA
    · simpa [hA] using h

theorem State.staged_eq_none (h : ∀ i, (s.slot i).change = none) : s.staged = none :=
  State.staged_none (i := .A) (h .A) (h .B)

theorem State.runningSlot_eq_none (h : ∀ i, (s.slot i).state ≠ .running) : s.runningSlot = none := by
  have hA := h .A
  have hB := h .B
  simp only [State.slot_A, State.slot_B] at hA hB
  simp [State.runningSlot, hA, hB]

theorem State.not_running (h : s.runningSlot = none) (i : SlotId) : (s.slot i).state ≠ .running := by
  unfold State.runningSlot at h
  split_ifs at h with hA hB
  cases i
  · exact hA
  · exact hB

theorem State.not_inRun (h : s.inRun = false) (i : SlotId) : (s.slot i).state.inRun = false := by
  simp only [State.inRun, Bool.or_eq_false_iff] at h
  cases i
  · exact h.1
  · exact h.2

theorem State.inRun_iff : s.inRun = true ↔ ∃ i, (s.slot i).state.inRun = true := by
  rw [State.inRun, Bool.or_eq_true]
  exact ⟨fun h => h.elim (⟨.A, ·⟩) (⟨.B, ·⟩), fun ⟨i, hi⟩ => by cases i; exacts [.inl hi, .inr hi]⟩

theorem SlotId.other_other (i : SlotId) : i.other.other = i := by cases i <;> rfl

theorem SlotId.eq_or_other (i k : SlotId) : k = i ∨ k = i.other := by cases i <;> cases k <;> simp

/-- Two slots that are judged one by one. -/
theorem State.slotsOk_iff (i : SlotId) : s.slotsOk ↔ ¬ ((s.slot i).state = .running ∧ (s.slot i.other).state = .running) ∧
    ∀ k : SlotId, ((s.slot k).state = .free ↔ (s.slot k).tag = 0) ∧
      (∀ rc, (s.slot k).change = some rc →
        (s.slot k).state = .loaded ∧ (s.slot k).first = some rc ∧ (s.slot k.other).state = .running) ∧
      s.account.queue.countP (Item.isJobEndOf k) ≤ 1 ∧
      (s.account.queue.any (Item.isJobEndOf k) = true → (s.slot k).state = .draining) := by
  cases i
  · exact Iff.rfl
  · exact and_congr_left fun _ => not_congr and_comm

/-! ### STRT, LDJB and the changes of job state -/

theorem State.slotsOk_startRunBase {i : SlotId} (h : s.slotsOk) (hr : s.inRun = false) (hi : (s.slot i).state = .loaded) :
    (s.startRunBase i).slotsOk := by
  have hrun : ∀ k, (s.slot k).state ≠ .running := fun k e => by simpa [e, SlotState.inRun] using State.not_inRun hr k
  have hdrain : ∀ k, (s.slot k).state ≠ .draining := fun k e => by simpa [e, SlotState.inRun] using State.not_inRun hr k
  have hchange : ∀ k, (s.slot k).change = none := fun k => by
    cases hc : (s.slot k).change with
    | none => rfl
    | some rc => exact absurd ((h.2 k).2.1 rc hc).2.2 (hrun _)
  refine (State.slotsOk_iff i).mpr ⟨fun hx => ?_, fun k => ?_⟩
  · rw [State.startRunBase_slot, State.startRunBase_slot, if_neg (SlotId.other_ne i)] at hx
    exact hrun _ hx.2
  · obtain ⟨htag, -, hcount, -⟩ := h.2 k
    rw [State.startRunBase_slot, State.startRunBase_account, h.no_jobEnd (hdrain k)]
    refine ⟨?_, fun rc hc => ?_, hcount, nofun⟩
    · split_ifs with hk
      · subst hk; simpa [hi] using htag
      · exact htag
    · split_ifs at hc with hk
      · exact absurd hc (hchange k ▸ nofun)

theorem State.slotsOk_load {i : SlotId} {j : JobSlot} (h : s.slotsOk) (hi : (s.slot i).state.loadable = true)
    (hs : j.state = .loaded) (ht : j.tag ≠ 0) (hc : j.change = none) : (s.modSlot i fun _ => j).slotsOk := by
  have hnot : (s.slot i).state ≠ .running ∧ (s.slot i).state ≠ .draining := by
    constructor <;> intro e <;> simp [e, SlotState.loadable] at hi
  refine (State.slotsOk_iff i).mpr ⟨by simp [hs], fun k => ?_⟩
  rcases SlotId.eq_or_other i k with rfl | rfl
  · obtain ⟨-, -, hcount, -⟩ := h.2 k
    simp [hs, ht, hc, hcount, h.no_jobEnd hnot.2]
  · obtain ⟨htag, hchange, hcount, hend⟩ := h.2 i.other
    rw [SlotId.other_other] at hchange
    simp only [State.modSlot_slot_other, SlotId.other_other, State.modSlot_slot_self, State.modSlot_account]
    exact ⟨htag, fun rc hrc => absurd (hchange rc hrc).2.2 hnot.1, hcount, hend⟩

theorem State.slotsOk_stage {i : SlotId} {rc : Nat} (h : s.slotsOk) (hi : s.runningSlot = some i)
    (hl : (s.slot i.other).state = .loaded) : (s.modSlot i.other fun x => { x with change := some rc, first := some rc }).slotsOk := by
  have hrun := State.runningSlot_state hi
  have hself : (s.modSlot i.other fun x => { x with change := some rc, first := some rc }).slot i = s.slot i := by
    simpa [SlotId.other_other] using
      State.modSlot_slot_other s i.other fun x => { x with change := some rc, first := some rc }
  refine (State.slotsOk_iff i).mpr ⟨by simp [hl], fun k => ?_⟩
  rcases SlotId.eq_or_other i k with rfl | rfl
  · obtain ⟨htag, hchange, hcount, hend⟩ := h.2 k
    rw [hself, State.modSlot_account]
    refine ⟨htag, fun r hr => ?_, hcount, hend⟩
    rw [hrun] at hchange
    cases (hchange r hr).1
  · obtain ⟨htag, -, hcount, -⟩ := h.2 i.other
    rw [SlotId.other_other, hself]
    simp only [State.modSlot_slot_self, State.modSlot_account]
    refine ⟨htag, fun r hr => ⟨hl, hr, hrun⟩, hcount, fun e => ?_⟩
    rw [h.no_jobEnd (by rw [hl]; nofun)] at e
    cases e

/-- A slot leaves RUNNING, and with it no SWAP stays staged. -/
theorem State.slotsOk_of_no_change (h : s.slotsOk) (hrun : ¬ (t.slotA.state = .running ∧ t.slotB.state = .running))
    (hs : ∀ k, (t.slot k).tag = (s.slot k).tag ∧ ((t.slot k).state = .free ↔ (s.slot k).state = .free) ∧
      ((s.slot k).state = .draining → (t.slot k).state = .draining) ∧ (t.slot k).change = none)
    (hq : t.account.queue = s.account.queue) : t.slotsOk := by
  refine ⟨hrun, fun k => ?_⟩
  obtain ⟨htag, -, hcount, hend⟩ := h.2 k
  obtain ⟨e1, e2, e3, e4⟩ := hs k
  rw [e1, e2, e4, hq]
  exact ⟨htag, nofun, hcount, fun e => e3 (hend e)⟩

theorem State.slotsOk_drain {i : SlotId} (h : s.slotsOk) (hi : (s.slot i).state = .running) (hs : s.staged = none) :
    (s.modSlot i fun j => { j with state := .draining }).slotsOk := by
  refine State.slotsOk_of_no_change h (fun hx => ?_) (fun k => ?_) (by simp)
  · cases i
    · simp at hx
    · simp at hx
  · rw [State.modSlot_slot]
    split_ifs with hk
    · subst hk; simp [hi, State.change_none hs]
    · simp [State.change_none hs]

theorem State.slotsOk_change {i j : SlotId} {rc : Nat} (h : s.slotsOk) (hi : s.runningSlot = some i) (hj : s.staged = some (j, rc)) :
    ((s.modSlot i fun x => { x with state := .draining }).modSlot j fun x =>
        { x with state := if x.final = .empty then .draining else .running, change := none }).slotsOk := by
  have hst := h.staged_slot hj
  obtain ⟨-, hl, -, hr, hrun, hn⟩ := hst
  obtain rfl : i = j.other := Option.some.inj (hi.symm.trans hrun)
  refine State.slotsOk_of_no_change h (fun hx => ?_) (fun k => ?_) (by simp)
  · cases j
    · simp at hx
    · simp at hx
  · rcases SlotId.eq_or_other j k with rfl | rfl
    · rw [State.modSlot_slot_self, State.modSlot_slot, if_neg (SlotId.other_ne k).symm, hl]
      refine ⟨rfl, ⟨fun e => ?_, nofun⟩, nofun, rfl⟩
      dsimp only at e
      split_ifs at e
    · rw [State.modSlot_slot_other, State.modSlot_slot_self]
      exact ⟨rfl, by simp [hr], fun _ => rfl, hn⟩

/-! ### STOP and QUIT -/

theorem State.killStaged_slot_of_none (hs : s.staged = none) : s.killStaged = s := by simp [State.killStaged, hs]

theorem State.killStaged_of_some {j : SlotId} {rc : Nat} (hs : s.staged = some (j, rc)) :
    s.killStaged = s.modSlot j JobSlot.unstage := by simp [State.killStaged, hs]

theorem State.killStaged_state (s : State) (k : SlotId) :
    (s.killStaged.slot k).state = (s.slot k).state ∧ (s.killStaged.slot k).tag = (s.slot k).tag := by
  cases hs : s.staged with
  | none => rw [State.killStaged_slot_of_none hs]; exact ⟨rfl, rfl⟩
  | some z =>
    rw [State.killStaged_of_some (j := z.1) (rc := z.2) hs, State.modSlot_slot]
    split_ifs with hk
    · subst hk; exact ⟨rfl, rfl⟩
    · exact ⟨rfl, rfl⟩

theorem State.endJob_slot (s : State) (i k : SlotId) :
    (s.endJob i).slot k = if k = i then { s.slot i with final := s.finalAtStop i, note := .unset, state := .draining } else s.slot k := by
  rw [State.endJob, State.modSlot_slot]

@[simp] theorem State.endJob_change (s : State) (i k : SlotId) : ((s.endJob i).slot k).change = (s.slot k).change := by
  rw [State.endJob_slot]
  split_ifs with hk
  · rw [hk]
  · rfl

theorem State.staged_congr (h : ∀ k, (t.slot k).change = (s.slot k).change) : t.staged = s.staged := by
  have hA := h .A
  have hB := h .B
  simp only [State.slot_A, State.slot_B] at hA hB
  simp [State.staged, hA, hB]

@[simp] theorem State.endJob_staged (s : State) (i : SlotId) : (s.endJob i).staged = s.staged :=
  State.staged_congr (State.endJob_change s i)

/-- At most one SWAP is staged, and with it gone no slot has a change repeat. -/
theorem State.killStaged_change (hs : ∀ j rc, s.staged = some (j, rc) → (s.slot j.other).change = none) (k : SlotId) :
    (s.killStaged.slot k).change = none := by
  cases hst : s.staged with
  | none => rw [State.killStaged_slot_of_none hst]; exact State.change_none hst k
  | some z =>
    rw [State.killStaged_of_some (j := z.1) (rc := z.2) hst]
    rcases SlotId.eq_or_other z.1 k with rfl | rfl
    · simp [JobSlot.unstage]
    · simpa using hs z.1 z.2 hst

theorem State.slotsOk_endRun {i : SlotId} (h : s.slotsOk) (hi : s.runningSlot = some i) : (s.endJob i).killStaged.slotsOk := by
  have hrun := State.runningSlot_state hi
  have hchange : ∀ k, ((s.endJob i).killStaged.slot k).change = none := State.killStaged_change fun j rc hj => by
    rw [State.endJob_staged] at hj
    simpa using (h.staged_slot hj).2.2.2.2.2
  have hstate : ∀ k, ((s.endJob i).killStaged.slot k).state = if k = i then .draining else (s.slot k).state := fun k => by
    rw [(State.killStaged_state _ k).1, State.endJob_slot]
    split_ifs <;> rfl
  have hone : ∀ k, ((s.endJob i).killStaged.slot k).state ≠ .running := fun k => by
    rw [hstate]
    split_ifs with hk
    · nofun
    · rcases SlotId.eq_or_other i k with rfl | rfl
      · exact absurd rfl hk
      · exact fun e => h.1 (by cases i <;> [exact ⟨hrun, e⟩; exact ⟨e, hrun⟩])
  refine State.slotsOk_of_no_change h (fun hx => hone .A hx.1) (fun k => ⟨?_, ?_, ?_, hchange k⟩) (by simp)
  · rw [(State.killStaged_state _ k).2, State.endJob_slot]
    split_ifs with hk <;> [rw [hk]; rfl]
  · rw [hstate]
    split_ifs with hk
    · subst hk; simp [hrun]
    · rfl
  · rw [hstate]
    split_ifs with hk
    · exact fun _ => rfl
    · exact id

/-! ### The pending queue -/

theorem State.slotsOk_enqueue {it : Item} (h : s.slotsOk)
    (hi : ∀ i, it.isJobEndOf i = true → (s.slot i).state = .draining ∧ s.account.queue.any (Item.isJobEndOf i) = false) :
    (s.enqueue it).slotsOk := by
  refine ⟨h.1, fun k => ?_⟩
  obtain ⟨htag, hchange, hcount, hend⟩ := h.2 k
  simp only [State.enqueue_slot]
  refine ⟨htag, hchange, ?_, ?_⟩
  · simp only [State.enqueue, List.countP_append, List.countP_singleton]
    split_ifs with hk
    · have hnone := (hi k hk).2
      rw [List.any_eq_false] at hnone
      rw [List.countP_eq_zero.mpr hnone]
    · exact hcount
  · intro hany
    simp only [State.enqueue, List.any_append, List.any_cons, List.any_nil, Bool.or_false, Bool.or_eq_true] at hany
    exact hany.elim hend fun hk => (hi k hk).1

/-- JOB_END leaves the queue and its slot is ENDED (R123): no other JOB_END waited for it. -/
theorem State.slotsOk_ended {i : SlotId} {bs : Bytes} {rest : List Item} (h : s.slotsOk)
    (hq : s.account.queue = .jobEnd i bs :: rest) (ht : t.account.queue = rest)
    (hs : ∀ k, t.slot k = if k = i then { s.slot i with state := .ended } else s.slot k) : t.slotsOk := by
  have hdrain : (s.slot i).state = .draining := (h.2 i).2.2.2 (by simp [hq, Item.isJobEndOf])
  have hnone : rest.any (Item.isJobEndOf i) = false := by
    have hcount := (h.2 i).2.2.1
    rw [hq, List.countP_cons_of_pos (by simp [Item.isJobEndOf])] at hcount
    rw [List.any_eq_false]
    exact List.countP_eq_zero.mp (by omega)
  refine (State.slotsOk_iff i).mpr ⟨by simp [hs], fun k => ?_⟩
  obtain ⟨htag, hchange, hcount, hend⟩ := h.2 k
  rw [hq] at hcount hend
  rw [ht]
  rcases SlotId.eq_or_other i k with rfl | rfl
  · have hfree : (s.slot k).tag ≠ 0 := fun e => by rw [htag.mpr e] at hdrain; cases hdrain
    rw [hs, if_pos rfl, hnone]
    refine ⟨by simp [hfree], fun rc hc => ?_, by rw [List.any_eq_false] at hnone; rw [List.countP_eq_zero.mpr hnone]; omega, nofun⟩
    rw [hdrain] at hchange
    cases (hchange rc hc).1
  · rw [hs, if_neg (SlotId.other_ne i)]
    refine ⟨htag, fun rc hc => ?_, le_trans (by simp [List.countP_cons]) hcount, fun e => hend (by simp [e])⟩
    have := (hchange rc hc).2.2
    rw [SlotId.other_other, hdrain] at this
    cases this

theorem State.slotsOk_cleared (hs : ∀ k, t.slot k = JobSlot.cleared) (hq : t.account.queue = []) : t.slotsOk := by
  have hA := hs .A
  simp only [State.slot_A] at hA
  refine ⟨by rw [hA]; nofun, fun k => ?_⟩
  rw [hs, hq]
  exact ⟨by simp [JobSlot.cleared], nofun, by simp, nofun⟩

@[simp] theorem Account.released_queue (a : Account) : a.released.queue = a.queue := rfl

@[simp] theorem State.markDue_items (s : State) : s.markDue.account.queue = s.account.queue := rfl

theorem Move.slotsOk (m : Move o s t) (h : s.slotsOk) : t.slotsOk := by
  cases m with
  | slot _ i j hw =>
    refine State.slotsOk_of_same h (fun k => ?_) (by simp)
    rw [State.modSlot_slot]
    split_ifs with hk
    · subst hk; exact ⟨hw.1, hw.2.1, hw.2.2.1, hw.2.2.2.1⟩
    · exact ⟨rfl, rfl, rfl, rfl⟩
  | restore _ i b =>
    refine State.slotsOk_of_same h (fun k => ?_) (by simp)
    rw [State.modSlot_slot]
    split_ifs with hk
    · subst hk; exact ⟨rfl, rfl, rfl, rfl⟩
    · exact ⟨rfl, rfl, rfl, rfl⟩
  | take _ f i c =>
    refine State.slotsOk_of_same h (fun k => ?_) (by simp)
    rw [State.setFill_slot, State.modSlot_slot]
    split_ifs with hk
    · subst hk; exact ⟨rfl, rfl, rfl, rfl⟩
    · exact ⟨rfl, rfl, rfl, rfl⟩
  | strt _ i hp hr hi => exact State.slotsOk_startRunBase h hr hi
  | load i bs hl ht => exact State.slotsOk_load h hl rfl ht rfl
  | stage _ i rc hi _ hl => exact State.slotsOk_stage h hi hl
  | drain _ i hi hs => exact State.slotsOk_drain h hi hs
  | change _ i j rc hi hj => exact State.slotsOk_change h hi hj
  | endRun _ i hi => exact State.slotsOk_endRun h hi
  | unstage _ hr =>
    have hs : s.staged = none := State.staged_eq_none fun k => by
      cases hc : (s.slot k).change with
      | none => rfl
      | some rc => exact absurd ((h.2 k).2.1 rc hc).2.2 (State.not_running hr _)
    rw [State.killStaged_slot_of_none hs]
    exact h
  | enqueue _ it _ hi => exact State.slotsOk_enqueue h hi
  | append _ it rest _ hq => exact State.slotsOk_of_slots h rfl rfl (by simp [hq])
  | appendEnd _ i bs rest _ hq => exact State.slotsOk_ended h hq (by simp) fun k => by simp [State.modSlot_slot]
  | reset | softReset => exact State.slotsOk_cleared (fun k => by cases k <;> rfl) rfl
  | _ => exact State.slotsOk_of_slots h (by simp) (by simp) (by simp)

end

end Sys2Proof.Machine
end
section
/-! What every elementary move keeps of the ports, the timers and the draft queue (O58: R164, R165, R173, R43). -/

namespace Sys2Proof.Machine

/-! ### One port at a time -/

/-- What `State.portsOk` says of one port, with the ply that the plan gives it. -/
def Port.ok (ply : Option Nat) (x : Port) : Prop :=
  (x.state ≠ .closed → x.ply = ply ∧ x.ply.isSome = true) ∧
  (x.state ≠ .active → x.slot.settled = true ∧ x.timer = none) ∧
  x.cursor ≤ max32 ∧ x.late ≤ max16 ∧ x.order ≤ max16 ∧ x.rejected ≤ max16 ∧ x.held ≤ max16

/-- What `State.timersOk` says of one port: `c` are the conditions of R173 that are not the port's. -/
def Port.timerOk (c : Prop) (silence : Nat) (x : Port) : Prop :=
  (x.timer.isSome = true ↔ c ∧ x.state = .active) ∧ ∀ n, x.timer = some n → 1 ≤ n ∧ n ≤ silence * 10

/-- The conditions of R173 that are not a port's. -/
def State.timed (s : State) : Prop := s.run = true ∧ s.inRun = true ∧ s.plan.silence ≠ 0

section
variable {o s t : State}

theorem State.portsOk_iff : s.portsOk ↔ ∀ p, (s.port p).ok (s.plan.plyOf p) := Iff.rfl

theorem State.timersOk_iff : s.timersOk ↔ ∀ p, (s.port p).timerOk s.timed s.plan.silence := by
  refine forall_congr' fun p => and_congr_left fun _ => ?_
  simp only [State.timed]
  tauto

theorem State.port_congr (h : t.ports = s.ports) (p : PortId) : t.port p = s.port p := by rw [State.port, State.port, h]

theorem State.inRun_congr (hA : t.slotA.state = s.slotA.state) (hB : t.slotB.state = s.slotB.state) : t.inRun = s.inRun := by
  rw [State.inRun, State.inRun, hA, hB]

theorem State.inRun_congr_inRun (h : ∀ k, (t.slot k).state.inRun = (s.slot k).state.inRun) : t.inRun = s.inRun := by
  have hA := h .A
  have hB := h .B
  simp only [State.slot_A, State.slot_B] at hA hB
  rw [State.inRun, State.inRun, hA, hB]

theorem State.portsOk_of_ports (h : s.portsOk) (hp : t.ports = s.ports) (hl : t.plan = s.plan) : t.portsOk := by
  intro p
  rw [State.port_congr hp, hl]
  exact h p

theorem State.timersOk_of_ports (h : s.timersOk) (hp : t.ports = s.ports) (hl : t.plan = s.plan) (hr : t.run = s.run)
    (hi : t.inRun = s.inRun) : t.timersOk := by
  intro p
  rw [State.port_congr hp, hl, hr, hi]
  exact h p

/-- One port changes, and nothing that the others are judged by. -/
theorem State.portsOk_modPort (h : s.portsOk) {p : PortId} {f : Port → Port}
    (hx : (s.port p).ok (s.plan.plyOf p) → (f (s.port p)).ok (s.plan.plyOf p)) : (s.modPort p f).portsOk := by
  refine State.portsOk_iff.mpr fun q => ?_
  rw [State.modPort_port, State.modPort_plan]
  split_ifs with hq
  · subst hq; exact hx (h q)
  · exact h q

theorem State.timed_modPort (s : State) (p : PortId) (f : Port → Port) : (s.modPort p f).timed ↔ s.timed := Iff.rfl

theorem State.timersOk_modPort (h : s.timersOk) {p : PortId} {f : Port → Port}
    (hx : (s.port p).timerOk s.timed s.plan.silence → (f (s.port p)).timerOk s.timed s.plan.silence) : (s.modPort p f).timersOk := by
  refine State.timersOk_iff.mpr fun q => ?_
  rw [State.modPort_port, State.modPort_plan]
  split_ifs with hq
  · subst hq; exact hx (State.timersOk_iff.mp h q)
  · exact State.timersOk_iff.mp h q

/-! ### What a port may become -/

theorem Port.Work.ok {x y : Port} {ply : Option Nat} (w : x.Work y) (h : x.ok ply) : y.ok ply := by
  obtain ⟨hstate, hply, htimer, hslot, hc, hl, ho, hrej, hh⟩ := w
  obtain ⟨h1, h2, h3, h4, h5, h6, h7⟩ := h
  rw [max_eq_right h3] at hc
  rw [max_eq_right h4] at hl
  rw [max_eq_right h5] at ho
  rw [max_eq_right h6] at hrej
  rw [max_eq_right h7] at hh
  refine ⟨by rwa [hstate, hply], fun e => ?_, hc, hl, ho, hrej, hh⟩
  rw [hstate] at e
  obtain ⟨hs, ht⟩ := h2 e
  refine ⟨?_, htimer.trans ht⟩
  rcases hslot with hslot | hslot | hslot
  · exact hslot
  · exact absurd hslot e
  · rw [hs] at hslot; cases hslot

theorem Port.Work.timerOk {x y : Port} {c : Prop} {n : Nat} (w : x.Work y) (h : x.timerOk c n) : y.timerOk c n := by
  obtain ⟨hstate, -, htimer, -⟩ := w
  unfold Port.timerOk
  rw [hstate, htimer]
  exact h

theorem Port.lost_ok {x : Port} {ply : Option Nat} (h : x.ok ply) (ht : x.timer.isSome = true) :
    Port.ok ply { x with state := .lost, slot := .none, timer := none } := by
  have ha : x.state = .active := by
    by_contra e
    rw [(h.2.1 e).2] at ht
    cases ht
  exact ⟨fun _ => h.1 (by simp [ha]), fun _ => ⟨rfl, rfl⟩, h.2.2⟩

/-- The timer of a port restarted (R173). -/
theorem State.timerRuns_iff (s : State) (p : PortId) : s.timerRuns p = true ↔ s.timed ∧ (s.port p).state = .active := by
  simp only [State.timerRuns, State.timed, Bool.and_eq_true, decide_eq_true_eq]
  tauto

theorem State.restartTimer_timerOk (s : State) (p : PortId) (x : Port) (hx : x.state = (s.port p).state) :
    Port.timerOk s.timed s.plan.silence { x with timer := if s.timerRuns p then some (s.plan.silence * 10) else none } := by
  refine ⟨?_, fun n hn => ?_⟩
  · rw [hx, ← s.timerRuns_iff]
    dsimp only
    split_ifs with hr <;> simp [hr]
  · dsimp only at hn
    split_ifs at hn with hr
    cases hn
    have := ((s.timerRuns_iff p).mp hr).1.2.2
    omega

theorem State.portsOk_restartTimer (h : s.portsOk) (p : PortId) : (s.restartTimer p).portsOk :=
  State.portsOk_modPort h fun hx => ⟨hx.1, fun e => ⟨(hx.2.1 e).1, if_neg fun hr => e ((s.timerRuns_iff p).mp hr).2⟩, hx.2.2⟩

/-- A restart sets one timer right, whatever it was (R173). -/
theorem State.timersOk_restartTimer {p : PortId} (h : ∀ q, q ≠ p → (s.port q).timerOk s.timed s.plan.silence) :
    (s.restartTimer p).timersOk := by
  refine State.timersOk_iff.mpr fun q => ?_
  by_cases hq : q = p
  · subst hq
    rw [State.restartTimer, State.modPort_port_self, State.modPort_plan, State.timed_modPort]
    exact s.restartTimer_timerOk q _ rfl
  · rw [State.restartTimer, State.modPort_port_of_ne _ _ _ _ hq, State.modPort_plan, State.timed_modPort]
    exact h q hq

/-! ### Every port at once -/

/-- A restart of every port's timer leaves each as the conditions have it (R173), whatever stood before. -/
theorem State.restartAll_port (s : State) (p : PortId) : (s.forPorts fun p t => t.restartTimer p).port p =
    { s.port p with timer := if s.timerRuns p then some (s.plan.silence * 10) else none } := by
  let I := fun t : State => t.plan = s.plan ∧ t.run = s.run ∧ t.inRun = s.inRun
  refine State.forPorts_port (I := I) (fun p t => t.restartTimer p)
    (fun p x => { x with timer := if s.run && x.state = .active && s.inRun && s.plan.silence ≠ 0 then some (s.plan.silence * 10) else none })
    (fun q t ht => ht) (fun q t ht => ?_) (fun q r t _ hne => ?_) s ⟨rfl, rfl, rfl⟩ p
  · obtain ⟨h1, h2, h3⟩ := ht
    rw [State.restartTimer, State.modPort_port_self, State.timerRuns, h1, h2, h3]
  · rw [State.restartTimer, State.modPort_port_of_ne _ _ _ _ hne]

theorem State.startRunBase_port (s : State) (i : SlotId) (p : PortId) : (s.startRunBase i).port p =
    { (s.port p).started (s.plan.plyOf p) with
      timer := if s.run && (s.plan.plyOf p).isSome && s.plan.silence ≠ 0 then some (s.plan.silence * 10) else none } := by
  let I := fun t : State => t.plan = s.plan ∧ t.run = s.run ∧ t.inRun = true
  refine (State.forPorts_port (I := I) (fun p t => (t.modPort p (Port.started (t.plan.plyOf p))).restartTimer p)
    (fun p x => { x.started (s.plan.plyOf p) with
      timer := if s.run && (s.plan.plyOf p).isSome && s.plan.silence ≠ 0 then some (s.plan.silence * 10) else none })
    (fun q t ht => ht) (fun q t ht => ?_) (fun q r t _ hne => ?_) _ ⟨?_, ?_, ?_⟩ p).trans ?_
  · obtain ⟨h1, h2, h3⟩ := ht
    rw [State.restartTimer, State.modPort_port_self, State.modPort_port_self, State.timerRuns, State.modPort_port_self,
      State.modPort_plan, h1, State.modPort_run, h2, show (t.modPort q _).inRun = t.inRun from rfl, h3]
    cases hp : s.plan.plyOf q <;> simp [Port.started]
  · rw [State.restartTimer, State.modPort_port_of_ne _ _ _ _ hne, State.modPort_port_of_ne _ _ _ _ hne]
  · cases i <;> rfl
  · cases i <;> rfl
  · cases i <;> simp [State.inRun, State.modSlot, SlotState.inRun]
  · cases i <;> rfl

theorem State.stopTimers_port (s : State) (p : PortId) : s.stopTimers.port p =
    if s.timerRuns p then s.port p else { s.port p with timer := none } := by
  rw [State.stopTimers, State.mapPorts_port]
  congr 1
  simp only [State.timerRuns, Bool.and_eq_true, decide_eq_true_eq, eq_iff_iff]
  tauto

theorem State.portsOk_stopTimers (h : s.portsOk) : s.stopTimers.portsOk := by
  intro p
  rw [State.stopTimers_port, State.stopTimers_plan]
  split_ifs
  · exact h p
  · obtain ⟨h1, h2, h3⟩ := h p
    exact ⟨h1, fun e => ⟨(h2 e).1, rfl⟩, h3⟩

/-- Stopping the timers whose conditions fail leaves exactly those that may run (R173). -/
theorem State.timersOk_stopTimers (hrun : ∀ p, s.timerRuns p = true → (s.port p).timer.isSome = true)
    (hle : ∀ p n, (s.port p).timer = some n → 1 ≤ n ∧ n ≤ s.plan.silence * 10) : s.stopTimers.timersOk := by
  refine State.timersOk_iff.mpr fun p => ?_
  have htimed : s.stopTimers.timed ↔ s.timed := Iff.rfl
  rw [State.stopTimers_port, State.stopTimers_plan, Port.timerOk, htimed]
  split_ifs with hr
  · exact ⟨iff_of_true (hrun p hr) ((s.timerRuns_iff p).mp hr), hle p⟩
  · exact ⟨iff_of_false nofun (mt (s.timerRuns_iff p).mpr hr), nofun⟩

theorem Move.portsOk (m : Move o s t) (h : s.portsOk) : t.portsOk := by
  cases m with
  | port _ p x hw => exact State.portsOk_modPort h hw.ok
  | restart _ p => exact State.portsOk_restartTimer h p
  | tick _ p n hn _ =>
    refine State.portsOk_modPort h fun hx => ⟨hx.1, fun e => ?_, hx.2.2⟩
    rw [(hx.2.1 e).2] at hn
    cases hn
  | lose _ p ht => exact State.portsOk_modPort h fun hx => Port.lost_ok hx ht
  | admitted _ p c hl hp hc =>
    refine State.portsOk_restartTimer (State.portsOk_modPort h fun hx => ?_) p
    exact ⟨fun _ => hx.1 (by simp [hl]), fun e => absurd rfl e, hc, hx.2.2.2⟩
  | strt _ i =>
    intro p
    rw [State.startRunBase_port, State.startRunBase_plan]
    obtain ⟨-, -, -, h4, h5, h6, h7⟩ := h p
    cases hp : s.plan.plyOf p
    · exact ⟨fun e => absurd rfl e, fun _ => ⟨rfl, by simp⟩, Nat.zero_le _, h4, h5, h6, h7⟩
    · exact ⟨fun _ => ⟨rfl, rfl⟩, fun e => absurd rfl e, Nat.zero_le _, h4, h5, h6, h7⟩
  | plan _ new =>
    intro p
    rw [State.storePlan_port]
    exact ⟨fun e => absurd rfl e, fun _ => ⟨rfl, rfl⟩, (h p).2.2⟩
  | runRise =>
    intro p
    rw [State.restartAll_port, State.restartAll_plan]
    obtain ⟨h1, h2, h3⟩ := h p
    exact ⟨h1, fun e => ⟨(h2 e).1, if_neg fun hr => e ((State.timerRuns_iff _ p).mp hr).2⟩, h3⟩
  | runFall => exact State.portsOk_stopTimers h
  | appendEnd _ i bs rest at' =>
    exact State.portsOk_stopTimers (State.portsOk_of_ports h (by simp) (by simp))
  | softReset _ =>
    intro p
    simp only [State.softReset, State.port, Fin.getElem_fin, Vector.getElem_map]
    exact ⟨fun e => absurd rfl e, fun _ => ⟨rfl, rfl⟩, by simp [Port.softReset, Port.reset]⟩
  | reset _ a b =>
    intro p
    simp only [State.reset, State.port, Fin.getElem_fin, Vector.getElem_replicate]
    exact ⟨fun e => absurd rfl e, fun _ => ⟨rfl, rfl⟩, by simp [Port.reset]⟩
  | _ => exact State.portsOk_of_ports h (by simp) (by simp)

/-! ### The timers (R173) -/

theorem State.timersOk_of_none (ht : ∀ p, (t.port p).timer = none) (hr : t.inRun = false) : t.timersOk := by
  intro p
  rw [ht, hr]
  exact ⟨by simp, nofun⟩

/-- A job slot that changes within the run or outside of it moves no timer. -/
theorem State.timersOk_modSlot (h : s.timersOk) {i : SlotId} {f : JobSlot → JobSlot}
    (hf : (f (s.slot i)).state.inRun = (s.slot i).state.inRun) : (s.modSlot i f).timersOk := by
  refine State.timersOk_of_ports h (by simp) (by simp) (by simp) (State.inRun_congr_inRun fun k => ?_)
  rw [State.modSlot_slot]
  split_ifs with hk
  · subst hk; exact hf
  · rfl

theorem State.killStaged_inRun (s : State) : s.killStaged.inRun = s.inRun :=
  State.inRun_congr_inRun fun k => by rw [(State.killStaged_state s k).1]

theorem State.inRun_startRunBase (s : State) (i : SlotId) : (s.startRunBase i).inRun = true :=
  State.inRun_iff.mpr ⟨i, by rw [State.startRunBase_slot, if_pos rfl]; rfl⟩

theorem Move.timersOk (m : Move o s t) (h : s.timersOk) : t.timersOk := by
  cases m with
  | port _ p x hw => exact State.timersOk_modPort h hw.timerOk
  | restart _ p => exact State.timersOk_restartTimer fun q _ => State.timersOk_iff.mp h q
  | tick _ p n hn hlt =>
    refine State.timersOk_modPort h fun hx => ⟨?_, fun m hm => ?_⟩
    · rw [← hx.1, hn]; simp
    · obtain ⟨-, hle⟩ := hx.2 n hn
      cases hm
      omega
  | lose _ p => exact State.timersOk_modPort h fun _ => ⟨by simp, nofun⟩
  | admitted _ p c =>
    refine State.timersOk_restartTimer fun q hq => ?_
    rw [State.modPort_port_of_ne _ _ _ _ hq, State.modPort_plan, State.timed_modPort]
    exact State.timersOk_iff.mp h q
  | strt _ i =>
    intro p
    rw [State.startRunBase_port, State.startRunBase_plan, State.startRunBase_run, State.inRun_startRunBase]
    refine ⟨?_, fun n hn => ?_⟩
    · cases hp : s.plan.plyOf p <;> simp [Port.started]
    · dsimp only at hn
      split_ifs at hn with hc
      cases hn
      simp only [Bool.and_eq_true, decide_eq_true_eq] at hc
      omega
  | plan _ new hr => exact State.timersOk_of_none (fun p => by rw [State.storePlan_port]; rfl) hr
  | runRise =>
    refine State.timersOk_iff.mpr fun p => ?_
    rw [State.restartAll_port, State.restartAll_plan]
    have hrun : (State.forPorts { s with run := true } fun p t => t.restartTimer p).timed ↔ State.timed { s with run := true } := by
      simp only [State.timed, State.inRun, State.restartAll_run, State.restartAll_slotA, State.restartAll_slotB, State.restartAll_plan]
    rw [Port.timerOk, hrun]
    exact State.restartTimer_timerOk { s with run := true } p _ rfl
  | runFall =>
    refine State.timersOk_stopTimers (fun p hp => ?_) fun p => (h p).2
    have := ((State.timerRuns_iff _ p).mp hp).1.1
    cases this
  | slot _ i j hw => exact State.timersOk_modSlot h (by rw [hw.1])
  | load i bs hl =>
    refine State.timersOk_modSlot h ?_
    cases hst : (o.slot i).state <;> simp [hst, SlotState.loadable] at hl <;> rfl
  | restore _ i b => exact State.timersOk_modSlot h rfl
  | stage _ i rc => exact State.timersOk_modSlot h rfl
  | drain _ i hi => exact State.timersOk_modSlot h (by rw [hi]; rfl)
  | take _ f i c => exact State.timersOk_of_ports (State.timersOk_modSlot (i := f.slot) h rfl) rfl rfl rfl rfl
  | change _ i j rc hi hj =>
    have hin : s.inRun = true := State.inRun_iff.mpr ⟨i, by rw [State.runningSlot_state hi]; rfl⟩
    refine State.timersOk_of_ports h (by simp) (by simp) (by simp) (Eq.trans (State.inRun_iff.mpr ⟨j, ?_⟩) hin.symm)
    rw [State.modSlot_slot_self]
    dsimp only
    split_ifs <;> rfl
  | endRun _ i hi =>
    refine State.timersOk_of_ports h (by simp) (by simp) (by simp) ?_
    rw [State.killStaged_inRun]
    refine State.inRun_congr_inRun fun k => ?_
    rw [State.endJob_slot]
    split_ifs with hk
    · subst hk; rw [State.runningSlot_state hi]; rfl
    · rfl
  | unstage =>
    exact State.timersOk_of_ports h (by simp) (by simp) (by simp) (State.killStaged_inRun s)
  | appendEnd _ i bs rest at' =>
    refine State.timersOk_stopTimers (fun p hp => ?_) fun p => by simpa using (h p).2
    obtain ⟨⟨h1, h2, h3⟩, h4⟩ := (State.timerRuns_iff _ p).mp hp
    simp only [State.modSlot_run, State.appended_run, State.modSlot_plan, State.appended_plan, State.modSlot_port,
      State.appended_port] at h1 h3 h4
    rw [State.modSlot_port, State.appended_port]
    refine (h p).1.mpr ⟨h1, h4, ?_, h3⟩
    obtain ⟨k, hk⟩ := State.inRun_iff.mp h2
    rw [State.modSlot_slot] at hk
    split_ifs at hk with hki
    · cases hk
    · exact State.inRun_iff.mpr ⟨k, by simpa using hk⟩
  | softReset _ =>
    exact State.timersOk_of_none (fun p => by simp [State.softReset, State.port, Port.softReset, Port.reset]) rfl
  | reset _ a b => exact State.timersOk_of_none (fun p => by simp [State.reset, State.port, Port.reset]) rfl
  | _ => exact State.timersOk_of_ports h (by simp) (by simp) (by simp) (State.inRun_congr (by simp) (by simp))

/-! ### The draft queue (R43, R45) -/

theorem DraftQueue.ok_of_fill {q : DraftQueue} {f : Fill} (h : q.ok) (hf : q.fill = some f) (g : Option Fill) :
    DraftQueue.ok { q with fill := g } :=
  ⟨h.1, fun _ => h.2 (by rw [hf]; rfl)⟩

theorem DraftQueue.Shrinks.ok {q r : DraftQueue} (hs : q.Shrinks r) (h : q.ok) : r.ok := by
  obtain ⟨hlen, -, hfill⟩ := hs
  refine ⟨hlen.trans h.1, fun e => ?_⟩
  rcases hfill with hfill | hfill
  · exact hlen.trans_lt (h.2 (hfill ▸ e))
  · rw [hfill] at e; cases e

theorem DraftQueue.ok_empty : DraftQueue.empty.ok := ⟨Nat.zero_le _, nofun⟩

theorem Move.queue_ok (m : Move o s t) (h : s.queue.ok) : t.queue.ok := by
  cases m with
  | strt => rw [State.startRunBase_queue]; exact DraftQueue.ok_empty
  | reset | softReset => exact DraftQueue.ok_empty
  | draw _ f x hf => exact DraftQueue.ok_of_fill h (State.fillAtWork_spec hf).1 _
  | take _ f i c hf =>
    rw [State.setFill, State.modSlot_queue]
    exact DraftQueue.ok_of_fill h (State.fillAtWork_spec hf).1 _
  | fillStep _ f g hf => exact DraftQueue.ok_of_fill h hf _
  | startFill _ f hf => exact ⟨h.1, fun _ => (State.nextFill_spec hf).2.2.2.2.2.2.2.1⟩
  | draft _ f hf =>
    have := h.2 (by rw [hf]; rfl)
    exact ⟨by simpa using this, nofun⟩
  | shrink _ q hq => exact hq.ok h
  | opens _ d rest hd =>
    obtain ⟨g, hq, -⟩ := (s.openable_iff d rest).mp hd
    obtain ⟨hlen, hfill⟩ := h
    rw [hq, List.length_cons] at hlen hfill
    exact ⟨by show rest.length ≤ _; omega, fun e => by have := hfill e; show rest.length < _; omega⟩
  | _ => simpa using h

end

end Sys2Proof.Machine
end
section
/-! What every elementary move keeps of the numbering (O58: R26, R34). -/

namespace Sys2Proof.Machine

/-- The start and the end of the make-up window lie in the domain, the counters within the span (R17, R18, R34). -/
def JobSlot.numbersOk (j : JobSlot) : Prop :=
  j.rules.start < 10 ^ j.rules.width ∧ j.rules.whi < 10 ^ j.rules.width ∧ ∀ c ∈ j.counters, j.rules.within c.v c.o

/-- What a draft or a fill keeps lies within the rules of its slot. -/
def Rules.keeps (r : Rules) (es : List Entry) (b : Before) : Prop := r.issues es ∧ ∀ c ∈ b.counters, r.within c.v c.o

section
variable {o s t : State}

theorem State.numbersOk_iff : s.numbersOk ↔ (∀ i, (s.slot i).numbersOk) ∧
    (∀ d ∈ s.queue.drafts, (s.slot d.slot).rules.keeps d.entries d.before) ∧
    (∀ f, s.queue.fill = some f → (s.slot f.slot).rules.keeps f.entries f.before) ∧
    ∀ x ∈ s.window.records, (s.slot x.slot).rules.issues (x.positions.map Position.entry) := Iff.rfl

theorem State.numbersOk.slot (h : s.numbersOk) (i : SlotId) : (s.slot i).numbersOk := h.1 i

theorem Rules.issues_append {r : Rules} {es fs : List Entry} (he : r.issues es) (hf : r.issues fs) : r.issues (es ++ fs) :=
  fun e h => (List.mem_append.mp h).elim (he e) (hf e)

theorem Rules.issues_blank (r : Rules) : r.issues [.blank] := fun e h v hv => by
  obtain rfl := List.mem_singleton.mp h
  cases hv

theorem Position.opened_entries (es : List Entry) : (es.map Position.opened).map Position.entry = es := by
  rw [List.map_map]
  exact List.map_id es

/-- The counters a fill begins with are its before-state (R23). -/
theorem JobSlot.numbersOk.before {j : JobSlot} (h : j.numbersOk) : ∀ c ∈ j.before.counters, j.rules.within c.v c.o := fun c hc => by
  obtain ⟨d, hd, rfl⟩ := List.mem_map.mp hc
  exact h.2.2 d hd

theorem JobSlot.numbersOk.restore {j : JobSlot} (h : j.numbersOk) {b : Before} (hb : ∀ c ∈ b.counters, j.rules.within c.v c.o) :
    (j.restore b).numbersOk :=
  ⟨h.1, h.2.1, Rules.within_restore j.counters hb⟩

theorem JobSlot.numbersOk.unstage {j : JobSlot} (h : j.numbersOk) : j.unstage.numbersOk := by
  refine h.restore fun c hc => ?_
  obtain ⟨d, hd, rfl⟩ := List.mem_map.mp hc
  exact Rules.within_counters _ h.1 d hd

theorem JobSlot.cleared_numbersOk : JobSlot.cleared.numbersOk := ⟨by decide, by decide, nofun⟩

/-- What the queue and the records keep is judged by the rules of their slots alone. -/
theorem State.numbersOk_of_rules (h : s.numbersOk) (hr : ∀ i, (t.slot i).rules = (s.slot i).rules) (hn : ∀ i, (t.slot i).numbersOk)
    (hq : t.queue = s.queue) (hx : t.window.records = s.window.records) : t.numbersOk := by
  obtain ⟨-, hd, hf, hrec⟩ := State.numbersOk_iff.mp h
  refine State.numbersOk_iff.mpr ⟨hn, ?_, ?_, ?_⟩
  · simpa only [hq, hr] using hd
  · simpa only [hq, hr] using hf
  · simpa only [hx, hr] using hrec

theorem State.numbersOk_of_slots (h : s.numbersOk) (hA : t.slotA = s.slotA) (hB : t.slotB = s.slotB)
    (hq : t.queue = s.queue) (hx : t.window.records = s.window.records) : t.numbersOk :=
  State.numbersOk_of_rules h (fun i => by rw [State.slot_congr hA hB]) (fun i => by rw [State.slot_congr hA hB]; exact h.1 i) hq hx

theorem State.numbersOk_modSlot (h : s.numbersOk) {i : SlotId} {f : JobSlot → JobSlot} (hr : (f (s.slot i)).rules = (s.slot i).rules)
    (hn : (f (s.slot i)).numbersOk) : (s.modSlot i f).numbersOk := by
  refine State.numbersOk_of_rules h (fun k => ?_) (fun k => ?_) (by simp) (by simp)
  · rw [State.modSlot_slot]
    split_ifs with hk
    · rw [hr, hk]
    · rfl
  · rw [State.modSlot_slot]
    split_ifs
    · exact hn
    · exact h.1 k

theorem State.numbersOk_setFill (h : s.numbersOk) {f : Fill} (hf : (s.slot f.slot).rules.keeps f.entries f.before) :
    (s.setFill (some f)).numbersOk := by
  refine State.numbersOk_iff.mpr ⟨fun i => s.setFill_slot (some f) i ▸ h.slot i,
    fun d hd => s.setFill_slot (some f) _ ▸ h.2.1 d hd, fun g hg => ?_, fun x hx => s.setFill_slot (some f) _ ▸ h.2.2.2 x hx⟩
  obtain rfl : f = g := Option.some.inj hg
  simpa using hf

theorem State.numbersOk_killStaged (h : s.numbersOk) : s.killStaged.numbersOk := by
  unfold State.killStaged
  split
  · exact State.numbersOk_modSlot h rfl (h.slot _).unstage
  · exact h

theorem State.numbersOk_fresh (hs : ∀ i, (t.slot i).numbersOk) (hq : t.queue = .empty) (hw : t.window = .empty) : t.numbersOk :=
  State.numbersOk_iff.mpr ⟨hs, by simp [hq, DraftQueue.empty], by simp [hq, DraftQueue.empty], by simp [hw, Window.empty]⟩

theorem State.numbersOk_load (h : s.numbersOk) (hs : s.slotsOk) (hb : s.booksOk) {i : SlotId} {bs : Bytes}
    (hl : (s.slot i).state.loadable = true) (hok : jobBlockOk bs = true) : (s.modSlot i fun _ => loadedJob bs).numbersOk := by
  obtain ⟨hd, hf, hx⟩ := State.unused_of_loadable hs hb hl
  obtain ⟨hslots, hdrafts, hfill, hrecords⟩ := h
  have hnew : (loadedJob bs).numbersOk := by
    obtain ⟨hstart, hwhi⟩ := jobRules_domain hok
    refine ⟨hstart, hwhi, fun c hc => ?_⟩
    simp only [loadedJob] at hc ⊢
    split at hc
    · exact Rules.within_counters _ hstart c hc
    · cases hc
  refine State.numbersOk_iff.mpr ⟨fun k => ?_, fun d hdm => ?_, fun f hfm => ?_, fun x hxm => ?_⟩
  · rw [State.modSlot_slot]
    split_ifs
    · exact hnew
    · exact hslots k
  · rw [State.modSlot_slot, if_neg (hd d (by simpa using hdm))]
    exact hdrafts d (by simpa using hdm)
  · rw [State.modSlot_slot, if_neg (hf f (by simpa using hfm))]
    exact hfill f (by simpa using hfm)
  · rw [State.modSlot_slot, if_neg (hx x (by simpa using hxm))]
    exact hrecords x (by simpa using hxm)

theorem State.numbersOk_take (h : s.numbersOk) {f : Fill} {i : Nat} {c : Counter} (hf : s.queue.fill = some f)
    (hc : (s.slot f.slot).counters[i]? = some c) :
    ((s.modSlot f.slot fun j => { j with counters := j.counters.set i (c.take (s.slot f.slot).rules).counter }).setFill
        (some (f.took (c.take (s.slot f.slot).rules)))).numbersOk := by
  obtain ⟨hstart, hwhi, hcs⟩ := h.1 f.slot
  have htake := Rules.within_take (hcs c (List.mem_of_getElem? hc))
  have hfill : (s.slot f.slot).rules.keeps f.entries f.before := h.2.2.1 f hf
  refine State.numbersOk_setFill (State.numbersOk_modSlot h rfl ⟨hstart, hwhi, fun d hd => ?_⟩) ?_
  · rcases List.mem_or_eq_of_mem_set hd with hd | rfl
    · exact hcs d hd
    · exact htake.1
  · rw [show (f.took (c.take (s.slot f.slot).rules)).slot = f.slot from rfl, State.modSlot_slot_self]
    refine ⟨Rules.issues_append hfill.1 fun e he => ?_, hfill.2⟩
    obtain rfl := List.mem_singleton.mp he
    exact htake.2

theorem State.numbersOk_opens (h : s.numbersOk) {d : Draft} {rest : List Draft} (hq : s.queue.drafts = d :: rest) :
    State.numbersOk { s with
      queue := { s.queue with drafts := rest }
      window := { s.window with records := s.window.records ++ [s.openedRecord d], newest := some d.repeatIndex } } := by
  obtain ⟨hslots, hdrafts, hfill, hrecords⟩ := h
  have hslot : ∀ k, State.slot { s with
      queue := { s.queue with drafts := rest }
      window := { s.window with records := s.window.records ++ [s.openedRecord d], newest := some d.repeatIndex } } k = s.slot k :=
    State.slot_congr rfl rfl
  refine State.numbersOk_iff.mpr ⟨fun k => ?_, fun e he => ?_, fun f hf => ?_, fun x hx => ?_⟩
  · rw [hslot]; exact hslots k
  · rw [hslot]; exact hdrafts e (hq ▸ List.mem_cons_of_mem _ he)
  · rw [hslot]; exact hfill f hf
  · rw [hslot]
    rcases List.mem_append.mp hx with hx | hx
    · exact hrecords x hx
    · obtain rfl := List.mem_singleton.mp hx
      have := (hdrafts d (hq ▸ List.mem_cons_self)).1
      rw [State.openedRecord, Position.opened_entries]
      exact this

theorem Move.numbersOk (ho : o.slotsOk) (hb : o.booksOk) (m : Move o s t) (h : s.numbersOk) : t.numbersOk := by
  cases m with
  | slot _ i j hw =>
    obtain ⟨-, -, -, -, -, -, -, hr, hc⟩ := hw
    refine State.numbersOk_modSlot h hr ?_
    unfold JobSlot.numbersOk
    rw [hr, hc]
    exact h.1 i
  | load i bs hl _ hok => exact State.numbersOk_load h ho hb hl hok
  | restore _ i b hbefore =>
    refine State.numbersOk_modSlot h rfl ((h.slot i).restore ?_)
    rcases hbefore with ⟨d, hd, rfl, rfl⟩ | ⟨f, hf, rfl, rfl⟩
    · exact (h.2.1 d hd).2
    · exact (h.2.2.1 f hf).2
  | stage _ i rc => exact State.numbersOk_modSlot h rfl (h.1 _)
  | drain _ i => exact State.numbersOk_modSlot h rfl (h.1 i)
  | change _ i j rc =>
    have hi := State.numbersOk_modSlot (f := fun x => { x with state := .draining }) h rfl (h.1 i)
    exact State.numbersOk_modSlot hi rfl (hi.1 j)
  | endRun _ i => exact State.numbersOk_killStaged (State.numbersOk_modSlot h rfl (h.1 i))
  | unstage => exact State.numbersOk_killStaged h
  | appendEnd _ i bs rest at' =>
    have ha : (s.appended at' bs rest).numbersOk := State.numbersOk_of_slots h rfl rfl rfl rfl
    have hi := State.numbersOk_modSlot (f := fun j => { j with state := .ended }) ha rfl (ha.1 i)
    exact State.numbersOk_of_slots hi (by simp) (by simp) (by simp) (by simp)
  | strt _ i =>
    refine State.numbersOk_fresh (fun k => ?_) (by simp) (by simp)
    rw [State.startRunBase_slot]
    split_ifs
    · exact h.1 i
    · exact h.1 k
  | reset | softReset => exact State.numbersOk_fresh (fun k => by cases k <;> exact JobSlot.cleared_numbersOk) rfl rfl
  | take _ f i c hf hc => exact State.numbersOk_take h (State.fillAtWork_spec hf).1 hc
  | draw _ f x hf hw =>
    have hfill : (s.slot f.slot).rules.keeps f.entries f.before := h.2.2.1 f (State.fillAtWork_spec hf).1
    have hv : State.numbersOk { s with voids := s.voids.remove x } := State.numbersOk_of_slots h rfl rfl rfl rfl
    refine State.numbersOk_setFill hv ?_
    rw [show (f.drew ((s.slot f.slot).rules.checkOf x) x).slot = f.slot from rfl,
      show State.slot { s with voids := s.voids.remove x } f.slot = s.slot f.slot from State.slot_congr rfl rfl _]
    refine ⟨Rules.issues_append hfill.1 fun e he v hev => ?_, hfill.2⟩
    obtain rfl := List.mem_singleton.mp he
    obtain rfl : x = v := Option.some.inj hev
    exact hw.trans_lt (h.1 f.slot).2.1
  | fillStep _ f g hf _ hg =>
    obtain ⟨hsame, hentries⟩ := hg
    have hfill : (s.slot f.slot).rules.keeps f.entries f.before := h.2.2.1 f hf
    refine State.numbersOk_setFill h ?_
    rw [hsame]
    refine ⟨?_, hfill.2⟩
    rcases hentries with e | e <;> rw [e]
    · exact hfill.1
    · exact Rules.issues_append hfill.1 (Rules.issues_blank _)
  | startFill _ f hf =>
    obtain ⟨he, -, -, hbefore, -⟩ := State.nextFill_spec hf
    refine State.numbersOk_setFill h ?_
    rw [he, hbefore]
    exact ⟨nofun, (h.slot f.slot).before⟩
  | draft _ f hf =>
    refine State.numbersOk_iff.mpr ⟨h.1, fun d hd => ?_, nofun, h.2.2.2⟩
    rcases List.mem_append.mp hd with hd | hd
    · exact h.2.1 d hd
    · obtain rfl := List.mem_singleton.mp hd
      exact h.2.2.1 f hf
  | shrink _ q hq =>
    obtain ⟨-, hd, hf⟩ := hq
    refine State.numbersOk_iff.mpr ⟨h.1, fun d hdm => ?_, fun f hfm => ?_, h.2.2.2⟩
    · obtain ⟨e, he, hde⟩ := hd d hdm
      rw [hde]
      exact h.2.1 e he
    · rcases hf with hf | hf
      · exact h.2.2.1 f (hf ▸ hfm)
      · rw [show q.fill = none from hf] at hfm; cases hfm
  | records _ f hf =>
    refine State.numbersOk_iff.mpr ⟨h.1, h.2.1, h.2.2.1, fun x hx => ?_⟩
    obtain ⟨z, hz, rfl⟩ := List.mem_map.mp hx
    obtain ⟨y, hy, -, hw⟩ := hf z hz
    rw [hw.2.1, hw.2.2.1]
    exact h.2.2.2 y hy
  | leave _ r => exact State.numbersOk_iff.mpr ⟨h.1, h.2.1, h.2.2.1, fun x hx => h.2.2.2 x (List.mem_filter.mp hx).1⟩
  | opens _ d rest hd =>
    obtain ⟨g, hq, -⟩ := (s.openable_iff d rest).mp hd
    exact State.numbersOk_opens h hq
  | _ => exact State.numbersOk_of_slots h (by simp) (by simp) (by simp) (by simp)

end

end Sys2Proof.Machine
end
section
/-! The books of the run and the balance of the tallies (O58, O59: R42, R43, R102, R122, R156), and what of the state they read. -/

namespace Sys2Proof.Machine

/-! ### Claims on repeats: the drafts, then the fill (R43, R45) -/

def Draft.claim (d : Draft) : Nat × SlotId := (d.repeatIndex, d.slot)

def Fill.claim (f : Fill) : Nat × SlotId := (f.target, f.slot)

def State.claims (s : State) : List (Nat × SlotId) := s.queue.drafts.map Draft.claim ++ s.queue.fill.toList.map Fill.claim

/-- The lowest repeat that may still be drafted (R43). -/
def State.lowest (s : State) : Nat := max s.firstUnopened (s.queue.passFloor.getD 0)

/-- The claims follow the draft base, each for the slot that owns its repeat. -/
def State.claimsOk (s : State) : Prop :=
  ∀ k x, s.claims[k]? = some x → ∃ b, s.draftBase = some b ∧ x.1 = b + k ∧ s.ownerOf x.1 = some x.2

/-- The RUNNING slot's first repeat is not above the lowest repeat that may still be drafted (R111, R116). -/
def State.firstOk (s : State) : Prop := ∀ i, (s.slot i).state = .running → ∃ r, (s.slot i).first = some r ∧ r ≤ s.lowest

/-- Every record's slot is in the run, and no JOB_END waits for it (R122, R123). -/
def State.recordsOk (s : State) : Prop :=
  ∀ x ∈ s.window.records, (s.slot x.slot).state.inRun = true ∧ s.account.queue.any (Item.isJobEndOf x.slot) = false

/-- What waits to be appended are closed records of their own (R80, R102). -/
def State.unappendedOk (s : State) : Prop :=
  s.unappended.Nodup ∧ ∀ r ∈ s.unappended, ∃ x ∈ s.window.records, x.repeatIndex = r ∧ x.closure ≠ .awaiting

section
variable {s t : State}

theorem State.claims_draft {k : Nat} {d : Draft} (h : s.queue.drafts[k]? = some d) : s.claims[k]? = some d.claim := by
  have hk : k < s.queue.drafts.length := (List.getElem?_eq_some_iff.mp h).1
  rw [State.claims, List.getElem?_append_left (by simpa using hk), List.getElem?_map, h]
  rfl

theorem State.claims_fill {f : Fill} (h : s.queue.fill = some f) : s.claims[s.queue.drafts.length]? = some f.claim := by
  rw [State.claims, List.getElem?_append_right (by simp), h]
  simp

/-- A claim is a draft's or the fill's. -/
theorem State.claims_cases {k : Nat} {x : Nat × SlotId} (h : s.claims[k]? = some x) :
    (∃ d, s.queue.drafts[k]? = some d ∧ x = d.claim) ∨ ∃ f, s.queue.fill = some f ∧ k = s.queue.drafts.length ∧ x = f.claim := by
  unfold State.claims at h
  by_cases hk : k < s.queue.drafts.length
  · rw [List.getElem?_append_left (by simpa using hk), List.getElem?_map, Option.map_eq_some_iff] at h
    obtain ⟨d, hd, rfl⟩ := h
    exact .inl ⟨d, hd, rfl⟩
  · rw [List.getElem?_append_right (by simpa using hk)] at h
    cases hf : s.queue.fill with
    | none => simp [hf] at h
    | some f =>
      have hlt := (List.getElem?_eq_some_iff.mp h).1
      simp only [hf, Option.toList_some, List.map_cons, List.map_nil, List.length_singleton, List.length_map] at hlt
      obtain rfl : k = s.queue.drafts.length := by omega
      refine .inr ⟨f, rfl, rfl, ?_⟩
      simpa [hf, eq_comm] using h

theorem State.claimsOk_iff : s.claimsOk ↔
    (∀ k d, s.queue.drafts[k]? = some d → ∃ b, s.draftBase = some b ∧ d.repeatIndex = b + k ∧ s.ownerOf d.repeatIndex = some d.slot) ∧
    ∀ f, s.queue.fill = some f →
      ∃ b, s.draftBase = some b ∧ f.target = b + s.queue.drafts.length ∧ s.ownerOf f.target = some f.slot := by
  refine ⟨fun h => ⟨fun k d hd => h k _ (State.claims_draft hd), fun f hf => h _ _ (State.claims_fill hf)⟩, fun ⟨hd, hf⟩ k x hx => ?_⟩
  rcases State.claims_cases hx with ⟨d, hk, rfl⟩ | ⟨f, hfill, rfl, rfl⟩
  · exact hd k d hk
  · exact hf f hfill

theorem State.booksOk_iff : s.booksOk ↔ s.claimsOk ∧ s.firstOk ∧ s.recordsOk ∧ s.unappendedOk := by
  rw [State.claimsOk_iff, and_assoc]
  exact Iff.rfl

/-! ### What the books read of the state -/

/-- What the books and the balance read of a slot. -/
structure SlotStanding where
  state : SlotState
  tag : Nat
  final : Final
  change : Option Nat
  first : Option Nat
  counts : Tally

/-- Of the tally the balance of R156 reads all but three counters. -/
def Tally.balanceOf (t : Tally) : Tally := { t with repeatsOpened := 0, blank := 0, skipped := 0 }

def JobSlot.standing (j : JobSlot) : SlotStanding := ⟨j.state, j.tag, j.final, j.change, j.first, j.tally.balanceOf⟩

/-- What the books and the balance read of a record. -/
def Record.standing (x : Record) : Nat × SlotId × Closure × Nat := (x.repeatIndex, x.slot, x.closure, x.numbered)

/-- What the books and the balance read of the state. -/
structure Standing where
  lMax : Nat
  slotA : SlotStanding
  slotB : SlotStanding
  claims : List (Nat × SlotId)
  passFloor : Option Nat
  newest : Option Nat
  records : List (Nat × SlotId × Closure × Nat)
  closing : Option Nat
  items : List Item

def State.standing (s : State) : Standing :=
  ⟨s.plan.lMax, s.slotA.standing, s.slotB.standing, s.claims, s.queue.passFloor, s.window.newest,
    s.window.records.map Record.standing, s.window.closing.map Closing.repeatIndex, s.account.queue⟩

/-- The run is in order: the window, the job slots, the books, and, where the tallies are audited, the balance of each tally with no
counter at its largest value. -/
structure State.InOrder (audited : Prop) (s : State) : Prop where
  window : s.window.ok
  slots : s.slotsOk
  books : s.booksOk
  balance : audited → ∀ i, (s.slot i).tally.unsaturated → s.balanced i

/-! ### The same standing, the same books -/

theorem State.slot_standing (h : t.standing = s.standing) (i : SlotId) : (t.slot i).standing = (s.slot i).standing := by
  cases i
  · exact congrArg Standing.slotA h
  · exact congrArg Standing.slotB h

theorem State.slot_state (h : t.standing = s.standing) (i : SlotId) : (t.slot i).state = (s.slot i).state :=
  congrArg SlotStanding.state (State.slot_standing h i)

theorem State.slot_final (h : t.standing = s.standing) (i : SlotId) : (t.slot i).final = (s.slot i).final :=
  congrArg SlotStanding.final (State.slot_standing h i)

theorem State.slot_change (h : t.standing = s.standing) (i : SlotId) : (t.slot i).change = (s.slot i).change :=
  congrArg SlotStanding.change (State.slot_standing h i)

theorem State.slot_first (h : t.standing = s.standing) (i : SlotId) : (t.slot i).first = (s.slot i).first :=
  congrArg SlotStanding.first (State.slot_standing h i)

theorem State.slot_counts (h : t.standing = s.standing) (i : SlotId) : (t.slot i).tally.balanceOf = (s.slot i).tally.balanceOf :=
  congrArg SlotStanding.counts (State.slot_standing h i)

theorem State.claims_of_standing (h : t.standing = s.standing) : t.claims = s.claims := congrArg Standing.claims h

theorem State.passFloor_of_standing (h : t.standing = s.standing) : t.queue.passFloor = s.queue.passFloor :=
  congrArg Standing.passFloor h

theorem State.newest_of_standing (h : t.standing = s.standing) : t.window.newest = s.window.newest := congrArg Standing.newest h

theorem State.records_of_standing (h : t.standing = s.standing) :
    t.window.records.map Record.standing = s.window.records.map Record.standing := congrArg Standing.records h

theorem State.items_of_standing (h : t.standing = s.standing) : t.account.queue = s.account.queue := congrArg Standing.items h

theorem State.runningSlot_congr (h : ∀ i, ((t.slot i).state = .running ↔ (s.slot i).state = .running)) : t.runningSlot = s.runningSlot := by
  have hA := h .A
  have hB := h .B
  simp only [State.slot_A, State.slot_B] at hA hB
  simp only [State.runningSlot, hA, hB]

theorem State.ownerOf_congr (hr : t.runningSlot = s.runningSlot) (hs : t.staged = s.staged)
    (hf : ∀ i, (t.slot i).final = (s.slot i).final) (q : Nat) : t.ownerOf q = s.ownerOf q := by
  simp only [State.ownerOf, State.ownedBy, hr, hs, hf]

theorem State.draftBase_congr (hl : t.lowest = s.lowest) (ho : ∀ q, t.ownerOf q = s.ownerOf q) (hs : t.staged = s.staged) :
    t.draftBase = s.draftBase := by
  simp only [State.lowest] at hl
  simp only [State.draftBase, hl, ho, hs]

theorem State.firstUnopened_congr (hn : t.window.newest = s.window.newest) (hp : t.plan.lMax = s.plan.lMax) :
    t.firstUnopened = s.firstUnopened := by
  simp only [State.firstUnopened, hn, hp]

theorem State.lowest_of_standing (h : t.standing = s.standing) : t.lowest = s.lowest := by
  rw [State.lowest, State.lowest, State.passFloor_of_standing h,
    State.firstUnopened_congr (State.newest_of_standing h) (congrArg Standing.lMax h)]

theorem State.staged_of_standing (h : t.standing = s.standing) : t.staged = s.staged := State.staged_congr (State.slot_change h)

theorem State.runningSlot_of_standing (h : t.standing = s.standing) : t.runningSlot = s.runningSlot :=
  State.runningSlot_congr fun i => by rw [State.slot_state h]

theorem State.ownerOf_of_standing (h : t.standing = s.standing) (q : Nat) : t.ownerOf q = s.ownerOf q :=
  State.ownerOf_congr (State.runningSlot_of_standing h) (State.staged_of_standing h) (State.slot_final h) q

theorem State.draftBase_of_standing (h : t.standing = s.standing) : t.draftBase = s.draftBase :=
  State.draftBase_congr (State.lowest_of_standing h) (State.ownerOf_of_standing h) (State.staged_of_standing h)

theorem State.unappended_of_standing (h : t.standing = s.standing) : t.unappended = s.unappended := by
  rw [State.unappended, State.unappended, State.items_of_standing h]
  exact congrArg (fun c => Option.toList c ++ _) (congrArg Standing.closing h)

/-- A record of the one state has its counterpart in the other. -/
theorem State.record_of_standing (h : t.standing = s.standing) {x : Record} (hx : x ∈ t.window.records) :
    ∃ y ∈ s.window.records, y.repeatIndex = x.repeatIndex ∧ y.slot = x.slot ∧ y.closure = x.closure := by
  have : x.standing ∈ s.window.records.map Record.standing := State.records_of_standing h ▸ List.mem_map_of_mem hx
  obtain ⟨y, hy, hyx⟩ := List.mem_map.mp this
  simp only [Record.standing, Prod.mk.injEq] at hyx
  exact ⟨y, hy, hyx.1, hyx.2.1, hyx.2.2.1⟩

theorem State.openCount_eq (s : State) (i : SlotId) : s.openCount i =
    (((s.window.records.map Record.standing).filter fun y => y.2.2.1 = .awaiting && y.2.1 = i).map fun y => y.2.2.2).sum := by
  rw [State.openCount, State.awaiting, List.filter_filter, List.filter_map, List.map_map]
  congr 2
  exact List.filter_congr fun x _ => Bool.and_comm _ _

theorem State.openCount_of_standing (h : t.standing = s.standing) (i : SlotId) : t.openCount i = s.openCount i := by
  rw [State.openCount_eq, State.openCount_eq, State.records_of_standing h]

theorem Tally.balanceOf_eq {a b : Tally} (h : a.balanceOf = b.balanceOf) : a.issued = b.issued ∧ a.delivered = b.delivered ∧
    a.voidStation = b.voidStation ∧ a.voidReader = b.voidReader ∧ a.voidUnverified = b.voidUnverified ∧ a.voidAborted = b.voidAborted ∧
    a.postVoided = b.postVoided := by
  simp only [Tally.balanceOf, Tally.mk.injEq] at h
  tauto

theorem Tally.unsaturated_congr {a b : Tally} (h : a.balanceOf = b.balanceOf) : a.unsaturated ↔ b.unsaturated := by
  obtain ⟨h1, h2, h3, h4, h5, h6, h7⟩ := Tally.balanceOf_eq h
  simp only [Tally.unsaturated, h1, h2, h3, h4, h5, h6, h7]

theorem State.balanced_iff (s : State) (i : SlotId) : s.balanced i ↔ ((s.slot i).state ≠ .free → (s.slot i).tally.issued =
    (s.slot i).tally.delivered + (s.slot i).tally.voidStation + (s.slot i).tally.voidReader + (s.slot i).tally.voidUnverified +
      (s.slot i).tally.voidAborted + (s.slot i).tally.postVoided + s.openCount i) := Iff.rfl

theorem State.balanced_congr {i : SlotId} (hs : (t.slot i).state = .free ↔ (s.slot i).state = .free)
    (hc : (t.slot i).tally.balanceOf = (s.slot i).tally.balanceOf) (ho : t.openCount i = s.openCount i) : t.balanced i ↔ s.balanced i := by
  obtain ⟨h1, h2, h3, h4, h5, h6, h7⟩ := Tally.balanceOf_eq hc
  simp only [State.balanced, ne_eq, hs, h1, h2, h3, h4, h5, h6, h7, ho]

/-- The audit of a slot reads its tally, whether it is FREE, and the open count. -/
theorem State.audit_congr {i : SlotId} (hs : (t.slot i).state = .free ↔ (s.slot i).state = .free)
    (hc : (t.slot i).tally.balanceOf = (s.slot i).tally.balanceOf) (ho : t.openCount i = s.openCount i)
    (h : (s.slot i).tally.unsaturated → s.balanced i) : (t.slot i).tally.unsaturated → t.balanced i := fun hu =>
  (State.balanced_congr hs hc ho).mpr (h ((Tally.unsaturated_congr hc).mp hu))

theorem State.InOrder.of_standing {audited : Prop} (h : s.InOrder audited) (e : t.standing = s.standing) : t.InOrder audited := by
  obtain ⟨hclaims, hfirst, hrecords, hunapp⟩ := State.booksOk_iff.mp h.books
  refine ⟨?_, ?_, State.booksOk_iff.mpr ⟨fun k x hx => ?_, fun i hi => ?_, fun x hx => ?_, ?_, fun r hr => ?_⟩, fun ha i => ?_⟩
  · refine Window.ok_of_records h.window (State.newest_of_standing e) ?_
    have := congrArg (List.map Prod.fst) (State.records_of_standing e)
    simp only [List.map_map] at this
    exact this ▸ .refl _
  · refine State.slotsOk_of_same h.slots (fun i => ?_) (State.items_of_standing e ▸ .refl _)
    exact ⟨State.slot_state e i, congrArg SlotStanding.tag (State.slot_standing e i), State.slot_change e i, State.slot_first e i⟩
  · rw [State.draftBase_of_standing e, State.ownerOf_of_standing e]
    exact hclaims k x (State.claims_of_standing e ▸ hx)
  · rw [State.slot_first e, State.lowest_of_standing e]
    exact hfirst i (State.slot_state e i ▸ hi)
  · obtain ⟨y, hy, -, hslot, -⟩ := State.record_of_standing e hx
    rw [← hslot, State.slot_state e, State.items_of_standing e]
    exact hrecords y hy
  · rw [State.unappended_of_standing e]
    exact hunapp.1
  · rw [State.unappended_of_standing e] at hr
    obtain ⟨y, hy, hyr, hyc⟩ := hunapp.2 r hr
    obtain ⟨x, hx, hxr, -, hxc⟩ := State.record_of_standing e.symm hy
    exact ⟨x, hx, hxr.trans hyr, hxc ▸ hyc⟩
  · exact State.audit_congr (by rw [State.slot_state e]) (State.slot_counts e i) (State.openCount_of_standing e i) (h.balance ha i)

end

end Sys2Proof.Machine
end
section
/-! The operations that leave the books as they stand, the next fill, and the changes of job state (O58: R45, R112, R115 to R117, R120, R122). -/

namespace Sys2Proof.Machine

section
variable {s t : State} {audited : Prop}

/-! ### Operations that leave the standing -/

@[simp] theorem State.standing_raise (s : State) (e : Event) : (s.raise e).standing = s.standing := by
  simp [State.standing, State.claims]

@[simp] theorem State.standing_raiseIf (s : State) (c : Bool) (e : Event) : (s.raiseIf c e).standing = s.standing := by
  simp [State.standing, State.claims]

@[simp] theorem State.standing_modPort (s : State) (p : PortId) (f : Port → Port) : (s.modPort p f).standing = s.standing := rfl

@[simp] theorem State.standing_mapPorts (s : State) (f : Port → Port) : (s.mapPorts f).standing = s.standing := rfl

@[simp] theorem State.standing_setReqSlot (s : State) (p : PortId) (x : ReqSlot) : (s.setReqSlot p x).standing = s.standing := rfl

@[simp] theorem State.standing_restartTimer (s : State) (p : PortId) : (s.restartTimer p).standing = s.standing := rfl

@[simp] theorem State.standing_stopTimers (s : State) : s.stopTimers.standing = s.standing := rfl

@[simp] theorem State.standing_concludePort (s : State) (p : PortId) : (State.concludePort p s).standing = s.standing := by
  simp [State.standing, State.claims]

@[simp] theorem State.standing_raiseTarget (s : State) (r : Nat) : (s.raiseTarget r).standing = s.standing := rfl

@[simp] theorem State.standing_insertRange (s : State) (lo hi : Nat) : (s.insertRange lo hi).standing = s.standing := by
  simp [State.standing, State.claims]

@[simp] theorem State.standing_insertValues (s : State) (xs : List Nat) : (s.insertValues xs).standing = s.standing := by
  simp [State.standing, State.claims]

@[simp] theorem State.standing_markDue (s : State) : s.markDue.standing = s.standing := rfl

@[simp] theorem State.standing_checkBufferHigh (s : State) : s.checkBufferHigh.standing = s.standing := by
  rw [State.checkBufferHigh, State.standing_raiseIf]
  rfl

@[simp] theorem State.standing_checkWindowHigh (s : State) : s.checkWindowHigh.standing = s.standing := by
  rw [State.checkWindowHigh, State.standing_raiseIf]
  rfl

@[simp] theorem State.standing_dropTarget (s : State) : s.dropTarget.standing = s.standing := by
  unfold State.dropTarget
  split_ifs <;> rfl

@[simp] theorem State.standing_setSup (s : State) (u : Supervisor) : State.standing { s with sup := u } = s.standing := rfl

@[simp] theorem State.standing_setReceiver (s : State) (v : Receiver) : State.standing { s with receiver := v } = s.standing := rfl

@[simp] theorem State.standing_setVoids (s : State) (v : VoidList) : State.standing { s with voids := v } = s.standing := rfl

/-- A change of a slot that its standing does not show. -/
theorem State.standing_modSlot (s : State) (i : SlotId) (f : JobSlot → JobSlot) (h : (f (s.slot i)).standing = (s.slot i).standing) :
    (s.modSlot i f).standing = s.standing := by
  cases i
  · simpa [State.standing, State.claims, State.modSlot] using h
  · simpa [State.standing, State.claims, State.modSlot] using h

/-- A change of the records that their standing does not show. -/
theorem State.standing_mapRecords (s : State) (f : Record → Record) (h : ∀ x ∈ s.window.records, (f x).standing = x.standing) :
    State.standing { s with window := { s.window with records := s.window.records.map f } } = s.standing := by
  have : (s.window.records.map f).map Record.standing = s.window.records.map Record.standing := by
    rw [List.map_map]
    exact List.map_congr_left h
  simp only [State.standing, this]
  rfl

@[simp] theorem State.standing_restoreRemoved (s : State) (i : SlotId) (b : Option Before) : (s.restoreRemoved i b).standing = s.standing := by
  unfold State.restoreRemoved
  split
  · exact State.standing_modSlot s i _ rfl
  · rfl

theorem State.standing_concluded (s : State) : (s.dropTarget.forPorts State.concludePort).standing = s.standing := by
  rw [State.forPorts_field State.standing _ fun p t => State.standing_concludePort t p, State.standing_dropTarget]

/-! ### The claims after a change -/

theorem State.draftBase_eq {b : Nat} (hl : s.lowest ≤ b) (ho : (s.ownerOf b).isSome = true)
    (hn : ∀ c, s.lowest ≤ c → c < b → s.ownerOf c = none) : s.draftBase = some b := by
  obtain ⟨hsome, hnone⟩ := s.draftBase_spec
  cases hb : s.draftBase with
  | none => rw [hnone hb b hl] at ho; cases ho
  | some c =>
    obtain ⟨h1, h2, h3⟩ := hsome c hb
    have hcb : c ≤ b := h3 b hl ho
    rcases hcb.lt_or_eq with hlt | rfl
    · rw [hn c h1 hlt] at h2; cases h2
    · rfl

theorem State.lowest_le_draftBase {b : Nat} (h : s.draftBase = some b) : s.lowest ≤ b := (s.draftBase_spec.1 b h).1

theorem State.not_owned_below {b c : Nat} (h : s.draftBase = some b) (hl : s.lowest ≤ c) (hc : c < b) : s.ownerOf c = none := by
  cases ho : s.ownerOf c with
  | none => rfl
  | some i => exact absurd ((s.draftBase_spec.1 b h).2.2 c hl (by simp [ho])) (by omega)

theorem State.claimsOk.lowest_le (h : s.claimsOk) {x : Nat × SlotId} (hx : x ∈ s.claims) : s.lowest ≤ x.1 := by
  obtain ⟨k, hk⟩ := List.getElem?_of_mem hx
  obtain ⟨b, hb, hxb, -⟩ := h k x hk
  have := State.lowest_le_draftBase hb
  omega

theorem State.claimsOk.owned (h : s.claimsOk) {x : Nat × SlotId} (hx : x ∈ s.claims) : s.ownerOf x.1 = some x.2 := by
  obtain ⟨k, hk⟩ := List.getElem?_of_mem hx
  exact (h k x hk).choose_spec.2.2

theorem State.claimsOk_nil (h : s.claims = []) : s.claimsOk := fun k x hx => by simp [h] at hx

/-- Claims that stay, their owners and the repeats below them unowned, stay in order. -/
theorem State.claimsOk.of_owned (h : s.claimsOk) (hl : t.lowest = s.lowest) (hpre : t.claims <+: s.claims)
    (ho : ∀ x ∈ t.claims, t.ownerOf x.1 = some x.2)
    (hlow : ∀ c, s.lowest ≤ c → (∀ x ∈ t.claims, c < x.1) → s.ownerOf c = none → t.ownerOf c = none) : t.claimsOk := by
  intro k x hx
  have hsub : ∀ (j : Nat) (y : Nat × SlotId), t.claims[j]? = some y → s.claims[j]? = some y := fun j y hj => by
    obtain ⟨rest, hrest⟩ := hpre
    rw [← hrest, List.getElem?_append_left (List.getElem?_eq_some_iff.mp hj).1]
    exact hj
  obtain ⟨b, hb, hxb, -⟩ := h k x (hsub k x hx)
  refine ⟨b, ?_, hxb, ho x (List.mem_of_getElem? hx)⟩
  have hlen : 0 < t.claims.length := by have := (List.getElem?_eq_some_iff.mp hx).1; omega
  obtain ⟨b', hb', h0, -⟩ := h 0 t.claims[0] (hsub 0 _ (List.getElem?_eq_getElem hlen))
  obtain rfl : b = b' := Option.some.inj (hb.symm.trans hb')
  have hown := ho _ (List.getElem_mem hlen)
  have hbase : (t.claims[0]).1 = b := h0
  rw [hbase] at hown
  refine State.draftBase_eq (hl ▸ State.lowest_le_draftBase hb) (by simp [hown]) fun c hc hcb => ?_
  rw [hl] at hc
  refine hlow c hc (fun y hy => ?_) (State.not_owned_below hb hc hcb)
  obtain ⟨j, hj⟩ := List.getElem?_of_mem hy
  obtain ⟨b'', hb'', hyb, -⟩ := h j y (hsub j y hj)
  obtain rfl : b = b'' := Option.some.inj (hb.symm.trans hb'')
  omega

theorem State.claimsOk.of_same (h : s.claimsOk) (hl : t.lowest = s.lowest) (hpre : t.claims <+: s.claims)
    (ho : ∀ q, t.ownerOf q = s.ownerOf q) : t.claimsOk :=
  h.of_owned hl hpre (fun x hx => (ho x.1).trans (h.owned (hpre.subset hx))) fun c _ _ hn => (ho c).trans hn

/-! ### The next fill (R45) -/

theorem State.claims_setFill (s : State) (f : Option Fill) :
    (s.setFill f).claims = s.queue.drafts.map Draft.claim ++ f.toList.map Fill.claim := rfl

theorem State.InOrder.startFill (h : s.InOrder audited) : s.startFill.InOrder audited := by
  obtain ⟨hclaims, hfirst, hrecords, hunapp⟩ := State.booksOk_iff.mp h.books
  have hm : Moves s s s.startFill := Moves.startFill s
  refine ⟨hm.keeps (fun _ _ => Move.window_ok) h.window, hm.keeps (fun _ _ => Move.slotsOk) h.slots, ?_, fun ha i => ?_⟩
  · unfold State.startFill
    cases hf : s.nextFill with
    | none => exact h.books
    | some f =>
      obtain ⟨-, -, -, -, howned, -, hfill, -, b, hb, htarget⟩ := State.nextFill_spec hf
      refine State.booksOk_iff.mpr ⟨State.claimsOk_iff.mpr ⟨(State.claimsOk_iff.mp hclaims).1, fun g hg => ?_⟩, hfirst, hrecords, hunapp⟩
      obtain rfl : f = g := Option.some.inj hg
      exact ⟨b, hb, htarget, howned⟩
  · exact State.audit_congr (by simp) (by simp) (by rw [State.openCount_eq, State.openCount_eq, State.startFill_window]) (h.balance ha i)

theorem State.InOrder.settle (h : s.InOrder audited) : s.settle.InOrder audited :=
  (h.of_standing s.standing_concluded).startFill

/-! ### The pending queue -/

/-- What the books say apart from the claims, for an item that joins the queue. -/
theorem State.unappended_enqueue (s : State) {it : Item} (hit : it.isSmall = true) : (s.enqueue it).unappended = s.unappended := by
  cases it <;> simp [State.unappended, State.enqueue, Item.isSmall] at hit ⊢

theorem State.recordsOk_enqueue (h : s.recordsOk) {it : Item}
    (hi : ∀ x ∈ s.window.records, it.isJobEndOf x.slot = false) : (s.enqueue it).recordsOk := fun x hx => by
  rw [State.enqueue_window] at hx
  obtain ⟨h1, h2⟩ := h x hx
  rw [State.enqueue_slot]
  exact ⟨h1, by simp [State.enqueue, h2, hi x hx]⟩

theorem State.unappendedOk_enqueue (h : s.unappendedOk) {it : Item} (hit : it.isSmall = true) : (s.enqueue it).unappendedOk := by
  unfold State.unappendedOk
  rw [State.unappended_enqueue s hit]
  exact h

theorem State.InOrder.enqueue (h : s.InOrder audited) {it : Item} (hit : it.isSmall = true)
    (hi : ∀ i, it.isJobEndOf i = true →
      (s.slot i).state = .draining ∧ s.account.queue.any (Item.isJobEndOf i) = false ∧ s.holdsRecordOf i = false) :
    (s.enqueue it).InOrder audited := by
  obtain ⟨hclaims, hfirst, hrecords, hunapp⟩ := State.booksOk_iff.mp h.books
  refine ⟨h.window, State.slotsOk_enqueue h.slots fun i e => ⟨(hi i e).1, (hi i e).2.1⟩,
    State.booksOk_iff.mpr ⟨hclaims, hfirst, State.recordsOk_enqueue hrecords fun x hx => ?_, State.unappendedOk_enqueue hunapp hit⟩,
    h.balance⟩
  refine Bool.eq_false_iff.mpr fun e => ?_
  have := (hi _ e).2.2
  rw [State.holdsRecordOf, List.any_eq_false] at this
  exact this x hx (by simp)

theorem State.InOrder.queueJobEnd (h : s.InOrder audited) (i : SlotId) : (s.queueJobEnd i).InOrder audited := by
  unfold State.queueJobEnd
  split_ifs with hc
  · refine h.enqueue rfl fun k hk => ?_
    obtain rfl : k = i := by simpa [Item.isJobEndOf] using hk
    exact ⟨hc.1, hc.2.2, hc.2.1⟩
  · exact h

/-! ### Claims, first repeats and records through a change of job state

An opening adds its record before it reports it, so the parts of the books are followed one by one through a report. -/

/-- The parts of the books that a report of an opening or of a pass does not read the records for. -/
def State.runOk (s : State) : Prop := s.claimsOk ∧ s.firstOk ∧ s.unappendedOk

theorem State.claims_queueJobEnd (s : State) (i : SlotId) : (s.queueJobEnd i).claims = s.claims := by simp [State.claims]

theorem State.lowest_congr (hp : t.plan = s.plan) (hq : t.queue.passFloor = s.queue.passFloor) (hn : t.window.newest = s.window.newest) :
    t.lowest = s.lowest := by
  rw [State.lowest, State.lowest, hq, State.firstUnopened_congr hn (by rw [hp])]

theorem State.unappendedOk_queueJobEnd (h : s.unappendedOk) (i : SlotId) : (s.queueJobEnd i).unappendedOk := by
  unfold State.queueJobEnd
  split_ifs
  · exact State.unappendedOk_enqueue h rfl
  · exact h

theorem State.runOk_queueJobEnd (h : s.runOk) (i : SlotId) : (s.queueJobEnd i).runOk := by
  refine ⟨?_, ?_, State.unappendedOk_queueJobEnd h.2.2 i⟩
  · refine h.1.of_same (State.lowest_congr (by simp) (by simp) (by simp)) (State.claims_queueJobEnd s i ▸ List.prefix_rfl) fun q => ?_
    exact State.ownerOf_congr (State.runningSlot_congr fun k => by simp) (State.staged_congr fun k => by simp) (fun k => by simp) q
  · intro k hk
    rw [State.queueJobEnd_slot] at hk ⊢
    rw [State.lowest_congr (s := s) (by simp) (by simp) (by simp)]
    exact h.2.1 k hk

theorem State.recordsOk_queueJobEnd (h : s.recordsOk) (i : SlotId) : (s.queueJobEnd i).recordsOk := by
  unfold State.queueJobEnd
  split_ifs with hc
  · refine State.recordsOk_enqueue h fun x hx => Bool.eq_false_iff.mpr fun e => ?_
    have hi : x.slot = i := by simpa [Item.isJobEndOf] using e
    have := hc.2.1
    rw [State.holdsRecordOf, List.any_eq_false] at this
    exact this x hx (by simp [hi])
  · exact h

/-- The standing of a state whose slots alone changed. -/
theorem State.unappendedOk_congr (h : s.unappendedOk) (hw : t.window = s.window) (hq : t.account.queue = s.account.queue) :
    t.unappendedOk := by
  unfold State.unappendedOk State.unappended
  rw [hw, hq]
  exact h

theorem State.runOk_drained (h : s.runOk) {i : SlotId} (hi : s.runningSlot = some i) (hone : (s.slot i.other).state ≠ .running)
    (hc : s.claims = []) : (s.modSlot i fun j => { j with state := .draining }).runOk := by
  refine ⟨State.claimsOk_nil (by simpa [State.claims] using hc), fun k hk => ?_, State.unappendedOk_congr h.2.2 (by simp) (by simp)⟩
  rcases SlotId.eq_or_other i k with rfl | rfl
  · rw [State.modSlot_slot_self] at hk; cases hk
  · rw [State.modSlot_slot_other] at hk; exact absurd hk hone

theorem State.slotsOk.other_not_running (h : s.slotsOk) {i : SlotId} (hi : (s.slot i).state = .running) :
    (s.slot i.other).state ≠ .running := fun e => h.1 (by cases i <;> [exact ⟨hi, e⟩; exact ⟨e, hi⟩])

/-- A RUNNING slot with nothing drafted becomes DRAINING (R120). -/
theorem State.runOk_drain (h : s.runOk) (hs : s.slotsOk) {i : SlotId} (hi : (s.slot i).state = .running) (hc : s.claims = []) :
    (s.drain i).runOk :=
  State.runOk_queueJobEnd (State.runOk_drained h (hs.running hi) (hs.other_not_running hi) hc) i

theorem State.recordsOk_drain (h : s.recordsOk) {i : SlotId} : (s.drain i).recordsOk := by
  refine State.recordsOk_queueJobEnd (fun x hx => ?_) i
  obtain ⟨h1, h2⟩ := h x (by simpa using hx)
  rw [State.modSlot_slot, State.modSlot_account]
  split_ifs with hk
  · exact ⟨rfl, h2⟩
  · exact ⟨h1, h2⟩

/-- After a change both slots are in the run and none had a JOB_END waiting (R116), so whatever records are held are of slots in the run. -/
theorem State.recordsOk_changeTakesEffect (hs : s.slotsOk) {i j : SlotId} {rc : Nat} (hi : s.runningSlot = some i)
    (hj : s.staged = some (j, rc)) : s.changeTakesEffect.recordsOk := by
  obtain ⟨-, hl, -, hr, hrun, -⟩ := hs.staged_slot hj
  obtain rfl : i = j.other := Option.some.inj (hi.symm.trans hrun)
  simp only [State.changeTakesEffect, hi, hj]
  refine State.recordsOk_queueJobEnd (State.recordsOk_queueJobEnd (fun x hx => ?_) _) _
  have hnone : ∀ k, s.account.queue.any (Item.isJobEndOf k) = false := fun k => hs.no_jobEnd <| by
    rcases SlotId.eq_or_other j k with rfl | rfl
    · rw [hl]; nofun
    · rw [hr]; nofun
  refine ⟨?_, by simp [State.queueJobStart, State.enqueue, hnone, Item.isJobEndOf]⟩
  rw [State.raise_slot, State.queueJobStart_slot]
  rcases SlotId.eq_or_other j x.slot with hx | hx <;> rw [hx]
  · rw [State.modSlot_slot_self]
    dsimp only
    split_ifs <;> rfl
  · rw [State.modSlot_slot_other, State.modSlot_slot_self]
    rfl

/-- A change takes effect (R116) where the staged job has been reached, or is EMPTY with nothing drafted. -/
theorem State.runOk_changeTakesEffect (h : s.runOk) (hs : s.slotsOk) {i j : SlotId} {rc : Nat} (hi : s.runningSlot = some i)
    (hj : s.staged = some (j, rc)) (hrc : rc ≤ s.lowest ∨ ((s.slot j).final = .empty ∧ s.claims = [])) : s.changeTakesEffect.runOk := by
  obtain ⟨hchange, hl, hfirst, hr, hrun, hother⟩ := hs.staged_slot hj
  obtain rfl : i = j.other := Option.some.inj (hi.symm.trans hrun)
  simp only [State.changeTakesEffect, hi, hj]
  refine State.runOk_queueJobEnd (State.runOk_queueJobEnd ?_ _) _
  generalize hu : (s.modSlot j.other fun x => { x with state := .draining }).modSlot j (fun x =>
    { x with state := if x.final = .empty then .draining else .running, change := none }) = u
  have hself : u.slot j = { s.slot j with state := if (s.slot j).final = .empty then .draining else .running, change := none } := by
    rw [← hu, State.modSlot_slot_self, State.modSlot_slot, if_neg (SlotId.other_ne j).symm]
  have hold : u.slot j.other = { s.slot j.other with state := .draining } := by
    rw [← hu, State.modSlot_slot_other, State.modSlot_slot_self]
  have hclaims : u.claims = s.claims := by rw [← hu]; simp [State.claims]
  have hlow : u.lowest = s.lowest := State.lowest_congr (by rw [← hu]; simp) (by rw [← hu]; simp) (by rw [← hu]; simp)
  have hstaged : u.staged = none := State.staged_eq_none fun k => by
    rcases SlotId.eq_or_other j k with rfl | rfl
    · rw [hself]
    · rw [hold]; exact hother
  have key : u.runOk := by
    refine ⟨?_, fun k hk => ?_, State.unappendedOk_congr h.2.2 (by rw [← hu]; simp) (by rw [← hu]; simp)⟩
    · rcases hrc with hrc | ⟨-, hc⟩
      · have howner : ∀ q, s.lowest ≤ q → u.ownerOf q = s.ownerOf q := fun q hq => by
          have hs1 : s.ownerOf q = s.ownedBy j q := by simp [State.ownerOf, hi, hj, hrc.trans hq]
          rw [hs1]
          by_cases he : (s.slot j).final = .empty
          · have hnr : u.runningSlot = none := State.runningSlot_eq_none fun k => by
              rcases SlotId.eq_or_other j k with rfl | rfl
              · rw [hself]; simp [he]
              · rw [hold]; simp
            simp [State.ownerOf, hnr, State.ownedBy, he, Final.allows]
          · have hr' : u.runningSlot = some j := State.runningSlot_of (by rw [hself]; simp [he]) (by rw [hold]; simp)
            simp [State.ownerOf, hr', hstaged, State.ownedBy, hself]
        refine h.1.of_owned hlow (hclaims ▸ List.prefix_rfl) (fun x hx => ?_) fun c hc _ hn => (howner c hc).trans hn
        rw [hclaims] at hx
        rw [howner _ (h.1.lowest_le hx)]
        exact h.1.owned hx
      · exact State.claimsOk_nil (hclaims.trans hc)
    · rcases SlotId.eq_or_other j k with rfl | rfl
      · rw [hself] at hk ⊢
        rcases hrc with hrc | ⟨he, -⟩
        · exact ⟨rc, hfirst, hlow ▸ hrc⟩
        · simp [he] at hk
      · rw [hold] at hk; cases hk
  refine ⟨key.1.of_same rfl List.prefix_rfl fun q => rfl, key.2.1, ?_⟩
  have hstart : (u.queueJobStart j).unappendedOk := State.unappendedOk_enqueue key.2.2 rfl
  exact State.unappendedOk_congr hstart (by simp) (by simp)

/-- The balance stands through a change of job states. -/
theorem State.balance_of_same {a : Prop} (hb : a → ∀ i, (s.slot i).tally.unsaturated → s.balanced i)
    (hs : ∀ i, ((t.slot i).state = .free ↔ (s.slot i).state = .free) ∧ (t.slot i).tally.balanceOf = (s.slot i).tally.balanceOf)
    (hw : t.window.records.map Record.standing = s.window.records.map Record.standing) :
    a → ∀ i, (t.slot i).tally.unsaturated → t.balanced i := fun ha i =>
  State.audit_congr (hs i).1 (hs i).2 (by rw [State.openCount_eq, State.openCount_eq, hw]) (hb ha i)

theorem State.InOrder.of_moves {a : Prop} (h : s.InOrder a) (hm : Moves s s t) (hb : t.booksOk)
    (hbal : a → ∀ i, (t.slot i).tally.unsaturated → t.balanced i) : t.InOrder a :=
  ⟨hm.keeps (fun _ _ => Move.window_ok) h.window, hm.keeps (fun _ _ => Move.slotsOk) h.slots, hb, hbal⟩

theorem State.InOrder.runOk (h : s.InOrder audited) : s.runOk ∧ s.recordsOk := by
  obtain ⟨h1, h2, h3, h4⟩ := State.booksOk_iff.mp h.books
  exact ⟨⟨h1, h2, h4⟩, h3⟩

theorem State.booksOk_of_runOk (h : s.runOk) (hr : s.recordsOk) : s.booksOk := State.booksOk_iff.mpr ⟨h.1, h.2.1, hr, h.2.2⟩

theorem JobSlot.Same.tally {x y : JobSlot} (h : x.Same y) : y.tally = x.tally := by rw [h]

/-- A change keeps tallies and records, and frees no slot. -/
theorem State.changeTakesEffect_free (s : State) (hs : s.slotsOk) (k : SlotId) :
    (s.changeTakesEffect.slot k).state = .free ↔ (s.slot k).state = .free := by
  cases hi : s.runningSlot with
  | none => simp [State.changeTakesEffect, hi]
  | some i =>
    cases hj : s.staged with
    | none => simp [State.changeTakesEffect, hi, hj]
    | some z =>
      obtain ⟨j, rc⟩ := z
      obtain ⟨-, hl, -, hr, hrun, -⟩ := hs.staged_slot hj
      obtain rfl : i = j.other := Option.some.inj (hi.symm.trans hrun)
      obtain ⟨e1, e2⟩ := State.changeTakesEffect_slot hi hj (SlotId.other_ne j)
      rcases SlotId.eq_or_other j k with rfl | rfl
      · rw [e2, hl]
        dsimp only
        split_ifs <;> simp
      · rw [e1, hr]; simp

theorem State.InOrder.changeTakesEffect (h : s.InOrder audited) {i j : SlotId} {rc : Nat} (hi : s.runningSlot = some i)
    (hj : s.staged = some (j, rc)) (hrc : rc ≤ s.lowest ∨ ((s.slot j).final = .empty ∧ s.claims = [])) :
    s.changeTakesEffect.InOrder audited := by
  refine h.of_moves (Moves.changeTakesEffect s)
    (State.booksOk_of_runOk (State.runOk_changeTakesEffect h.runOk.1 h.slots hi hj hrc) (State.recordsOk_changeTakesEffect h.slots hi hj))
    (State.balance_of_same h.balance (fun k => ⟨State.changeTakesEffect_free s h.slots k, ?_⟩) (by simp))
  rw [(State.sameSlots_changeTakesEffect s k).tally]

theorem State.InOrder.drain (h : s.InOrder audited) {i : SlotId} (hi : (s.slot i).state = .running) (hst : s.staged = none)
    (hc : s.claims = []) : (s.drain i).InOrder audited := by
  refine h.of_moves (Moves.drain s i hi hst)
    (State.booksOk_of_runOk (State.runOk_drain h.runOk.1 h.slots hi hc) (State.recordsOk_drain h.runOk.2))
    (State.balance_of_same h.balance (fun k => ?_) (by simp))
  rw [State.drain_slot]
  split_ifs with hk
  · subst hk; simp [hi]
  · simp

end

end Sys2Proof.Machine
end
section
/-! Flushes, passes, requests, SWAP, STOP and openings keep the run in order (O58, O59: R50 to R54, R62 to R68, R114, R118, R63). -/

namespace Sys2Proof.Machine

section
variable {s t : State} {audited : Prop}

/-- While tags stand, no slot becomes FREE or ceases to be (R104). -/
theorem State.free_iff_of_tags (hs : s.slotsOk) (ht : t.slotsOk) {k : SlotId} (h : (t.slot k).tag = (s.slot k).tag) :
    (t.slot k).state = .free ↔ (s.slot k).state = .free := by
  rw [(ht.2 k).1, (hs.2 k).1, h]

/-! ### Flushes (R50 to R52) -/

/-- The drafts that a flush from `q` removes. -/
def State.gone (s : State) (q : Nat) : List Draft := s.queue.drafts.filter fun d => q ≤ d.repeatIndex

/-- The fill that a flush from `q` abandons. -/
def State.abandoned (s : State) (q : Nat) : Option Fill := s.queue.fill.filter fun f => q ≤ f.target

/-- The before-state of the oldest item of the slot that a flush from `q` removes (R50). -/
def State.removedBefore (s : State) (q : Nat) (i : SlotId) : Option Before := oldestRemoved i (s.gone q) (s.abandoned q)

/-- The values drawn into what a flush from `q` removes, in order. -/
def State.returned (s : State) (q : Nat) : List Nat := (s.gone q).flatMap Draft.drawn ++ (s.abandoned q).toList.flatMap Fill.drawn

/-- Of the queue, what lies below `q`. -/
def State.keepBelow (s : State) (q : Nat) : State := { s with queue := { s.queue with
  drafts := s.queue.drafts.filter (fun d => !(q ≤ d.repeatIndex)), fill := s.queue.fill.filter (fun f => !(q ≤ f.target)) } }

theorem State.claims_keepBelow (s : State) (q : Nat) : (s.keepBelow q).claims = s.claims.filter fun x => x.1 < q := by
  have hd : ∀ l : List Draft, (l.filter fun d => !(decide (q ≤ d.repeatIndex))).map Draft.claim = (l.map Draft.claim).filter fun x => x.1 < q :=
    fun l => by
      rw [List.filter_map]
      exact congrArg _ (List.filter_congr fun d _ => by rw [Function.comp_apply, Draft.claim, ← decide_not]; exact decide_eq_decide.mpr Nat.not_le)
  have hf : ∀ f : Option Fill, (f.filter fun f => !(decide (q ≤ f.target))).toList.map Fill.claim = (f.toList.map Fill.claim).filter fun x => x.1 < q := by
    rintro (- | f)
    · rfl
    · by_cases h : q ≤ f.target
      · simp [Option.filter, Fill.claim, h]
      · simp [Option.filter, Fill.claim, h, Nat.not_le.mp h]
  rw [State.claims, State.claims, List.filter_append]
  exact congrArg₂ (· ++ ·) (hd _) (hf _)

theorem State.withdrawNote_slot (s : State) (i k : SlotId) (b : Option Before) : (s.withdrawNote i b).slot k =
    if k = i ∧ b.isSome = true ∧ (s.slot i).note ≠ .unset then
      { s.slot i with note := .unset, final := match s.staged with
        | some (_, rc) => if (s.slot i).state = .running then (s.slot i).cutAt rc else .unset
        | none => .unset }
    else s.slot k := by
  unfold State.withdrawNote
  by_cases hb : b.isSome = true ∧ (s.slot i).note ≠ .unset
  · rw [if_pos hb]
    by_cases hk : k = i
    · rw [if_pos ⟨hk, hb⟩, State.modSlot_slot, if_pos hk] <;> rfl
    · rw [if_neg fun h => hk h.1, State.modSlot_slot, if_neg hk]
  · rw [if_neg hb, if_neg fun h => hb h.2]

/-- What a flush may change of a slot: its counters, its draw state, its note and its final repeat. -/
def JobSlot.Flushed (x y : JobSlot) : Prop :=
  y = { x with counters := y.counters, draw := y.draw, note := y.note, final := y.final }

theorem JobSlot.Flushed.refl (x : JobSlot) : x.Flushed x := rfl

theorem JobSlot.Flushed.trans {x y z : JobSlot} (h : x.Flushed y) (k : y.Flushed z) : x.Flushed z := by
  unfold JobSlot.Flushed at *
  rw [h] at k
  exact k

theorem State.restoreRemoved_slot (s : State) (i k : SlotId) (b : Option Before) : (s.restoreRemoved i b).slot k =
    if k = i then b.elim (s.slot k) (s.slot k).restore else s.slot k := by
  cases b with
  | none => simp [State.restoreRemoved]
  | some b =>
    rw [State.restoreRemoved, State.modSlot_slot]
    split_ifs with hk
    · rw [hk]; rfl
    · rfl

theorem State.restoreRemoved_flushed (s : State) (i k : SlotId) (b : Option Before) :
    (s.slot k).Flushed ((s.restoreRemoved i b).slot k) ∧ ((s.restoreRemoved i b).slot k).final = (s.slot k).final ∧
      ((s.restoreRemoved i b).slot k).note = (s.slot k).note := by
  rw [State.restoreRemoved_slot]
  split_ifs
  · cases b <;> exact ⟨rfl, rfl, rfl⟩
  · exact ⟨rfl, rfl, rfl⟩

theorem State.withdrawNote_flushed (s : State) (i k : SlotId) (b : Option Before) :
    (s.slot k).Flushed ((s.withdrawNote i b).slot k) := by
  rw [State.withdrawNote_slot]
  by_cases h : k = i ∧ b.isSome = true ∧ (s.slot i).note ≠ .unset
  · rw [if_pos h, h.1]; exact rfl
  · rw [if_neg h]; exact rfl

/-- A flush before its notes are withdrawn: drafts and fill gone, counters set back, drawn values returned. -/
def State.flushed (s : State) (q : Nat) : State :=
  (((s.keepBelow q).restoreRemoved .A (s.removedBefore q .A)).restoreRemoved .B (s.removedBefore q .B)).insertValues (s.returned q)

theorem State.flush_eq (s : State) (q : Nat) : s.flush q =
    ((s.flushed q).withdrawNote .A (s.removedBefore q .A)).withdrawNote .B (s.removedBefore q .B) := rfl

theorem State.keepBelow_slot (s : State) (q : Nat) (k : SlotId) : (s.keepBelow q).slot k = s.slot k := State.slot_congr rfl rfl k

theorem State.flushed_slot (s : State) (q : Nat) (k : SlotId) : (s.flushed q).slot k =
    (s.removedBefore q k).elim (s.slot k) (s.slot k).restore := by
  rw [State.flushed, State.insertValues_slot, State.restoreRemoved_slot, State.restoreRemoved_slot, State.keepBelow_slot]
  cases k <;> simp

theorem State.flushed_flushed (s : State) (q : Nat) (k : SlotId) : (s.slot k).Flushed ((s.flushed q).slot k) ∧
    ((s.flushed q).slot k).final = (s.slot k).final := by
  rw [State.flushed_slot]
  cases s.removedBefore q k <;> exact ⟨rfl, rfl⟩

theorem State.flush_slot (s : State) (q : Nat) (k : SlotId) : (s.slot k).Flushed ((s.flush q).slot k) := by
  rw [State.flush_eq]
  exact ((s.flushed_flushed q k).1.trans (State.withdrawNote_flushed _ _ _ _)).trans (State.withdrawNote_flushed _ _ _ _)

theorem JobSlot.Flushed.state {x y : JobSlot} (h : x.Flushed y) : y.state = x.state := by rw [h]
theorem JobSlot.Flushed.tag {x y : JobSlot} (h : x.Flushed y) : y.tag = x.tag := by rw [h]
theorem JobSlot.Flushed.change {x y : JobSlot} (h : x.Flushed y) : y.change = x.change := by rw [h]
theorem JobSlot.Flushed.first {x y : JobSlot} (h : x.Flushed y) : y.first = x.first := by rw [h]
theorem JobSlot.Flushed.tally {x y : JobSlot} (h : x.Flushed y) : y.tally = x.tally := by rw [h]

theorem State.flush_staged (s : State) (q : Nat) : (s.flush q).staged = s.staged :=
  State.staged_congr fun k => (s.flush_slot q k).change

theorem State.flush_runningSlot (s : State) (q : Nat) : (s.flush q).runningSlot = s.runningSlot :=
  State.runningSlot_congr fun k => by rw [(s.flush_slot q k).state]

/-- Beside a staged SWAP a flush leaves the RUNNING slot its final repeat, or cuts it back to the change repeat (R52, R114). -/
theorem State.flush_final (s : State) (q : Nat) {i : SlotId} {z : SlotId × Nat} (hi : (s.slot i).state = .running)
    (hz : s.staged = some z) :
    ((s.flush q).slot i).final = (s.slot i).final ∨ ((s.flush q).slot i).final = (s.slot i).cutAt z.2 := by
  obtain ⟨hfl, hfin⟩ := s.flushed_flushed q i
  have hcut : ∀ x : JobSlot, (s.slot i).Flushed x → x.cutAt z.2 = (s.slot i).cutAt z.2 := fun x hx => by
    simp only [JobSlot.cutAt, hx.first]
  have hst : (s.flushed q).staged = some z := by
    rw [← hz]
    exact State.staged_congr fun k => (s.flushed_flushed q k).1.change
  have step : ∀ (v : State) (k : SlotId) (b : Option Before), (s.slot i).Flushed (v.slot i) → v.staged = some z →
      ((v.slot i).final = (s.slot i).final ∨ (v.slot i).final = (s.slot i).cutAt z.2) →
      (((v.withdrawNote k b).slot i).final = (s.slot i).final ∨ ((v.withdrawNote k b).slot i).final = (s.slot i).cutAt z.2) := by
    intro v k b hv hvs hor
    rw [State.withdrawNote_slot]
    by_cases hk : i = k ∧ b.isSome = true ∧ (v.slot k).note ≠ .unset
    · right
      rw [if_pos hk]
      obtain ⟨rfl, -⟩ := hk
      simp only [hvs, hv.state, hi, if_true]
      exact hcut _ hv
    · rw [if_neg hk]; exact hor
  rw [State.flush_eq]
  refine step _ _ _ (hfl.trans (State.withdrawNote_flushed _ _ _ _)) ?_ (step _ _ _ hfl hst (.inl hfin))
  rw [← hst]
  exact State.staged_congr fun k => (State.withdrawNote_flushed _ _ _ _).change

@[simp] theorem State.flush_queue (s : State) (q : Nat) : (s.flush q).queue = { s.queue with
    drafts := s.queue.drafts.filter (fun d => !(q ≤ d.repeatIndex)), fill := s.queue.fill.filter (fun f => !(q ≤ f.target)) } := by
  rw [State.flush_eq, State.withdrawNote_queue, State.withdrawNote_queue, State.flushed]
  simp [State.keepBelow]

theorem State.flush_claims (s : State) (q : Nat) : (s.flush q).claims = s.claims.filter fun x => x.1 < q := by
  rw [← State.claims_keepBelow s q, State.claims, State.flush_queue]
  rfl

theorem State.flush_lowest (s : State) (q : Nat) : (s.flush q).lowest = s.lowest :=
  State.lowest_congr (by simp) (by simp) (by simp)

/-- A flush keeps the run in order where it keeps the claims so. -/
theorem State.InOrder.flush_of_claims (h : s.InOrder audited) {q : Nat} (hc : (s.flush q).claimsOk) : (s.flush q).InOrder audited := by
  obtain ⟨⟨-, hfirst, hunapp⟩, hrecords⟩ := h.runOk
  have hslot := s.flush_slot q
  refine h.of_moves (Moves.flush s q) (State.booksOk_of_runOk
    ⟨hc, fun i hi => ?_, State.unappendedOk_congr hunapp (by simp) (by simp)⟩ fun x hx => ?_)
    (State.balance_of_same h.balance (fun i => ⟨by rw [(hslot i).state], by rw [(hslot i).tally]⟩) (by simp))
  · rw [(hslot i).state] at hi
    rw [(hslot i).first, State.flush_lowest]
    exact hfirst i hi
  · rw [(hslot x.slot).state, State.flush_account]
    exact hrecords x (by simpa using hx)

theorem State.flush_claims_nil {q : Nat} (h : ∀ x ∈ s.claims, q ≤ x.1) : (s.flush q).claims = [] := by
  rw [State.flush_claims, List.filter_eq_nil_iff]
  exact fun x hx => by simpa using h x hx

theorem State.InOrder.flush_all (h : s.InOrder audited) {q : Nat} (hq : ∀ x ∈ s.claims, q ≤ x.1) : (s.flush q).InOrder audited :=
  h.flush_of_claims (State.claimsOk_nil (State.flush_claims_nil hq))

theorem State.claimsOk.base_le (h : s.claimsOk) {b : Nat} (hb : s.draftBase = some b) {x : Nat × SlotId} (hx : x ∈ s.claims) : b ≤ x.1 := by
  obtain ⟨k, hk⟩ := List.getElem?_of_mem hx
  obtain ⟨b', hb', hxb, -⟩ := h k x hk
  obtain rfl : b = b' := Option.some.inj (hb.symm.trans hb')
  omega

/-! ### Passes and requests (R54, R60 to R68) -/

/-- A pass raises the floor: nothing is drafted, and the lowest repeat rises. -/
theorem State.InOrder.setPassFloor (h : s.InOrder audited) {p : Nat} (hc : s.claims = []) (hp : s.lowest ≤ max s.firstUnopened p) :
    State.InOrder audited { s with queue := { s.queue with passFloor := some p } } := by
  obtain ⟨⟨-, hfirst, hunapp⟩, hrecords⟩ := h.runOk
  have hslot : ∀ i, State.slot { s with queue := { s.queue with passFloor := some p } } i = s.slot i := State.slot_congr rfl rfl
  refine ⟨h.window, State.slotsOk_of_slots h.slots rfl rfl (.refl _), State.booksOk_of_runOk
    ⟨State.claimsOk_nil hc, fun i hi => ?_, hunapp⟩ fun x hx => ?_, State.balance_of_same h.balance (fun i => by rw [hslot]; simp) rfl⟩
  · rw [hslot] at hi ⊢
    obtain ⟨r, hr, hle⟩ := hfirst i hi
    exact ⟨r, hr, hle.trans hp⟩
  · rw [hslot]
    exact hrecords x hx

theorem State.InOrder.reportPass (h : s.InOrder audited) {p : Nat} (hp : s.queue.passFloor = some p) : (s.reportPass p).InOrder audited := by
  unfold State.reportPass
  cases hst : s.staged with
  | none => exact h
  | some z =>
    dsimp only
    split_ifs with hrc
    · refine h.changeTakesEffect (h.slots.staged_slot hst).2.2.2.2.1 hst (.inl ?_)
      rw [State.lowest, hp]
      exact hrc.le.trans (le_max_right _ _)
    · exact h

theorem State.InOrder.passTo (h : s.InOrder audited) {b p : Nat} (hb : s.draftBase = some b) (hp : b < p) : (s.passTo b p).InOrder audited := by
  have hclaims := h.runOk.1.1
  have hbase : ∀ x ∈ s.claims, b ≤ x.1 := fun x hx => hclaims.base_le hb hx
  refine State.InOrder.reportPass (State.InOrder.setPassFloor (h.flush_all hbase) (State.flush_claims_nil hbase) ?_) rfl
  rw [State.flush_lowest]
  have := State.lowest_le_draftBase hb
  exact (this.trans hp.le).trans (le_max_right _ _)

theorem State.InOrder.catchUp (h : s.InOrder audited) (r : Nat) : (s.catchUp r).InOrder audited := by
  unfold State.catchUp
  split_ifs
  · cases hb : s.draftBase with
    | none => exact h
    | some b =>
      dsimp only
      split_ifs with hlt
      · exact h.passTo hb hlt
      · exact h
  · exact h

theorem State.InOrder.takeRequest (h : s.InOrder audited) (p : PortId) (q : Request) (r : Nat) : (s.takeRequest p q r).InOrder audited := by
  unfold State.takeRequest
  split_ifs
  · exact h.of_standing rfl
  · exact h.of_standing rfl
  · exact h.of_standing rfl
  · exact ((h.of_standing (t := (s.setReqSlot p (.preparing q .waiting)).raiseTarget r) rfl).catchUp r).settle

theorem State.InOrder.retakePort (h : s.InOrder audited) (p : PortId) : (State.retakePort p s).InOrder audited := by
  unfold State.retakePort
  split
  · rename_i q _
    dsimp only
    split_ifs
    · exact h.of_standing rfl
    · exact h.of_standing rfl
    · have hc := (h.of_standing (t := s.raiseTarget q.repeatIndex) rfl).catchUp q.repeatIndex
      cases State.concludes ((s.raiseTarget q.repeatIndex).catchUp q.repeatIndex) q.repeatIndex with
      | some a => exact hc.of_standing rfl
      | none => exact hc
    · have hc := (h.of_standing (t := s.raiseTarget q.repeatIndex) rfl).catchUp q.repeatIndex
      cases State.concludes ((s.raiseTarget q.repeatIndex).catchUp q.repeatIndex) q.repeatIndex with
      | some a => exact hc.of_standing rfl
      | none => exact hc.of_standing rfl
  · exact h

theorem State.InOrder.retakeHeld (h : s.InOrder audited) : s.retakeHeld.InOrder audited :=
  (State.forPorts_keeps (P := State.InOrder audited) _ (fun p _ ht => ht.retakePort p) s h).settle

/-! ### SWAP (R114) -/

theorem State.claimsOk.pairwise (h : s.claimsOk) : s.claims.Pairwise fun x y => x.1 < y.1 := by
  rw [List.pairwise_iff_getElem]
  intro i j hi hj hij
  obtain ⟨b, hb, h1, -⟩ := h i _ (List.getElem?_eq_getElem hi)
  obtain ⟨b', hb', h2, -⟩ := h j _ (List.getElem?_eq_getElem hj)
  obtain rfl : b = b' := Option.some.inj (hb.symm.trans hb')
  omega

/-- What of an ascending list lies below a bound is its first part. -/
theorem filter_lt_prefix (q : Nat) : ∀ {l : List (Nat × SlotId)}, l.Pairwise (fun x y => x.1 < y.1) → (l.filter fun x => x.1 < q) <+: l
  | [], _ => List.prefix_rfl
  | a :: l, h => by
    obtain ⟨ha, hl⟩ := List.pairwise_cons.mp h
    by_cases hq : a.1 < q
    · rw [List.filter_cons_of_pos (by simpa using hq)]
      exact (List.prefix_cons_inj a).mpr (filter_lt_prefix q hl)
    · rw [List.filter_cons_of_neg (by simpa using hq), List.filter_eq_nil_iff.mpr fun x hx => by have := ha x hx; simp; omega]
      exact List.nil_prefix

theorem JobSlot.cutAt_known {j : JobSlot} {f rc : Nat} (hf : j.first = some f) (h : f < rc) : j.cutAt rc = .known (rc - 1) := by
  simp [JobSlot.cutAt, hf]
  omega

/-- The RUNNING slot's final repeat set at a SWAP, unless it is set already (R114). -/
def State.cutFinal (s : State) (i : SlotId) (rc : Nat) : State :=
  s.modSlot i fun x => if x.final = .unset then { x with final := x.cutAt rc } else x

theorem State.cutFinal_slot (s : State) (i k : SlotId) (rc : Nat) : (s.slot k).Flushed ((s.cutFinal i rc).slot k) := by
  rw [State.cutFinal, State.modSlot_slot]
  split_ifs with hk hf
  · rw [hk]; rfl
  · rw [hk]; rfl
  · rfl

/-- The claims below the change repeat stay the RUNNING slot's. -/
theorem State.claimsOk_stage (h : s.InOrder audited) {i : SlotId} {rc : Nat} (hi : s.runningSlot = some i) (hs : s.staged = none)
    {u : State} (hu : u = s.modSlot i.other fun x => { x with change := some rc, first := some rc }) :
    ((u.flush rc).cutFinal i rc).claimsOk := by
  have hrun := State.runningSlot_state hi
  obtain ⟨⟨hclaims, hfirst, -⟩, -⟩ := h.runOk
  have hself : u.slot i = s.slot i := by
    rw [hu]
    simpa [SlotId.other_other] using State.modSlot_slot_other s i.other fun x => { x with change := some rc, first := some rc }
  have hother : u.slot i.other = { s.slot i.other with change := some rc, first := some rc } := by rw [hu, State.modSlot_slot_self]
  have hst : u.staged = some (i.other, rc) :=
    State.staged_of (by rw [hself]; exact State.change_none hs i) (by rw [hother])
  have huc : u.claims = s.claims := by rw [hu]; simp [State.claims]
  have hulow : u.lowest = s.lowest := by rw [hu]; exact State.lowest_congr (by simp) (by simp) (by simp)
  generalize hv : (u.flush rc).cutFinal i rc = v
  have hflushed : ∀ k, (u.slot k).Flushed (v.slot k) := fun k => hv ▸ (u.flush_slot rc k).trans (State.cutFinal_slot _ i k rc)
  have hvc : v.claims = s.claims.filter fun x => x.1 < rc := by
    rw [← huc, ← State.flush_claims, ← hv]
    simp [State.claims, State.cutFinal]
  have hvlow : v.lowest = s.lowest := by
    rw [← hulow, ← u.flush_lowest rc, ← hv]
    exact State.lowest_congr (by simp [State.cutFinal]) (by simp [State.cutFinal]) (by simp [State.cutFinal])
  have hvst : v.staged = some (i.other, rc) := hst ▸ State.staged_congr fun k => (hflushed k).change
  have hvrun : v.runningSlot = some i := by
    rw [← hi]
    refine State.runningSlot_congr fun k => ?_
    rw [(hflushed k).state]
    rcases SlotId.eq_or_other i k with rfl | rfl
    · rw [hself]
    · rw [hother]
  obtain ⟨f, hf, hfle⟩ := hfirst i hrun
  have hvfinal : (v.slot i).final = (s.slot i).final ∨ (v.slot i).final = (s.slot i).cutAt rc := by
    have hcut : ∀ x : JobSlot, (u.slot i).Flushed x → x.cutAt rc = (s.slot i).cutAt rc := fun x hx => by
      simp only [JobSlot.cutAt, hx.first, hself]
    have hfl := u.flush_final rc (by rw [hself]; exact hrun) hst
    rw [hself] at hfl
    rw [← hv, State.cutFinal, State.modSlot_slot_self]
    split_ifs with hunset
    · exact .inr (hcut _ (u.flush_slot rc i))
    · exact hfl
  by_cases hnil : v.claims = []
  · exact State.claimsOk_nil hnil
  · refine hclaims.of_owned hvlow (hvc ▸ filter_lt_prefix rc hclaims.pairwise) (fun x hx => ?_) fun c hc hlt hn => ?_
    · rw [hvc] at hx
      obtain ⟨hx, hxrc⟩ := List.mem_filter.mp hx
      simp only [decide_eq_true_eq] at hxrc
      have hown := hclaims.owned hx
      have hlow := hclaims.lowest_le hx
      rw [State.ownerOf, hi, hs] at hown
      obtain ⟨hxi, hmax, hallow⟩ := (s.ownedBy_iff i x.2 x.1).mp hown
      rw [State.ownerOf, hvrun, hvst]
      dsimp only
      rw [if_neg (by omega)]
      refine (v.ownedBy_iff i x.2 x.1).mpr ⟨hxi, hmax, ?_⟩
      rw [hxi] at hallow ⊢
      rcases hvfinal with e | e <;> rw [e]
      · exact hallow
      · rw [JobSlot.cutAt_known hf (by omega)]
        simp only [Final.allows, decide_eq_true_eq]
        omega
    · obtain ⟨x, hx⟩ := List.exists_mem_of_ne_nil _ hnil
      have hcx := hlt x hx
      rw [hvc] at hx
      have hown := hclaims.owned (List.mem_filter.mp hx).1
      rw [State.ownerOf, hi, hs] at hown hn
      have hsome : (s.ownedBy i x.1).isSome = true := Option.isSome_iff_exists.mpr ⟨_, hown⟩
      have := s.ownedBy_mono i hcx.le hsome
      rw [show s.ownedBy i c = none from hn] at this
      cases this

theorem State.InOrder.stage (h : s.InOrder audited) {i : SlotId} {rc : Nat} (hi : s.runningSlot = some i) (hs : s.staged = none)
    (hl : (s.slot i.other).state = .loaded) : (s.stage i i.other rc).InOrder audited := by
  refine State.InOrder.settle (s := ((s.modSlot i.other fun x => { x with change := some rc, first := some rc }).flush rc).cutFinal i rc) ?_
  have hclaims := State.claimsOk_stage h hi hs (rc := rc) rfl
  have hrun := State.runningSlot_state hi
  obtain ⟨⟨-, hfirst, hunapp⟩, hrecords⟩ := h.runOk
  generalize hu : (s.modSlot i.other fun x => { x with change := some rc, first := some rc }) = u at hclaims ⊢
  generalize hv : (u.flush rc).cutFinal i rc = v at hclaims ⊢
  have hflushed : ∀ k, (u.slot k).Flushed (v.slot k) := fun k => hv ▸ (u.flush_slot rc k).trans (State.cutFinal_slot _ i k rc)
  have hstate : ∀ k, (v.slot k).state = (s.slot k).state ∧ (v.slot k).tag = (s.slot k).tag ∧ (v.slot k).tally = (s.slot k).tally := fun k => by
    rw [(hflushed k).state, (hflushed k).tag, (hflushed k).tally, ← hu, State.modSlot_slot]
    split_ifs with hk
    · rw [hk]; exact ⟨rfl, rfl, rfl⟩
    · exact ⟨rfl, rfl, rfl⟩
  have hself : u.slot i = s.slot i := by
    rw [← hu]
    simpa [SlotId.other_other] using State.modSlot_slot_other s i.other fun x => { x with change := some rc, first := some rc }
  have hwindow : v.window = s.window := by rw [← hv, ← hu]; simp [State.cutFinal]
  have hqueue : v.account = s.account := by rw [← hv, ← hu]; simp [State.cutFinal]
  have hlow : v.lowest = s.lowest := by rw [← hv, ← hu]; exact State.lowest_congr (by simp [State.cutFinal]) (by simp [State.cutFinal]) (by simp [State.cutFinal])
  have hslots : v.slotsOk := by
    refine State.slotsOk_of_same (s := u) (hu ▸ State.slotsOk_stage h.slots hi hl) (fun k => ?_) ?_
    · exact ⟨(hflushed k).state, (hflushed k).tag, (hflushed k).change, (hflushed k).first⟩
    · rw [hqueue, ← hu]
      simp
  refine ⟨hwindow ▸ h.window, hslots, State.booksOk_of_runOk ⟨hclaims, fun k hk => ?_, State.unappendedOk_congr hunapp hwindow (by rw [hqueue])⟩
    fun x hx => ?_, State.balance_of_same h.balance (fun k => by rw [(hstate k).1, (hstate k).2.2]; simp) (by rw [hwindow])⟩
  · rw [(hstate k).1] at hk
    obtain rfl : k = i := Option.some.inj ((h.slots.running hk).symm.trans hi)
    rw [(hflushed k).first, hself, hlow]
    exact hfirst k hrun
  · rw [(hstate x.slot).1, hqueue]
    exact hrecords x (hwindow ▸ hx)

/-! ### STOP (R118) -/

theorem State.killStaged_tally (s : State) (k : SlotId) : (s.killStaged.slot k).tally = (s.slot k).tally := by
  unfold State.killStaged
  split
  · rw [State.modSlot_slot]
    split_ifs with hk
    · rw [hk]; rfl
    · rfl
  · rfl

theorem State.endRunning_slot (s : State) (k : SlotId) :
    (s.endRunning.slot k).state = (if s.runningSlot = some k then .draining else (s.slot k).state) ∧
      (s.endRunning.slot k).tag = (s.slot k).tag ∧ (s.endRunning.slot k).tally = (s.slot k).tally := by
  unfold State.endRunning
  rw [(State.killStaged_state _ k).1, (State.killStaged_state _ k).2, State.killStaged_tally]
  cases hi : s.runningSlot with
  | none => simp
  | some i =>
    dsimp only
    rw [State.endJob_slot]
    by_cases hk : k = i
    · subst hk; simp
    · rw [if_neg hk, if_neg fun e => hk (Option.some.inj e).symm]
      exact ⟨rfl, rfl, rfl⟩

/-- With nothing drafted the RUNNING job ends and a staged SWAP dies (R118). -/
theorem State.InOrder.endRunning (h : s.InOrder audited) (hc : s.claims = []) : s.endRunning.InOrder audited := by
  obtain ⟨⟨-, -, hunapp⟩, hrecords⟩ := h.runOk
  refine h.of_moves (Moves.endRunning s) (State.booksOk_of_runOk
    ⟨State.claimsOk_nil (by simpa [State.claims] using hc), fun k hk => ?_, State.unappendedOk_congr hunapp (by simp) (by simp)⟩ fun x hx => ?_)
    (State.balance_of_same h.balance (fun k => ⟨?_, by rw [(s.endRunning_slot k).2.2]⟩) (by simp))
  · rw [(s.endRunning_slot k).1] at hk
    split_ifs at hk with hr
    exact absurd (h.slots.running hk) hr
  · obtain ⟨h1, h2⟩ := hrecords x (by simpa using hx)
    rw [(s.endRunning_slot x.slot).1, State.endRunning_account]
    split_ifs
    · exact ⟨rfl, h2⟩
    · exact ⟨h1, h2⟩
  · rw [(s.endRunning_slot k).1]
    split_ifs with hr
    · simp [State.runningSlot_state hr]
    · rfl

theorem State.InOrder.stopNumbering (h : s.InOrder audited) : s.stopNumbering.InOrder audited := by
  have hq : ∀ x ∈ s.claims, s.firstUnopened ≤ x.1 := fun x hx => (le_max_left _ _).trans (h.runOk.1.1.lowest_le hx)
  exact ((((h.flush_all hq).endRunning (State.flush_claims_nil hq)).retakeHeld).queueJobEnd .A).queueJobEnd .B

/-! ### Openings (R63, R115, R120) -/

theorem State.runOk_openingDrains (h : s.runOk) (hs : s.slotsOk) {q : Nat} (hq : q < s.lowest) : (s.openingDrains q).runOk := by
  unfold State.openingDrains
  split
  · rename_i i hi hst
    split_ifs with hd
    · refine State.runOk_drain h hs (State.runningSlot_state hi) (List.eq_nil_iff_forall_not_mem.mpr fun x hx => ?_)
      have hown := h.1.owned hx
      rw [State.ownerOf, hi, hst] at hown
      obtain ⟨hxi, -, hallow⟩ := (s.ownedBy_iff i x.2 x.1).mp hown
      rw [hxi, hd.2] at hallow
      simp only [Final.allows, decide_eq_true_eq] at hallow
      have := h.1.lowest_le hx
      omega
    · exact h
  · exact h

theorem State.recordsOk_openingDrains (h : s.recordsOk) (q : Nat) : (s.openingDrains q).recordsOk := by
  unfold State.openingDrains
  split
  · split_ifs
    · exact State.recordsOk_drain h
    · exact h
  · exact h

/-- The report of an opening at `q` keeps the claims above `q`, and brings the slots of every record into the run. -/
theorem State.runOk_reportOpening (h : s.runOk) (hs : s.slotsOk) {q : Nat} (hq : s.lowest = q + 1)
    (hr : ∀ x ∈ s.window.records, (s.ownerOf q = some x.slot ∨ (s.slot x.slot).state.inRun = true ∧
      s.account.queue.any (Item.isJobEndOf x.slot) = false)) :
    (s.reportOpening q).runOk ∧ (s.reportOpening q).recordsOk := by
  unfold State.reportOpening State.openingChanges
  have recordsOk_of_running : (∀ j rc, s.staged = some (j, rc) → q < rc) → s.recordsOk := fun hrc x hx => by
    rcases hr x hx with ho | ho
    · have hrun : s.runningSlot = some x.slot := by
        rcases State.ownerOf_cases ho with e | ⟨rc, e⟩
        · exact e
        · have := hrc _ _ e
          unfold State.ownerOf at ho
          rw [(hs.staged_slot e).2.2.2.2.1, e] at ho
          dsimp only at ho
          rw [if_neg (by omega)] at ho
          exact absurd ((s.ownedBy_iff _ _ _).mp ho).1 (SlotId.other_ne x.slot).symm
      have hst := State.runningSlot_state hrun
      exact ⟨by rw [hst]; rfl, hs.no_jobEnd (by rw [hst]; nofun)⟩
    · exact ho
  cases hst : s.staged with
  | none => exact ⟨State.runOk_openingDrains h hs (by omega), State.recordsOk_openingDrains (recordsOk_of_running (by simp [hst])) q⟩
  | some z =>
    obtain ⟨j, rc⟩ := z
    obtain ⟨-, -, -, -, hrun, -⟩ := hs.staged_slot hst
    dsimp only
    split_ifs with hc
    · have hreached : rc ≤ s.lowest ∨ ((s.slot j).final = .empty ∧ s.claims = []) := by
        rcases Nat.lt_or_ge s.lowest rc with hlt | hle
        · obtain ⟨he, hfin⟩ := hc.resolve_left (by omega)
          refine .inr ⟨he, List.eq_nil_iff_forall_not_mem.mpr fun x hx => ?_⟩
          rw [hrun, Option.map_some, Option.some.injEq] at hfin
          have hown := h.1.owned hx
          have hlow := h.1.lowest_le hx
          rw [State.ownerOf, hrun, hst] at hown
          dsimp only at hown
          split_ifs at hown with hrcx
          · obtain ⟨hxi, -, hallow⟩ := (s.ownedBy_iff j x.2 x.1).mp hown
            rw [hxi, he] at hallow
            cases hallow
          · obtain ⟨hxi, -, hallow⟩ := (s.ownedBy_iff j.other x.2 x.1).mp hown
            rw [hxi, hfin] at hallow
            simp only [Final.allows, decide_eq_true_eq] at hallow
            omega
        · exact .inl hle
      have hslots : s.changeTakesEffect.slotsOk :=
        (Moves.changeTakesEffect (o := s) s).keeps (fun _ _ => Move.slotsOk) hs
      have hlow : s.changeTakesEffect.lowest = s.lowest := State.lowest_congr (by simp) (by simp) (by simp)
      exact ⟨State.runOk_openingDrains (State.runOk_changeTakesEffect h hs hrun hst hreached) hslots (by omega),
        State.recordsOk_openingDrains (State.recordsOk_changeTakesEffect hs hrun hst) q⟩
    · refine ⟨State.runOk_openingDrains h hs (by omega), State.recordsOk_openingDrains (recordsOk_of_running fun j' rc' e => ?_) q⟩
      rw [hst] at e
      cases e
      exact Nat.lt_of_not_le fun e => hc (.inl e)

/-- The state of an opening before it is reported: the record, newest, the tally, the high mark (R63). -/
def State.openedBase (s : State) (d : Draft) (rest : List Draft) : State :=
  (({ s with
      queue := { s.queue with drafts := rest }
      window := { s.window with records := s.window.records ++ [s.openedRecord d], newest := some d.repeatIndex } } : State).modSlot d.slot
    fun j => { j with tally := j.tally.opening d }).checkWindowHigh

theorem State.openDraft_eq (s : State) (d : Draft) (rest : List Draft) :
    s.openDraft d rest = ((s.openedBase d rest).reportOpening d.repeatIndex).settle := rfl

theorem State.checkWindowHigh_window (s : State) : s.checkWindowHigh.window = { s.window with high := s.checkWindowHigh.window.high } := by
  simp only [State.checkWindowHigh, State.raiseIf_window]

theorem State.openedBase_window (s : State) (d : Draft) (rest : List Draft) : (s.openedBase d rest).window =
    { s.window with
      records := s.window.records ++ [s.openedRecord d], newest := some d.repeatIndex, high := (s.openedBase d rest).window.high } := by
  unfold State.openedBase
  rw [State.checkWindowHigh_window]
  simp

theorem State.openedBase_slot (s : State) (d : Draft) (rest : List Draft) (k : SlotId) : (s.openedBase d rest).slot k =
    if k = d.slot then { s.slot k with tally := (s.slot k).tally.opening d } else s.slot k := by
  have h0 : ∀ i, State.slot { s with
      queue := { s.queue with drafts := rest }
      window := { s.window with records := s.window.records ++ [s.openedRecord d], newest := some d.repeatIndex } } i = s.slot i :=
    State.slot_congr rfl rfl
  unfold State.openedBase
  rw [State.checkWindowHigh_slot, State.modSlot_slot, h0, h0]
  split_ifs with hk
  · rw [hk]
  · rfl

theorem State.openedBase_same (s : State) (d : Draft) (rest : List Draft) (k : SlotId) :
    (s.openedBase d rest).slot k = { s.slot k with tally := ((s.openedBase d rest).slot k).tally } := by
  rw [State.openedBase_slot]
  split_ifs <;> rfl

theorem Record.numbered_openedRecord (s : State) (d : Draft) : (s.openedRecord d).numbered = d.numbered := by
  simp only [Record.numbered, State.openedRecord, Draft.numbered, List.countP_map]
  rfl

theorem State.openedBase_openCount (s : State) (d : Draft) (rest : List Draft) (k : SlotId) :
    (s.openedBase d rest).openCount k = s.openCount k + if d.slot = k then d.numbered else 0 := by
  rw [State.openCount_eq, State.openCount_eq, State.openedBase_window, List.map_append, List.filter_append, List.map_append,
    List.sum_append]
  congr 1
  split_ifs with hk
  · simp [Record.standing, hk, State.openedRecord, ← Record.numbered_openedRecord s d]
  · simp [Record.standing, State.openedRecord, hk]

theorem satAdd_of_lt {top a b : Nat} (h : satAdd top a b < top) : satAdd top a b = a + b ∧ a < top := by
  unfold satAdd at *
  omega

/-- An opening issues what its record holds open (R156). -/
theorem State.balance_openedBase {d : Draft} {rest : List Draft} {k : SlotId} (h : (s.slot k).tally.unsaturated → s.balanced k) :
    ((s.openedBase d rest).slot k).tally.unsaturated → (s.openedBase d rest).balanced k := by
  intro hu
  rw [State.openedBase_slot] at hu
  by_cases hk : k = d.slot
  · rw [if_pos hk] at hu
    obtain ⟨h1, h2⟩ := hu
    obtain ⟨hsum, hlt⟩ := satAdd_of_lt (show satAdd max32 (s.slot k).tally.issued d.numbered < max32 from h1)
    have hb := h ⟨hlt, h2⟩
    rw [State.balanced_iff] at hb ⊢
    rw [State.openedBase_openCount, State.openedBase_slot, if_pos hk, if_pos hk.symm]
    intro hfree
    have := hb hfree
    dsimp only [Tally.opening] at hfree this ⊢
    omega
  · rw [if_neg hk] at hu
    have hb := h hu
    rw [State.balanced_iff] at hb ⊢
    rw [State.openedBase_openCount, State.openedBase_slot, if_neg hk, if_neg fun e => hk e.symm]
    exact hb

theorem State.InOrder.openDraft (h : s.InOrder audited) {d : Draft} {rest : List Draft} (hd : s.openable = some (d, rest)) :
    (s.openDraft d rest).InOrder audited := by
  rw [State.openDraft_eq]
  refine State.InOrder.settle ?_
  obtain ⟨g, hq, hbase, -⟩ := (s.openable_iff d rest).mp hd
  obtain ⟨⟨hclaims, hfirst, hunapp⟩, hrecords⟩ := h.runOk
  have hm : Moves s s ((s.openedBase d rest).reportOpening d.repeatIndex) :=
    (Moves.one (.opens s d rest hd)).trans ((Moves.modSlot _ _ _ ⟨rfl, rfl, rfl, rfl, rfl,
      fun k => ⟨satAdd_le_top .., satAdd_le_top .., k.2.2.1, k.2.2.2.1, k.2.2.2.2.1, k.2.2.2.2.2.1, k.2.2.2.2.2.2.1, k.2.2.2.2.2.2.2.1,
        satAdd_le_top .., satAdd_le_top ..⟩, rfl, rfl, rfl⟩).trans ((Moves.checkWindowHigh _).trans (Moves.reportOpening _ _)))
  generalize hu : s.openedBase d rest = u at hm ⊢
  have hslot : ∀ k, u.slot k = { s.slot k with tally := (u.slot k).tally } := fun k => hu ▸ s.openedBase_same d rest k
  have hwin := hu ▸ s.openedBase_window d rest
  have hplan : u.plan = s.plan := by rw [← hu]; simp [State.openedBase]
  have hqueue : u.queue = { s.queue with drafts := rest } := by rw [← hu]; simp [State.openedBase]
  have hacc : u.account = s.account := by rw [← hu]; simp [State.openedBase]
  have hstate : ∀ k, (u.slot k).state = (s.slot k).state ∧ (u.slot k).first = (s.slot k).first ∧
      (u.slot k).change = (s.slot k).change ∧ (u.slot k).final = (s.slot k).final ∧ (u.slot k).tag = (s.slot k).tag := fun k => by
    rw [hslot k]; exact ⟨rfl, rfl, rfl, rfl, rfl⟩
  have howner : ∀ q, u.ownerOf q = s.ownerOf q := State.ownerOf_congr (State.runningSlot_congr fun k => by rw [(hstate k).1])
    (State.staged_congr fun k => (hstate k).2.2.1) fun k => (hstate k).2.2.2.1
  have hle := State.lowest_le_draftBase hbase
  have hlow : u.lowest = d.repeatIndex + 1 := by
    have hfl : s.queue.passFloor.getD 0 ≤ d.repeatIndex := (le_max_right _ _).trans hle
    rw [State.lowest, State.firstUnopened, hwin, hqueue]
    dsimp only
    omega
  have hcl : s.claims = d.claim :: u.claims := by
    rw [State.claims, State.claims, hq, hqueue]
    rfl
  have hrun : u.runOk := by
    refine ⟨fun k x hx => ?_, fun i hi => ?_, ?_⟩
    · have hnext : ∀ j y, u.claims[j]? = some y → y.1 = d.repeatIndex + 1 + j ∧ s.ownerOf y.1 = some y.2 := fun j y hj => by
        obtain ⟨b, hb, hy, ho⟩ := hclaims (j + 1) y (by rw [hcl]; simpa using hj)
        obtain rfl : d.repeatIndex = b := Option.some.inj (hbase.symm.trans hb)
        exact ⟨by omega, ho⟩
      obtain ⟨hx1, hx2⟩ := hnext k x hx
      refine ⟨d.repeatIndex + 1, State.draftBase_eq hlow.le ?_ fun c hc hlt => absurd (hlow ▸ hc) (by omega), hx1, (howner _).trans hx2⟩
      have hlen : 0 < u.claims.length := by have := (List.getElem?_eq_some_iff.mp hx).1; omega
      obtain ⟨h1, h2⟩ := hnext 0 u.claims[0] (List.getElem?_eq_getElem hlen)
      rw [h1] at h2
      rw [howner, h2]
      rfl
    · rw [(hstate i).1] at hi
      obtain ⟨r, hr, hrle⟩ := hfirst i hi
      exact ⟨r, (hstate i).2.1.trans hr, by omega⟩
    · unfold State.unappendedOk State.unappended
      rw [hwin, hacc]
      refine ⟨hunapp.1, fun r hr => ?_⟩
      obtain ⟨x, hx, hxr⟩ := hunapp.2 r hr
      exact ⟨x, List.mem_append_left _ hx, hxr⟩
  have hslots : u.slotsOk := State.slotsOk_of_same h.slots
    (fun k => ⟨(hstate k).1, (hstate k).2.2.2.2, (hstate k).2.2.1, (hstate k).2.1⟩) (by rw [hacc])
  have hown : s.ownerOf d.repeatIndex = some d.slot := hclaims.owned (x := d.claim) (hcl ▸ List.mem_cons_self)
  obtain ⟨h1, h2⟩ := State.runOk_reportOpening hrun hslots hlow fun x hx => by
    rw [hwin] at hx
    rcases List.mem_append.mp hx with hx | hx
    · rw [(hstate _).1, hacc]
      exact .inr (hrecords x hx)
    · obtain rfl := List.mem_singleton.mp hx
      exact .inl ((howner _).trans hown)
  refine h.of_moves hm (State.booksOk_of_runOk h1 h2) ?_
  have hsame := State.sameSlots_reportOpening u d.repeatIndex
  have ht := hm.keeps (fun _ _ => Move.slotsOk) h.slots
  refine State.balance_of_same (s := u) (fun ha k => hu ▸ State.balance_openedBase (h.balance ha k)) (fun k => ⟨?_, by rw [(hsame k).tally]⟩)
    (by simp)
  refine State.free_iff_of_tags hslots ht ?_
  rw [hsame k]

theorem State.InOrder.openNext (h : s.InOrder audited) : s.openNext.InOrder audited := by
  unfold State.openNext
  split
  · exact h
  · rename_i d rest hd
    exact h.openDraft hd

theorem State.InOrder.openReady (h : s.InOrder audited) : s.openReady.InOrder audited :=
  State.openReady_keeps (fun _ _ _ hd ht => ht.openDraft hd) h

end

end Sys2Proof.Machine
end
section
/-! FILL_COMPLETE keeps the run in order (O58, O59: R46, R47, R117, R120). -/

namespace Sys2Proof.Machine

section
variable {s t : State} {audited : Prop}

/-- A final repeat that shrinks the slot's stretch, but not below what is drafted for it, keeps the books. -/
theorem State.InOrder.setFinal (h : s.InOrder audited) {i : SlotId} {final note : Final}
    (hshrink : ∀ q, final.allows q = true → (s.slot i).final.allows q = true)
    (hclaims : ∀ x ∈ s.claims, x.2 = i → final.allows x.1 = true) :
    (s.modSlot i fun j => { j with final := final, note := note }).InOrder audited := by
  obtain ⟨⟨hown, hfirst, hunapp⟩, hrecords⟩ := h.runOk
  generalize ht : (s.modSlot i fun j => { j with final := final, note := note }) = t
  have hsame : ∀ k, (t.slot k).state = (s.slot k).state ∧ (t.slot k).tag = (s.slot k).tag ∧ (t.slot k).change = (s.slot k).change ∧
      (t.slot k).first = (s.slot k).first ∧ (t.slot k).tally = (s.slot k).tally := fun k => by
    rw [← ht, State.modSlot_slot]
    split_ifs with hk
    · rw [hk]; exact ⟨rfl, rfl, rfl, rfl, rfl⟩
    · exact ⟨rfl, rfl, rfl, rfl, rfl⟩
  have hfinal : ∀ k, (t.slot k).final = if k = i then final else (s.slot k).final := fun k => by
    rw [← ht, State.modSlot_slot]
    split_ifs <;> rfl
  have hrun : t.runningSlot = s.runningSlot := State.runningSlot_congr fun k => by rw [(hsame k).1]
  have hstaged : t.staged = s.staged := State.staged_congr fun k => (hsame k).2.2.1
  have hqueue : t.queue = s.queue := by rw [← ht, State.modSlot_queue]
  have hwindow : t.window = s.window := by rw [← ht, State.modSlot_window]
  have hacc : t.account = s.account := by rw [← ht, State.modSlot_account]
  have hlow : t.lowest = s.lowest :=
    State.lowest_congr (by rw [← ht, State.modSlot_plan]) (by rw [hqueue]) (by rw [hwindow])
  have hclaimsEq : t.claims = s.claims := by rw [State.claims, State.claims, hqueue]
  have hless : ∀ k q, s.ownedBy k q = none → t.ownedBy k q = none := fun k q hn => by
    unfold State.ownedBy at *
    rw [hfinal]
    simp only [ite_eq_right_iff, reduceCtorEq, imp_false, Bool.and_eq_true, decide_eq_true_eq, not_and] at hn ⊢
    split_ifs with hk
    · exact fun ha => hn (hk ▸ hshrink q ha)
    · exact hn
  have hkeep : ∀ k q, (k = i → final.allows q = true) → ∀ m, s.ownedBy k q = some m → t.ownedBy k q = some m := fun k q ha m hm => by
    obtain ⟨rfl, hmax, hall⟩ := (s.ownedBy_iff k m q).mp hm
    refine (t.ownedBy_iff m m q).mpr ⟨rfl, hmax, ?_⟩
    rw [hfinal]
    split_ifs with hk
    · exact ha hk
    · exact hall
  refine h.of_moves (ht ▸ ?_) (State.booksOk_of_runOk ⟨?_, fun k hk => ?_, State.unappendedOk_congr hunapp hwindow (by rw [hacc])⟩ fun x hx => ?_)
    (State.balance_of_same h.balance (fun k => by rw [(hsame k).1, (hsame k).2.2.2.2]; simp) (by rw [hwindow]))
  · exact Moves.modSlot _ _ _ ⟨rfl, rfl, rfl, rfl, rfl, id, rfl, rfl, rfl⟩
  · refine hown.of_owned hlow (hclaimsEq ▸ List.prefix_rfl) (fun x hx => ?_) fun c _ _ hn => ?_
    · rw [hclaimsEq] at hx
      have ho := hown.owned hx
      have ha := hclaims x hx
      unfold State.ownerOf at *
      rw [hrun, hstaged]
      split at ho
      · cases ho
      · obtain ⟨rfl, -⟩ := (s.ownedBy_iff _ _ _).mp ho
        exact hkeep _ _ ha _ ho
      · split_ifs at ho ⊢
        · obtain ⟨rfl, -⟩ := (s.ownedBy_iff _ _ _).mp ho
          exact hkeep _ _ ha _ ho
        · obtain ⟨rfl, -⟩ := (s.ownedBy_iff _ _ _).mp ho
          exact hkeep _ _ ha _ ho
    · unfold State.ownerOf at *
      rw [hrun, hstaged]
      split at hn
      · rfl
      · exact hless _ _ hn
      · split_ifs at hn ⊢
        · exact hless _ _ hn
        · exact hless _ _ hn
  · rw [(hsame k).1] at hk
    rw [(hsame k).2.2.2.1, hlow]
    exact hfirst k hk
  · rw [(hsame _).1, hacc]
    exact hrecords x (hwindow ▸ hx)

/-- Every claim lies at or below the fill's target, the last of them. -/
theorem State.claimsOk.le_target (h : s.claimsOk) {f : Fill} (hf : s.queue.fill = some f) {x : Nat × SlotId} (hx : x ∈ s.claims) :
    x.1 ≤ f.target := by
  obtain ⟨k, hk⟩ := List.getElem?_of_mem hx
  obtain ⟨b, hb, hxb, -⟩ := h k x hk
  obtain ⟨b', hb', hf', -⟩ := h _ _ (State.claims_fill hf)
  obtain rfl : b = b' := Option.some.inj (hb.symm.trans hb')
  have hlen : k < s.claims.length := (List.getElem?_eq_some_iff.mp hk).1
  rw [State.claims, hf] at hlen
  have hft : f.claim.1 = f.target := rfl
  simp only [Option.toList_some, List.map_cons, List.map_nil, List.length_append, List.length_map, List.length_singleton] at hlen
  omega

/-- An owner's final repeat allows what it owns. -/
theorem State.ownerOf_allows {q : Nat} {i : SlotId} (h : s.ownerOf q = some i) : (s.slot i).final.allows q = true := by
  have hby : ∀ k, s.ownedBy k q = some i → (s.slot i).final.allows q = true := fun k hk => ((s.ownedBy_iff k i q).mp hk).1 ▸
    ((s.ownedBy_iff k i q).mp hk).2.2
  unfold State.ownerOf at h
  split at h
  · cases h
  · exact hby _ h
  · split_ifs at h <;> exact hby _ h

/-- The fill's slot may number its target. -/
theorem State.claimsOk.fill_allowed (h : s.claimsOk) {f : Fill} (hf : s.queue.fill = some f) : (s.slot f.slot).final.allows f.target = true := by
  exact State.ownerOf_allows (h.owned (List.mem_of_getElem? (State.claims_fill hf)))

theorem Final.allows_of_le {f : Final} {a b : Nat} (h : f.allows b = true) (hab : a ≤ b) : f.allows a = true := by
  cases f with
  | unset => rfl
  | known n =>
    simp only [Final.allows, decide_eq_true_eq] at h ⊢
    omega
  | empty => cases h

theorem State.InOrder.fillMakesDraft (h : s.InOrder audited) {f : Fill} (hf : s.queue.fill = some f) :
    ((s.setFill none).fillMakesDraft f).InOrder audited := by
  have hclaims := h.runOk.1.1
  generalize hu : ({ s with queue := { s.queue with drafts := s.queue.drafts ++ [f.draft], fill := none } } : State) = u
  have huc : u.claims = s.claims := by
    rw [← hu, State.claims, State.claims, hf]
    simp [Draft.claim, Fill.claim, Fill.draft]
  have huo : u.InOrder audited := by
    refine h.of_standing ?_
    rw [State.standing, State.standing, huc, ← hu]
  have hslot : ∀ k, u.slot k = s.slot k := State.slot_congr (by rw [← hu]) (by rw [← hu])
  have e : (s.setFill none).fillMakesDraft f =
      if (u.slot f.slot).allExhausted then u.modSlot f.slot fun j => { j with final := .known f.target, note := .known f.target } else u := by
    rw [← hu]; rfl
  rw [e]
  split_ifs
  · refine huo.setFinal (fun q hq => ?_) fun x hx _ => ?_
    · rw [hslot]
      exact Final.allows_of_le (hclaims.fill_allowed hf) (by simpa [Final.allows] using hq)
    · simpa [Final.allows] using hclaims.le_target hf (huc ▸ hx)
  · exact huo

theorem State.standing_handSkipped (s : State) (f : Fill) : (s.handSkipped f).standing = s.standing := by
  unfold State.handSkipped
  dsimp only
  split_ifs
  · have : ∀ p : Draft → Bool, (s.queue.drafts.map fun d => if p d then { d with skipped := d.skipped + f.skipped } else d).map Draft.claim =
        s.queue.drafts.map Draft.claim := fun p => by
      rw [List.map_map]
      refine List.map_congr_left fun d _ => ?_
      rw [Function.comp_apply]
      split_ifs <;> rfl
    simp only [State.standing, State.claims, this]
  · exact State.standing_modSlot _ _ _ rfl

/-- A final repeat that is past allows no repeat that may still be drafted. -/
theorem State.finalPast_not_allows {i : SlotId} (h : s.finalPast i = true) {q : Nat} (hq : s.lowest ≤ q) :
    (s.slot i).final.allows q = false := by
  unfold State.finalPast at h
  cases hf : (s.slot i).final with
  | unset => simp [hf] at h
  | empty => rfl
  | known n =>
    rw [hf] at h
    dsimp only at h
    rw [Final.allows, decide_eq_false_iff_not]
    have hl : s.firstUnopened ≤ q ∧ s.queue.passFloor.getD 0 ≤ q := by
      unfold State.lowest at hq
      omega
    rcases Bool.or_eq_true_iff.mp h with hn | hp
    · obtain ⟨m, hm, hle⟩ := (Option.any_eq_true _ _).mp hn
      have := State.newest_lt_firstUnopened hm
      simp only [decide_eq_true_eq] at hle
      omega
    · obtain ⟨m, hm, hle⟩ := (Option.any_eq_true _ _).mp hp
      rw [hm] at hl
      simp only [decide_eq_true_eq, Option.getD_some] at hle hl
      omega

/-- The report of a slot found exhausted (R117, R120). -/
theorem State.InOrder.reportExhausted (h : s.InOrder audited) (i : SlotId) : (s.reportExhausted i).InOrder audited := by
  have hclaims := h.runOk.1.1
  unfold State.reportExhausted
  cases hst : s.staged with
  | some z =>
    obtain ⟨j, rc⟩ := z
    dsimp only
    split_ifs with hc
    · obtain ⟨-, he, hpast⟩ := hc
      obtain ⟨-, -, -, -, hrun, -⟩ := h.slots.staged_slot hst
      refine h.changeTakesEffect hrun hst (.inr ⟨he, List.eq_nil_iff_forall_not_mem.mpr fun x hx => ?_⟩)
      rw [hrun, Option.any_some] at hpast
      have ho := hclaims.owned hx
      rw [State.ownerOf, hrun, hst] at ho
      dsimp only at ho
      split_ifs at ho
      · obtain ⟨hx2, -, ha⟩ := (s.ownedBy_iff j x.2 x.1).mp ho
        rw [hx2, he] at ha
        cases ha
      · obtain ⟨hx2, -, ha⟩ := (s.ownedBy_iff j.other x.2 x.1).mp ho
        rw [hx2, State.finalPast_not_allows hpast (hclaims.lowest_le hx)] at ha
        cases ha
    · exact h
  | none =>
    dsimp only
    split_ifs with hc
    · refine h.drain hc.1 hst (List.eq_nil_iff_forall_not_mem.mpr fun x hx => ?_)
      have ho := hclaims.owned hx
      rw [State.ownerOf, h.slots.running hc.1, hst] at ho
      obtain ⟨hx2, -, ha⟩ := (s.ownedBy_iff i x.2 x.1).mp ho
      rw [hx2, State.finalPast_not_allows hc.2 (hclaims.lowest_le hx)] at ha
      cases ha
    · exact h

/-- The slot of a draft below a fill's target has its first repeat below it (R111, R114). -/
theorem State.InOrder.first_lt (h : s.InOrder audited) {x : Nat × SlotId} (hx : x ∈ s.claims) {q : Nat} (hq : x.1 < q) :
    (s.slot x.2).first.any (fun f => f < q) = true := by
  obtain ⟨⟨hclaims, hfirst, -⟩, -⟩ := h.runOk
  have hlow := hclaims.lowest_le hx
  have ho := hclaims.owned hx
  have hrunning : s.runningSlot = some x.2 → (s.slot x.2).first.any (fun f => f < q) = true := fun hr => by
    obtain ⟨r, hr, hle⟩ := hfirst x.2 (State.runningSlot_state hr)
    rw [hr, Option.any_some, decide_eq_true_eq]
    omega
  unfold State.ownerOf at ho
  split at ho
  · cases ho
  · rename_i i hi _
    obtain ⟨he, -⟩ := (s.ownedBy_iff _ _ _).mp ho
    exact hrunning (he ▸ hi)
  · rename_i i j rc hi hst
    split_ifs at ho with hrc
    · obtain ⟨he, -⟩ := (s.ownedBy_iff _ _ _).mp ho
      obtain ⟨-, -, hf, -⟩ := h.slots.staged_slot hst
      rw [he, hf, Option.any_some, decide_eq_true_eq]
      omega
    · obtain ⟨he, -⟩ := (s.ownedBy_iff _ _ _).mp ho
      exact hrunning (he ▸ hi)

theorem State.InOrder.setFill_none (h : s.InOrder audited) : (s.setFill none).InOrder audited := by
  obtain ⟨⟨hclaims, hfirst, hunapp⟩, hrecords⟩ := h.runOk
  refine ⟨h.window, State.slotsOk_of_slots h.slots rfl rfl (.refl _), State.booksOk_of_runOk ⟨?_, hfirst, hunapp⟩ hrecords, h.balance⟩
  refine hclaims.of_same rfl ?_ fun _ => rfl
  rw [State.claims_setFill, Option.toList_none, List.map_nil, List.append_nil]
  exact List.prefix_append _ _

theorem State.emptyFillFinal_allows {f : Fill} {q : Nat} (h : (s.emptyFillFinal f).allows q = true) : q ≤ f.target := by
  unfold State.emptyFillFinal at h
  dsimp only at h
  split_ifs at h
  · simp only [Final.allows, decide_eq_true_eq] at h
    omega
  · cases h

theorem State.InOrder.fillFindsNothing (h : s.InOrder audited) {f : Fill} (hf : s.queue.fill = some f) :
    ((s.setFill none).fillFindsNothing f).InOrder audited := by
  have hclaims := h.runOk.1.1
  have hbelow : ∀ x ∈ (s.setFill none).claims, x ∈ s.claims ∧ x.1 < f.target := fun x hx => by
    rw [State.claims_setFill, Option.toList_none, List.map_nil, List.append_nil] at hx
    have hx' : x ∈ s.claims := List.mem_append_left _ hx
    refine ⟨hx', ?_⟩
    obtain ⟨k, hk⟩ := List.getElem?_of_mem hx
    have hlen : k < s.queue.drafts.length := by simpa using (List.getElem?_eq_some_iff.mp hk).1
    have hk' : s.claims[k]? = some x := by rw [State.claims, List.getElem?_append_left (by simpa using hlen)]; exact hk
    obtain ⟨b, hb, hxb, -⟩ := hclaims k x hk'
    obtain ⟨b', hb', hfb, -⟩ := hclaims _ _ (State.claims_fill hf)
    obtain rfl : b = b' := Option.some.inj (hb.symm.trans hb')
    have : f.claim.1 = f.target := rfl
    omega
  have hmine : ∀ x ∈ (s.setFill none).claims, x.2 = f.slot →
      (s.setFill none).emptyFillFinal f = .known (f.target - 1) := fun x hx hxf => by
    obtain ⟨hxs, hlt⟩ := hbelow x hx
    have hfst := h.first_lt hxs hlt
    rw [hxf] at hfst
    rw [State.claims_setFill, Option.toList_none, List.map_nil, List.append_nil] at hx
    obtain ⟨d, hd, rfl⟩ := List.mem_map.mp hx
    exact if_pos ⟨hfst, .inr (List.any_eq_true.mpr ⟨d, hd, by simpa [Draft.claim] using hxf⟩)⟩
  refine State.InOrder.reportExhausted (State.InOrder.of_standing (h.setFill_none.setFinal (fun q hq => ?_) fun x hx hxf => ?_)
    (State.standing_handSkipped _ f)) f.slot
  · exact Final.allows_of_le (hclaims.fill_allowed hf) (State.emptyFillFinal_allows hq)
  · rw [hmine x hx hxf, Final.allows, decide_eq_true_eq]
    have := (hbelow x hx).2
    omega

theorem State.InOrder.fillComplete (h : s.InOrder audited) (ht : execFillComplete s = .next t) : t.InOrder audited := by
  unfold execFillComplete at ht
  cases hf : s.queue.fill with
  | none =>
    rw [hf] at ht
    cases ht
    exact h
  | some f =>
    rw [hf] at ht
    dsimp only at ht
    split_ifs at ht
    · cases next_inj ht; exact h
    · cases next_inj ht; exact (h.fillMakesDraft hf).settle
    · cases next_inj ht; exact (h.fillFindsNothing hf).settle

end

end Sys2Proof.Machine
end
section
/-! Closures keep the run in order and the tallies in balance (O58, O59: R80, R97, R100, R102, R132, R156). -/

namespace Sys2Proof.Machine

section
variable {s t : State} {audited : Prop}

/-! ### The record held for a repeat -/

theorem State.record_mem {r : Nat} {x : Record} (h : s.record r = some x) : x ∈ s.window.records ∧ x.repeatIndex = r :=
  ⟨List.mem_of_find?_eq_some h, by simpa using List.find?_some h⟩

/-- Records ascend, so two records for one repeat are one. -/
theorem Window.ok.record_unique {w : Window} (h : w.ok) {x y : Record} (hx : x ∈ w.records) (hy : y ∈ w.records)
    (he : x.repeatIndex = y.repeatIndex) : x = y := by
  obtain ⟨i, hi, rfl⟩ := List.mem_iff_getElem.mp hx
  obtain ⟨j, hj, rfl⟩ := List.mem_iff_getElem.mp hy
  rcases Nat.lt_trichotomy i j with hlt | rfl | hlt
  · have := List.pairwise_iff_getElem.mp h.1 i j hi hj hlt
    omega
  · rfl
  · have := List.pairwise_iff_getElem.mp h.1 j i hj hi hlt
    omega

theorem State.record_of_mem (h : s.window.ok) {x : Record} (hx : x ∈ s.window.records) : s.record x.repeatIndex = some x := by
  cases hr : s.record x.repeatIndex with
  | none => exact absurd hx fun hx => by simpa using List.find?_eq_none.mp hr x hx
  | some y =>
    obtain ⟨hy, he⟩ := State.record_mem hr
    rw [h.record_unique hy hx he]

/-- Putting `y` in place of the one record with its repeat moves a sum over the records by what they weigh. -/
theorem sum_map_replace (g : Record → Nat) (y : Record) : ∀ {l : List Record} {x : Record},
    l.Pairwise (fun a b => a.repeatIndex < b.repeatIndex) → x ∈ l →
    ((l.map fun z => if z.repeatIndex = x.repeatIndex then y else z).map g).sum + g x = (l.map g).sum + g y
  | a :: l, x, hp, hx => by
    obtain ⟨ha, hl⟩ := List.pairwise_cons.mp hp
    simp only [List.map_cons, List.sum_cons]
    by_cases hax : a.repeatIndex = x.repeatIndex
    · have hrest : (l.map fun z => if z.repeatIndex = x.repeatIndex then y else z) = l := by
        refine (List.map_congr_left fun z hz => if_neg ?_).trans (List.map_id _)
        have := ha z hz
        omega
      have hxa : x = a := by
        rcases List.mem_cons.mp hx with e | hxl
        · exact e
        · have := ha x hxl
          omega
      rw [if_pos hax, hrest, hxa]
      omega
    · rw [if_neg hax]
      have := sum_map_replace g y hl ((List.mem_cons.mp hx).resolve_left fun e => hax (e ▸ rfl))
      omega

/-! ### One count for each numbered position (R100) -/

/-- The outcome counts once, in the column `c` of the tally that its kind names. -/
theorem settleOutcome_counted (kind : Closure) (plan served lost : PlySet) (p : Position) (code : Byte) :
    let o := settleOutcome kind plan served lost p code
    (decide (o = .delivered)).toNat + o.isStation.toNat + o.isReader.toNat + (decide (o = .unverified)).toNat +
      (decide (o = .aborted)).toNat = 1 := by
  have hverdict : ∀ o, o = .delivered ∨ verdictOf code = some o → (decide (o = PosOutcome.delivered)).toNat + o.isStation.toNat +
      o.isReader.toNat + (decide (o = PosOutcome.unverified)).toNat + (decide (o = PosOutcome.aborted)).toNat = 1 := by
    rintro o (rfl | h)
    · decide
    · unfold verdictOf at h
      split_ifs at h <;> cases h <;> decide
  unfold settleOutcome
  split_ifs
  · decide
  · decide
  · decide
  · decide
  · decide
  · refine hverdict _ ?_
    cases verdictOf code <;> simp
  · decide

/-- Where each item that counts falls into one of five columns, the columns add up. -/
theorem countP_columns {α : Type} (n f₁ f₂ f₃ f₄ f₅ : α → Bool) : ∀ l : List α,
    (∀ x ∈ l, n x = true → (f₁ x).toNat + (f₂ x).toNat + (f₃ x).toNat + (f₄ x).toNat + (f₅ x).toNat = 1) →
    l.countP (fun x => n x && f₁ x) + l.countP (fun x => n x && f₂ x) + l.countP (fun x => n x && f₃ x) +
      l.countP (fun x => n x && f₄ x) + l.countP (fun x => n x && f₅ x) = l.countP n
  | [], _ => rfl
  | x :: l, h => by
    have hx := h x List.mem_cons_self
    have := countP_columns n f₁ f₂ f₃ f₄ f₅ l fun y hy => h y (List.mem_cons_of_mem x hy)
    have hb : ∀ b : Bool, (if b = true then 1 else 0) = b.toNat := by decide
    simp only [List.countP_cons, hb]
    cases hn : n x with
    | true =>
      simp only [Bool.true_and, Bool.toNat_true]
      have := hx hn
      omega
    | false =>
      simp only [Bool.false_and, Bool.toNat_false]
      omega

/-- What the balance adds up beside the issued and the open. -/
def Tally.settledSum (t : Tally) : Nat :=
  t.delivered + t.voidStation + t.voidReader + t.voidUnverified + t.voidAborted + t.postVoided

theorem State.balanced_iff_settledSum (s : State) (i : SlotId) : s.balanced i ↔
    ((s.slot i).state ≠ .free → (s.slot i).tally.issued = (s.slot i).tally.settledSum + s.openCount i) := Iff.rfl

theorem Record.close_positions (kind : Closure) (plan : PlySet) (codes : Bytes) (x : Record) :
    (x.close kind plan codes).positions = x.positions.mapIdx fun i p => p.settled kind plan x.served x.lost (codes.getD i 0) := rfl

theorem Record.numbered_close (kind : Closure) (plan : PlySet) (codes : Bytes) (x : Record) :
    (x.close kind plan codes).numbered = x.numbered := by
  have : (x.close kind plan codes).positions.map Position.numbered = x.positions.map Position.numbered := by
    refine List.ext_getElem (by simp [Record.close_positions]) fun i _ _ => ?_
    simp only [Record.close_positions, List.getElem_map, List.getElem_mapIdx]
    rfl
  have hcount : ∀ l : List Position, l.countP Position.numbered = (l.map Position.numbered).countP id := fun l => by
    rw [List.countP_map]
    rfl
  rw [Record.numbered, Record.numbered, hcount, this, ← hcount]

theorem Tally.closing_settledSum (kind : Closure) (plan : PlySet) (codes : Bytes) (x : Record) (t : Tally)
    (hu : (t.closing (x.close kind plan codes)).unsaturated) :
    t.unsaturated ∧ (t.closing (x.close kind plan codes)).settledSum = t.settledSum + x.numbered := by
  have hcols := countP_columns Position.numbered (fun p => decide (p.outcome = .delivered)) (fun p => p.outcome.isStation)
    (fun p => p.outcome.isReader) (fun p => decide (p.outcome = .unverified)) (fun p => decide (p.outcome = .aborted))
    (x.close kind plan codes).positions fun p hp hn => by
      rw [Record.close_positions] at hp
      obtain ⟨i, hi, rfl⟩ := List.mem_mapIdx.mp hp
      have hn' : x.positions[i].numbered = true := hn
      rw [Position.settled, if_pos hn']
      exact settleOutcome_counted kind _ _ _ _ _
  rw [show (x.close kind plan codes).positions.countP Position.numbered = x.numbered from Record.numbered_close kind plan codes x] at hcols
  obtain ⟨h1, h2, h3, h4, h5, h6, h7⟩ := hu
  obtain ⟨e2, l2⟩ := satAdd_of_lt h2
  obtain ⟨e3, l3⟩ := satAdd_of_lt h3
  obtain ⟨e4, l4⟩ := satAdd_of_lt h4
  obtain ⟨e5, l5⟩ := satAdd_of_lt h5
  obtain ⟨e6, l6⟩ := satAdd_of_lt h6
  refine ⟨⟨h1, l2, l3, l4, l5, l6, h7⟩, ?_⟩
  dsimp only at e2 e3 e4 e5 e6
  unfold Tally.settledSum Tally.closing
  dsimp only
  rw [e2, e3, e4, e5, e6]
  omega

/-! ### The record leaves AWAITING (R80, R100) -/

/-- Claims and first repeats read the queue, the lowest repeat and of each slot all but its tally. -/
theorem State.runOk_congr (h : s.runOk) (hs : ∀ k, (t.slot k).state = (s.slot k).state ∧ (t.slot k).change = (s.slot k).change ∧
    (t.slot k).first = (s.slot k).first ∧ (t.slot k).final = (s.slot k).final) (hc : t.claims = s.claims) (hl : t.lowest = s.lowest)
    (hu : t.unappendedOk) : t.runOk := by
  refine ⟨h.1.of_same hl (hc ▸ List.prefix_rfl) (State.ownerOf_congr (State.runningSlot_congr fun k => by rw [(hs k).1])
    (State.staged_congr fun k => (hs k).2.1) fun k => (hs k).2.2.2), fun k hk => ?_, hu⟩
  rw [(hs k).1] at hk
  rw [(hs k).2.2.1, hl]
  exact h.2.1 k hk

theorem State.settleRecord_records (s : State) (closed : Record) : (s.settleRecord closed).window.records =
    s.window.records.map fun x => if x.repeatIndex = closed.repeatIndex then closed else x := by
  simp [State.settleRecord, State.modRecord]

theorem State.settleRecord_slot (s : State) (closed : Record) (k : SlotId) : (s.settleRecord closed).slot k =
    if k = closed.slot then { s.slot k with tally := (s.slot k).tally.closing closed } else s.slot k := by
  unfold State.settleRecord
  rw [State.mapPorts_slot, State.modSlot_slot, State.modRecord_slot, State.modRecord_slot]
  split_ifs with hk
  · rw [hk]
  · rfl

/-- What a record adds to the open count of slot `i` (R156). -/
def Record.openFor (i : SlotId) (x : Record) : Nat := if x.closure = .awaiting ∧ x.slot = i then x.numbered else 0

/-- The open count as a sum over all records. -/
theorem State.openCount_sum (s : State) (i : SlotId) : s.openCount i = (s.window.records.map (Record.openFor i)).sum := by
  rw [State.openCount, State.awaiting, List.filter_filter]
  induction s.window.records with
  | nil => rfl
  | cons x l ih =>
    by_cases h : x.closure = .awaiting ∧ x.slot = i
    · rw [List.filter_cons_of_pos (by simpa [and_comm] using h)]
      simp [Record.openFor, h, ih]
    · rw [List.filter_cons_of_neg (by simpa [and_comm] using h)]
      simp [Record.openFor, h, ih]

theorem State.openCount_settleRecord (hw : s.window.ok) {x closed : Record} (hx : x ∈ s.window.records) (ha : x.closure = .awaiting)
    (hr : closed.repeatIndex = x.repeatIndex) (hc : closed.closure ≠ .awaiting) (i : SlotId) :
    (s.settleRecord closed).openCount i + (if x.slot = i then x.numbered else 0) = s.openCount i := by
  rw [State.openCount_sum, State.openCount_sum, State.settleRecord_records, hr]
  have := sum_map_replace (Record.openFor i) closed hw.1 hx
  rw [show closed.openFor i = 0 from if_neg fun h => hc h.1] at this
  simpa [Record.openFor, ha] using this

section
variable {x : Record} {kind : Closure} {codes : Bytes} {plan : PlySet}

theorem State.balance_settleRecord (h : s.InOrder audited) (hx : x ∈ s.window.records) (ha : x.closure = .awaiting)
    (hk : kind ≠ .awaiting) : audited → ∀ i, ((s.settleRecord (x.close kind plan codes)).slot i).tally.unsaturated →
      (s.settleRecord (x.close kind plan codes)).balanced i := by
  intro haud i hu
  have hopen := State.openCount_settleRecord (closed := x.close kind plan codes) h.window hx ha rfl hk i
  rw [State.settleRecord_slot] at hu
  rw [State.balanced_iff_settledSum, State.settleRecord_slot]
  by_cases hi : i = (x.close kind plan codes).slot
  · rw [if_pos hi] at hu ⊢
    obtain ⟨hu', hsum⟩ := Tally.closing_settledSum kind plan codes x _ hu
    have hb := (s.balanced_iff_settledSum i).mp (h.balance haud i hu')
    rw [if_pos (show x.slot = i from hi.symm)] at hopen
    intro hfree
    have he := hb hfree
    refine (show (s.slot i).tally.issued = _ from he).trans ?_
    rw [hsum]
    omega
  · rw [if_neg hi] at hu ⊢
    rw [if_neg fun e : x.slot = i => hi e.symm] at hopen
    rw [show (s.settleRecord (x.close kind plan codes)).openCount i = s.openCount i from hopen]
    exact h.balance haud i hu

/-- A record that closes keeps the run in order; its own REPEAT item is still to come. -/
theorem State.InOrder.settleRecord (h : s.InOrder audited) (hx : x ∈ s.window.records) (ha : x.closure = .awaiting)
    (hk : kind ≠ .awaiting) : (s.settleRecord (x.close kind plan codes)).InOrder audited := by
  obtain ⟨hrun, hrecords⟩ := h.runOk
  generalize hc : x.close kind plan codes = closed
  have hcx : closed.repeatIndex = x.repeatIndex ∧ closed.slot = x.slot := by rw [← hc]; exact ⟨rfl, rfl⟩
  have hmem : ∀ y ∈ (s.settleRecord closed).window.records, ∃ z ∈ s.window.records, z.slot = y.slot := fun y hy => by
    rw [State.settleRecord_records] at hy
    obtain ⟨z, hz, rfl⟩ := List.mem_map.mp hy
    split_ifs with hzc
    · exact ⟨x, hx, hcx.2.symm⟩
    · exact ⟨z, hz, rfl⟩
  have hacc : (s.settleRecord closed).account = s.account := by simp [State.settleRecord]
  have hsame : ∀ k, ((s.settleRecord closed).slot k).state = (s.slot k).state ∧ ((s.settleRecord closed).slot k).change = (s.slot k).change ∧
      ((s.settleRecord closed).slot k).first = (s.slot k).first ∧ ((s.settleRecord closed).slot k).final = (s.slot k).final := fun k => by
    rw [State.settleRecord_slot]
    split_ifs <;> exact ⟨rfl, rfl, rfl, rfl⟩
  refine h.of_moves (hc ▸ Moves.settleRecord s x kind plan codes (State.record_of_mem h.window hx) ha)
    (State.booksOk_of_runOk (State.runOk_congr hrun hsame (by simp [State.claims, State.settleRecord])
      (State.lowest_congr (by simp [State.settleRecord]) (by simp [State.settleRecord]) (by simp [State.settleRecord, State.modRecord]))
      ⟨?_, fun r hr => ?_⟩) fun y hy => ?_)
    (hc ▸ State.balance_settleRecord h hx ha hk)
  · have e : (s.settleRecord closed).unappended = s.unappended := by simp [State.unappended, State.settleRecord, State.modRecord]
    rw [e]
    exact hrun.2.2.1
  · have e : (s.settleRecord closed).unappended = s.unappended := by simp [State.unappended, State.settleRecord, State.modRecord]
    rw [e] at hr
    obtain ⟨y, hy, hyr, hyc⟩ := hrun.2.2.2 r hr
    refine ⟨y, ?_, hyr, hyc⟩
    rw [State.settleRecord_records]
    refine List.mem_map.mpr ⟨y, hy, if_neg fun e => hyc ?_⟩
    rw [h.window.record_unique hy hx (e.trans hcx.1)]
    exact ha
  · obtain ⟨z, hz, hzy⟩ := hmem y hy
    obtain ⟨h1, h2⟩ := hrecords z hz
    rw [← hzy, (hsame _).1, hacc]
    exact ⟨h1, h2⟩

/-- A record that has just closed stands closed in the window, and nothing of it waited. -/
theorem State.settleRecord_closed (h : s.InOrder audited) (hx : x ∈ s.window.records) (ha : x.closure = .awaiting)
    (hk : kind ≠ .awaiting) : x.repeatIndex ∉ (s.settleRecord (x.close kind plan codes)).unappended ∧
      ∃ y ∈ (s.settleRecord (x.close kind plan codes)).window.records, y.repeatIndex = x.repeatIndex ∧ y.closure ≠ .awaiting := by
  refine ⟨fun hr => ?_, x.close kind plan codes, ?_, rfl, hk⟩
  · have e : (s.settleRecord (x.close kind plan codes)).unappended = s.unappended := by
      simp [State.unappended, State.settleRecord, State.modRecord]
    rw [e] at hr
    obtain ⟨y, hy, hyr, hyc⟩ := h.runOk.1.2.2.2 _ hr
    exact hyc (h.window.record_unique hy hx hyr ▸ ha)
  · rw [State.settleRecord_records]
    exact List.mem_map.mpr ⟨x, hx, if_pos rfl⟩

end

/-! ### What waits to be appended (R102, R132) -/

/-- A closure in progress or a REPEAT item comes, goes or changes place. -/
theorem State.InOrder.of_unappended (h : s.InOrder audited) (hm : Moves s s t) (hs : ∀ k, t.slot k = s.slot k)
    (hq : t.queue = s.queue) (hp : t.plan = s.plan) (hn : t.window.newest = s.window.newest) (hr : t.window.records = s.window.records)
    (hj : ∀ i, t.account.queue.any (Item.isJobEndOf i) = s.account.queue.any (Item.isJobEndOf i)) (hu : t.unappendedOk) :
    t.InOrder audited := by
  obtain ⟨hrun, hrecords⟩ := h.runOk
  refine h.of_moves hm (State.booksOk_of_runOk (State.runOk_congr hrun (fun k => by rw [hs]; exact ⟨rfl, rfl, rfl, rfl⟩)
    (by rw [State.claims, State.claims, hq]) (State.lowest_congr hp (by rw [hq]) hn) hu) fun x hx => ?_)
    (State.balance_of_same h.balance (fun k => by rw [hs]; simp) (by rw [hr]))
  rw [hs, hj]
  exact hrecords x (hr ▸ hx)

theorem State.unappended_setClosing_none (s : State) (h : s.window.closing = none) (c : Closing) :
    (s.setClosing (some c)).unappended = c.repeatIndex :: s.unappended := by
  simp [State.unappended, State.setClosing, h]

theorem State.InOrder.enqueueRepeat (h : s.InOrder audited) {r : Nat} (hr : r ∉ s.unappended)
    (hx : ∃ x ∈ s.window.records, x.repeatIndex = r ∧ x.closure ≠ .awaiting) : (s.enqueue (.repeatItem r)).InOrder audited := by
  have hu := h.runOk.1.2.2
  have e : (s.enqueue (.repeatItem r)).unappended = s.unappended ++ [r] := by simp [State.unappended, State.enqueue]
  refine h.of_unappended (Moves.enqueueRepeat s r) (fun k => rfl) rfl rfl rfl rfl
    (fun i => by simp [State.enqueue, Item.isJobEndOf]) ⟨?_, fun q hq => ?_⟩
  · rw [e]
    exact List.nodup_append.mpr ⟨hu.1, List.nodup_singleton r, fun a ha b hb => by
      rw [List.mem_singleton.mp hb]
      exact fun e => hr (e ▸ ha)⟩
  · rw [e] at hq
    rcases List.mem_append.mp hq with hq | hq
    · exact hu.2 q hq
    · rw [List.mem_singleton.mp hq]
      exact hx

theorem State.InOrder.setClosing (h : s.InOrder audited) {c : Option Closing}
    (hc : c.map Closing.repeatIndex = s.window.closing.map Closing.repeatIndex) : (s.setClosing c).InOrder audited := by
  refine h.of_standing ?_
  simp only [State.standing, State.setClosing, hc]
  rfl

theorem State.InOrder.closeRecord (h : s.InOrder audited) (r : Nat) {kind : Closure} (hk : kind ≠ .awaiting) (codes : Bytes) :
    (s.closeRecord r kind codes).InOrder audited := by
  unfold State.closeRecord
  split
  · exact h
  · rename_i x hx
    split_ifs with ha
    · exact h
    · rw [not_not] at ha
      obtain ⟨hmem, -⟩ := State.record_mem hx
      dsimp only
      obtain ⟨hn, hcl⟩ := State.settleRecord_closed (plan := s.plan.plySet) (codes := codes) h hmem ha hk
      have hi := (h.settleRecord (plan := s.plan.plySet) (codes := codes) hmem ha hk).of_standing
        (State.standing_insertValues _ (x.close kind s.plan.plySet codes).voided)
      refine hi.enqueueRepeat ?_ ?_
      · rw [State.unappended_of_standing (State.standing_insertValues _ _)]
        exact hn
      · rw [State.insertValues_window]
        exact hcl

theorem State.InOrder.beginClosing (h : s.InOrder audited) (hn : s.window.closing = none) (r : Nat) {kind : Closure}
    (hk : kind ≠ .awaiting) (codes : Bytes) : (s.beginClosing r kind codes).InOrder audited := by
  unfold State.beginClosing
  split
  · exact h
  · rename_i x hx
    split_ifs with ha
    · exact h
    · rw [not_not] at ha
      obtain ⟨hmem, -⟩ := State.record_mem hx
      dsimp only
      obtain ⟨hnot, hcl⟩ := State.settleRecord_closed (plan := s.plan.plySet) (codes := codes) h hmem ha hk
      have hi := h.settleRecord (plan := s.plan.plySet) (codes := codes) hmem ha hk
      have hcn : (s.settleRecord (x.close kind s.plan.plySet codes)).window.closing = none := by
        simpa [State.settleRecord, State.modRecord] using hn
      have e := State.unappended_setClosing_none _ hcn
        { repeatIndex := (x.close kind s.plan.plySet codes).repeatIndex, values := (x.close kind s.plan.plySet codes).voided }
      refine hi.of_unappended (Moves.setClosing _ _) (fun k => rfl) rfl rfl rfl rfl (fun i => rfl) ⟨?_, fun q hq => ?_⟩
      · rw [e]
        exact List.nodup_cons.mpr ⟨hnot, hi.runOk.1.2.2.1⟩
      · rw [e] at hq
        rcases List.mem_cons.mp hq with rfl | hq
        · exact hcl
        · exact hi.runOk.1.2.2.2 q hq

@[simp] theorem State.standing_endHandling (s : State) : s.endHandling.standing = s.standing := rfl

@[simp] theorem State.standing_setLastVerdict (s : State) (r : Nat) : (s.setLastVerdict r).standing = s.standing := rfl

theorem State.InOrder.endClosing (h : s.InOrder audited) {c : Closing} (hc : s.window.closing = some c) :
    (s.endClosing c.repeatIndex).InOrder audited := by
  have hu := h.runOk.1.2.2
  have e : ((s.setClosing none).enqueue (.repeatItem c.repeatIndex)).unappended.Perm s.unappended := by
    simp [State.unappended, State.setClosing, State.enqueue, hc]
  have key : ((s.setClosing none).enqueue (.repeatItem c.repeatIndex)).InOrder audited := by
    refine h.of_unappended ((Moves.setClosing _ _).trans (Moves.enqueueRepeat _ _)) (fun k => rfl) rfl rfl rfl rfl
      (fun i => by simp [State.setClosing, State.enqueue, Item.isJobEndOf]) ⟨e.nodup_iff.mpr hu.1, fun q hq => hu.2 q (e.mem_iff.mp hq)⟩
  unfold State.endClosing
  dsimp only
  split_ifs
  · exact key.of_standing rfl
  · exact key

theorem State.InOrder.takeInsertions (h : s.InOrder audited) (inserts : Option Nat) : (s.takeInsertions inserts).InOrder audited := by
  unfold State.takeInsertions
  split
  · exact h
  · rename_i c hc
    dsimp only
    have hi := h.of_standing (State.standing_insertValues s (c.values.take (inserts.getD c.values.length)))
    have hci : (s.insertValues (c.values.take (inserts.getD c.values.length))).window.closing = some c := by
      rw [State.insertValues_window, hc]
    split_ifs
    · exact hi.endClosing hci
    · exact hi.setClosing (by rw [hci]; rfl)

theorem State.InOrder.finishClosing (h : s.InOrder audited) : s.finishClosing.InOrder audited := h.takeInsertions none

theorem State.InOrder.abortAll (h : s.InOrder audited) : s.abortAll.InOrder audited := by
  unfold State.abortAll
  induction s.awaiting.map Record.repeatIndex generalizing s with
  | nil => exact h
  | cons r l ih => exact ih (h.closeRecord r (kind := .aborted) (by decide) [])

theorem State.InOrder.closeUnverified (h : s.InOrder audited) {inserts : Option Nat} (ht : execCloseUnverified s inserts = .next t) :
    t.InOrder audited := by
  unfold execCloseUnverified at ht
  split at ht
  · cases next_inj ht; exact h.takeInsertions inserts
  · cases next_inj ht; exact h
  · rename_i hn _
    split at ht
    · cases next_inj ht; exact h
    · cases next_inj ht
      exact (h.beginClosing hn _ (by decide) _).takeInsertions inserts

theorem State.InOrder.frameVerdict (h : s.InOrder audited) {inserts : Option Nat} (ht : execFrameVerdict s inserts = .next t) :
    t.InOrder audited := by
  unfold execFrameVerdict at ht
  split at ht
  · cases next_inj ht; exact h.takeInsertions inserts
  · cases next_inj ht; exact h
  · rename_i f hn _
    split at ht
    · cases next_inj ht; exact h
    · cases next_inj ht
      unfold State.frameVerdict
      split
      · split_ifs
        · exact h.of_standing (State.standing_raise _ .readerDiscard)
        · exact (h.beginClosing hn _ (by decide) _).takeInsertions inserts
        · exact h.of_standing rfl
      · exact h.of_standing rfl

end

end Sys2Proof.Machine
end
section
/-! Appends, releases and post-voids keep the run in order (O58, O59: R81, R122, R123, R148, R149, R153, R159). -/

namespace Sys2Proof.Machine

section
variable {s t : State} {audited : Prop}

/-! ### A record leaves (R81) -/

/-- Closed records that leave add nothing to an open count. -/
theorem State.openCount_dropRecord {r : Nat} (h : ∀ x ∈ s.window.records, x.repeatIndex = r → x.closure ≠ .awaiting) (i : SlotId) :
    (s.dropRecord r).openCount i = s.openCount i := by
  have hrec : (s.dropRecord r).window.records = s.window.records.filter fun x => x.repeatIndex ≠ r := by
    simp [State.dropRecord, State.checkWindowHigh]
  rw [State.openCount_sum, State.openCount_sum, hrec]
  clear hrec
  generalize s.window.records = records at h ⊢
  induction records with
  | nil => rfl
  | cons x l ih =>
    have ih := ih fun y hy => h y (List.mem_cons_of_mem x hy)
    by_cases hx : x.repeatIndex = r
    · rw [List.filter_cons_of_neg (by simpa using hx), ih, List.map_cons, List.sum_cons]
      rw [show x.openFor i = 0 from if_neg fun e => h x List.mem_cons_self hx e.1]
      omega
    · rw [List.filter_cons_of_pos (by simpa using hx), List.map_cons, List.map_cons, List.sum_cons, List.sum_cons, ih]

theorem State.InOrder.dropRecord (h : s.InOrder audited) {r : Nat} (hr : r ∉ s.unappended)
    (hc : ∀ x ∈ s.window.records, x.repeatIndex = r → x.closure ≠ .awaiting) : (s.dropRecord r).InOrder audited := by
  obtain ⟨hrun, hrecords⟩ := h.runOk
  have hrec : (s.dropRecord r).window.records = s.window.records.filter fun x => x.repeatIndex ≠ r := by
    simp [State.dropRecord, State.checkWindowHigh]
  have hslot : ∀ k, (s.dropRecord r).slot k = s.slot k := fun k => by
    rw [State.dropRecord, State.checkWindowHigh_slot]
    exact State.slot_congr rfl rfl k
  have hacc : (s.dropRecord r).account = s.account := by simp [State.dropRecord]
  have hun : (s.dropRecord r).unappended = s.unappended := by simp [State.unappended, State.dropRecord, State.checkWindowHigh]
  refine h.of_moves (Moves.dropRecord s r) (State.booksOk_of_runOk (State.runOk_congr hrun (fun k => by rw [hslot]; exact ⟨rfl, rfl, rfl, rfl⟩)
    (by simp [State.claims, State.dropRecord]) (State.lowest_congr (by simp [State.dropRecord]) (by simp [State.dropRecord])
      (by simp [State.dropRecord, State.checkWindowHigh])) ⟨hun ▸ hrun.2.2.1, fun q hq => ?_⟩) fun x hx => ?_)
    fun ha i => State.audit_congr (by rw [hslot]) (by rw [hslot]) (State.openCount_dropRecord hc i) (h.balance ha i)
  · rw [hun] at hq
    obtain ⟨x, hx, hxq, hxc⟩ := hrun.2.2.2 q hq
    refine ⟨x, hrec ▸ List.mem_filter.mpr ⟨hx, ?_⟩, hxq, hxc⟩
    simp only [ne_eq, decide_not, Bool.not_eq_eq_eq_not, Bool.not_true, decide_eq_false_iff_not]
    exact fun e => hr (by rwa [← e, hxq])
  · rw [hslot, hacc]
    exact hrecords x (List.mem_of_mem_filter (hrec ▸ hx))

theorem State.InOrder.recordLeaves (h : s.InOrder audited) {r : Nat} (hr : r ∉ s.unappended)
    (hc : ∀ x ∈ s.window.records, x.repeatIndex = r → x.closure ≠ .awaiting) : (s.recordLeaves r).InOrder audited := by
  unfold State.recordLeaves
  split
  · exact h
  · dsimp only
    have hd := h.dropRecord hr hc
    split_ifs
    · exact (hd.openReady.retakeHeld).queueJobEnd _
    · exact (hd.retakeHeld).queueJobEnd _

/-! ### An item leaves the pending queue (R149) -/

theorem State.unappended_of_items (s : State) {t : State} {it : Item} {rest : List Item} (hq : s.account.queue = it :: rest)
    (hw : t.window.closing = s.window.closing) (ht : t.account.queue = rest) :
    (∀ r, it = .repeatItem r → s.unappended.Perm (r :: t.unappended)) ∧ ((∀ r, it ≠ .repeatItem r) → s.unappended = t.unappended) := by
  refine ⟨fun r e => ?_, fun hn => ?_⟩
  · subst e
    simp [State.unappended, hq, ht, hw]
  · cases it with
    | repeatItem r => exact absurd rfl (hn r)
    | jobStart => simp [State.unappended, hq, ht, hw]
    | jobEnd => simp [State.unappended, hq, ht, hw]
    | postVoid => simp [State.unappended, hq, ht, hw]

/-- The ring takes the front item, when it is no JOB_END. -/
theorem State.InOrder.appended (h : s.InOrder audited) {it : Item} {rest : List Item} {at' : Nat} (hq : s.account.queue = it :: rest)
    (hd : s.account.due = true) (hp : s.account.place (s.itemBytes it).length = some at') (hi : ∀ i, it.isJobEndOf i = false) :
    (s.appended at' (s.itemBytes it) rest).InOrder audited := by
  have hu := h.runOk.1.2.2
  obtain ⟨hrep, hother⟩ := s.unappended_of_items (t := s.appended at' (s.itemBytes it) rest) hq rfl rfl
  refine h.of_unappended (Moves.one (.append s it rest at' hq hd hp hi)) (fun k => by simp) rfl rfl rfl rfl (fun i => ?_) ?_
  · rw [hq, List.any_cons, hi, Bool.false_or]
    rfl
  · by_cases hr : ∃ r, it = .repeatItem r
    · obtain ⟨r, rfl⟩ := hr
      have hperm := hrep r rfl
      exact ⟨(List.nodup_cons.mp (hperm.nodup_iff.mp hu.1)).2, fun q hq => hu.2 q (hperm.mem_iff.mpr (List.mem_cons_of_mem r hq))⟩
    · have e := hother fun r er => hr ⟨r, er⟩
      unfold State.unappendedOk at hu
      rw [e] at hu
      exact hu

/-- The JOB_END of a slot is appended: the slot has no record and becomes ENDED (R123). -/
theorem State.InOrder.appendedEnd (h : s.InOrder audited) {i : SlotId} {bs : Bytes} {rest : List Item} {at' : Nat}
    (hq : s.account.queue = .jobEnd i bs :: rest) (hd : s.account.due = true) (hp : s.account.place bs.length = some at') :
    (((s.appended at' bs rest).modSlot i fun j => { j with state := .ended }).stopTimers).InOrder audited := by
  obtain ⟨hrun, hrecords⟩ := h.runOk
  generalize ht : ((s.appended at' bs rest).modSlot i fun j => { j with state := .ended }).stopTimers = t
  have hm : Moves s s t := ht ▸ Moves.one (.appendEnd s i bs rest at' hq hd hp)
  have hany : s.account.queue.any (Item.isJobEndOf i) = true := by simp [hq, Item.isJobEndOf]
  have hdrain : (s.slot i).state = .draining := (h.slots.2 i).2.2.2 hany
  have hslot : ∀ k, t.slot k = if k = i then { s.slot k with state := .ended } else s.slot k := fun k => by
    rw [← ht, State.stopTimers_slot, State.modSlot_slot]
    have : ∀ k, (s.appended at' bs rest).slot k = s.slot k := State.slot_congr rfl rfl
    split_ifs with hk
    · rw [hk, this]
    · exact this k
  have hw : t.window = s.window := by rw [← ht]; simp [State.appended]
  have hqueue : t.queue = s.queue := by rw [← ht]; simp [State.appended]
  have hrest : t.account.queue = rest := by rw [← ht]; simp [State.appended]
  have hplan : t.plan = s.plan := by rw [← ht]; simp [State.appended]
  obtain ⟨-, hother⟩ := s.unappended_of_items (t := t) hq (by rw [hw]) hrest
  have hfree : ∀ k, ((t.slot k).state = .free ↔ (s.slot k).state = .free) ∧ (t.slot k).tally.balanceOf = (s.slot k).tally.balanceOf :=
    fun k => by
      rw [hslot]
      split_ifs with hk
      · subst hk; simp [hdrain]
      · exact ⟨Iff.rfl, rfl⟩
  have hsame : ∀ k, (t.slot k).change = (s.slot k).change ∧ (t.slot k).first = (s.slot k).first ∧ (t.slot k).final = (s.slot k).final :=
    fun k => by rw [hslot]; split_ifs <;> exact ⟨rfl, rfl, rfl⟩
  have hrunning : ∀ k, ((t.slot k).state = .running ↔ (s.slot k).state = .running) := fun k => by
    rw [hslot]
    split_ifs with hk
    · subst hk; simp [hdrain]
    · rfl
  have hlow : t.lowest = s.lowest := State.lowest_congr hplan (by rw [hqueue]) (by rw [hw])
  refine h.of_moves hm (State.booksOk_of_runOk ⟨?_, fun k hk => ?_, ?_⟩ fun x hx => ?_) (State.balance_of_same h.balance hfree (by rw [hw]))
  · refine hrun.1.of_same hlow (by rw [State.claims, State.claims, hqueue]) fun q => ?_
    exact State.ownerOf_congr (State.runningSlot_congr hrunning) (State.staged_congr fun k => (hsame k).1) (fun k => (hsame k).2.2) q
  · rw [hrunning] at hk
    rw [(hsame k).2.1, hlow]
    exact hrun.2.1 k hk
  · unfold State.unappendedOk
    rw [← hother fun r => nofun, hw]
    exact hrun.2.2
  · obtain ⟨h1, h2⟩ := hrecords x (hw ▸ hx)
    have hxi : x.slot ≠ i := fun e => by rw [e, hany] at h2; cases h2
    rw [hslot, if_neg hxi, hrest]
    rw [hq, List.any_cons, Bool.or_eq_false_iff] at h2
    exact ⟨h1, h2.2⟩

@[simp] theorem State.standing_modAccount (s : State) (a : Account) (h : a.queue = s.account.queue) :
    State.standing { s with account := a } = s.standing := by
  simp only [State.standing, h]
  rfl

theorem State.standing_modSlot_congr {i : SlotId} {f : JobSlot → JobSlot} (h : t.standing = s.standing)
    (hf : (f (t.slot i)).standing = (f (s.slot i)).standing) : (t.modSlot i f).standing = (s.modSlot i f).standing := by
  simp only [State.standing, Standing.mk.injEq] at h ⊢
  obtain ⟨h1, h2, h3, h4, h5, h6, h7, h8, h9⟩ := h
  cases i with
  | A => exact ⟨h1, hf, h3, h4, h5, h6, h7, h8, h9⟩
  | B => exact ⟨h1, h2, hf, h4, h5, h6, h7, h8, h9⟩

theorem State.InOrder.appendAttempt (h : s.InOrder audited) (hd : s.account.due = true) : s.appendAttempt.InOrder audited := by
  have hu := h.runOk.1.2.2
  unfold State.appendAttempt
  split
  · exact h.of_standing (State.standing_modAccount _ _ rfl)
  · rename_i it rest hq
    dsimp only
    split
    · exact h.of_standing ((State.standing_raiseIf _ _ _).trans (State.standing_modAccount _ _ rfl))
    · rename_i at' hp
      refine State.InOrder.of_standing ?_ (State.standing_markDue _)
      cases it with
      | repeatItem r =>
        have ha : (s.appended at' (s.itemBytes (.repeatItem r)) rest).InOrder audited := h.appended hq hd hp fun i => rfl
        have hperm := (s.unappended_of_items (t := s.appended at' (s.itemBytes (.repeatItem r)) rest) hq rfl rfl).1 r rfl
        have hc := ha.of_standing (State.standing_checkBufferHigh _)
        refine hc.recordLeaves (fun hr => ?_) fun x hx hxr => ?_
        · rw [State.unappended_of_standing (State.standing_checkBufferHigh _)] at hr
          exact (List.nodup_cons.mp (hperm.nodup_iff.mp hu.1)).1 hr
        · obtain ⟨y, hy, hyr, hyc⟩ := hu.2 r (hperm.mem_iff.mpr List.mem_cons_self)
          have hx' : x ∈ s.window.records := by simpa [State.appended] using hx
          rw [h.window.record_unique hx' hy (hxr.trans hyr.symm)]
          exact hyc
      | jobStart i bs =>
        exact (h.appended hq hd hp fun i => rfl).of_standing (State.standing_checkBufferHigh _)
      | postVoid bs =>
        exact (h.appended hq hd hp fun i => rfl).of_standing (State.standing_checkBufferHigh _)
      | jobEnd i bs =>
        refine (h.appendedEnd hq hd hp).of_standing ?_
        simp only [State.itemAppended, State.standing_stopTimers, State.standing_raise]
        have hcb := State.standing_checkBufferHigh (s.appended at' (s.itemBytes (.jobEnd i bs)) rest)
        exact State.standing_modSlot_congr hcb
          (congrArg (fun x : SlotStanding => { x with state := .ended }) (State.slot_standing hcb i))

theorem State.InOrder.appendAll (n : Nat) : ∀ {s : State}, s.InOrder audited → (appendAll n s).InOrder audited := by
  induction n with
  | zero => exact fun h => h
  | succ n ih =>
    intro s h
    unfold Machine.appendAll
    split_ifs with hd
    · exact ih (h.appendAttempt hd)
    · exact h

theorem State.InOrder.release (h : s.InOrder audited) : s.release.InOrder audited := by
  refine State.InOrder.appendAll _ (h.of_standing ?_)
  rw [State.standing_markDue, State.standing_checkBufferHigh]
  exact State.standing_modAccount _ _ rfl

/-! ### PVOD (R159) -/

/-- A post-void moves numbers from delivered to post-voided. -/
theorem State.balance_postVoid (hb : ∀ i, s.balanced i) {i : SlotId} {n : Nat} (hn : n ≤ (s.slot i).tally.delivered) (k : SlotId)
    (hu : ((s.modSlot i fun j => { j with tally := j.tally.postVoid n }).slot k).tally.unsaturated) :
    (s.modSlot i fun j => { j with tally := j.tally.postVoid n }).balanced k := by
  have hopen : ∀ f k, (s.modSlot i f).openCount k = s.openCount k := fun f k => by simp [State.openCount, State.awaiting]
  rw [State.balanced_iff_settledSum, hopen]
  have h0 := (s.balanced_iff_settledSum k).mp (hb k)
  rw [State.modSlot_slot] at hu ⊢
  by_cases hk : k = i
  · subst hk
    rw [if_pos rfl] at hu ⊢
    obtain ⟨-, -, -, -, -, -, h7⟩ := hu
    obtain ⟨e, -⟩ := satAdd_of_lt h7
    intro hfree
    have := h0 hfree
    unfold Tally.settledSum at this ⊢
    dsimp only [Tally.postVoid] at this e ⊢
    rw [e]
    omega
  · rw [if_neg hk] at hu ⊢
    exact h0

theorem State.InOrder.postVoid (h : s.InOrder audited) (hb : audited → ∀ i, s.balanced i) {i : SlotId} {tag lo hi operator : Nat}
    (hn : hi - lo + 1 ≤ (s.slot i).tally.delivered) : (s.postVoid i tag lo hi operator).InOrder audited := by
  obtain ⟨hrun, hrecords⟩ := h.runOk
  have hslot : ∀ k, ((s.modSlot i fun j => { j with tally := j.tally.postVoid (hi - lo + 1) }).slot k) =
      { s.slot k with tally := ((s.modSlot i fun j => { j with tally := j.tally.postVoid (hi - lo + 1) }).slot k).tally } := fun k => by
    rw [State.modSlot_slot]
    split_ifs with hk
    · rw [hk]
    · rfl
  have h1 : (s.modSlot i fun j => { j with tally := j.tally.postVoid (hi - lo + 1) }).InOrder audited := by
    refine ⟨by rw [State.modSlot_window]; exact h.window, State.slotsOk_of_same h.slots (fun k => ?_) (by simp), State.booksOk_of_runOk (State.runOk_congr hrun (fun k => ?_)
      (by simp [State.claims]) (State.lowest_congr (by simp) (by simp) (by simp))
      (State.unappendedOk_congr hrun.2.2 (by simp) (by simp))) fun x hx => ?_, fun ha k => State.balance_postVoid (hb ha) hn k⟩
    · rw [hslot k]; exact ⟨rfl, rfl, rfl, rfl⟩
    · rw [hslot k]; exact ⟨rfl, rfl, rfl, rfl⟩
    · rw [hslot x.slot, State.modSlot_account]
      exact hrecords x (by simpa using hx)
  have h2 := h1.of_standing (State.standing_insertRange _ lo hi)
  have h3 := h2.enqueue (it := .postVoid (postVoidBytes tag lo hi operator)) rfl fun k => nofun
  unfold State.postVoid
  dsimp only
  split_ifs with hq
  · refine h3.appendAttempt ?_
    simp [State.enqueue, List.isEmpty_iff.mp hq]
  · exact h3

end

end Sys2Proof.Machine
end
section
/-! The tasks keep the run in order (O58, O59: R7, R107, R111, R118, R119, R153, R159, R180, R189). -/

namespace Sys2Proof.Machine

section
variable {s t : State} {audited : Prop}

/-! ### Between runs -/

theorem State.ownerOf_none_of_idle (h : s.inRun = false) (q : Nat) : s.ownerOf q = none := by
  have hr : s.runningSlot = none := State.runningSlot_eq_none fun i e => by
    have := State.not_inRun h i
    rw [e] at this
    cases this
  rw [State.ownerOf, hr]

/-- Between runs nothing is drafted, held in the window or waiting to be appended from it. -/
theorem State.InOrder.idle (h : s.InOrder audited) (hr : s.inRun = false) :
    s.claims = [] ∧ s.window.records = [] ∧ s.unappended = [] := by
  obtain ⟨⟨hclaims, -, hunapp⟩, hrecords⟩ := h.runOk
  have hrec : s.window.records = [] := List.eq_nil_iff_forall_not_mem.mpr fun x hx => by
    have := (hrecords x hx).1
    rw [State.not_inRun hr] at this
    cases this
  refine ⟨List.eq_nil_iff_forall_not_mem.mpr fun x hx => ?_, hrec, List.eq_nil_iff_forall_not_mem.mpr fun r hr' => ?_⟩
  · have := hclaims.owned hx
    rw [State.ownerOf_none_of_idle hr] at this
    cases this
  · obtain ⟨x, hx, -⟩ := hunapp.2 r hr'
    rw [hrec] at hx
    cases hx

theorem State.unappendedOk_nil (h : s.unappended = []) : s.unappendedOk := by
  unfold State.unappendedOk
  rw [h]
  exact ⟨List.nodup_nil, nofun⟩

theorem State.openCount_nil (h : s.window.records = []) (i : SlotId) : s.openCount i = 0 := by
  simp [State.openCount, State.awaiting, h]

/-- A state with nothing drafted, no record and nothing waiting from the window is in order as far as its slots are. -/
theorem State.InOrder.of_empty (h : s.InOrder audited) (hm : Moves s s t) (hc : t.claims = []) (hw : t.window.records = [])
    (hu : t.unappended = []) (hf : t.firstOk) (hb : audited → ∀ i, (t.slot i).tally.unsaturated → t.balanced i) : t.InOrder audited :=
  h.of_moves hm (State.booksOk_of_runOk ⟨State.claimsOk_nil hc, hf, State.unappendedOk_nil hu⟩ fun x hx => by rw [hw] at hx; cases hx) hb

theorem State.firstOk_of_idle (h : t.inRun = false) : t.firstOk := fun i hi => by
  have := State.not_inRun h i
  rw [hi] at this
  cases this

/-! ### PLAN and RSET -/

theorem State.InOrder.storePlan (h : s.InOrder audited) {new : Plan} (hr : s.inRun = false)
    (hn : new = { s.plan with plies := [] } ∨ ∃ bs, planBlockOk bs = true ∧ new = planOf bs) : (s.storePlan new).InOrder audited := by
  obtain ⟨hc, hw, hu⟩ := h.idle hr
  exact h.of_empty (Moves.one (.plan s new hr hn)) hc hw hu (State.firstOk_of_idle hr) h.balance

theorem State.InOrder.runPlan (h : s.InOrder audited) (bs : Bytes) : (Machine.runPlan bs s).2.InOrder audited := by
  unfold Machine.runPlan
  split_ifs with hr h0 hok
  · exact h
  · exact h.storePlan (by simpa using hr) (.inl rfl)
  · exact h.storePlan (by simpa using hr) (.inr ⟨bs, hok, rfl⟩)
  · exact h

theorem State.InOrder.runRset (h : s.InOrder audited) (bs : Bytes) : (Machine.runRset bs s).2.InOrder audited := by
  unfold Machine.runRset
  split_ifs with hr
  · exact h
  · refine h.of_empty (Moves.one (.softReset s (by simpa using hr))) rfl rfl rfl (State.firstOk_of_idle rfl) fun _ i _ hfree => absurd ?_ hfree
    cases i <;> rfl

/-! ### LDJB -/

/-- Loading a slot that is not in the run changes no owner. -/
theorem State.ownerOf_load (h : s.slotsOk) {i : SlotId} {j : JobSlot} (hi : (s.slot i).state.loadable = true) (hj : j.state = .loaded)
    (hc : j.change = none) (q : Nat) : (s.modSlot i fun _ => j).ownerOf q = s.ownerOf q := by
  have hrun : (s.modSlot i fun _ => j).runningSlot = s.runningSlot := State.runningSlot_congr fun k => by
    rw [State.modSlot_slot]
    split_ifs with hk
    · rw [hj, hk]
      refine ⟨nofun, fun e => ?_⟩
      rw [e] at hi
      cases hi
    · rfl
  have hstaged : (s.modSlot i fun _ => j).staged = s.staged := State.staged_congr fun k => by
    rw [State.modSlot_slot]
    split_ifs with hk
    · subst hk
      rw [hc]
      cases hx : (s.slot k).change with
      | none => rfl
      | some rc =>
        rw [((h.2 k).2.1 rc hx).1] at hi
        cases hi
    · rfl
  have hby : ∀ k, k ≠ i → (s.modSlot i fun _ => j).ownedBy k q = s.ownedBy k q := fun k hk => by
    rw [State.ownedBy, State.ownedBy, State.modSlot_slot, if_neg hk]
  unfold State.ownerOf
  rw [hrun, hstaged]
  cases hr : s.runningSlot with
  | none => rfl
  | some k =>
    have hki : k ≠ i := fun e => by
      rw [← e, State.runningSlot_state hr] at hi
      cases hi
    cases hs : s.staged with
    | none => exact hby k hki
    | some z =>
      have hz : z.1 ≠ i := fun e => by
        rw [← e, (h.staged_slot (j := z.1) (rc := z.2) hs).2.1] at hi
        cases hi
      dsimp only
      rw [hby k hki, hby z.1 hz]

theorem State.InOrder.load (h : s.InOrder audited) {i : SlotId} {bs : Bytes} (hi : (s.slot i).state.loadable = true)
    (ht : jobTag bs ≠ 0) (hb : jobBlockOk bs = true) : (s.modSlot i fun _ => loadedJob bs).InOrder audited := by
  obtain ⟨⟨hclaims, hfirst, hunapp⟩, hrecords⟩ := h.runOk
  have hown := State.ownerOf_load h.slots hi (j := loadedJob bs) rfl rfl
  have hlow : (s.modSlot i fun _ => loadedJob bs).lowest = s.lowest := State.lowest_congr (by simp) (by simp) (by simp)
  have hne : ∀ x ∈ s.window.records, x.slot ≠ i := fun x hx e => by
    have := (hrecords x hx).1
    rw [e] at this
    cases hst : (s.slot i).state <;> rw [hst] at this hi <;> cases this <;> cases hi
  refine h.of_moves (Moves.one (.load i bs hi ht hb)) (State.booksOk_of_runOk ⟨?_, fun k hk => ?_, State.unappendedOk_congr hunapp (by simp)
    (by simp)⟩ fun x hx => ?_) fun ha k hu => ?_
  · exact hclaims.of_same hlow (by simp [State.claims]) hown
  · rw [State.modSlot_slot] at hk ⊢
    split_ifs at hk ⊢ with hki
    · cases hk
    · rw [hlow]; exact hfirst k hk
  · rw [State.modSlot_window] at hx
    rw [State.modSlot_slot, if_neg (hne x hx), State.modSlot_account]
    exact hrecords x hx
  · have hopen : (s.modSlot i fun _ => loadedJob bs).openCount k = s.openCount k := by simp [State.openCount, State.awaiting]
    rw [State.modSlot_slot] at hu
    rw [State.balanced_iff_settledSum, State.modSlot_slot, hopen]
    split_ifs at hu ⊢ with hki
    · intro _
      have hzero : s.openCount i = 0 := by
        rw [State.openCount_sum, List.sum_eq_zero_iff]
        intro n hn
        obtain ⟨x, hx, rfl⟩ := List.mem_map.mp hn
        exact if_neg fun e => hne x hx e.2
      rw [hki, hzero]
      rfl
    · exact h.balance ha k hu

theorem State.loadRefusal_none {i : SlotId} {bs : Bytes} (h : s.loadRefusal i bs = none) : jobTag bs ≠ 0 ∧ jobBlockOk bs = true := by
  unfold State.loadRefusal at h
  split_ifs at h with h1 h2
  exact ⟨fun e => h1 (.inl e), by simpa using h2⟩

theorem State.InOrder.runLdjb (h : s.InOrder audited) (bs : Bytes) : (Machine.runLdjb bs s).2.InOrder audited := by
  unfold Machine.runLdjb
  split_ifs
  · exact h
  · split
    · exact h
    · rename_i i hi
      split
      · exact h
      · rename_i hr
        obtain ⟨ht, hb⟩ := State.loadRefusal_none hr
        exact h.load (State.slotToLoad_loadable hi) ht hb

/-! ### STRT, SWAP, STOP, QUIT -/

theorem State.InOrder.startRun (h : s.InOrder audited) {i : SlotId} (hp : s.plan.plies ≠ []) (hr : s.inRun = false)
    (hi : (s.slot i).state = .loaded) : (s.startRun i).InOrder audited := by
  obtain ⟨-, hw, hu⟩ := h.idle hr
  have hslot := s.startRunBase_slot i
  have hbase : (s.startRunBase i).InOrder audited := by
    refine h.of_empty (Moves.one (.strt s i hp hr hi)) (by simp [State.claims, DraftQueue.empty]) (by simp [Window.empty]) ?_ (fun k hk => ?_)
      fun ha k hsat => ?_
    · have e := hu
      unfold State.unappended at e ⊢
      rw [State.startRunBase_window, State.startRunBase_account]
      exact (List.append_eq_nil_iff.mp e).2
    · rw [hslot] at hk ⊢
      split_ifs at hk ⊢ with hki
      · exact ⟨s.plan.lMax, rfl, by simp [State.lowest, State.firstUnopened, Window.empty]⟩
      · have := State.not_inRun hr k
        rw [show (s.slot k).state = .running from hk] at this
        cases this
    · have hopen : (s.startRunBase i).openCount k = s.openCount k := by
        rw [State.openCount_nil hw, State.openCount_nil (by simp [Window.empty])]
      refine State.audit_congr ?_ ?_ hopen (h.balance ha k) hsat
      · rw [hslot]
        split_ifs with hki
        · subst hki; simp [hi]
        · rfl
      · rw [hslot]
        split_ifs with hki
        · subst hki; rfl
        · rfl
  exact State.InOrder.settle (hbase.enqueue rfl fun k => nofun)

theorem State.InOrder.runStrt (h : s.InOrder audited) (bs : Bytes) : (Machine.runStrt bs s).2.InOrder audited := by
  unfold Machine.runStrt
  split_ifs with h0
  · exact h
  · rw [not_or] at h0
    split
    · exact h
    · split_ifs with hl
      · exact h
      · dsimp only
        exact h.startRun h0.1 (by simpa using h0.2) (not_not.mp hl)

theorem State.InOrder.runSwap (h : s.InOrder audited) (bs : Bytes) : (Machine.runSwap bs s).2.InOrder audited := by
  unfold Machine.runSwap
  dsimp only
  split
  · rename_i i hi hs
    split_ifs with hl
    · exact h
    · exact h
    · exact h
    · exact h
    · dsimp only
      exact h.stage hi hs (not_not.mp hl)
  · exact h

theorem State.InOrder.runStop (h : s.InOrder audited) (bs : Bytes) : (Machine.runStop bs s).2.InOrder audited := by
  unfold Machine.runStop
  split
  · exact h
  · dsimp only
    exact h.stopNumbering

theorem State.InOrder.runQuit (h : s.InOrder audited) (bs : Bytes) : (Machine.runQuit bs s).2.InOrder audited := by
  unfold Machine.runQuit
  split_ifs
  · dsimp only
    exact h.finishClosing.abortAll.stopNumbering
  · exact h

/-! ### The other tasks -/

theorem State.InOrder.runAdmt (h : s.InOrder audited) (bs : Bytes) : (Machine.runAdmt bs s).2.InOrder audited := by
  unfold Machine.runAdmt
  dsimp only
  split_ifs
  · exact h
  · split
    · exact h.of_standing (by simp)
    · exact h

theorem runTaly_snd (bs : Bytes) (s : State) : (runTaly bs s).2 = s := by
  unfold runTaly
  split <;> rfl

theorem runNext_snd (bs : Bytes) (s : State) : (runNext bs s).2 = s := by
  unfold runNext
  dsimp only
  split <;> rfl

theorem runVlrd_snd (bs : Bytes) (s : State) : (runVlrd bs s).2 = s := by
  unfold runVlrd
  dsimp only
  split <;> rfl

theorem State.InOrder.runRlse (h : s.InOrder audited) (bs : Bytes) : (Machine.runRlse bs s).2.InOrder audited := by
  unfold Machine.runRlse
  split_ifs
  · exact h
  · dsimp only
    exact h.release

theorem State.InOrder.runPvod (h : s.InOrder audited) (hb : audited → ∀ i, s.balanced i) (bs : Bytes) :
    (Machine.runPvod bs s).2.InOrder audited := by
  unfold Machine.runPvod
  dsimp only
  by_cases hr : field bs 7 5 < field bs 2 5 ∨ maxRaw < field bs 7 5
  · rw [if_pos hr]
    exact h
  · rw [if_neg hr]
    split
    · exact h
    · split_ifs with hlt
      · exact h
      · exact h
      · exact h
      · dsimp only
        exact h.postVoid hb (Nat.not_lt.mp hlt)

theorem State.InOrder.runVlcl (h : s.InOrder audited) (bs : Bytes) : (Machine.runVlcl bs s).2.InOrder audited := by
  unfold Machine.runVlcl
  split_ifs
  · exact h
  · exact h.of_standing rfl

/-- Every task keeps the run in order (R180). -/
theorem State.InOrder.runWord (word : BitVec 32) : ∀ (bs : Bytes) (s : State), s.InOrder audited → (audited → ∀ i, s.balanced i) →
    (Machine.runWord word bs s).2.InOrder audited :=
  runWord_cases (P := fun f => ∀ bs s, State.InOrder audited s → (audited → ∀ i, s.balanced i) → State.InOrder audited (f bs s).2) word
    (fun bs _ h _ => h.runPlan bs) (fun bs _ h _ => h.runLdjb bs) (fun bs _ h _ => h.runStrt bs) (fun bs _ h _ => h.runSwap bs)
    (fun bs _ h _ => h.runStop bs) (fun bs _ h _ => h.runQuit bs) (fun bs _ h _ => h.runAdmt bs) (fun bs s h _ => (runTaly_snd bs s).symm ▸ h)
    (fun bs s h _ => (runNext_snd bs s).symm ▸ h) (fun bs _ h _ => h.runRlse bs) (fun bs _ h hb => h.runPvod hb bs)
    (fun bs s h _ => (runVlrd_snd bs s).symm ▸ h) (fun bs _ h _ => h.runVlcl bs) (fun bs _ h _ => h.runRset bs) fun _ _ h _ => h

theorem State.InOrder.taskRow (h : s.InOrder audited) (word : BitVec 32) {run : Bytes → State → TaskResult}
    (hrun : ∀ bs, (run bs s).2.InOrder audited) : (s.taskRow word run).InOrder audited := by
  unfold State.taskRow
  split
  · exact (hrun _).of_standing rfl
  · split_ifs
    · exact (hrun _).of_standing rfl
    · exact h.of_standing (State.standing_raise _ _)

theorem State.InOrder.startTask (h : s.InOrder audited) (word : BitVec 32) : (s.startTask word).InOrder audited := by
  unfold State.startTask
  split_ifs
  · exact h.of_standing (State.standing_raise _ _)
  · exact h.of_standing rfl

theorem State.InOrder.takeEffects (h : s.InOrder audited) (hb : audited → ∀ i, s.balanced i) : s.takeEffects.InOrder audited := by
  unfold State.takeEffects
  split
  · split_ifs
    · exact (State.InOrder.runWord _ _ s h hb).of_standing rfl
    · exact h
  · exact h

theorem State.InOrder.publish (h : s.InOrder audited) : s.publish.InOrder audited := by
  unfold State.publish
  split
  · exact h.of_standing ((State.standing_raise _ _).trans rfl)
  · exact h

theorem State.standing_fourByteWrite (s : State) (data : Bytes) {k : State → BitVec 32 → State} :
    (s.fourByteWrite data k).standing = s.standing ∨ ∃ u w, u.standing = s.standing ∧ s.fourByteWrite data k = k u w := by
  unfold State.fourByteWrite
  split_ifs
  · exact .inr ⟨s.setAck true 4, _, rfl, rfl⟩
  · exact .inl rfl

end

end Sys2Proof.Machine
end
section
/-! Every command keeps the run in order, and O58. -/

namespace Sys2Proof.Machine

section
variable {s t : State} {audited : Prop}

/-! ### The station ports leave the run as it stands, but for a REQUEST and the marks of records -/

@[simp] theorem State.standing_endFetchShort (s : State) (p : PortId) : (s.endFetchShort p).standing = s.standing := by
  unfold State.endFetchShort
  split <;> rfl

@[simp] theorem State.standing_select (s : State) (p : PortId) (b : Bool) : (s.select p b).standing = s.standing := by
  unfold State.select
  split_ifs
  · rfl
  · rw [State.standing_modPort, State.standing_endFetchShort]

@[simp] theorem State.standing_frameTaken (s : State) (p : PortId) : (s.frameTaken p).standing = s.standing := by
  rw [State.frameTaken, State.standing_modPort, State.standing_select]

@[simp] theorem State.standing_rejectFrame (s : State) (p : PortId) : (s.rejectFrame p).standing = s.standing := rfl

@[simp] theorem State.standing_acceptFrame (s : State) (p : PortId) : (s.acceptFrame p).standing = s.standing := rfl

theorem State.InOrder.accepted (h : s.InOrder audited) (p : PortId) : ((s.frameTaken p).acceptFrame p).InOrder audited :=
  h.of_standing (by simp)

theorem State.InOrder.rejected (h : s.InOrder audited) (p : PortId) : ((s.frameTaken p).rejectFrame p).InOrder audited :=
  h.of_standing (by simp)

theorem State.InOrder.selected (h : s.InOrder audited) (p : PortId) (b : Bool) : (s.select p b).InOrder audited :=
  h.of_standing (by simp)

theorem State.InOrder.atPort (h : s.InOrder audited) (p : PortId) (q : Request) {k : State → State}
    (hk : (k s).InOrder audited) : (s.atPort p q k).InOrder audited := by
  unfold State.atPort
  split
  · exact h.of_standing rfl
  · exact h.of_standing rfl
  · exact hk

theorem State.InOrder.requestFrame (h : s.InOrder audited) (p : PortId) (c : Nat) : (State.requestFrame p c s).InOrder audited := by
  have hnew : (if c = (s.port p).cursor then s.modPort p fun x => { x with newRun := false } else s).InOrder audited := by
    split_ifs
    · exact h.of_standing rfl
    · exact h
  unfold State.requestFrame
  dsimp only
  by_cases hc : c = (s.port p).cursor ∨ (1 ≤ (s.port p).cursor ∧ c = (s.port p).cursor - 1)
  · rw [if_pos hc]
    refine iteInduction (motive := State.InOrder audited) (fun _ => hnew.of_standing rfl) fun _ => hnew.takeRequest _ _ _
  · rw [if_neg hc]
    exact h.of_standing rfl

theorem Record.standing_markWaste (x : Record) : x.markWaste.standing = x.standing := by
  have : x.markWaste.positions.countP Position.numbered = x.positions.countP Position.numbered := by
    rw [Record.markWaste, List.countP_map]
    refine List.countP_congr fun p _ => ?_
    rw [Function.comp_apply]
    split_ifs <;> rfl
  simp only [Record.standing, Record.numbered, this]
  rfl

theorem Record.standing_markMisfire (mask : BitVec 16) (x : Record) : (x.markMisfire mask).standing = x.standing := by
  have hcount : ∀ l : List Position, l.countP Position.numbered = (l.map Position.numbered).countP id := fun l => by
    rw [List.countP_map]
    rfl
  have : (x.markMisfire mask).positions.countP Position.numbered = x.positions.countP Position.numbered := by
    rw [hcount, hcount]
    congr 1
    refine List.ext_getElem (by simp [Record.markMisfire]) fun i _ _ => ?_
    simp only [Record.markMisfire, List.getElem_map, List.getElem_mapIdx]
    split_ifs <;> rfl
  simp only [Record.standing, Record.numbered, this]
  rfl

/-- A change of one record that its standing does not show. -/
theorem State.standing_modRecord (s : State) (r : Nat) (f : Record → Record) (h : ∀ x, (f x).standing = x.standing) :
    (s.modRecord r f).standing = s.standing :=
  State.standing_mapRecords s _ fun x _ => by
    split_ifs
    · exact h x
    · rfl

theorem State.InOrder.wasteFrame (h : s.InOrder audited) (p : PortId) (c1 c2 : Nat) : (State.wasteFrame p c1 c2 s).InOrder audited := by
  unfold State.wasteFrame State.takeWaste
  dsimp only
  split_ifs
  · exact h.of_standing rfl
  · exact h.of_standing rfl
  · exact h.of_standing rfl
  · refine h.of_standing ((State.standing_modPort _ _ _).trans (State.standing_mapRecords s _ fun x _ => ?_))
    split_ifs
    · exact x.standing_markWaste
    · rfl

theorem State.InOrder.misfireFrame (h : s.InOrder audited) (p : PortId) (c : Nat) (mask : BitVec 16) :
    (State.misfireFrame p c mask s).InOrder audited := by
  unfold State.misfireFrame State.takeMisfire
  dsimp only
  split_ifs
  · exact h.of_standing rfl
  · exact h.of_standing rfl
  · exact h.of_standing rfl
  · exact h.of_standing ((State.standing_setReqSlot _ _ _).trans (State.standing_modRecord s _ _ (Record.standing_markMisfire mask)))
  · exact h.of_standing rfl

theorem State.InOrder.probe (h : s.InOrder audited) {p : PortId} {m : Moment Bool} (ht : execProbe p m s = .next t) : t.InOrder audited := by
  cases m with
  | select b => cases next_inj ht; exact h.selected p b
  | taken whole =>
    cases next_inj ht
    cases whole
    · exact h.rejected p
    · exact h.accepted p

theorem State.InOrder.request (h : s.InOrder audited) {p : PortId} {m : Moment Bytes} (ht : execRequest p m s = .next t) :
    t.InOrder audited := by
  cases m with
  | select b => cases next_inj ht; exact h.selected p b
  | taken body =>
    cases next_inj ht
    exact iteInduction (motive := State.InOrder audited) (fun _ => (h.accepted p).atPort p _ ((h.accepted p).requestFrame p _))
      fun _ => h.rejected p

theorem State.InOrder.waste (h : s.InOrder audited) {p : PortId} {m : Moment Bytes} (ht : execWaste p m s = .next t) :
    t.InOrder audited := by
  cases m with
  | select b => cases next_inj ht; exact h.selected p b
  | taken body =>
    cases next_inj ht
    exact iteInduction (motive := State.InOrder audited) (fun _ => (h.accepted p).atPort p _ ((h.accepted p).wasteFrame p _ _))
      fun _ => h.rejected p

theorem State.InOrder.misfire (h : s.InOrder audited) {p : PortId} {m : Moment Bytes} (ht : execMisfire p m s = .next t) :
    t.InOrder audited := by
  cases m with
  | select b => cases next_inj ht; exact h.selected p b
  | taken body =>
    cases next_inj ht
    exact iteInduction (motive := State.InOrder audited) (fun _ => (h.accepted p).atPort p _ ((h.accepted p).misfireFrame p _ _))
      fun _ => h.rejected p

theorem State.InOrder.fetch (h : s.InOrder audited) {p : PortId} {m : Moment Bool} (ht : execFetch p m s = .next t) :
    t.InOrder audited := by
  cases m with
  | select b => cases next_inj ht; exact h.selected p b
  | taken whole =>
    cases next_inj ht
    cases whole
    · exact h.rejected p
    · exact (h.accepted p).of_standing rfl

theorem State.InOrder.unknownCommandFrame (h : s.InOrder audited) {p : PortId} {c : Option Byte} {m : Moment Bytes}
    (ht : execUnknownCommandFrame p c m s = .next t) : t.InOrder audited := by
  cases m with
  | select b => cases next_inj ht; exact h.selected p b
  | taken body =>
    unfold execUnknownCommandFrame at ht
    dsimp only at ht
    split at ht
    · exact h.probe ht
    · exact h.request ht
    · exact h.waste ht
    · exact h.misfire ht
    · exact h.fetch ht
    · cases next_inj ht; exact h.rejected p

theorem State.standing_servedBy (s : State) (p : PortId) (f : FetchOut) : (s.servedBy p f).standing = s.standing := by
  unfold State.servedBy
  split
  · split_ifs
    · refine State.standing_modRecord s _ _ fun x => ?_
      split_ifs <;> rfl
    · rfl
  · rfl

theorem State.InOrder.fetchComplete (h : s.InOrder audited) {p : PortId} (ht : execFetchComplete p s = .next t) : t.InOrder audited := by
  unfold execFetchComplete at ht
  split at ht
  · cases next_inj ht; exact h
  · split_ifs at ht
    · cases next_inj ht
      exact h.of_standing ((State.standing_modPort _ _ _).trans (State.standing_servedBy s p _))
    · cases next_inj ht; exact h.of_standing rfl

theorem State.InOrder.answerReady (h : s.InOrder audited) {p : PortId} (ht : execAnswerReady p s = .next t) : t.InOrder audited := by
  unfold execAnswerReady at ht
  split at ht <;> cases next_inj ht
  · exact h.of_standing rfl
  · exact h.of_standing rfl
  · exact h

/-! ### The timebase -/

theorem State.standing_plyLost (s : State) (k : Nat) : (s.plyLost k).standing = s.standing :=
  State.standing_mapRecords s _ fun x _ => by split_ifs <;> rfl

theorem State.standing_expire (s : State) (p : PortId) : (s.expire p).standing = s.standing := by
  unfold State.expire
  rw [State.standing_raise]
  split
  · rw [State.standing_plyLost]; rfl
  · rfl

theorem State.standing_portTick (p : PortId) (s : State) : (State.portTick p s).standing = s.standing := by
  unfold State.portTick
  split
  · rfl
  · split_ifs
    · exact State.standing_expire s p
    · rfl

theorem State.standing_gapTick (s : State) : s.gapTick.standing = s.standing := by
  unfold State.gapTick
  split
  · rfl
  · split_ifs <;> rfl

theorem State.standing_tick (s : State) : s.tick.standing = s.standing := by
  rw [State.tick, State.standing_gapTick, State.forPorts_field State.standing _ fun p t => State.standing_portTick p t]

/-! ### The fill at work (R24) -/

theorem State.fillAtWork_fill {src : Source} {f : Fill} (h : s.fillAtWork src = some f) : s.queue.fill = some f :=
  (Option.filter_eq_some_iff.mp h).1

/-- A fill that goes on claims what it claimed. -/
theorem State.standing_setFill {f g : Fill} (hf : s.queue.fill = some f) (ht : g.target = f.target) (hs : g.slot = f.slot) :
    (s.setFill (some g)).standing = s.standing := by
  have : (s.setFill (some g)).claims = s.claims := by
    rw [State.claims_setFill, State.claims, hf]
    simp [Fill.claim, ht, hs]
  simp only [State.standing, this]
  rfl

theorem State.InOrder.take (h : s.InOrder audited) (ht : execTake s = .next t) : t.InOrder audited := by
  unfold execTake at ht
  split at ht
  · cases next_inj ht; exact h
  · rename_i f hf
    dsimp only at ht
    split at ht
    · cases next_inj ht; exact h
    · cases next_inj ht
      refine h.of_standing ((State.standing_raiseIf _ _ _).trans ((State.standing_setFill (f := f) ?_ rfl rfl).trans
        (State.standing_modSlot s f.slot _ rfl)))
      rw [State.modSlot_queue]
      exact State.fillAtWork_fill hf

theorem State.standing_drawNothing {f : Fill} (hf : s.queue.fill = some f) : (s.drawNothing f).standing = s.standing := by
  refine (State.standing_raiseIf _ _ _).trans ((State.standing_setFill (f := f) ?_ rfl rfl).trans (State.standing_modSlot s f.slot _ rfl))
  rw [State.modSlot_queue]
  exact hf

theorem State.standing_drawIssues {f : Fill} (hf : s.queue.fill = some f) (x : Nat) : (s.drawIssues f x).standing = s.standing :=
  (State.standing_raiseIf _ _ _).trans ((State.standing_setFill (f := f) hf rfl rfl).trans rfl)

theorem State.InOrder.makeupDraw (h : s.InOrder audited) {n : Option Nat} (ht : execMakeupDraw s n = .next t) : t.InOrder audited := by
  unfold execMakeupDraw at ht
  split at ht
  · cases next_inj ht; exact h
  · rename_i f hf
    have hfill := State.fillAtWork_fill hf
    dsimp only at ht
    split_ifs at ht
    · cases next_inj ht
      exact h.of_standing (State.standing_setFill hfill rfl rfl)
    · split at ht <;> cases next_inj ht
      · exact h.of_standing (State.standing_drawIssues hfill _)
      · exact h.of_standing (State.standing_drawNothing hfill)
      · exact h.of_standing (State.standing_setFill hfill rfl rfl)

/-! ### The reader's line and the supervisor port -/

theorem State.InOrder.assemblerTakeByte (h : s.InOrder audited) (ht : execAssemblerTakeByte s = .next t) : t.InOrder audited := by
  unfold execAssemblerTakeByte at ht
  split at ht <;> cases next_inj ht
  · exact h
  · exact h
  · exact h.of_standing ((State.standing_raiseIf _ _ _).trans rfl)

theorem State.InOrder.assemblerGapDiscard (h : s.InOrder audited) (ht : execAssemblerGapDiscard s = .next t) : t.InOrder audited := by
  cases next_inj ht
  split_ifs
  · dsimp only
    split_ifs
    · exact h.of_standing ((State.standing_raise _ _).trans rfl)
    · exact h.of_standing rfl
  · exact h

theorem State.InOrder.fourByteWrite (h : s.InOrder audited) (data : Bytes) {k : State → BitVec 32 → State}
    (hk : ∀ u w, u.InOrder audited → (k u w).InOrder audited) : (s.fourByteWrite data k).InOrder audited := by
  rcases State.standing_fourByteWrite s data (k := k) with e | ⟨u, w, hu, e⟩
  · exact h.of_standing e
  · rw [e]
    exact hk u w (h.of_standing hu)

theorem State.InOrder.registerWrite (h : s.InOrder audited) {slot count : Byte} {data : Bytes}
    (ht : execRegisterWrite slot count data s = .next t) : t.InOrder audited := by
  cases next_inj ht
  split_ifs
  · exact h.of_standing rfl
  · exact h.fourByteWrite _ fun u w hu => hu.startTask w
  · exact h.fourByteWrite _ fun u w hu => hu.of_standing rfl
  · exact h.fourByteWrite _ fun u w hu => hu.of_standing rfl
  · exact h.of_standing rfl
  · exact h.of_standing rfl

theorem State.InOrder.stateRead (h : s.InOrder audited) {n : Nat} (ht : execStateRead n s = .next t) : t.InOrder audited := by
  cases next_inj ht
  refine State.InOrder.of_standing (s := if s.sup.onPage1 then s else s.takeSnapshot) ?_ rfl
  split_ifs
  · exact h
  · exact h.of_standing rfl

/-! ### The pins -/

theorem State.InOrder.powerOnReset (h : s.InOrder audited) {a b : Bool} (ht : execPowerOnReset a b s = .next t) : t.InOrder audited := by
  cases next_inj ht
  refine h.of_empty (Moves.one (.reset s a b)) rfl rfl rfl (State.firstOk_of_idle rfl) fun _ i _ hfree => absurd ?_ hfree
  cases i <;> rfl

/-- Every command keeps the run in order; of the tallies it asks that they balance when it begins. -/
theorem State.InOrder.exec (h : s.InOrder audited) (hb : audited → ∀ i, s.balanced i) (c : Instr) (ht : exec c s = .next t) :
    t.InOrder audited := by
  have row : ∀ word run, (∀ bs, (run bs s).2.InOrder audited) → .next (s.taskRow word run) = Host.Outcome.next t → t.InOrder audited :=
    fun word run hrun e => by cases next_inj e; exact h.taskRow word hrun
  cases c with
  | powerOnReset a b => exact h.powerOnReset ht
  | runRise =>
    cases next_inj ht
    split_ifs
    · exact h
    · exact h.of_standing ((State.forPorts_field State.standing _ (fun p u => State.standing_restartTimer u p) _).trans rfl)
  | runFall => cases next_inj ht; exact h.of_standing rfl
  | plan => exact row _ _ h.runPlan ht
  | ldjb => exact row _ _ h.runLdjb ht
  | strt => exact row _ _ h.runStrt ht
  | swap => exact row _ _ h.runSwap ht
  | stop => exact row _ _ h.runStop ht
  | quit => exact row _ _ h.runQuit ht
  | admt => exact row _ _ h.runAdmt ht
  | taly => exact row _ _ (fun bs => (runTaly_snd bs s).symm ▸ h) ht
  | next => exact row _ _ (fun bs => (runNext_snd bs s).symm ▸ h) ht
  | rlse => exact row _ _ h.runRlse ht
  | pvod => exact row _ _ (h.runPvod hb) ht
  | vlrd => exact row _ _ (fun bs => (runVlrd_snd bs s).symm ▸ h) ht
  | vlcl => exact row _ _ h.runVlcl ht
  | rset => exact row _ _ h.runRset ht
  | unknownTaskWord word => exact row _ _ (fun bs => State.InOrder.runWord word bs s h hb) ht
  | taskEnd => cases next_inj ht; exact (h.takeEffects hb).publish
  | taskOverrun word => cases next_inj ht; exact h.startTask word
  | maskWrite value => cases next_inj ht; exact h.of_standing rfl
  | clearWrite value => cases next_inj ht; exact h.of_standing rfl
  | stateRead acked => exact h.stateRead ht
  | registerWrite slot count data => exact h.registerWrite ht
  | probe p m => exact h.probe ht
  | request p m => exact h.request ht
  | waste p m => exact h.waste ht
  | misfire p m => exact h.misfire ht
  | fetch p m => exact h.fetch ht
  | fetchComplete p => exact h.fetchComplete ht
  | fetchEndedShort p => cases next_inj ht; exact h.of_standing (State.standing_endFetchShort s p)
  | unknownCommandFrame p c m => exact h.unknownCommandFrame ht
  | silenceExpiry p =>
    cases next_inj ht
    split_ifs
    · exact h.of_standing (State.standing_expire s p)
    · exact h
  | recordOpen => cases next_inj ht; exact h.openNext
  | answerReady p => exact h.answerReady ht
  | take => exact h.take ht
  | makeupDraw lookups => exact h.makeupDraw ht
  | fillComplete => exact h.fillComplete ht
  | readerByteReceived value stopHigh =>
    cases next_inj ht
    split
    · exact h.of_standing rfl
    · exact h
  | gapTimeout =>
    cases next_inj ht
    split_ifs
    · exact h.of_standing rfl
    · exact h
  | assemblerGapDiscard => exact h.assemblerGapDiscard ht
  | assemblerTakeByte => exact h.assemblerTakeByte ht
  | closeUnverified inserts => exact h.closeUnverified ht
  | frameVerdict inserts => exact h.frameVerdict ht
  | append =>
    cases next_inj ht
    split_ifs with hd
    · exact h.appendAttempt hd
    · exact h
  | readerStartBit low =>
    cases next_inj ht
    split_ifs
    · exact h.of_standing rfl
    · exact h
  | readerLineReturnsHigh =>
    cases next_inj ht
    split_ifs
    · exact h.of_standing rfl
    · exact h

/-- Every step keeps the run in order. -/
theorem State.InOrder.step (h : s.InOrder audited) (hb : audited → ∀ i, s.balanced i) (ht : step s = .next t) : t.InOrder audited := by
  unfold Machine.step at ht
  split at ht
  · cases next_inj ht
    exact h.of_standing (State.standing_tick s)
  · rename_i c rest _
    exact State.InOrder.exec (s := { s with pending := rest }) (h.of_standing rfl) hb c ht

end

/-- Settles O58: the window, the slots, the ports, the timers and the queue are kept by every move; the books are followed operation by
operation; the numbering is kept by every move of a command that began with slots and books in order. -/
theorem stepKeepsRunInOrder : Obligations.StepKeepsRunInOrder := by
  intro s t h
  refine ⟨step_keeps (P := fun s => s.window.ok) (fun _ _ => id) (fun _ _ _ => Move.window_ok) h,
    step_keeps (P := State.slotsOk) (fun _ _ => id) (fun _ _ _ => Move.slotsOk) h,
    step_keeps (P := State.portsOk) (fun _ _ => id) (fun _ _ _ => Move.portsOk) h,
    step_keeps (P := State.timersOk) (fun _ _ => id) (fun _ _ _ => Move.timersOk) h,
    step_keeps (P := fun s => s.queue.ok) (fun _ _ => id) (fun _ _ _ => Move.queue_ok) h, fun hw hs hb => ?_, fun hs hb hn => ?_⟩
  · exact (State.InOrder.step (audited := False) ⟨hw, hs, hb, False.elim⟩ False.elim h).books
  · exact step_keeps_from (I := fun o => o.slotsOk ∧ o.booksOk) (P := State.numbersOk) (fun _ _ hi hp => ⟨hi, hp⟩)
      (fun _ hi _ _ _ => Move.numbersOk hi.1 hi.2) h ⟨hs, hb⟩ hn

end Sys2Proof.Machine
end
section
/-! Every elementary move keeps the void list in order, and what is held by make-up items off it (O59: R127, R130, R131, R134). -/

namespace Sys2Proof.Machine

/-! ### The void list (R127, R131, R134) -/

theorem cutPiece_le {h : Nat} {p q : Nat × Nat} (hq : q ∈ cutPiece h p) (hp : p.1 ≤ p.2) : q.1 ≤ q.2 := by
  unfold cutPiece at hq
  split_ifs at hq with hin hlo hhi hhi
  · rcases List.mem_append.mp hq with hq | hq
    · rw [List.mem_singleton.mp hq]
      show p.1 ≤ h - 1
      omega
    · rw [List.mem_singleton.mp hq]
      show h + 1 ≤ p.2
      omega
  · rw [List.append_nil] at hq
    rw [List.mem_singleton.mp hq]
    show p.1 ≤ h - 1
    omega
  · rw [List.nil_append] at hq
    rw [List.mem_singleton.mp hq]
    show h + 1 ≤ p.2
    omega
  · cases hq
  · rw [List.mem_singleton.mp hq]
    exact hp

theorem piecesWithout_le (held : List Nat) {lo hi : Nat} (h : lo ≤ hi) : ∀ q ∈ piecesWithout held lo hi, q.1 ≤ q.2 := by
  have key : ∀ (held : List Nat) (ps : List (Nat × Nat)), (∀ p ∈ ps, p.1 ≤ p.2) →
      ∀ q ∈ held.foldl (fun ps h => ps.flatMap (cutPiece h)) ps, q.1 ≤ q.2 := by
    intro held
    induction held with
    | nil => exact fun ps h => h
    | cons x held ih =>
      intro ps hps
      refine ih _ fun q hq => ?_
      obtain ⟨p, hp, hqp⟩ := List.mem_flatMap.mp hq
      exact cutPiece_le hqp (hps p hp)
  exact key held _ fun p hp => by rw [List.mem_singleton.mp hp]; exact h

theorem VoidList.place_ok {v : VoidList} (h : v.ok) {p : Nat × Nat} (hp : p.1 ≤ p.2) : (v.place p).ok := by
  obtain ⟨hwf, hlen, hflag, hdrop, hchg⟩ := h
  unfold VoidList.place
  split_ifs with hd
  · refine ⟨hwf, hlen, ⟨fun _ => ?_, fun _ => rfl⟩, satAdd_le_top .., hchg⟩
    simp only [satAdd, max32]
    omega
  · refine ⟨mergePiece_wf hwf hp, ?_, hflag, hdrop, hchg⟩
    show (mergePiece p.1 p.2 v.ranges).length ≤ maxRanges
    simp only [VoidList.drops, Bool.and_eq_true, Bool.not_eq_eq_eq_not, Bool.not_true, decide_eq_true_eq, not_and, not_le] at hd
    cases ht : v.ranges.any (touches p.1 p.2) with
    | true => exact (mergePiece_length_of_touches hwf hp (List.any_eq_true.mp ht)).trans hlen
    | false =>
      have := mergePiece_length_le v.ranges p.1 p.2
      have := hd ht
      omega

theorem VoidList.bump_ok {v : VoidList} (h : v.ok) : v.bump.ok := by
  obtain ⟨h1, h2, h3, h4, -⟩ := h
  exact ⟨h1, h2, h3, h4, Nat.le_of_lt_succ (Nat.mod_lt _ (by decide))⟩

theorem VoidList.places_ok (ps : List (Nat × Nat)) : ∀ {v : VoidList}, v.ok → (∀ p ∈ ps, p.1 ≤ p.2) → (ps.foldl VoidList.place v).ok := by
  induction ps with
  | nil => exact fun h _ => h
  | cons p ps ih => exact fun h hp => ih (VoidList.place_ok h (hp p List.mem_cons_self)) fun q hq => hp q (List.mem_cons_of_mem p hq)

theorem VoidList.insert_ok {v : VoidList} (h : v.ok) {ps : List (Nat × Nat)} (hp : ∀ p ∈ ps, p.1 ≤ p.2) : (v.insert ps).ok := by
  unfold VoidList.insert
  dsimp only
  split_ifs
  · exact VoidList.places_ok ps h hp
  · exact VoidList.bump_ok (VoidList.places_ok ps h hp)

/-- What a removal leaves lies within the ranges it found. -/
theorem mem_removeRange (full : Bool) (x : Nat) : ∀ {rs : List (Nat × Nat)} {y : Nat × Nat}, rangesWf rs → y ∈ (removeRange full x rs).1 →
    y.1 ≤ y.2 ∧ ∃ r ∈ rs, r.1 ≤ y.1 ∧ y.2 ≤ r.2
  | [], y, _, hy => by cases hy
  | (lo, hi) :: rs, y, hw, hy => by
    have hle : lo ≤ hi := rangesWf_head hw
    have rest : ∀ z ∈ rs, z.1 ≤ z.2 ∧ ∃ r ∈ (lo, hi) :: rs, r.1 ≤ z.1 ∧ z.2 ≤ r.2 := fun z hz =>
      ⟨hw.1 z (List.mem_cons_of_mem _ hz), z, List.mem_cons_of_mem _ hz, Nat.le_refl _, Nat.le_refl _⟩
    unfold removeRange at hy
    split_ifs at hy with h1 h2 h3 h4 h5 h6
    · rcases List.mem_cons.mp hy with rfl | hy
      · exact ⟨hle, _, List.mem_cons_self, Nat.le_refl _, Nat.le_refl _⟩
      · obtain ⟨hyle, r, hr, hry⟩ := mem_removeRange full x (rangesWf_tail hw) hy
        exact ⟨hyle, r, List.mem_cons_of_mem _ hr, hry⟩
    · rcases List.mem_cons.mp hy with rfl | hy
      · exact ⟨hle, _, List.mem_cons_self, Nat.le_refl _, Nat.le_refl _⟩
      · exact rest y hy
    · exact rest y hy
    · rcases List.mem_cons.mp hy with rfl | hy
      · refine ⟨?_, _, List.mem_cons_self, ?_, Nat.le_refl _⟩
        · show x + 1 ≤ hi
          omega
        · show lo ≤ x + 1
          omega
      · exact rest y hy
    · rcases List.mem_cons.mp hy with rfl | hy
      · refine ⟨?_, _, List.mem_cons_self, Nat.le_refl _, ?_⟩
        · show lo ≤ x - 1
          omega
        · show x - 1 ≤ hi
          omega
      · exact rest y hy
    · rcases List.mem_cons.mp hy with rfl | hy
      · refine ⟨?_, _, List.mem_cons_self, ?_, Nat.le_refl _⟩
        · show x + 1 ≤ hi
          omega
        · show lo ≤ x + 1
          omega
      · exact rest y hy
    · rcases List.mem_cons.mp hy with rfl | hy
      · refine ⟨?_, _, List.mem_cons_self, Nat.le_refl _, ?_⟩
        · show lo ≤ x - 1
          omega
        · show x - 1 ≤ hi
          omega
      · rcases List.mem_cons.mp hy with rfl | hy
        · refine ⟨?_, _, List.mem_cons_self, ?_, Nat.le_refl _⟩
          · show x + 1 ≤ hi
            omega
          · show lo ≤ x + 1
            omega
        · exact rest y hy

theorem removeRange_wf (full : Bool) (x : Nat) : ∀ {rs : List (Nat × Nat)}, rangesWf rs → rangesWf (removeRange full x rs).1
  | [], _ => rangesWf_nil
  | (lo, hi) :: rs, hw => by
    have hle : lo ≤ hi := rangesWf_head hw
    have htail := rangesWf_tail hw
    have hlt : ∀ z ∈ rs, hi + 1 < z.1 := fun z hz => rangesWf_lt hw hz
    unfold removeRange
    split_ifs with h1 h2 h3 h4 h5 h6
    · refine rangesWf_cons (removeRange_wf full x htail) hle fun z hz => ?_
      obtain ⟨-, r, hr, hrz, -⟩ := mem_removeRange full x htail hz
      exact (hlt r hr).trans_le hrz
    · exact hw
    · exact htail
    · exact rangesWf_cons htail (by show x + 1 ≤ hi; omega) hlt
    · exact rangesWf_cons htail (by show lo ≤ x - 1; omega) fun z hz => by have := hlt z hz; show x - 1 + 1 < z.1; omega
    · exact rangesWf_cons htail (by show x + 1 ≤ hi; omega) hlt
    · refine rangesWf_cons (rangesWf_cons htail (by show x + 1 ≤ hi; omega) hlt) (by show lo ≤ x - 1; omega) fun z hz => ?_
      show x - 1 + 1 < z.1
      rcases List.mem_cons.mp hz with rfl | hz
      · show x - 1 + 1 < x + 1
        omega
      · have := hlt z hz
        omega

/-- A removal makes one range more only where there is room (R134). -/
theorem removeRange_length (full : Bool) (x : Nat) : ∀ rs : List (Nat × Nat),
    (removeRange full x rs).1.length ≤ rs.length + if full = true then 0 else 1
  | [] => Nat.zero_le _
  | (lo, hi) :: rs => by
    have ih := removeRange_length full x rs
    unfold removeRange
    split_ifs at ih ⊢ <;> simp only [List.length_cons] at ih ⊢ <;> omega

theorem VoidList.remove_ok {v : VoidList} (h : v.ok) (x : Nat) : (v.remove x).ok := by
  obtain ⟨hwf, hlen, hflag, hdrop, hchg⟩ := h
  refine VoidList.bump_ok (v := { v with
    ranges := (removeRange (maxRanges ≤ v.ranges.length) x v.ranges).1
    incomplete := v.incomplete || (removeRange (maxRanges ≤ v.ranges.length) x v.ranges).2 ≠ 0
    dropped := satAdd max32 v.dropped (removeRange (maxRanges ≤ v.ranges.length) x v.ranges).2 })
    ⟨removeRange_wf _ x hwf, ?_, ?_, satAdd_le_top .., hchg⟩
  · have := removeRange_length (maxRanges ≤ v.ranges.length) x v.ranges
    show (removeRange (maxRanges ≤ v.ranges.length) x v.ranges).1.length ≤ maxRanges
    simp only [decide_eq_true_eq] at this
    split_ifs at this <;> omega
  · simp only [Bool.or_eq_true, hflag, decide_eq_true_eq]
    simp only [satAdd, max32, ne_eq] at hdrop ⊢
    omega

section
variable {o s t : State}

theorem Move.voids_ok (m : Move o s t) (h : s.voids.ok) : t.voids.ok := by
  cases m with
  | softReset => exact h
  | reset => exact ⟨rangesWf_nil, Nat.zero_le _, ⟨nofun, fun h => absurd rfl h⟩, Nat.zero_le _, Nat.zero_le _⟩
  | insert _ lo hi hle => exact VoidList.insert_ok h (piecesWithout_le _ hle)
  | draw => exact VoidList.remove_ok h _
  | clearList => exact VoidList.bump_ok ⟨rangesWf_nil, Nat.zero_le _, by simp, Nat.zero_le _, h.2.2.2.2⟩
  | _ => simpa using h

/-! ### What a change of a slot leaves -/

/-- What a change of slot `i` leaves of that slot, it leaves of every slot. -/
theorem State.modSlot_proj {α : Type} (g : JobSlot → α) {i : SlotId} {f : JobSlot → JobSlot} (h : g (f (s.slot i)) = g (s.slot i))
    (k : SlotId) : g ((s.modSlot i f).slot k) = g (s.slot k) := by
  rw [State.modSlot_slot]
  split_ifs with hk
  · rw [hk, h]
  · rfl

theorem State.killStaged_proj {α : Type} (g : JobSlot → α) (h : ∀ j, g (JobSlot.unstage j) = g j) (k : SlotId) :
    g (s.killStaged.slot k) = g (s.slot k) := by
  unfold State.killStaged
  split
  · exact State.modSlot_proj g (h _) k
  · rfl

/-! ### What is held stays off the list (R130) -/

theorem State.mem_heldValues {x : Nat} : x ∈ s.heldValues ↔
    (∃ d ∈ s.queue.drafts, (s.slot d.slot).source = .makeup ∧ x ∈ d.drawn) ∨
    (∃ f, s.queue.fill = some f ∧ (s.slot f.slot).source = .makeup ∧ x ∈ f.drawn) ∨
    ∃ r ∈ s.window.records, r.closure = .awaiting ∧ (s.slot r.slot).source = .makeup ∧ ∃ p ∈ r.positions, p.entry.value = some x := by
  simp only [State.heldValues, State.awaiting, List.mem_append, List.mem_flatMap, List.mem_filter, List.mem_filterMap, Option.mem_toList,
    decide_eq_true_eq, or_assoc, and_assoc]

/-- Values held and listed only where they were before. -/
theorem State.drawnOk.of_held (h : s.drawnOk)
    (hd : ∀ d ∈ t.queue.drafts, (t.slot d.slot).source = .makeup → d.drawn = d.entries.filterMap Entry.value)
    (hf : ∀ f, t.queue.fill = some f → (t.slot f.slot).source = .makeup → f.drawn = f.entries.filterMap Entry.value)
    (hx : ∀ x ∈ t.heldValues, x ∈ s.heldValues) (hl : ∀ x, listed t.voids.ranges x = true → listed s.voids.ranges x = true) : t.drawnOk :=
  ⟨hd, hf, fun x hxt => Bool.eq_false_iff.mpr fun e => by
    have := h.2.2 x (hx x hxt)
    rw [hl x e] at this
    cases this⟩

theorem State.drawnOk.of_same (h : s.drawnOk) (hq : t.queue = s.queue) (hw : t.window.records = s.window.records)
    (hs : ∀ i, (t.slot i).source = (s.slot i).source) (hv : t.voids = s.voids) : t.drawnOk := by
  refine h.of_held (fun d hd hm => ?_) (fun f hf hm => ?_) (fun x hx => ?_) fun x hx => by rwa [hv] at hx
  · rw [hq] at hd
    rw [hs] at hm
    exact h.1 d hd hm
  · rw [hq] at hf
    rw [hs] at hm
    exact h.2.1 f hf hm
  · rwa [State.heldValues_congr hq hw hs] at hx

/-- Nothing is held. -/
theorem State.drawnOk_fresh (hq : t.queue = .empty) (hw : t.window = .empty) : t.drawnOk := by
  refine ⟨fun d hd => ?_, fun f hf => ?_, fun x hx => ?_⟩
  · rw [hq] at hd; cases hd
  · rw [hq] at hf; cases hf
  · have : t.heldValues = [] := by simp [State.heldValues, State.awaiting, hq, hw, DraftQueue.empty, Window.empty]
    rw [this] at hx
    cases hx

theorem listed_places (ps : List (Nat × Nat)) : ∀ {v : VoidList}, rangesWf v.ranges → (∀ p ∈ ps, p.1 ≤ p.2) → ∀ {x : Nat},
    listed (ps.foldl VoidList.place v).ranges x = true → listed v.ranges x = true ∨ ∃ p ∈ ps, p.1 ≤ x ∧ x ≤ p.2 := by
  induction ps with
  | nil => exact fun _ _ _ h => .inl h
  | cons p ps ih =>
    intro v hv hp x h
    have hpp := hp p List.mem_cons_self
    have hplace : (v.place p).ranges = v.ranges ∨ (v.place p).ranges = mergePiece p.1 p.2 v.ranges := by
      unfold VoidList.place
      split_ifs
      · exact .inl rfl
      · exact .inr rfl
    have hwf : rangesWf (v.place p).ranges := by
      rcases hplace with e | e <;> rw [e]
      · exact hv
      · exact mergePiece_wf hv hpp
    rcases ih hwf (fun q hq => hp q (List.mem_cons_of_mem p hq)) h with hl | ⟨q, hq, hqx⟩
    · rcases hplace with e | e <;> rw [e] at hl
      · exact .inl hl
      · rcases (listed_mergePiece hv hpp x).mp hl with hl | hl
        · exact .inl hl
        · exact .inr ⟨p, List.mem_cons_self, hl⟩
    · exact .inr ⟨q, List.mem_cons_of_mem p hq, hqx⟩

theorem VoidList.insert_ranges (v : VoidList) (ps : List (Nat × Nat)) : (v.insert ps).ranges = (ps.foldl VoidList.place v).ranges := by
  unfold VoidList.insert
  dsimp only
  split_ifs <;> rfl

theorem State.drawnOk_insert (h : s.drawnOk) (hv : s.voids.ok) {lo hi : Nat} (hle : lo ≤ hi) :
    State.drawnOk { s with voids := s.voids.insert (piecesWithout s.heldValues lo hi) } := by
  refine ⟨h.1, h.2.1, fun x hx => Bool.eq_false_iff.mpr fun e => ?_⟩
  have hx' : x ∈ s.heldValues := hx
  rw [VoidList.insert_ranges] at e
  rcases listed_places _ hv.1 (piecesWithout_le _ hle) e with hl | ⟨p, hp, h1, h2⟩
  · rw [h.2.2 x hx'] at hl
    cases hl
  · exact (mem_piecesWithout hp h1 h2).1 hx'

theorem State.drawnOk_draw (h : s.drawnOk) (hv : s.voids.ok) {f : Fill} (hf : s.fillAtWork .makeup = some f) (c : Option Byte) (x : Nat) :
    State.drawnOk ({ s with voids := s.voids.remove x }.setFill (some (f.drew c x))) := by
  obtain ⟨hfill, hsrc, -⟩ := State.fillAtWork_spec hf
  refine ⟨h.1, fun g hg _ => ?_, fun y hy => Bool.eq_false_iff.mpr fun e => ?_⟩
  · obtain rfl := Option.some.inj hg
    show f.drawn ++ [x] = (f.entries ++ [_]).filterMap Entry.value
    rw [h.2.1 f hfill hsrc, List.filterMap_append]
    rfl
  · obtain ⟨hl, hne⟩ := listed_removeRange (maxRanges ≤ s.voids.ranges.length) x hv.1 y e
    have hheld : y ∈ s.heldValues := by
      rcases State.mem_heldValues.mp hy with hd | ⟨g, hg, hm, hyg⟩ | hr
      · exact State.mem_heldValues.mpr (.inl hd)
      · obtain rfl := Option.some.inj hg
        rcases List.mem_append.mp (show y ∈ f.drawn ++ [x] from hyg) with hyf | hyx
        · exact State.mem_heldValues.mpr (.inr (.inl ⟨f, hfill, hsrc, hyf⟩))
        · exact absurd (List.mem_singleton.mp hyx) hne
      · exact State.mem_heldValues.mpr (.inr (.inr hr))
    rw [h.2.2 y hheld] at hl
    cases hl

theorem State.drawnOk_load (h : s.drawnOk) (hs : s.slotsOk) (hb : s.booksOk) {i : SlotId} {j : JobSlot}
    (hi : (s.slot i).state.loadable = true) : (s.modSlot i fun _ => j).drawnOk := by
  obtain ⟨hd, hf, hr⟩ := State.unused_of_loadable hs hb hi
  have hslot : ∀ k, k ≠ i → (s.modSlot i fun _ => j).slot k = s.slot k := fun k hk => by rw [State.modSlot_slot, if_neg hk]
  refine h.of_held (fun d hdm hm => ?_) (fun f hfm hm => ?_) (fun x hx => ?_) fun x hx => by rwa [State.modSlot_voids] at hx
  · rw [State.modSlot_queue] at hdm
    rw [hslot _ (hd d hdm)] at hm
    exact h.1 d hdm hm
  · rw [State.modSlot_queue] at hfm
    rw [hslot _ (hf f hfm)] at hm
    exact h.2.1 f hfm hm
  · rw [State.mem_heldValues, State.modSlot_queue, State.modSlot_window] at hx
    rw [State.mem_heldValues]
    rcases hx with ⟨d, hdm, hm, hxd⟩ | ⟨f, hfm, hm, hxf⟩ | ⟨r, hrm, ha, hm, hp⟩
    · exact .inl ⟨d, hdm, hslot _ (hd d hdm) ▸ hm, hxd⟩
    · exact .inr (.inl ⟨f, hfm, hslot _ (hf f hfm) ▸ hm, hxf⟩)
    · exact .inr (.inr ⟨r, hrm, ha, hslot _ (hr r hrm) ▸ hm, hp⟩)

theorem State.drawnOk_opens (h : s.drawnOk) {d : Draft} {rest : List Draft} (hd : s.queue.drafts = d :: rest) :
    State.drawnOk { s with
      queue := { s.queue with drafts := rest }
      window := { s.window with records := s.window.records ++ [s.openedRecord d], newest := some d.repeatIndex } } := by
  have hslot := State.slot_congr (s := s) (t := { s with
      queue := { s.queue with drafts := rest }
      window := { s.window with records := s.window.records ++ [s.openedRecord d], newest := some d.repeatIndex } }) rfl rfl
  refine h.of_held (fun e he hm => ?_) (fun f hf hm => ?_) (fun x hx => ?_) fun x hx => hx
  · rw [hslot] at hm
    exact h.1 e (hd ▸ List.mem_cons_of_mem d he) hm
  · rw [hslot] at hm
    exact h.2.1 f hf hm
  · rw [State.mem_heldValues] at hx ⊢
    simp only [hslot] at hx
    rcases hx with ⟨e, he, hx⟩ | hf | ⟨r, hr, ha, hm, p, hp, hpx⟩
    · exact .inl ⟨e, hd ▸ List.mem_cons_of_mem d he, hx⟩
    · exact .inr (.inl hf)
    · rcases List.mem_append.mp hr with hr | hr
      · exact .inr (.inr ⟨r, hr, ha, hm, p, hp, hpx⟩)
      · obtain rfl := List.mem_singleton.mp hr
        obtain ⟨e, he, rfl⟩ := List.mem_map.mp (show p ∈ d.entries.map Position.opened from hp)
        refine .inl ⟨d, hd ▸ List.mem_cons_self, hm, ?_⟩
        rw [h.1 d (hd ▸ List.mem_cons_self) hm]
        exact List.mem_filterMap.mpr ⟨e, he, hpx⟩

/-- Records that keep what they number, and stay closed once closed, hold no more than before. -/
theorem State.drawnOk_records (h : s.drawnOk) {f : Record → Record}
    (hf : ∀ x ∈ s.window.records, ∃ y ∈ s.window.records, y.repeatIndex = x.repeatIndex ∧ y.Work (f x)) :
    State.drawnOk { s with window := { s.window with records := s.window.records.map f } } := by
  refine h.of_held (fun d hd => h.1 d hd) (fun g hg => h.2.1 g hg) (fun x hx => ?_) fun x hx => hx
  rw [State.mem_heldValues] at hx ⊢
  rcases hx with hd | hg | ⟨r, hr, ha, hm, p, hp, hpx⟩
  · exact .inl hd
  · exact .inr (.inl hg)
  · obtain ⟨z, hz, rfl⟩ := List.mem_map.mp hr
    obtain ⟨y, hy, -, -, hslot, hentry, hclosed⟩ := hf z hz
    rw [hslot] at hm
    have hpe : p.entry ∈ y.positions.map Position.entry := hentry ▸ List.mem_map_of_mem hp
    obtain ⟨q, hq, hqe⟩ := List.mem_map.mp hpe
    exact .inr (.inr ⟨y, hy, hclosed ha, hm, q, hq, hqe ▸ hpx⟩)

theorem State.drawnOk_setFill (h : s.drawnOk) {f : Option Fill}
    (hf : ∀ g, f = some g → (s.slot g.slot).source = .makeup → g.drawn = g.entries.filterMap Entry.value ∧ ∀ x ∈ g.drawn, x ∈ s.heldValues) :
    (s.setFill f).drawnOk := by
  refine h.of_held (fun d hd => h.1 d hd) (fun g hg hm => (hf g hg hm).1) (fun x hx => ?_) fun x hx => hx
  rcases State.mem_heldValues.mp hx with hd | ⟨g, hg, hm, hxg⟩ | hr
  · exact State.mem_heldValues.mpr (.inl hd)
  · exact (hf g hg hm).2 x hxg
  · exact State.mem_heldValues.mpr (.inr (.inr hr))

theorem State.mem_heldValues_fill {f : Fill} (hf : s.queue.fill = some f) (hm : (s.slot f.slot).source = .makeup) {x : Nat} (hx : x ∈ f.drawn) :
    x ∈ s.heldValues := State.mem_heldValues.mpr (.inr (.inl ⟨f, hf, hm, hx⟩))

theorem State.drawnOk_shrink (h : s.drawnOk) {q : DraftQueue} (hq : s.queue.Shrinks q) : State.drawnOk { s with queue := q } := by
  obtain ⟨-, hd, hf⟩ := hq
  have hfill : ∀ f, q.fill = some f → s.queue.fill = some f := fun f e => by
    rcases hf with e' | e'
    · exact e' ▸ e
    · rw [e'] at e; cases e
  refine h.of_held (fun d hdq hm => ?_) (fun f hfq => h.2.1 f (hfill f hfq)) (fun x hx => ?_) fun x hx => hx
  · obtain ⟨e, he, hde⟩ := hd d hdq
    rw [hde] at hm ⊢
    exact h.1 e he hm
  · rw [State.mem_heldValues] at hx ⊢
    rcases hx with ⟨d, hdq, hm, hxd⟩ | ⟨f, hfq, hx⟩ | hr
    · obtain ⟨e, he, hde⟩ := hd d hdq
      rw [hde] at hm hxd
      exact .inl ⟨e, he, hm, hxd⟩
    · exact .inr (.inl ⟨f, hfill f hfq, hx⟩)
    · exact .inr (.inr hr)

theorem Fill.Work.drawn {f g : Fill} (h : f.Work g) (hf : f.drawn = f.entries.filterMap Entry.value) : g.drawn = g.entries.filterMap Entry.value := by
  obtain ⟨he, hentries⟩ := h
  have hdrawn : g.drawn = f.drawn := by rw [he]
  rw [hdrawn, hf]
  rcases hentries with e | e <;> rw [e]
  rw [List.filterMap_append]
  exact (List.append_nil _).symm

/-- Every move keeps what is held off the list (R130). -/
theorem Move.drawnOk (ho : o.slotsOk) (hb : o.booksOk) (m : Move o s t) (hv : s.voids.ok) (h : s.drawnOk) : t.drawnOk := by
  have slots : ∀ u : State, u.queue = s.queue → u.window.records = s.window.records → u.voids = s.voids →
      (∀ i, (u.slot i).source = (s.slot i).source) → u.drawnOk := fun u hq hw hv hs => h.of_same hq hw hs hv
  have mod : ∀ (i : SlotId) (f : JobSlot → JobSlot), (f (s.slot i)).source = (s.slot i).source → (s.modSlot i f).drawnOk :=
    fun i f hf => slots _ (by simp) (by simp) (by simp) (State.modSlot_proj JobSlot.source hf)
  cases m with
  | strt => exact State.drawnOk_fresh (by simp) (by simp)
  | reset | softReset => exact State.drawnOk_fresh rfl rfl
  | slot _ i j hw => exact mod i _ hw.2.2.2.2.2.2.1
  | load i bs hl => exact State.drawnOk_load h ho hb hl
  | restore _ i => exact mod i _ rfl
  | stage _ i => exact mod i.other _ rfl
  | drain _ i => exact mod i _ rfl
  | change _ i j =>
    exact slots _ (by simp) (by simp) (by simp) fun k => (State.modSlot_proj JobSlot.source rfl k).trans (State.modSlot_proj JobSlot.source rfl k)
  | endRun _ i =>
    exact slots _ (by simp) (by simp) (by simp) fun k =>
      (State.killStaged_proj JobSlot.source (fun _ => rfl) k).trans (State.modSlot_proj JobSlot.source rfl k)
  | unstage => exact slots _ (by simp) (by simp) (by simp) (State.killStaged_proj JobSlot.source fun _ => rfl)
  | appendEnd _ i bs rest at' =>
    refine slots _ (by simp [State.appended]) (by simp [State.appended]) (by simp [State.appended]) fun k => ?_
    rw [State.stopTimers_slot]
    exact (State.modSlot_proj JobSlot.source rfl k).trans (by rw [State.slot_congr (s := s) (t := s.appended at' bs rest) rfl rfl])
  | insert _ lo hi hle => exact State.drawnOk_insert h hv hle
  | draw _ f x hf => exact State.drawnOk_draw h hv hf _ x
  | clearList => exact ⟨h.1, h.2.1, fun x _ => rfl⟩
  | records _ f hf => exact State.drawnOk_records h hf
  | leave =>
    refine h.of_held (fun d hd => h.1 d hd) (fun g hg => h.2.1 g hg) (fun x hx => ?_) fun x hx => hx
    rw [State.mem_heldValues] at hx ⊢
    rcases hx with hd | hg | ⟨r, hr, hx⟩
    · exact .inl hd
    · exact .inr (.inl hg)
    · exact .inr (.inr ⟨r, List.mem_of_mem_filter hr, hx⟩)
  | opens _ d rest hd =>
    obtain ⟨g, hq, -⟩ := (s.openable_iff d rest).mp hd
    exact State.drawnOk_opens h hq
  | startFill _ f hf =>
    obtain ⟨hentries, -, hdrawn, -⟩ := State.nextFill_spec hf
    refine State.drawnOk_setFill h fun g hg _ => ?_
    obtain rfl := Option.some.inj hg
    rw [hentries, hdrawn]
    exact ⟨rfl, nofun⟩
  | take _ f i c hf =>
    obtain ⟨hfill, hsrc, -⟩ := State.fillAtWork_spec hf
    refine State.drawnOk_setFill (mod f.slot _ rfl) fun g hg hm => ?_
    obtain rfl := Option.some.inj hg
    rw [show (f.took (c.take (s.slot f.slot).rules)).slot = f.slot from rfl, State.modSlot_slot_self] at hm
    rw [show (s.slot f.slot).source = .makeup from hm] at hsrc
    cases hsrc
  | fillStep _ f g hf hn hg =>
    refine State.drawnOk_setFill h fun g' hg' hm => ?_
    obtain rfl := Option.some.inj hg'
    have hslot : g.slot = f.slot := by rw [hg.1]
    have hdrawn : g.drawn = f.drawn := by rw [hg.1]
    rw [hslot] at hm
    exact ⟨hg.drawn (h.2.1 f hf hm), fun x hx => State.mem_heldValues_fill hf hm (hdrawn ▸ hx)⟩
  | draft _ f hf =>
    refine h.of_held (fun d hd hm => ?_) (fun g hg => nomatch hg) (fun x hx => ?_) fun x hx => hx
    · rcases List.mem_append.mp hd with hd | hd
      · exact h.1 d hd hm
      · obtain rfl := List.mem_singleton.mp hd
        exact h.2.1 f hf hm
    · rw [State.mem_heldValues] at hx ⊢
      rcases hx with ⟨d, hd, hm, hxd⟩ | ⟨g, hg, -⟩ | hr
      · rcases List.mem_append.mp hd with hd | hd
        · exact .inl ⟨d, hd, hm, hxd⟩
        · obtain rfl := List.mem_singleton.mp hd
          exact .inr (.inl ⟨f, hf, hm, hxd⟩)
      · cases hg
      · exact .inr (.inr hr)
  | shrink _ q hq => exact State.drawnOk_shrink h hq
  | _ => exact slots _ (by simp) (by simp) (by simp) fun i => by cases i <;> simp

end

end Sys2Proof.Machine
end
section
/-! Every elementary move keeps the ring, the plan, the receiver, the tallies and the supervisor port in order, and O59 (R2, R83, R88,
R104, R143 to R148, R177, R181, R187). -/

namespace Sys2Proof.Machine

section
variable {o s t : State}

/-! ### The plan (R2, R5, R6) -/

theorem planOf_ok {bs : Bytes} (h : planBlockOk bs = true) : (planOf bs).ok := by
  simp only [planBlockOk, Bool.and_eq_true, decide_eq_true_eq, List.all_eq_true, List.mem_range, ne_eq] at h
  obtain ⟨⟨⟨⟨⟨hp, hall⟩, hnodup⟩, hdiv⟩, hwin⟩, hbuf⟩ := h
  have hne : ∀ b : Byte, b ≠ 0 → 1 ≤ b.toNat := fun b hb => Nat.one_le_iff_ne_zero.mpr fun e => hb (BitVec.eq_of_toNat_eq e)
  have h1 := hne _ hwin
  have h2 := hne _ hbuf
  refine ⟨by simpa [planOf, planPlies] using hp, hnodup, fun e he => ?_, ?_, hdiv, ?_, ?_, ?_, ?_, ?_⟩
  · obtain ⟨k, hk, rfl⟩ := List.mem_map.mp he
    exact (hall k (List.mem_range.mp hk)).2
  · have := field_lt bs 13 2
    show field bs 13 2 ≤ max16
    simp only [max16]
    omega
  · have := field_lt bs 15 2
    show field bs 15 2 ≤ max16
    simp only [max16]
    omega
  · show 1 ≤ min (byteAt bs 17).toNat 48
    omega
  · exact Nat.min_le_right _ _
  · show 1 ≤ min (byteAt bs 18).toNat 32
    omega
  · exact Nat.min_le_right _ _

theorem Plan.reset_ok : State.reset.plan.ok := by
  unfold Plan.ok
  decide

theorem Move.plan_ok (m : Move o s t) (h : s.plan.ok) : t.plan.ok := by
  cases m with
  | reset => exact Plan.reset_ok
  | softReset => exact h
  | plan _ new _ hn =>
    rcases hn with rfl | ⟨bs, hb, rfl⟩
    · obtain ⟨-, -, -, h4, h5, h6, h7, h8, h9, h10⟩ := h
      exact ⟨Nat.zero_le _, List.nodup_nil, nofun, h4, h5, h6, h7, h8, h9, h10⟩
    · exact planOf_ok hb
  | _ => simpa using h

/-! ### The receiver and the supervisor port -/

theorem Move.receiver_ok (m : Move o s t) (h : s.receiver.ok) : t.receiver.ok := by
  cases m with
  | reset => exact Receiver.reset_ok
  | softReset => exact Receiver.reset_ok
  | receiver _ v hv => exact hv h
  | strt => rw [State.startRunBase_receiver]; exact Receiver.noVerdict_ok h
  | plan _ new =>
    unfold State.storePlan
    dsimp only
    split_ifs
    · exact h
    · exact Receiver.divisorChanged_ok h
  | _ => simpa using h

theorem Move.sup_ok (m : Move o s t) (h : s.sup.ok) : t.sup.ok := by
  cases m with
  | reset => exact ⟨rfl, rfl, Nat.zero_lt_succ _, nofun, nofun, fun _ => .inl rfl⟩
  | softReset =>
    obtain ⟨-, h2, -, -, -, h6⟩ := h
    exact ⟨rfl, h2, Nat.zero_lt_succ _, nofun, nofun, h6⟩
  | sup _ u hu => exact hu h
  | _ => simpa using h

/-! ### The tallies (R104) -/

theorem Tally.zero_ok : Tally.zero.ok := by
  unfold Tally.ok
  decide

theorem State.tallies_of_proj (h : ∀ i, (s.slot i).tally.ok) (hs : ∀ i, (t.slot i).tally = (s.slot i).tally) : ∀ i, (t.slot i).tally.ok :=
  fun i => hs i ▸ h i

theorem Move.tally_ok (m : Move o s t) (h : ∀ i, (s.slot i).tally.ok) : ∀ i, (t.slot i).tally.ok := by
  cases m with
  | reset | softReset => exact fun i => by cases i <;> exact Tally.zero_ok
  | slot _ i j hw =>
    intro k
    rw [State.modSlot_slot]
    split_ifs with hk
    · exact hw.2.2.2.2.2.1 (h i)
    · exact h k
  | load i bs =>
    intro k
    rw [State.modSlot_slot]
    split_ifs with hk
    · exact Tally.zero_ok
    · exact h k
  | strt _ i =>
    intro k
    rw [State.startRunBase_slot]
    split_ifs with hk
    · exact h i
    · exact h k
  | restore | stage | drain => exact State.tallies_of_proj h (State.modSlot_proj JobSlot.tally rfl)
  | change =>
    exact State.tallies_of_proj h fun k => (State.modSlot_proj JobSlot.tally rfl k).trans (State.modSlot_proj JobSlot.tally rfl k)
  | endRun =>
    exact State.tallies_of_proj h fun k => (State.killStaged_proj JobSlot.tally (fun _ => rfl) k).trans (State.modSlot_proj JobSlot.tally rfl k)
  | unstage => exact State.tallies_of_proj h (State.killStaged_proj JobSlot.tally fun _ => rfl)
  | appendEnd _ i bs rest at' =>
    refine State.tallies_of_proj h fun k => ?_
    rw [State.stopTimers_slot]
    exact (State.modSlot_proj JobSlot.tally rfl k).trans (by rw [State.slot_congr (s := s) (t := s.appended at' bs rest) rfl rfl])
  | take =>
    exact State.tallies_of_proj h fun k => State.modSlot_proj JobSlot.tally rfl k
  | _ => exact State.tallies_of_proj h fun i => by cases i <;> simp

/-! ### The ring (R143 to R148) -/

theorem recordHeader_length (type n tag r c sv l : Nat) : (recordHeader type n tag r c sv l).length = 12 := by
  simp [recordHeader, beBytes_length]

theorem Record.bytes_length (tag : Nat) (r : Record) : (r.bytes tag).length = 12 + 8 * r.positions.length := by
  have hp : ∀ p : Position, p.bytes.length = 8 := fun p => by simp [Position.bytes, beBytes_length]
  rw [Record.bytes, List.length_append, recordHeader_length, List.length_flatMap]
  congr 1
  rw [List.map_congr_left fun p _ => hp p, List.map_const', List.sum_replicate, smul_eq_mul, Nat.mul_comm]

/-- No record of the account is empty or longer than a record of 16 positions (R143). -/
theorem State.itemBytes_length (hs : s.sizesOk) (ha : s.account.ok) {it : Item} {rest : List Item} (hq : s.account.queue = it :: rest) :
    1 ≤ (s.itemBytes it).length ∧ (s.itemBytes it).length ≤ 140 := by
  have hsize := ha.2.2.2.2.1 it (hq ▸ List.mem_cons_self)
  cases it with
  | repeatItem r =>
    cases hr : s.record r with
    | none =>
      rw [show s.itemBytes (.repeatItem r) = recordHeader 1 0 0 r 0 0 0 by simp only [State.itemBytes, hr], recordHeader_length]
      omega
    | some x =>
      rw [show s.itemBytes (.repeatItem r) = x.bytes (s.slot x.slot).tag by simp only [State.itemBytes, hr], Record.bytes_length]
      have := hs.2.2.2 x (State.record_mem hr).1
      omega
  | jobStart i bs =>
    have : bs.length = 32 := hsize
    show 1 ≤ bs.length ∧ bs.length ≤ 140
    omega
  | jobEnd i bs =>
    have : bs.length = 52 := hsize
    show 1 ≤ bs.length ∧ bs.length ≤ 140
    omega
  | postVoid bs =>
    have : bs.length = 24 := hsize
    show 1 ≤ bs.length ∧ bs.length ≤ 140
    omega

/-- Where a record of at most 8192 bytes is placed, it ends within the ring (R147). -/
theorem Account.place_le {a : Account} (ha : a.ok) {z at' : Nat} (hz : z ≤ ringSize) (h : a.place z = some at') : at' + z ≤ ringSize := by
  obtain ⟨-, hwo, hro, -⟩ := ha
  unfold Account.place at h
  split_ifs at h <;> simp only [Option.some.injEq] at h <;> omega

theorem Account.appended_ok {a : Account} (ha : a.ok) {bs : Bytes} {it : Item} {rest : List Item} {at' : Nat} (hq : a.queue = it :: rest)
    (hd : a.due = true) (h1 : 1 ≤ bs.length) (h2 : bs.length ≤ 140) (hp : a.place bs.length = some at') :
    Account.ok { a.placed at' bs with queue := rest, full := false } := by
  have hle := Account.place_le ha (h2.trans (by decide)) hp
  obtain ⟨hwf, hwo, hro, htail, hsizes, -, -⟩ := ha
  refine ⟨Memory.writeBytes_wf hwf _ _, ?_, ?_, fun x hx => ?_, fun i hi => hsizes i (hq ▸ List.mem_cons_of_mem it hi), fun _ => .inl hd, nofun⟩
  · show (if at' + bs.length = ringSize then 0 else at' + bs.length) < ringSize
    split_ifs <;> simp only [ringSize] at * <;> omega
  · show (if a.count = 0 then at' else a.ro) < ringSize
    split_ifs
    · simp only [ringSize] at *
      omega
    · exact hro
  · have hx' : (if a.count = 0 then none else if at' = a.wo then a.tail else some a.wo) = some x := hx
    split_ifs at hx'
    · exact htail x hx'
    · obtain rfl := Option.some.inj hx'
      exact hwo

theorem Account.enqueue_ok (ha : s.account.ok) {it : Item} (hz : it.sizeOk) : (s.enqueue it).account.ok := by
  obtain ⟨hwf, hwo, hro, htail, hsizes, hdue, -⟩ := ha
  refine ⟨hwf, hwo, hro, htail, fun i hi => ?_, fun _ => ?_, fun _ => by simp [State.enqueue]⟩
  · rcases List.mem_append.mp (show i ∈ s.account.queue ++ [it] from hi) with hi | hi
    · exact hsizes i hi
    · rw [List.mem_singleton.mp hi]; exact hz
  · show (s.account.due || s.account.queue.isEmpty) = true ∨ s.account.full = true
    cases hq : s.account.queue with
    | nil => simp
    | cons x l =>
      rcases hdue (by simp [hq]) with h | h <;> simp [h]

theorem State.sizesOk_of_proj (h : s.sizesOk) (hg : ∀ i, (t.slot i).geometry = (s.slot i).geometry) (hq : t.queue = s.queue)
    (hw : t.window.records = s.window.records) : t.sizesOk := by
  obtain ⟨h1, h2, h3, h4⟩ := h
  refine ⟨fun i => ?_, fun f hf => h2 f (hq ▸ hf), fun d hd => h3 d (hq ▸ hd), fun x hx => h4 x (hw ▸ hx)⟩
  rw [JobSlot.positions, hg]
  exact h1 i

theorem JobSlot.positions_le {bs : Bytes} (h : jobBlockOk bs = true) : (loadedJob bs).positions ≤ 16 := by
  simp only [jobBlockOk, Bool.and_eq_true, decide_eq_true_eq] at h
  obtain ⟨⟨⟨⟨⟨⟨⟨⟨-, h1⟩, -⟩, h2⟩, -⟩, -⟩, -⟩, -⟩, -⟩ := h
  exact (Nat.mul_le_mul h1 h2).trans (by decide)

theorem Record.Work.positions_length {x y : Record} (h : x.Work y) : y.positions.length = x.positions.length := by
  have := congrArg List.length h.2.2.1
  simpa using this

theorem State.sizesOk_setFill (h : s.sizesOk) {f : Option Fill} (hf : ∀ g, f = some g → g.entries.length ≤ 16) : (s.setFill f).sizesOk :=
  ⟨h.1, hf, h.2.2⟩

theorem State.sizesOk_fresh (hp : ∀ i, (t.slot i).positions ≤ 16) (hq : t.queue = .empty) (hw : t.window = .empty) : t.sizesOk :=
  ⟨hp, by rw [hq]; nofun, by rw [hq]; nofun, by rw [hw]; nofun⟩

theorem Move.sizesOk (m : Move o s t) (h : s.sizesOk) : t.sizesOk := by
  have mod : ∀ (i : SlotId) (f : JobSlot → JobSlot), (f (s.slot i)).geometry = (s.slot i).geometry → (s.modSlot i f).sizesOk :=
    fun i f hf => State.sizesOk_of_proj h (State.modSlot_proj JobSlot.geometry hf) (by simp) (by simp)
  cases m with
  | reset | softReset => exact State.sizesOk_fresh (fun i => by cases i <;> exact Nat.zero_le _) rfl rfl
  | strt _ i =>
    refine State.sizesOk_fresh (fun k => ?_) (by simp) (by simp)
    rw [State.startRunBase_slot]
    split_ifs
    · exact h.1 i
    · exact h.1 k
  | slot _ i j hw => exact mod i _ hw.2.2.2.2.1
  | load i bs _ _ hb =>
    refine ⟨fun k => ?_, by simpa using h.2⟩
    rw [State.modSlot_slot]
    split_ifs
    · exact JobSlot.positions_le hb
    · exact h.1 k
  | restore _ i => exact mod i _ rfl
  | stage _ i => exact mod i.other _ rfl
  | drain _ i => exact mod i _ rfl
  | change _ i j =>
    exact State.sizesOk_of_proj h (fun k => (State.modSlot_proj JobSlot.geometry rfl k).trans (State.modSlot_proj JobSlot.geometry rfl k))
      (by simp) (by simp)
  | endRun _ i =>
    exact State.sizesOk_of_proj h (fun k =>
      (State.killStaged_proj JobSlot.geometry (fun _ => rfl) k).trans (State.modSlot_proj JobSlot.geometry rfl k)) (by simp) (by simp)
  | unstage => exact State.sizesOk_of_proj h (State.killStaged_proj JobSlot.geometry fun _ => rfl) (by simp) (by simp)
  | appendEnd _ i bs rest at' =>
    refine State.sizesOk_of_proj h (fun k => ?_) (by simp [State.appended]) (by simp [State.appended])
    rw [State.stopTimers_slot]
    exact (State.modSlot_proj JobSlot.geometry rfl k).trans (by rw [State.slot_congr (s := s) (t := s.appended at' bs rest) rfl rfl])
  | records _ f hf =>
    refine ⟨h.1, h.2.1, h.2.2.1, fun x hx => ?_⟩
    obtain ⟨z, hz, rfl⟩ := List.mem_map.mp hx
    obtain ⟨y, hy, -, hw⟩ := hf z hz
    rw [hw.positions_length]
    exact h.2.2.2 y hy
  | leave => exact ⟨h.1, h.2.1, h.2.2.1, fun x hx => h.2.2.2 x (List.mem_of_mem_filter hx)⟩
  | opens _ d rest hd =>
    obtain ⟨g, hq, -⟩ := (s.openable_iff d rest).mp hd
    refine ⟨h.1, h.2.1, fun e he => h.2.2.1 e (hq ▸ List.mem_cons_of_mem d he), fun x hx => ?_⟩
    rcases List.mem_append.mp hx with hx | hx
    · exact h.2.2.2 x hx
    · obtain rfl := List.mem_singleton.mp hx
      show (d.entries.map Position.opened).length ≤ 16
      rw [List.length_map]
      exact h.2.2.1 d (hq ▸ List.mem_cons_self)
  | startFill _ f hf =>
    refine State.sizesOk_setFill h fun g hg => ?_
    obtain rfl := Option.some.inj hg
    rw [(State.nextFill_spec hf).1]
    exact Nat.zero_le _
  | take _ f i c hf =>
    obtain ⟨-, -, hlen⟩ := State.fillAtWork_spec hf
    refine State.sizesOk_setFill (mod f.slot _ rfl) fun g hg => ?_
    obtain rfl := Option.some.inj hg
    have := h.1 f.slot
    show (f.entries ++ [_]).length ≤ 16
    rw [List.length_append, List.length_singleton]
    omega
  | draw _ f x hf =>
    obtain ⟨-, -, hlen⟩ := State.fillAtWork_spec hf
    refine ⟨h.1, fun g hg => ?_, h.2.2⟩
    obtain rfl := Option.some.inj hg
    have := h.1 f.slot
    show (f.entries ++ [_]).length ≤ 16
    rw [List.length_append, List.length_singleton]
    omega
  | fillStep _ f g hf hn hg =>
    refine State.sizesOk_setFill h fun g' hg' => ?_
    obtain rfl := Option.some.inj hg'
    have := h.1 f.slot
    rcases hg.2 with e | e
    · rw [e]; omega
    · rw [e, List.length_append, List.length_singleton]; omega
  | draft _ f hf =>
    refine ⟨h.1, nofun, fun d hd => ?_, h.2.2.2⟩
    rcases List.mem_append.mp hd with hd | hd
    · exact h.2.2.1 d hd
    · obtain rfl := List.mem_singleton.mp hd
      exact h.2.1 f hf
  | shrink _ q hq =>
    obtain ⟨-, hd, hf⟩ := hq
    refine ⟨h.1, fun f hfq => ?_, fun d hdq => ?_, h.2.2.2⟩
    · rcases hf with e | e
      · exact h.2.1 f (e ▸ hfq)
      · rw [show q.fill = some f from hfq] at e; cases e
    · obtain ⟨e, he, hde⟩ := hd d hdq
      rw [hde]
      exact h.2.2.1 e he
  | _ => exact State.sizesOk_of_proj h (fun i => by cases i <;> simp) (by simp) (by simp)

theorem Move.account_ok (m : Move o s t) (hs : s.sizesOk) (h : s.account.ok) : t.account.ok := by
  have h' := h
  obtain ⟨hwf, hwo, hro, htail, hsizes, hdue, hfull⟩ := h'
  cases m with
  | reset => exact ⟨Account.reset_ring_wf, Nat.zero_lt_succ _, Nat.zero_lt_succ _, nofun, nofun, nofun, nofun⟩
  | softReset => exact ⟨hwf, hwo, hro, htail, nofun, nofun, nofun⟩
  | enqueue _ it hz => exact Account.enqueue_ok h hz
  | bufferHigh => exact h
  | blocked _ hq => exact ⟨hwf, hwo, hro, htail, hsizes, fun _ => .inr rfl, fun _ => hq⟩
  | emptyQueue _ hq => exact ⟨hwf, hwo, hro, htail, hsizes, fun hn => absurd hq hn, hfull⟩
  | markDue =>
    refine ⟨hwf, hwo, hro, htail, hsizes, fun hn => .inl ?_, hfull⟩
    have hn' : s.account.queue ≠ [] := hn
    simpa [State.markDue] using hn'
  | append _ it rest at' hq hd hp =>
    obtain ⟨h1, h2⟩ := State.itemBytes_length hs h hq
    exact Account.appended_ok h hq hd h1 h2 hp
  | appendEnd _ i bs rest at' hq hd hp =>
    obtain ⟨h1, h2⟩ := State.itemBytes_length hs h hq
    rw [State.stopTimers_account, State.modSlot_account]
    exact Account.appended_ok h hq hd h1 h2 hp
  | release =>
    refine ⟨hwf, hwo, ?_, fun x hx => ?_, hsizes, hdue, hfull⟩
    · show (if s.account.tail = some (s.account.ro + s.account.oldestSize) then 0 else (s.account.ro + s.account.oldestSize) % ringSize) < ringSize
      split_ifs
      · decide
      · exact Nat.mod_lt _ (by decide)
    · have hx' : (if s.account.tail = some (s.account.ro + s.account.oldestSize) then none else s.account.tail) = some x := hx
      split_ifs at hx'
      exact htail x hx'
  | _ => simpa using h

end

/-- Settles O59: each store is kept by every move; the tallies are followed, with the books, operation by operation. -/
theorem stepKeepsStoresInOrder : Obligations.StepKeepsStoresInOrder := by
  intro s t h
  refine ⟨step_keeps (P := fun s => s.voids.ok) (fun _ _ => id) (fun _ _ _ => Move.voids_ok) h, fun hs ha => ?_,
    step_keeps (P := fun s => s.plan.ok) (fun _ _ => id) (fun _ _ _ => Move.plan_ok) h,
    step_keeps (P := fun s => s.receiver.ok) (fun _ _ => id) (fun _ _ _ => Move.receiver_ok) h,
    step_keeps (P := fun s => ∀ i, (s.slot i).tally.ok) (fun _ _ => id) (fun _ _ _ => Move.tally_ok) h,
    step_keeps (P := fun s => s.sup.ok) (fun _ _ => id) (fun _ _ _ => Move.sup_ok) h, fun hv hs hb hd => ?_, fun hw hs hb hbal hu i => ?_⟩
  · exact step_keeps (P := fun s => s.sizesOk ∧ s.account.ok) (fun _ _ => id) (fun _ _ _ m h => ⟨m.sizesOk h.1, m.account_ok h.1 h.2⟩) h ⟨hs, ha⟩
  · exact (step_keeps_from (I := fun o => o.slotsOk ∧ o.booksOk) (P := fun s => s.voids.ok ∧ s.drawnOk) (fun _ _ hi hp => ⟨hi, hp⟩)
      (fun _ hi _ _ _ m hp => ⟨m.voids_ok hp.1, m.drawnOk hi.1 hi.2 hp.1 hp.2⟩) h ⟨hs, hb⟩ ⟨hv, hd⟩).2
  · exact (State.InOrder.step (audited := True) ⟨hw, hs, hb, fun _ i _ => hbal i⟩ (fun _ => hbal) h).balance trivial i (hu i)

end Sys2Proof.Machine
end
section
/-! A step takes one command, every command is taken and leaves the queue of commands alone (O1, O2). -/

namespace Sys2Proof.Machine

/-- No move touches the queue of commands. -/
theorem Move.pending {o s t : State} (h : Move o s t) : t.pending = s.pending := by
  cases h <;> simp [State.startRunBase, State.storePlan, State.appended, State.softReset, State.forPorts_field State.pending]

theorem exec_pending {c : Instr} {s t : State} (h : exec c s = .next t) : t.pending = s.pending :=
  (exec_moves c h).keeps (P := fun u => u.pending = s.pending) (fun _ _ hm hu => hm.pending.trans hu) rfl

/-! ### The commands whose arms look at the state before they answer -/

theorem execProbe_next (p : PortId) (m : Moment Bool) (s : State) : ∃ t, execProbe p m s = .next t := by
  cases m <;> exact ⟨_, rfl⟩

theorem execRequest_next (p : PortId) (m : Moment Bytes) (s : State) : ∃ t, execRequest p m s = .next t := by
  cases m <;> exact ⟨_, rfl⟩

theorem execWaste_next (p : PortId) (m : Moment Bytes) (s : State) : ∃ t, execWaste p m s = .next t := by
  cases m <;> exact ⟨_, rfl⟩

theorem execMisfire_next (p : PortId) (m : Moment Bytes) (s : State) : ∃ t, execMisfire p m s = .next t := by
  cases m <;> exact ⟨_, rfl⟩

theorem execFetch_next (p : PortId) (m : Moment Bool) (s : State) : ∃ t, execFetch p m s = .next t := by
  cases m <;> exact ⟨_, rfl⟩

theorem execUnknownCommandFrame_next (p : PortId) (c : Option Byte) (m : Moment Bytes) (s : State) :
    ∃ t, execUnknownCommandFrame p c m s = .next t := by
  cases m with
  | select b => exact ⟨_, rfl⟩
  | taken body =>
    unfold execUnknownCommandFrame
    dsimp only
    split
    · exact execProbe_next _ _ s
    · exact execRequest_next _ _ s
    · exact execWaste_next _ _ s
    · exact execMisfire_next _ _ s
    · exact execFetch_next _ _ s
    · exact ⟨_, rfl⟩

theorem execFetchComplete_next (p : PortId) (s : State) : ∃ t, execFetchComplete p s = .next t := by
  unfold execFetchComplete
  split
  · exact ⟨_, rfl⟩
  · split_ifs <;> exact ⟨_, rfl⟩

theorem execAnswerReady_next (p : PortId) (s : State) : ∃ t, execAnswerReady p s = .next t := by
  unfold execAnswerReady
  split <;> exact ⟨_, rfl⟩

theorem execTake_next (s : State) : ∃ t, execTake s = .next t := by
  unfold execTake
  split
  · exact ⟨_, rfl⟩
  · dsimp only
    split <;> exact ⟨_, rfl⟩

theorem execMakeupDraw_next (s : State) (lookups : Option Nat) : ∃ t, execMakeupDraw s lookups = .next t := by
  unfold execMakeupDraw
  split
  · exact ⟨_, rfl⟩
  · dsimp only
    split_ifs
    · exact ⟨_, rfl⟩
    · split <;> exact ⟨_, rfl⟩

theorem execFillComplete_next (s : State) : ∃ t, execFillComplete s = .next t := by
  unfold execFillComplete
  split
  · exact ⟨_, rfl⟩
  · dsimp only
    split_ifs <;> exact ⟨_, rfl⟩

theorem execAssemblerTakeByte_next (s : State) : ∃ t, execAssemblerTakeByte s = .next t := by
  unfold execAssemblerTakeByte
  split <;> exact ⟨_, rfl⟩

theorem execCloseUnverified_next (s : State) (inserts : Option Nat) : ∃ t, execCloseUnverified s inserts = .next t := by
  unfold execCloseUnverified
  split
  · exact ⟨_, rfl⟩
  · exact ⟨_, rfl⟩
  · split <;> exact ⟨_, rfl⟩

theorem execFrameVerdict_next (s : State) (inserts : Option Nat) : ∃ t, execFrameVerdict s inserts = .next t := by
  unfold execFrameVerdict
  split
  · exact ⟨_, rfl⟩
  · exact ⟨_, rfl⟩
  · split <;> exact ⟨_, rfl⟩

/-- Every command is taken in every state: no row faults and none is refused. -/
theorem exec_next (c : Instr) (s : State) : ∃ t, exec c s = .next t := by
  cases c with
  | probe p m => exact execProbe_next p m s
  | request p m => exact execRequest_next p m s
  | waste p m => exact execWaste_next p m s
  | misfire p m => exact execMisfire_next p m s
  | fetch p m => exact execFetch_next p m s
  | fetchComplete p => exact execFetchComplete_next p s
  | unknownCommandFrame p c m => exact execUnknownCommandFrame_next p c m s
  | answerReady p => exact execAnswerReady_next p s
  | take => exact execTake_next s
  | makeupDraw lookups => exact execMakeupDraw_next s lookups
  | fillComplete => exact execFillComplete_next s
  | assemblerTakeByte => exact execAssemblerTakeByte_next s
  | closeUnverified inserts => exact execCloseUnverified_next s inserts
  | frameVerdict inserts => exact execFrameVerdict_next s inserts
  | _ => exact ⟨_, rfl⟩

/-- Settles O1: the step's own case of a queue that is not empty. -/
theorem stepTakesFrontCommand : Obligations.StepTakesFrontCommand := by
  intro c rest s h
  rw [step, h]

/-- Settles O2: every command answers with a next state, and its moves leave the queue of commands alone. -/
theorem everyCommandIsTaken : Obligations.EveryCommandIsTaken := fun c s => by
  obtain ⟨t, ht⟩ := exec_next c s
  exact ⟨t, ht, exec_pending ht⟩

end Sys2Proof.Machine
end

section
/-! The task rows: what each does where it takes its task (R180, log 8). One equation for each row; the statements about tasks go through these. -/

namespace Sys2Proof.Machine

section
variable {s : State} {bs : Bytes}

theorem exec_plan (h : s.takesTask .plan bs) : exec .plan s = .next (s.carryOut wordPlan bs runPlan) :=
  congrArg Host.Outcome.next (State.taskRow_of_takesTask h rfl _)

theorem exec_ldjb (h : s.takesTask .ldjb bs) : exec .ldjb s = .next (s.carryOut wordLdjb bs runLdjb) :=
  congrArg Host.Outcome.next (State.taskRow_of_takesTask h rfl _)

theorem exec_strt (h : s.takesTask .strt bs) : exec .strt s = .next (s.carryOut wordStrt bs runStrt) :=
  congrArg Host.Outcome.next (State.taskRow_of_takesTask h rfl _)

theorem exec_swap (h : s.takesTask .swap bs) : exec .swap s = .next (s.carryOut wordSwap bs runSwap) :=
  congrArg Host.Outcome.next (State.taskRow_of_takesTask h rfl _)

theorem exec_stop (h : s.takesTask .stop bs) : exec .stop s = .next (s.carryOut wordStop bs runStop) :=
  congrArg Host.Outcome.next (State.taskRow_of_takesTask h rfl _)

theorem exec_quit (h : s.takesTask .quit bs) : exec .quit s = .next (s.carryOut wordQuit bs runQuit) :=
  congrArg Host.Outcome.next (State.taskRow_of_takesTask h rfl _)

theorem exec_admt (h : s.takesTask .admt bs) : exec .admt s = .next (s.carryOut wordAdmt bs runAdmt) :=
  congrArg Host.Outcome.next (State.taskRow_of_takesTask h rfl _)

theorem exec_rlse (h : s.takesTask .rlse bs) : exec .rlse s = .next (s.carryOut wordRlse bs runRlse) :=
  congrArg Host.Outcome.next (State.taskRow_of_takesTask h rfl _)

theorem exec_pvod (h : s.takesTask .pvod bs) : exec .pvod s = .next (s.carryOut wordPvod bs runPvod) :=
  congrArg Host.Outcome.next (State.taskRow_of_takesTask h rfl _)

theorem exec_vlcl (h : s.takesTask .vlcl bs) : exec .vlcl s = .next (s.carryOut wordVlcl bs runVlcl) :=
  congrArg Host.Outcome.next (State.taskRow_of_takesTask h rfl _)

theorem exec_rset (h : s.takesTask .rset bs) : exec .rset s = .next (s.carryOut wordRset bs runRset) :=
  congrArg Host.Outcome.next (State.taskRow_of_takesTask h rfl _)

end

/-! ### The fields of the state after a task was carried out -/

@[simp] theorem State.carryOut_plan (s : State) (word : BitVec 32) (bs : Bytes) (run : Bytes → State → TaskResult) :
    (s.carryOut word bs run).plan = (run bs s).2.plan := rfl

@[simp] theorem State.carryOut_slot (s : State) (word : BitVec 32) (bs : Bytes) (run : Bytes → State → TaskResult) (i : SlotId) :
    (s.carryOut word bs run).slot i = (run bs s).2.slot i := by cases i <;> rfl

@[simp] theorem State.carryOut_queue (s : State) (word : BitVec 32) (bs : Bytes) (run : Bytes → State → TaskResult) :
    (s.carryOut word bs run).queue = (run bs s).2.queue := rfl

@[simp] theorem State.carryOut_window (s : State) (word : BitVec 32) (bs : Bytes) (run : Bytes → State → TaskResult) :
    (s.carryOut word bs run).window = (run bs s).2.window := rfl

@[simp] theorem State.carryOut_receiver (s : State) (word : BitVec 32) (bs : Bytes) (run : Bytes → State → TaskResult) :
    (s.carryOut word bs run).receiver = (run bs s).2.receiver := rfl

@[simp] theorem State.carryOut_voids (s : State) (word : BitVec 32) (bs : Bytes) (run : Bytes → State → TaskResult) :
    (s.carryOut word bs run).voids = (run bs s).2.voids := rfl

@[simp] theorem State.carryOut_account (s : State) (word : BitVec 32) (bs : Bytes) (run : Bytes → State → TaskResult) :
    (s.carryOut word bs run).account = (run bs s).2.account := rfl

@[simp] theorem State.carryOut_port (s : State) (word : BitVec 32) (bs : Bytes) (run : Bytes → State → TaskResult) (p : PortId) :
    (s.carryOut word bs run).port p = (run bs s).2.port p := rfl

end Sys2Proof.Machine
end

section
/-! Reset: POWER_ON_RESET, RSET, and the standing conditions of the state after reset (O4, O19, O60). -/

namespace Sys2Proof.Machine

@[simp] theorem State.reset_slot (i : SlotId) : State.reset.slot i = .cleared := by cases i <;> rfl

@[simp] theorem State.reset_port (p : PortId) : State.reset.port p = .reset := by
  simp [State.port, State.reset]

theorem State.reset_idle : State.reset.inRun = false := rfl

theorem State.reset_claims : State.reset.claims = [] := rfl

theorem State.reset_booksOk : State.reset.booksOk :=
  State.booksOk_of_runOk ⟨State.claimsOk_nil State.reset_claims, State.firstOk_of_idle State.reset_idle, State.unappendedOk_nil rfl⟩ nofun

theorem State.reset_slotsOk : State.reset.slotsOk := by
  refine ⟨nofun, fun i => ?_⟩
  rw [State.reset_slot]
  exact ⟨⟨fun _ => rfl, fun _ => rfl⟩, nofun, Nat.zero_le _, nofun⟩

theorem State.reset_portsOk : State.reset.portsOk := fun p => by
  rw [State.reset_port]
  exact ⟨fun h => absurd rfl h, fun _ => ⟨rfl, rfl⟩, Nat.zero_le _, Nat.zero_le _, Nat.zero_le _, Nat.zero_le _, Nat.zero_le _⟩

theorem State.reset_timersOk : State.reset.timersOk := fun p => by
  rw [State.reset_port]
  exact ⟨⟨nofun, fun h => by cases h.2.1⟩, nofun⟩

theorem Account.reset_ok : Account.reset.ok :=
  ⟨⟨List.Pairwise.nil, nofun⟩, by decide, by decide, nofun, nofun, fun h => absurd rfl h, nofun⟩

theorem Supervisor.reset_ok (a b : Bool) : (Supervisor.reset a b).ok :=
  ⟨rfl, rfl, Nat.zero_lt_succ _, nofun, nofun, fun _ => .inl rfl⟩

theorem VoidList.reset_ok : VoidList.reset.ok :=
  ⟨⟨nofun, List.Pairwise.nil⟩, Nat.zero_le _, ⟨nofun, fun h => absurd rfl h⟩, Nat.zero_le _, Nat.zero_le _⟩

theorem State.reset_sizesOk : State.reset.sizesOk :=
  ⟨fun i => by rw [State.reset_slot]; exact Nat.zero_le _, nofun, nofun, nofun⟩

theorem State.reset_numbersOk : State.reset.numbersOk := by
  refine ⟨fun i => ?_, nofun, nofun, nofun⟩
  rw [State.reset_slot]
  exact ⟨Nat.zero_lt_one, Nat.zero_lt_one, nofun⟩

/-- Settles O60: reset leaves every collection empty and every count 0. -/
theorem resetMeetsEveryInvariant : Obligations.ResetMeetsEveryInvariant := by
  refine ⟨⟨List.Pairwise.nil, nofun⟩, State.reset_slotsOk, State.reset_portsOk, State.reset_timersOk, ⟨Nat.zero_le _, nofun⟩,
    VoidList.reset_ok, State.reset_sizesOk, Account.reset_ok, Plan.reset_ok, Receiver.reset_ok, fun i => ?_, Supervisor.reset_ok _ _,
    State.reset_booksOk, State.reset_numbersOk, ⟨nofun, nofun, nofun⟩, fun i h => ?_⟩
  · rw [State.reset_slot]
    exact Tally.zero_ok
  · rw [State.reset_slot] at h
    exact absurd rfl h

/-! ### POWER_ON_RESET -/

theorem State.attention_of_no_flag {s : State} (h : s.sup.events = 0) : s.attention = false := by
  simp [State.attention, h]

/-- Settles O4: POWER_ON_RESET takes the reset state whole, but for the sampled pins, the level of RUN and the queue of commands. -/
theorem powerOnResetLeavesResetValues : Obligations.PowerOnResetLeavesResetValues := by
  intro adr1 adr0 s
  refine ⟨_, rfl, rfl, fun i => ?_, rfl, rfl, rfl, rfl, ⟨rfl, rfl, rfl, rfl, rfl, rfl, rfl, rfl⟩, fun p => State.reset_port p,
    ⟨rfl, rfl, rfl, rfl, rfl, State.attention_of_no_flag rfl, rfl, rfl, rfl, rfl, rfl, rfl⟩, ?_, rfl, rfl⟩
  · cases i <;> exact ⟨rfl, rfl, rfl, rfl, rfl, rfl, rfl, rfl, rfl, rfl, rfl, rfl⟩
  · cases adr1 <;> cases adr0 <;> rfl

/-! ### RSET -/

/-- Settles O19: between runs RSET carries out the soft reset. -/
theorem rsetKeepsFourStores : Obligations.RsetKeepsFourStores := by
  intro bs s h hr
  have hrun : runRset bs s = (.carriedOut [], s.softReset) := by rw [runRset, hr]; rfl
  have hc : s.carryOut wordRset bs runRset = { s.softReset with sup := { s.softReset.sup with
      task := wordRset, running := some { word := wordRset, params := bs, outcome := some (.carriedOut []) } } } := by
    rw [State.carryOut, hrun]
  refine ⟨_, exec_rset h, ?_⟩
  rw [hc]
  refine ⟨rfl, rfl, rfl, fun i => ?_, rfl, rfl, rfl, fun p => ?_, rfl, rfl, rfl⟩
  · cases i <;> exact ⟨rfl, rfl, rfl, rfl⟩
  · simp [State.port, State.softReset, Port.softReset, Port.reset]

end Sys2Proof.Machine
end

section
/-! RUN and silence: what RUN_RISE, RUN_FALL, SILENCE_EXPIRY and an idle millisecond do (O3, O5, O6). -/

namespace Sys2Proof.Machine

/-! ### RUN (R173) -/

theorem State.freshTimer_eq (s : State) (p : PortId) :
    s.freshTimer p = if s.timerRuns p then some (s.plan.silence * 10) else none := by
  unfold State.freshTimer
  congr 1
  simp only [State.timerRuns, Bool.and_eq_true, decide_eq_true_eq, and_assoc]

theorem State.restartTimer_eq (s : State) (p : PortId) : s.restartTimer p = { s with ports := (s.restartTimer p).ports } := rfl

/-- Restarting every timer changes the ports alone. -/
theorem State.restartAll_eq (s : State) : (s.forPorts fun p t => t.restartTimer p) =
    { s with ports := (s.forPorts fun p t => t.restartTimer p).ports } :=
  State.forPorts_keeps (P := fun t => t = { s with ports := t.ports }) _ (fun p t h => by rw [State.restartTimer_eq, h]) s rfl

/-- Settles O5: the restart and the stop of every timer, port by port. -/
theorem runEdgesStartAndStopTimers : Obligations.RunEdgesStartAndStopTimers := by
  intro s
  refine ⟨fun h => ⟨_, rfl, ?_, fun p => ?_⟩, fun h => ?_, _, rfl, rfl, fun p => ?_⟩
  · rw [if_neg (by simp [h])]
    exact State.restartAll_eq { s with run := true }
  · rw [if_neg (by simp [h]), State.restartAll_port, State.freshTimer_eq]
    rfl
  · exact congrArg Host.Outcome.next (if_pos h)
  · rw [State.stopTimers_port, if_neg]
    · rfl
    · intro hr
      exact Bool.false_ne_true ((State.timerRuns_iff _ p).mp hr).1.1

/-! ### Loss (R78, R174) -/

theorem plyBit_getLsbD (k j : Nat) : (plyBit k).getLsbD j = (decide (j < 6) && decide (k = j)) := by
  rw [plyBit, BitVec.getLsbD_ofNat, Nat.testBit_two_pow]

/-- A ply is in a set when its bit is. -/
theorem plyBit_disjoint_iff (x : PlySet) (k : Nat) : x &&& plyBit k = 0 ↔ x.getLsbD k = false := by
  constructor
  · intro h
    by_cases hk : k < 6
    · have hbit : (x &&& plyBit k).getLsbD k = (0 : PlySet).getLsbD k := by rw [h]
      rw [BitVec.getLsbD_and, plyBit_getLsbD, decide_eq_true hk, decide_eq_true rfl, Bool.and_self, Bool.and_true] at hbit
      exact hbit.trans BitVec.getLsbD_zero
    · exact BitVec.getLsbD_of_ge x k (by omega)
  · intro h
    refine BitVec.eq_of_getLsbD_eq fun j hj => ?_
    rw [BitVec.getLsbD_and, plyBit_getLsbD]
    refine Eq.trans ?_ BitVec.getLsbD_zero.symm
    by_cases hkj : k = j
    · rw [← hkj, h, Bool.false_and]
    · rw [decide_eq_false hkj, Bool.and_false, Bool.and_false]

/-- What the loss of a port's ply, if it has one, does to a record (R78). -/
def Record.loses (x : Record) : Option Nat → Record
  | some k => if x.closure = .awaiting ∧ x.served.getLsbD k = false then { x with lost := x.lost ||| plyBit k } else x
  | none => x

theorem State.plyLost_eq (s : State) (k : Nat) :
    s.plyLost k = { s with window := { s.window with records := s.window.records.map fun x => x.loses (some k) } } := by
  simp only [State.plyLost, plyBit_disjoint_iff, Record.loses]

/-- The port that a silence timer leaves at its end (R174). -/
def Port.expired (x : Port) : Port := { x with state := .lost, slot := .none, timer := none }

theorem State.expire_eq (s : State) (p : PortId) : s.expire p = { s with
    ports := (s.modPort p Port.expired).ports
    window := { s.window with records := s.window.records.map fun x => x.loses (s.port p).ply }
    sup := { s.sup with events := s.sup.events ||| 0x040 } } := by
  unfold State.expire
  cases hk : (s.port p).ply with
  | none =>
    dsimp only
    rw [show (fun x : Record => x.loses none) = id from rfl, List.map_id]
    rfl
  | some k =>
    dsimp only
    rw [State.plyLost_eq]
    rfl

theorem State.expire_port (s : State) (p q : PortId) : (s.expire p).port q = if q = p then (s.port p).expired else s.port q := by
  rw [State.expire_eq]
  exact State.modPort_port s p q _

/-- Settles O6: the row expires the timer at its last tick, and finds nothing to do at any other. -/
theorem silenceExpiryLosesPort : Obligations.SilenceExpiryLosesPort := by
  refine ⟨fun p n s hn h1 => ?_, fun p s h => ?_⟩
  · have hex : exec (.silenceExpiry p) s = .next (s.expire p) :=
      congrArg Host.Outcome.next (if_pos (by simp [hn, h1]))
    refine ⟨_, hex, ?_, fun q hq => ?_, ?_, ?_, ?_⟩
    · rw [State.expire_port, if_pos rfl]
      rfl
    · rw [State.expire_port, if_neg hq]
    · rw [State.expire_eq]
      refine List.map_congr_left fun x _ => ?_
      cases (s.port p).ply <;> rfl
    · rw [State.expire_eq]
    · rw [State.expire_eq]
  · refine congrArg Host.Outcome.next (if_neg ?_)
    cases hn : (s.port p).timer with
    | none => simp
    | some n =>
      have := h n hn
      simp only [Option.any_some, decide_eq_true_eq]
      omega

/-! ### One millisecond (R173, R174, R87) -/

/-- The timer of `p` expires at the tick. -/
def State.expires (s : State) (p : PortId) : Bool := (s.port p).timer.any fun n => n ≤ 1

theorem State.expires_iff (s : State) (p : PortId) : s.expires p = true ↔ ∃ n, (s.port p).timer = some n ∧ n ≤ 1 := by
  simp [State.expires, Option.any_eq_true]

/-- The port after one tick, apart from what a loss does elsewhere. -/
def Port.ticked (x : Port) : Port :=
  match x.timer with
  | none => x
  | some n => if n ≤ 1 then x.expired else { x with timer := some (n - 1) }

theorem State.portTick_of_expires {s : State} {p : PortId} (h : s.expires p = true) : State.portTick p s = s.expire p := by
  obtain ⟨n, hn, h1⟩ := (s.expires_iff p).mp h
  rw [State.portTick, hn]
  exact if_pos h1

theorem State.portTick_of_not_expires {s : State} {p : PortId} (h : s.expires p = false) :
    State.portTick p s = { s with ports := (State.portTick p s).ports } := by
  unfold State.portTick
  split
  · rfl
  · rename_i n hn
    rw [if_neg fun h1 => Bool.false_ne_true (h.symm.trans ((s.expires_iff p).mpr ⟨n, hn, h1⟩))]
    rfl

theorem State.portTick_port (s : State) (p q : PortId) :
    (State.portTick p s).port q = if q = p then (s.port p).ticked else s.port q := by
  cases hn : (s.port p).timer with
  | none =>
    rw [State.portTick, hn, Port.ticked, hn]
    dsimp only
    split_ifs with hq
    · rw [hq]
    · rfl
  | some n =>
    rw [State.portTick, hn, Port.ticked, hn]
    dsimp only
    by_cases h1 : n ≤ 1
    · rw [if_pos h1, if_pos h1, State.expire_port]
    · rw [if_neg h1, if_neg h1, State.modPort_port]

theorem State.ticks_port (s : State) (p : PortId) : (s.forPorts State.portTick).port p = (s.port p).ticked :=
  State.forPorts_port (I := fun _ => True) State.portTick (fun _ x => x.ticked) (fun _ _ _ => trivial)
    (fun q t _ => by rw [State.portTick_port, if_pos rfl]) (fun q r t _ h => by rw [State.portTick_port, if_neg h]) s trivial p

/-- A tick changes ports, records' plies lost and event flags, and nothing else of the state. -/
theorem State.ticks_eq (s : State) : s.forPorts State.portTick = { s with
    ports := (s.forPorts State.portTick).ports
    window := { s.window with records := (s.forPorts State.portTick).window.records }
    sup := { s.sup with events := (s.forPorts State.portTick).sup.events } } := by
  refine State.forPorts_keeps (P := fun t => t = { s with
    ports := t.ports, window := { s.window with records := t.window.records }, sup := { s.sup with events := t.sup.events } }) _
    (fun p t h => ?_) s rfl
  cases he : t.expires p with
  | true => rw [State.portTick_of_expires he, State.expire_eq, h]
  | false => rw [State.portTick_of_not_expires he, h]

/-- The ply that a tick loses at `p`. -/
def State.plyLostAt (s : State) (p : PortId) : Option Nat := if s.expires p then (s.port p).ply else none

theorem State.portTick_records (s : State) (p : PortId) :
    (State.portTick p s).window.records = s.window.records.map fun x => x.loses (s.plyLostAt p) := by
  cases he : s.expires p with
  | true =>
    rw [State.portTick_of_expires he, State.expire_eq, State.plyLostAt, he]
    rfl
  | false =>
    rw [State.portTick_of_not_expires he, State.plyLostAt, he]
    exact (List.map_id _).symm

theorem State.portTick_events (s : State) (p : PortId) :
    (State.portTick p s).sup.events = if s.expires p then s.sup.events ||| 0x040 else s.sup.events := by
  cases he : s.expires p with
  | true => rw [State.portTick_of_expires he, State.expire_eq, if_pos rfl]
  | false => rw [State.portTick_of_not_expires he, if_neg Bool.false_ne_true]

theorem State.expires_portTick {s : State} {p q : PortId} (h : q ≠ p) : (State.portTick p s).expires q = s.expires q := by
  rw [State.expires, State.portTick_port, if_neg h, State.expires]

theorem State.plyLostAt_portTick {s : State} {p q : PortId} (h : q ≠ p) : (State.portTick p s).plyLostAt q = s.plyLostAt q := by
  rw [State.plyLostAt, State.expires_portTick h, State.portTick_port, if_neg h, State.plyLostAt]

/-- Ticks at ports of their own lose in each record the plies of the ports whose timers expire. -/
theorem State.foldl_portTick_records : ∀ (ps : List PortId) (s : State), ps.Nodup →
    (ps.foldl (fun t p => State.portTick p t) s).window.records =
      s.window.records.map fun x => (ps.map s.plyLostAt).foldl Record.loses x
  | [], s, _ => (List.map_id _).symm
  | p :: ps, s, h => by
    obtain ⟨hp, hps⟩ := List.nodup_cons.mp h
    have hlost : ps.map (State.portTick p s).plyLostAt = ps.map s.plyLostAt :=
      List.map_congr_left fun q hq => State.plyLostAt_portTick fun e => hp (e ▸ hq)
    rw [List.foldl_cons, State.foldl_portTick_records ps _ hps, State.portTick_records, List.map_map, hlost]
    rfl

theorem State.foldl_portTick_events : ∀ (ps : List PortId) (s : State), ps.Nodup →
    (ps.foldl (fun t p => State.portTick p t) s).sup.events =
      if ps.any s.expires then s.sup.events ||| 0x040 else s.sup.events
  | [], s, _ => rfl
  | p :: ps, s, h => by
    obtain ⟨hp, hps⟩ := List.nodup_cons.mp h
    have hexp : ps.any (State.portTick p s).expires = ps.any s.expires := by
      rw [Bool.eq_iff_iff, List.any_eq_true, List.any_eq_true]
      refine exists_congr fun q => and_congr_right fun hq => ?_
      have hne : q ≠ p := fun e => hp (e ▸ hq)
      rw [State.expires_portTick hne]
    rw [List.foldl_cons, State.foldl_portTick_events ps _ hps, State.portTick_events, hexp, List.any_cons]
    cases s.expires p <;> cases ps.any s.expires <;> simp [BitVec.or_assoc]

theorem allPorts_nodup : allPorts.Nodup := by decide

/-- What the loss of plies does to a record: they join its plies lost while it is AWAITING and has not served them. -/
theorem Record.foldl_loses : ∀ (ks : List (Option Nat)) (x : Record),
    ks.foldl Record.loses x = { x with lost := (ks.foldl Record.loses x).lost } ∧
    ∀ k, k < 6 → ((ks.foldl Record.loses x).lost.getLsbD k = true ↔
      x.lost.getLsbD k = true ∨ (x.closure = .awaiting ∧ x.served.getLsbD k = false ∧ some k ∈ ks))
  | [], x => ⟨rfl, fun k _ => by simp⟩
  | none :: ks, x => by
    obtain ⟨heq, hbits⟩ := Record.foldl_loses ks x
    exact ⟨heq, fun k hk => (hbits k hk).trans (by simp)⟩
  | some j :: ks, x => by
    rw [List.foldl_cons, Record.loses]
    by_cases hx : x.closure = .awaiting ∧ x.served.getLsbD j = false
    · rw [if_pos hx]
      obtain ⟨heq, hbits⟩ := Record.foldl_loses ks { x with lost := x.lost ||| plyBit j }
      refine ⟨heq.trans rfl, fun k hk => (hbits k hk).trans ?_⟩
      dsimp only
      rw [BitVec.getLsbD_or, plyBit_getLsbD, decide_eq_true hk, Bool.true_and, List.mem_cons, Option.some.injEq]
      by_cases hjk : j = k
      · subst hjk
        simp [hx]
      · simp [hjk, Ne.symm hjk]
    · rw [if_neg hx]
      obtain ⟨heq, hbits⟩ := Record.foldl_loses ks x
      refine ⟨heq, fun k hk => (hbits k hk).trans ?_⟩
      rw [List.mem_cons, Option.some.injEq]
      by_cases hjk : j = k
      · subst hjk
        simp only [true_or, and_true]
        tauto
      · simp [Ne.symm hjk]

theorem Record.foldl_loses_none : ∀ (ks : List (Option Nat)) (x : Record), (∀ k ∈ ks, k = none) → ks.foldl Record.loses x = x
  | [], _, _ => rfl
  | k :: ks, x, h => by
    obtain ⟨hk, hks⟩ := List.forall_mem_cons.mp h
    rw [List.foldl_cons, hk]
    exact Record.foldl_loses_none ks x hks

theorem State.gapTick_receiver_congr {s t : State} (h : s.receiver = t.receiver) : s.gapTick.receiver = t.gapTick.receiver := by
  unfold State.gapTick
  rw [h]
  split
  · exact h
  · split_ifs <;> simp [State.gapTimeout, h]

theorem State.gapTick_eq (s : State) : s.gapTick = { s with receiver := s.gapTick.receiver } := by
  unfold State.gapTick
  split
  · rfl
  · split_ifs <;> rfl

/-- Settles O3: each port ticks by itself, the plies of the timers that expire are lost together, and the reader's line ticks once. -/
theorem idleStepIsOneTick : Obligations.IdleStepIsOneTick := by
  intro s hs expires
  have hexp : ∀ p, s.expires p = true ↔ expires p := s.expires_iff
  have hany : allPorts.any s.expires = true ↔ ∃ p, expires p := by
    simp only [List.any_eq_true, hexp, mem_allPorts, true_and]
  have hrecords : s.tick.window.records = s.window.records.map fun x => (allPorts.map s.plyLostAt).foldl Record.loses x := by
    rw [State.tick, State.gapTick_window]
    exact State.foldl_portTick_records allPorts s allPorts_nodup
  have hevents : s.tick.sup.events = if allPorts.any s.expires then s.sup.events ||| 0x040 else s.sup.events := by
    rw [State.tick, State.gapTick_sup]
    exact State.foldl_portTick_events allPorts s allPorts_nodup
  have hport : ∀ p, s.tick.port p = (s.port p).ticked := fun p => by rw [State.tick, State.gapTick_port, State.ticks_port]
  have hreceiver : s.tick.receiver = s.gapTick.receiver :=
    State.gapTick_receiver_congr (State.forPorts_field State.receiver _ (fun p t => t.portTick_receiver p) s)
  have hlost : ∀ k, some k ∈ allPorts.map s.plyLostAt ↔ ∃ p, expires p ∧ (s.port p).ply = some k := fun k => by
    simp only [List.mem_map, mem_allPorts, true_and, State.plyLostAt]
    refine exists_congr fun p => ?_
    rw [← hexp p]
    cases s.expires p <;> simp
  refine ⟨s.tick, by rw [step, hs], fun p => ⟨fun h => ?_, fun n h h2 => ?_, fun n h h1 => ?_⟩, fun h => ?_, fun n h h1 => ?_, fun n h h2 => ?_,
    fun h => ⟨?_, ?_⟩, fun h => ?_, ⟨?_, fun j a b ha hb => ?_⟩, ?_⟩
  · rw [hport, Port.ticked, h]
  · rw [hport, Port.ticked, h]
    exact if_neg (by omega)
  · rw [hport, Port.ticked, h]
    exact if_pos h1
  · rw [hreceiver, State.gapTick, h]
  · rw [hreceiver, State.gapTick, h]
    dsimp only
    rw [if_neg (by omega)]
  · rw [hreceiver, State.gapTick, h]
    dsimp only
    rw [if_pos h2]
    rfl
  · rw [hrecords]
    refine (List.map_congr_left fun x _ => Record.foldl_loses_none _ x fun k hk => ?_).trans (List.map_id _)
    obtain ⟨p, -, rfl⟩ := List.mem_map.mp hk
    exact if_neg fun e => h p ((hexp p).mp e)
  · rw [hevents, if_neg fun e => ?_]
    obtain ⟨p, hp⟩ := hany.mp e
    exact h p hp
  · rw [hevents, if_pos (hany.mpr h)]
  · rw [hrecords, List.length_map]
  · rw [hrecords, List.getElem?_map, ha] at hb
    cases hb
    obtain ⟨heq, hbits⟩ := Record.foldl_loses (allPorts.map s.plyLostAt) a
    exact ⟨heq, fun k hk => (hbits k hk).trans (by rw [hlost])⟩
  · rw [State.tick, State.gapTick_eq, State.ticks_eq]

end Sys2Proof.Machine
end

section
/-! The course of a task and the register writes (O7, O8, O9, O12: R177, R179 to R183). -/

namespace Sys2Proof.Machine

variable {s : State} {i : Instr} {w : BitVec 32}

/-- Every task row writes its word and carries out what the word makes the part do (R180). -/
theorem exec_taskRow (hw : taskWordOf i = some w) (s : State) : exec i s = .next (s.taskRow w (runWord w)) := by
  cases i <;> cases hw <;> rfl

theorem exec_takesTask {bs : Bytes} (hw : taskWordOf i = some w) (h : s.takesTask i bs) :
    exec i s = .next (s.carryOut w bs (runWord w)) := by
  rw [exec_taskRow hw, State.taskRow_of_takesTask h hw]

/-- A word of none of the fourteen tasks reaches no block. -/
theorem runWord_unknown {word : BitVec 32} (h : word ∉ taskWords) (bs : Bytes) (s : State) : runWord word bs s = (.unrecognised, s) := by
  simp only [taskWords, List.mem_cons, List.not_mem_nil, or_false, not_or] at h
  obtain ⟨h1, h2, h3, h4, h5, h6, h7, h8, h9, h10, h11, h12, h13, h14⟩ := h
  rw [runWord, if_neg h1, if_neg h2, if_neg h3, if_neg h4, if_neg h5, if_neg h6, if_neg h7, if_neg h8, if_neg h9, if_neg h10, if_neg h11,
    if_neg h12, if_neg h13, if_neg h14]

/-- Settles O7: a row that takes its task carries out its word, and each task either is refused as a whole or leaves RESULT, MASK and the
address. -/
theorem taskStartsAndRefusalChangesNothing : Obligations.TaskStartsAndRefusalChangesNothing := by
  refine ⟨fun i w bs s hw h => ?_, fun word bs s h hword => ?_, fun word s h => ?_⟩
  · refine ⟨_, _, _, exec_takesTask hw h, rfl, rfl, rfl, rfl, rfl, ?_⟩
    rcases runWord_ok w bs s with ⟨code, h1, h2, hr⟩ | ⟨hne, hres, hmask, haddr⟩
    · rw [State.carryOut_same hw hr, hr]
      refine ⟨rfl, rfl, rfl, fun c hc => ?_⟩
      cases hc
      exact ⟨h1, h2, rfl⟩
    · exact ⟨hres, hmask, haddr, fun c hc => absurd hc (hne c)⟩
  · rw [exec_takesTask rfl h, State.carryOut_same (i := .unknownTaskWord word) rfl (runWord_unknown hword bs s)]
  · refine congrArg Host.Outcome.next ?_
    rw [State.startTask, h]
    rfl

/-! ### Writes to TASK during a task (R183) -/

theorem State.raise_taskOverrun (s : State) :
    s.raise .taskOverrun = { s with sup := { s.sup with events := s.sup.events ||| 0x002 } } := rfl

theorem State.startTask_running {r : TaskRun} (h : s.sup.running = some r) (word : BitVec 32) :
    s.startTask word = s.raise .taskOverrun := by
  rw [State.startTask, h]
  rfl

theorem State.taskRow_discarded {r : TaskRun} (h : s.sup.running = some r) (hn : ¬ (r.word = w ∧ r.outcome = none))
    (run : Bytes → State → TaskResult) : s.taskRow w run = s.raise .taskOverrun := by
  rw [State.taskRow, h]
  exact if_neg hn

/-! ### Register writes (R177, R179) -/

theorem deliveredBytes_length_eq (size : Nat) (count : Byte) (data : Bytes) :
    (deliveredBytes size count data).length = min (min count.toNat size) data.length := List.length_take

theorem deliveredBytes_four {count : Byte} {data : Bytes} (h : 4 ≤ count.toNat) : deliveredBytes 4 count data = data.take 4 := by
  rw [deliveredBytes, Nat.min_eq_right h]

/-- Four bytes as a word, the first most significant. -/
theorem wordOf_bytes (b0 b1 b2 b3 : Byte) : wordOf [b0, b1, b2, b3] = b0 ++ b1 ++ b2 ++ b3 := by
  have join : ∀ (m : Nat) (x : BitVec m) (y : Byte), (x ++ y).toNat = x.toNat * 256 + y.toNat := fun m x y => by
    rw [BitVec.toNat_append, ← Nat.shiftLeft_add_eq_or_of_lt y.isLt, Nat.shiftLeft_eq]
  refine BitVec.eq_of_toNat_eq ?_
  rw [join, join, join, wordOf, BitVec.toNat_ofNat]
  simp only [beNat, List.foldl_cons, List.foldl_nil]
  have h0 := b0.isLt
  have h1 := b1.isLt
  have h2 := b2.isLt
  have h3 := b3.isLt
  omega

theorem State.fourByteWrite_short {data : Bytes} (h : data.length < 4) (k : State → BitVec 32 → State) :
    s.fourByteWrite data k = s.setAck true data.length := if_neg (by omega)

theorem State.fourByteWrite_word {b0 b1 b2 b3 : Byte} (k : State → BitVec 32 → State) :
    s.fourByteWrite [b0, b1, b2, b3] k = k (s.setAck true 4) (b0 ++ b1 ++ b2 ++ b3) := by
  rw [← wordOf_bytes]
  rfl

/-- The three slots that take four bytes or none (R179). -/
theorem exec_registerWrite_task (count : Byte) (data : Bytes) (s : State) :
    exec (.registerWrite 0x20 count data) s = .next (s.fourByteWrite (deliveredBytes 4 count data) State.startTask) := rfl

theorem exec_registerWrite_mask (count : Byte) (data : Bytes) (s : State) :
    exec (.registerWrite 0x31 count data) s = .next (s.fourByteWrite (deliveredBytes 4 count data) State.writeMask) := rfl

theorem exec_registerWrite_clear (count : Byte) (data : Bytes) (s : State) :
    exec (.registerWrite 0x32 count data) s = .next (s.fourByteWrite (deliveredBytes 4 count data) State.writeClear) := rfl

/-- Settles O8: a write to TASK that meets an executing task, by whatever row it comes, raises TASK_OVERRUN. -/
theorem taskWriteDuringTaskIsDiscarded : Obligations.TaskWriteDuringTaskIsDiscarded := by
  intro i word r count b0 b1 b2 b3 s h
  refine ⟨fun hw hne => ?_, ?_, fun hcount => ?_⟩
  · obtain ⟨w, hw⟩ := Option.isSome_iff_exists.mp hw
    rw [exec_taskRow hw, State.taskRow_discarded h, State.raise_taskOverrun]
    rintro ⟨rfl, ho⟩
    rcases hne with hne | hne
    · exact hne hw
    · rw [ho] at hne
      cases hne
  · exact congrArg Host.Outcome.next (State.startTask_running h word)
  · rw [exec_registerWrite_task, deliveredBytes_four hcount]
    exact congrArg Host.Outcome.next (State.startTask_running (s := s.setAck true 4) h _)

/-- Settles O12: slot by slot, with the bytes that the part acknowledges. -/
theorem registerWriteBySlot : Obligations.RegisterWriteBySlot := by
  intro count data s
  have htake : data.take (min (min count.toNat 64) data.length) = deliveredBytes 64 count data := by
    rw [deliveredBytes, ← List.take_eq_take_min]
  refine ⟨?_, fun slot hslot hshort => ?_, fun b0 b1 b2 b3 hdata hcount => ?_, fun slot hslot => ?_, fun slot hslot => ?_⟩
  · dsimp only
    rw [htake, ← deliveredBytes_length_eq]
    rfl
  · rw [← deliveredBytes_length_eq] at hshort ⊢
    rcases hslot with rfl | rfl | rfl
    · rw [exec_registerWrite_task, State.fourByteWrite_short hshort]
      rfl
    · rw [exec_registerWrite_mask, State.fourByteWrite_short hshort]
      rfl
    · rw [exec_registerWrite_clear, State.fourByteWrite_short hshort]
      rfl
  · rw [exec_registerWrite_task, exec_registerWrite_mask, exec_registerWrite_clear, deliveredBytes_four hcount, hdata,
      State.fourByteWrite_word, State.fourByteWrite_word, State.fourByteWrite_word]
    exact ⟨rfl, rfl, rfl⟩
  · rcases hslot with rfl | rfl | rfl <;> rfl
  · simp only [List.mem_cons, List.not_mem_nil, or_false, not_or] at hslot
    obtain ⟨h1, h2, h3, h4, h5, h6, h7⟩ := hslot
    have hread : ¬ (slot = slotResult ∨ slot = slotEvents ∨ slot = slotState) := by
      rintro (h | h | h)
      exacts [h3 h, h4 h, h7 h]
    exact congrArg Host.Outcome.next
      ((if_neg h2).trans ((if_neg h1).trans ((if_neg h5).trans ((if_neg h6).trans (if_neg hread)))))

/-! ### The end of a task (R181) -/

theorem beBytes_one (n : Nat) : beBytes 1 n = [BitVec.ofNat 8 n] := by simp [beBytes]

/-- Settles O9: the outcome that waits is published; effects still to be taken are those of the task's own row. -/
theorem taskEndPublishesOutcome : Obligations.TaskEndPublishesOutcome := by
  refine ⟨fun r o s hr ho => ?_, fun i r s hr ho hw => ?_⟩
  · have hex : exec .taskEnd s = .next s.publish :=
      congrArg (fun u : State => Host.Outcome.next u.publish) (State.takeEffects_of_outcome hr ho)
    have hpub := State.publish_of_outcome hr ho
    refine ⟨_, hex, ?_, ?_, ?_⟩
    · rw [hpub]
      rfl
    · rw [hpub]
      cases o <;> exact padTo_length _ _
    · rw [hpub]
      cases o with
      | carriedOut bs => exact ⟨rfl, fun k hk => padTo_get bs hk⟩
      | refusal code =>
        refine ⟨rfl, fun k hk => (padTo_get _ hk).trans ?_⟩
        rw [beBytes_one]
        cases k <;> rfl
      | unrecognised => exact ⟨rfl, fun k hk => padTo_get [] hk⟩
  · have htakes : s.takesTask i r.params := .inr (by rw [hr, hw, Option.getD_some, ← ho])
    refine ⟨_, exec_takesTask hw htakes, rfl, ?_⟩
    refine congrArg (fun u : State => Host.Outcome.next u.publish) ?_
    rw [State.takeEffects_of_none hr ho]
    exact (State.takeEffects_of_outcome rfl rfl).symm

end Sys2Proof.Machine
end

section
/-! The refusals of the run's tasks, and ADMT (O17, O18: R110, R113, R118, R119, R175, R189). -/

namespace Sys2Proof.Machine

section
variable {s : State} {bs : Bytes}

/-- A task row whose task leaves the state changes nothing but what shows that a task executes (R180, R181). -/
theorem exec_same {i : Instr} {w : BitVec 32} {o : TaskOutcome} (hw : taskWordOf i = some w) (h : s.takesTask i bs)
    (hr : runWord w bs s = (o, s)) : exec i s = .next (s.taskTaken i bs o) := by
  rw [exec_takesTask hw h, State.carryOut_same hw hr]

/-! ### STRT (R110) -/

theorem runStrt_state (h : s.plan.plies = [] ∨ s.inRun = true) : runStrt bs s = (refusedState, s) := if_pos h

theorem runStrt_named (hp : s.plan.plies ≠ []) (hr : s.inRun = false) {i : SlotId} (hi : namedSlot bs = some i) :
    runStrt bs s = if (s.slot i).state ≠ .loaded then (refusedState, s)
      else (.carriedOut (beBytes 1 i.code ++ beBytes 2 (s.slot i).tag ++ beBytes 1 s.plan.lMax), s.startRun i) := by
  rw [runStrt, if_neg (by simp [hp, hr]), hi]

theorem runStrt_unnamed (hp : s.plan.plies ≠ []) (hr : s.inRun = false) (hi : namedSlot bs = none) :
    runStrt bs s = (refusedRange, s) := by
  rw [runStrt, if_neg (by simp [hp, hr]), hi]

/-- A slot byte names A or B by its code, and no slot from 2 on (R191). -/
theorem namedSlot_code {i : SlotId} (h : byteAt bs 0 = BitVec.ofNat 8 i.code) : namedSlot bs = some i := by
  rw [namedSlot, h]
  cases i <;> rfl

theorem namedSlot_none (h : 2 ≤ (byteAt bs 0).toNat) : namedSlot bs = none := by
  have h0 : byteAt bs 0 ≠ 0 := fun e => by rw [e] at h; revert h; decide
  have h1 : byteAt bs 0 ≠ 1 := fun e => by rw [e] at h; revert h; decide
  rw [namedSlot, if_neg h0, if_neg h1]

/-! ### SWAP (R113) -/

theorem runSwap_not_running (h : s.runningSlot = none) : runSwap bs s = (refusedState, s) := by
  rw [runSwap, h]

theorem runSwap_staged {z : SlotId × Nat} (h : s.staged = some z) : runSwap bs s = (refusedState, s) := by
  unfold runSwap
  rw [h]
  cases s.runningSlot <;> rfl

theorem runSwap_running {i : SlotId} (hi : s.runningSlot = some i) (hs : s.staged = none) :
    runSwap bs s =
      if (s.slot i.other).state ≠ .loaded then (refusedState, s)
      else if maxRepeat < field bs 0 4 then (refusedRange, s)
      else if (s.slot i.other).geometry.lanes ≠ (s.slot i).geometry.lanes ∨
        (s.slot i.other).geometry.around ≠ (s.slot i).geometry.around then (refusedGeometry, s)
      else if s.changeAhead (field bs 0 4) = false then (refusedPast, s)
      else (.carriedOut (beBytes 1 i.other.code ++ beBytes 4 (field bs 0 4) ++
        ((s.stage i i.other (field bs 0 4)).slot i).final.bytes), s.stage i i.other (field bs 0 4)) := by
  rw [runSwap, hi, hs]

theorem State.staged_of_change {i : SlotId} (h : (s.slot i).change.isSome = true) : ∃ z, s.staged = some z := by
  cases hs : s.staged with
  | none => rw [State.change_none hs i] at h; cases h
  | some z => exact ⟨z, rfl⟩

theorem State.changeAhead_false {rc : Nat} (h : match s.window.newest with | some n => rc ≤ n | none => rc < s.plan.lMax) :
    s.changeAhead rc = false := by
  unfold State.changeAhead State.firstUnopened
  cases hn : s.window.newest with
  | none => rw [hn] at h; exact decide_eq_false (Nat.not_le.mpr h)
  | some n => rw [hn] at h; exact decide_eq_false (by dsimp only at h ⊢; omega)

/-- Settles O17: each check in its task's order. -/
theorem runTaskRefusals : Obligations.RunTaskRefusals := by
  intro bs s
  refine ⟨fun h ht => exec_same rfl ht (runStrt_state h), fun hp hr hb ht => exec_same rfl ht (runStrt_unnamed hp hr (namedSlot_none hb)),
    fun hp hr i hb hl ht => exec_same rfl ht ((runStrt_named hp hr (namedSlot_code hb)).trans (if_pos hl)), fun h ht => ?_, fun i hi ho hc => ?_,
    fun h ht => exec_same rfl ht ?_, fun h ht => exec_same rfl ht (if_neg (by simp [h])), fun h ht => exec_same rfl ht (if_pos h)⟩
  · rcases h with h | ⟨i, h⟩
    · exact exec_same rfl ht (runSwap_not_running (State.runningSlot_eq_none h))
    · obtain ⟨z, hz⟩ := State.staged_of_change h
      exact exec_same rfl ht (runSwap_staged hz)
  · have hrun := runSwap_running (bs := bs) (State.runningSlot_of hi ho) (State.staged_eq_none hc)
    refine ⟨fun hl ht => exec_same rfl ht (hrun.trans (if_pos hl)), fun hl => ?_⟩
    replace hrun := hrun.trans (if_neg (not_not.mpr hl))
    refine ⟨fun hrc ht => exec_same rfl ht (hrun.trans (if_pos hrc)), fun hrc => ?_⟩
    replace hrun := hrun.trans (if_neg (not_lt.mpr hrc))
    refine ⟨fun hg ht => exec_same rfl ht (hrun.trans (if_pos (hg.imp Ne.symm Ne.symm))), fun hlanes haround hpast ht => ?_⟩
    replace hrun := hrun.trans (if_neg (by simp [hlanes, haround]))
    exact exec_same rfl ht (hrun.trans (if_pos (State.changeAhead_false hpast)))
  · show runStop bs s = _
    rw [runStop, State.runningSlot_eq_none h]
    rfl

/-! ### ADMT (R175) -/

theorem runAdmt_lost {p : PortId} {k : Nat} (hp : p.val = (byteAt bs 0).toNat) (hl : (s.port p).state = .lost)
    (hk : s.plan.plyOf p = some k) :
    runAdmt bs s = (.carriedOut (beBytes 1 (byteAt bs 0).toNat ++ beBytes 1 k ++ beBytes 4 (field bs 1 4)),
      (s.modPort p (Port.admitted (field bs 1 4))).restartTimer p) := by
  have hof : Fin.ofNat 6 (byteAt bs 0).toNat = p := by rw [← hp]; exact Fin.ofNat_val_eq_self p
  unfold runAdmt
  dsimp only
  rw [if_neg (by omega), hof, hl, hk]

theorem runAdmt_state {p : PortId} (hp : p.val = (byteAt bs 0).toNat) (h : (s.port p).state ≠ .lost ∨ s.plan.plyOf p = none) :
    runAdmt bs s = (refusedState, s) := by
  have hof : Fin.ofNat 6 (byteAt bs 0).toNat = p := by rw [← hp]; exact Fin.ofNat_val_eq_self p
  unfold runAdmt
  dsimp only
  rw [if_neg (by omega), hof]
  split
  · rename_i hl hk
    rw [hl, hk] at h
    simp at h
  · rfl

theorem State.admitted_port (s : State) (p q : PortId) (c : Nat) :
    ((s.modPort p (Port.admitted c)).restartTimer p).port q = if q = p then { (s.port p).admitted c with
      timer := if s.run = true ∧ s.inRun = true ∧ s.plan.silence ≠ 0 then some (s.plan.silence * 10) else none } else s.port q := by
  rw [State.restartTimer, State.modPort_port, State.modPort_port_self, State.modPort_port]
  by_cases hq : q = p
  · rw [if_pos hq, if_pos hq]
    congr 2
    exact propext ((State.timerRuns_iff _ p).trans ⟨fun h => h.1, fun h => ⟨h, by rw [State.modPort_port_self]; rfl⟩⟩)
  · rw [if_neg hq, if_neg hq, if_neg hq]

/-- Settles O18: ADMT by the port its block names. -/
theorem admtAdmitsLostPort : Obligations.AdmtAdmitsLostPort := by
  intro bs s h n c
  refine ⟨fun hn => exec_same rfl h (if_pos hn), fun p hp => ⟨fun hst => exec_same rfl h (runAdmt_state hp hst), fun k hl hk => ?_⟩⟩
  have hrun := runAdmt_lost hp hl hk
  have hport := State.admitted_port s p
  refine ⟨_, exec_admt h, ?_, fun q hq => ?_, ?_, ?_⟩
  · rw [State.carryOut_port, hrun]
    exact (hport p c).trans (if_pos rfl)
  · rw [State.carryOut_port, hrun]
    exact (hport q c).trans (if_neg hq)
  · rw [State.carryOut, hrun, beBytes_one, beBytes_one]
    rfl
  · rw [State.carryOut, hrun]
    rfl

end

end Sys2Proof.Machine
end

section
/-! PLAN (O13: R4 to R10): which blocks pass, and what is stored. -/

namespace Sys2Proof.Machine

section
variable {s : State} {bs : Bytes}

/-! ### The checks of R5 -/

theorem planPlies_length (bs : Bytes) : (planPlies bs).length = (byteAt bs 0).toNat := by simp [planPlies]

theorem planPlies_get {k : Nat} (hk : k < (byteAt bs 0).toNat) : (planPlies bs)[k]? =
    some { port := Fin.ofNat 6 (byteAt bs (1 + 2 * k)).toNat, lead := (byteAt bs (2 + 2 * k)).toNat } := by
  rw [planPlies, List.getElem?_map, List.getElem?_range hk]
  rfl

theorem portByte_val {b : Byte} (h : b.toNat ≤ 5) : (Fin.ofNat 6 b.toNat).val = b.toNat := Nat.mod_eq_of_lt (by omega)

/-- Ports of a block with port bytes in their range are distinct exactly when their bytes are. -/
theorem planPorts_nodup_iff (h : ∀ k, k < (byteAt bs 0).toNat → (byteAt bs (1 + 2 * k)).toNat ≤ 5) :
    ((planPlies bs).map (·.port)).Nodup ↔
      ∀ j k, j < k → k < (byteAt bs 0).toNat → byteAt bs (1 + 2 * j) ≠ byteAt bs (1 + 2 * k) := by
  have hbyte : ∀ j k, j < (byteAt bs 0).toNat → k < (byteAt bs 0).toNat →
      (Fin.ofNat 6 (byteAt bs (1 + 2 * j)).toNat = Fin.ofNat 6 (byteAt bs (1 + 2 * k)).toNat ↔
        byteAt bs (1 + 2 * j) = byteAt bs (1 + 2 * k)) := fun j k hj hk => by
    rw [Fin.ext_iff, portByte_val (h j hj), portByte_val (h k hk), BitVec.toNat_inj]
  rw [planPlies, List.map_map, List.nodup_map_iff_inj_on List.nodup_range]
  simp only [List.mem_range, Function.comp_apply]
  constructor
  · intro hinj j k hjk hk e
    exact absurd (hinj j (by omega) k hk ((hbyte j k (by omega) hk).mpr e)) (by omega)
  · intro hne j hj k hk e
    rcases Nat.lt_trichotomy j k with hlt | heq | hlt
    · exact absurd ((hbyte j k hj hk).mp e) (hne j k hlt hk)
    · exact heq
    · exact absurd ((hbyte j k hj hk).mp e).symm (hne k j hlt hj)

theorem planBlockOk_iff (bs : Bytes) : planBlockOk bs = true ↔
    (byteAt bs 0).toNat ≤ 6 ∧
    (∀ k, k < (byteAt bs 0).toNat → (byteAt bs (1 + 2 * k)).toNat ≤ 5 ∧ (byteAt bs (2 + 2 * k)).toNat ≤ 44) ∧
    (∀ j k, j < k → k < (byteAt bs 0).toNat → byteAt bs (1 + 2 * j) ≠ byteAt bs (1 + 2 * k)) ∧
    field bs 15 2 ≠ 0 ∧ byteAt bs 17 ≠ 0 ∧ byteAt bs 18 ≠ 0 := by
  simp only [planBlockOk, Bool.and_eq_true, decide_eq_true_eq, List.all_eq_true, List.mem_range, and_assoc]
  refine and_congr_right fun _ => and_congr_right fun hk => ?_
  rw [planPorts_nodup_iff fun k h => (hk k h).1]

/-! ### The largest lead (R7) -/

theorem foldl_max_lead (es : List PlyEntry) : ∀ m : Nat, m ≤ es.foldl (fun m e => max m e.lead) m ∧
    (∀ e ∈ es, e.lead ≤ es.foldl (fun m e => max m e.lead) m) ∧
    (es.foldl (fun m e => max m e.lead) m = m ∨ ∃ e ∈ es, e.lead = es.foldl (fun m e => max m e.lead) m) := by
  induction es with
  | nil => exact fun m => ⟨le_refl m, nofun, .inl rfl⟩
  | cons e es ih =>
    intro m
    obtain ⟨hle, hall, hex⟩ := ih (max m e.lead)
    refine ⟨(le_max_left _ _).trans hle, List.forall_mem_cons.mpr ⟨(le_max_right _ _).trans hle, hall⟩, ?_⟩
    rw [List.foldl_cons]
    rcases hex with hex | ⟨x, hx, hlead⟩
    · rcases max_choice m e.lead with hm | hm
      · exact .inl (hex.trans hm)
      · exact .inr ⟨e, List.mem_cons_self, (hex.trans hm).symm⟩
    · exact .inr ⟨x, List.mem_cons_of_mem _ hx, hlead⟩

theorem Plan.lead_le_lMax (p : Plan) {e : PlyEntry} (h : e ∈ p.plies) : e.lead ≤ p.lMax := (foldl_max_lead p.plies 0).2.1 e h

theorem Plan.lMax_attained (p : Plan) (h : p.plies ≠ []) : ∃ e ∈ p.plies, e.lead = p.lMax := by
  rcases (foldl_max_lead p.plies 0).2.2 with hz | hex
  · obtain ⟨e, he⟩ := List.exists_mem_of_ne_nil _ h
    exact ⟨e, he, (Nat.le_zero.mp ((p.lead_le_lMax he).trans (le_of_eq hz))).trans hz.symm⟩
  · exact hex

theorem Plan.results_eq (p : Plan) : p.results =
    [BitVec.ofNat 8 p.plies.length, BitVec.ofNat 8 p.lMax, BitVec.ofNat 8 p.winHigh, BitVec.ofNat 8 p.bufHigh] := by
  simp only [Plan.results, beBytes_one]
  rfl

/-! ### PLAN -/

theorem runPlan_stores (hr : s.inRun = false) (h0 : byteAt bs 0 ≠ 0) (hok : planBlockOk bs = true) :
    runPlan bs s = (.carriedOut (planOf bs).results, s.storePlan (planOf bs)) := by
  rw [runPlan, if_neg (by simp [hr]), if_neg h0, if_pos hok]

theorem runPlan_range (hr : s.inRun = false) (h0 : byteAt bs 0 ≠ 0) (hok : planBlockOk bs = false) :
    runPlan bs s = (refusedRange, s) := by
  rw [runPlan, if_neg (by simp [hr]), if_neg h0, if_neg (by simp [hok])]

theorem runPlan_empty (hr : s.inRun = false) (h0 : byteAt bs 0 = 0) :
    runPlan bs s = (.carriedOut { s.plan with plies := [] }.results, s.storePlan { s.plan with plies := [] }) := by
  rw [runPlan, if_neg (by simp [hr]), if_pos h0]

theorem Byte.eq_zero_iff (b : Byte) : b = 0 ↔ b.toNat = 0 := BitVec.toNat_inj.symm

/-- Settles O13: the block's fields by the checks of R5, the ports and the receiver as PLAN leaves them. -/
theorem planStoresOrRefuses : Obligations.PlanStoresOrRefuses := by
  constructor
  · intro bs s h hr n h1 h6 hfields hports hdiv hwin hbuf
    have hok : planBlockOk bs = true := (planBlockOk_iff bs).mpr
      ⟨h6, hfields, fun j k hjk hk => hports j k (by omega) hk (by omega), hdiv, hwin, hbuf⟩
    have h0 : byteAt bs 0 ≠ 0 := fun e => by rw [Byte.eq_zero_iff] at e; omega
    have hne : (planOf bs).plies ≠ [] := fun e => by
      have := planPlies_length bs
      rw [show planPlies bs = [] from e, List.length_nil] at this
      omega
    have hrun := runPlan_stores (s := s) hr h0 hok
    refine ⟨_, (planOf bs).lMax, exec_plan h, ?_⟩
    rw [State.carryOut, hrun]
    refine ⟨planPlies_length bs, fun k hk => ⟨_, planPlies_get hk, portByte_val (hfields k hk).1, rfl⟩, rfl, rfl, rfl, rfl,
      fun e he => Plan.lead_le_lMax _ he, Plan.lMax_attained _ hne, fun p => State.storePlan_port s (planOf bs) p, fun hd => if_pos hd,
      fun hd => if_neg hd, ?_, rfl⟩
    rw [Plan.results_eq, show (planOf bs).plies.length = n from planPlies_length bs]
    rfl
  intro bs s h n
  refine ⟨fun hr => exec_same rfl h (if_pos hr), fun hr hn hbad => ?_, fun hr hn => ?_⟩
  · refine exec_same rfl h (runPlan_range hr (fun e => hn ((Byte.eq_zero_iff _).mp e)) ?_)
    rw [← Bool.not_eq_true, planBlockOk_iff]
    rintro ⟨h6, hfields, hports, hdiv, hwin, hbuf⟩
    rcases hbad with hbad | ⟨k, hk, hbad⟩ | ⟨j, k, hjk, hk, hbad⟩ | hbad | hbad | hbad
    · omega
    · have := hfields k hk
      omega
    · exact hports j k hjk hk hbad
    · exact hdiv hbad
    · exact hwin hbad
    · exact hbuf hbad
  · have hrun := runPlan_empty (s := s) hr ((Byte.eq_zero_iff _).mpr hn)
    have hstore : s.storePlan { s.plan with plies := [] } = { s with
        plan := { s.plan with plies := [] }, ports := s.ports.map Port.closeByPlan } := by
      rw [State.storePlan]
      congr 1
      exact if_pos rfl
    refine ⟨_, exec_plan h, ?_⟩
    rw [State.carryOut, hrun, Plan.results_eq]
    refine ⟨rfl, fun p => State.storePlan_port s { s.plan with plies := [] } p, ?_, ?_⟩
    · rfl
    · dsimp only
      rw [hstore]

end

end Sys2Proof.Machine
end

section
/-! LDJB (O14, O15: R21, R22, R107, R108). -/

namespace Sys2Proof.Machine

section
variable {s : State} {bs : Bytes} {i : SlotId}

/-! ### The slot it picks -/

theorem SlotState.loadable_iff (x : SlotState) : x.loadable = true ↔ x = .free ∨ x = .ended := by cases x <;> simp [SlotState.loadable]

theorem SlotState.blocksTag_iff (x : SlotState) : x.blocksTag = true ↔ x ∈ [SlotState.loaded, .running, .draining] := by
  cases x <;> simp [SlotState.blocksTag]

theorem State.slotToLoad_iff : s.slotToLoad = some i ↔ s.picksSlot i := by
  simp only [State.slotToLoad, State.picksSlot, ← SlotState.loadable_iff, State.slot_A]
  cases i with
  | A => cases hA : s.slotA.state.loadable <;> cases s.slotB.state.loadable <;> simp [hA]
  | B => cases s.slotA.state.loadable <;> cases hB : s.slotB.state.loadable <;> simp [hB]

theorem State.slotToLoad_none (h : ¬ ∃ i, s.picksSlot i) : s.slotToLoad = none := by
  cases hi : s.slotToLoad with
  | none => rfl
  | some i => exact absurd ⟨i, State.slotToLoad_iff.mp hi⟩ h

theorem runLdjb_refused {o : TaskOutcome} (hp : s.plan.plies ≠ []) (hi : s.picksSlot i) (hr : s.loadRefusal i bs = some o) :
    runLdjb bs s = (o, s) := by
  rw [runLdjb, if_neg hp, State.slotToLoad_iff.mpr hi]
  dsimp only
  rw [hr]

theorem runLdjb_loads (hp : s.plan.plies ≠ []) (hi : s.picksSlot i) (hr : s.loadRefusal i bs = none) :
    runLdjb bs s = (.carriedOut (beBytes 1 i.code ++ beBytes 2 (jobTag bs)), s.modSlot i fun _ => loadedJob bs) := by
  rw [runLdjb, if_neg hp, State.slotToLoad_iff.mpr hi]
  dsimp only
  rw [hr]

/-! ### The span test (R22) -/

theorem Rules.inDomain_false_iff (r : Rules) (t : Int) : r.inDomain t = false ↔ t < 0 ∨ ((10 ^ r.width : Nat) : Int) ≤ t := by
  rw [← Bool.not_eq_true, Rules.inDomain, Bool.and_eq_true, decide_eq_true_eq, decide_eq_true_eq, Rules.domain]
  omega

/-- A counter's value `n` steps on from the start of lane `a`, on unbounded integers. -/
def Rules.spanValue (r : Rules) (a n : Nat) : Int := r.moveTarget r.start (a * r.span + n)

theorem Rules.spanValue_eq (r : Rules) (a n : Nat) : r.spanValue a n =
    r.start + (if r.descending then -(((a * r.span + n) * r.step : Nat) : Int) else (((a * r.span + n) * r.step : Nat) : Int)) := by
  rw [Rules.spanValue, Rules.moveTarget]
  split_ifs <;> omega

theorem Rules.moveTarget_zero (r : Rules) (v : Nat) : r.moveTarget v 0 = v := by
  rw [Rules.moveTarget, Nat.zero_mul]
  split_ifs <;> simp

/-- The test of R22 fails exactly when one of the values it looks at leaves the domain. -/
theorem Rules.spanFits_false_iff (r : Rules) (lanes : Nat) : r.spanFits lanes = false ↔ r.spanLeaves lanes := by
  have hleaves : r.spanLeaves lanes ↔ ∃ a n : Nat, a < (if r.mode = .stacked then lanes else 1) ∧ (n = 0 ∨ n = r.span - 1) ∧
      r.inDomain (r.spanValue a n) = false := by
    simp only [Rules.spanLeaves, Rules.inDomain_false_iff, Rules.spanValue_eq]
  rw [hleaves, Rules.spanFits]
  cases r.mode with
  | sequential =>
    have h0 : r.spanValue 0 0 = r.start := by rw [Rules.spanValue, Nat.zero_mul, Rules.moveTarget_zero]
    have h1 : r.spanValue 0 (r.span - 1) = r.moveTarget r.start (r.span - 1) := by rw [Rules.spanValue, Nat.zero_mul, Nat.zero_add]
    rw [if_neg (by simp)]
    dsimp only
    rw [Bool.and_eq_false_iff, ← h0, ← h1]
    constructor
    · rintro (h | h)
      · exact ⟨0, 0, Nat.zero_lt_one, .inl rfl, h⟩
      · exact ⟨0, _, Nat.zero_lt_one, .inr rfl, h⟩
    · rintro ⟨a, n, ha, hn, h⟩
      obtain rfl := Nat.lt_one_iff.mp ha
      rcases hn with rfl | rfl
      · exact .inl h
      · exact .inr h
  | stacked =>
    rw [if_pos rfl]
    dsimp only
    rw [List.all_eq_false]
    constructor
    · rintro ⟨a, ha, h⟩
      rw [Bool.not_eq_true, Bool.and_eq_false_iff] at h
      rcases h with h | h
      · exact ⟨a, 0, List.mem_range.mp ha, .inl rfl, h⟩
      · exact ⟨a, _, List.mem_range.mp ha, .inr rfl, h⟩
    · rintro ⟨a, n, ha, hn, h⟩
      refine ⟨a, List.mem_range.mpr ha, ?_⟩
      rw [Bool.not_eq_true, Bool.and_eq_false_iff]
      rcases hn with rfl | rfl
      · exact .inl h
      · exact .inr h

/-! ### The checks in their order (R107) -/

/-- The tag is 0, or the other slot holds it in a job that is LOADED, RUNNING or DRAINING (R107, check 3). -/
def State.tagTaken (s : State) (i : SlotId) (bs : Bytes) : Prop :=
  jobTag bs = 0 ∨ ((s.slot i.other).state ∈ [SlotState.loaded, .running, .draining] ∧ (s.slot i.other).tag = jobTag bs)

theorem State.loadRefusal_eq [Decidable (s.tagTaken i bs)]
    [Decidable (jobSource bs = .series ∧ (jobRules bs).wrap = false ∧ (jobRules bs).spanLeaves (jobGeometry bs).lanes)] :
    s.loadRefusal i bs =
      if s.tagTaken i bs then some refusedTag
      else if jobBlockOk bs = false then some refusedRange
      else if jobSource bs = .series ∧ (jobRules bs).wrap = false ∧ (jobRules bs).spanLeaves (jobGeometry bs).lanes then some refusedSpan
      else if jobSource bs = .makeup ∧ s.voids.incomplete = true then some refusedIncomplete
      else none := by
  simp only [State.loadRefusal, State.tagTaken, SlotState.blocksTag_iff, Rules.spanFits_false_iff]
  congr

/-- Settles O14: the slot it picks, then each check where those before it pass. -/
theorem ldjbChecksInOrder : Obligations.LdjbChecksInOrder := by
  classical
  intro bs s h refused
  have refuse : ∀ {i code}, s.plan.plies ≠ [] → s.picksSlot i → s.loadRefusal i bs = some (.refusal code) → refused code :=
    fun hp hi hr => exec_same rfl h (runLdjb_refused hp hi hr)
  refine ⟨fun hp => exec_same rfl h (if_pos hp), fun hp hi => exec_same rfl h ?_, fun i hp hi => ?_⟩
  · show runLdjb bs s = _
    rw [runLdjb, if_neg hp, State.slotToLoad_none hi]
    rfl
  · refine ⟨fun ht => refuse hp hi ?_, fun ht hr => refuse hp hi ?_, fun ht hr hs => refuse hp hi ?_, fun ht hr hm hv => refuse hp hi ?_⟩
    · exact State.loadRefusal_eq.trans (if_pos ht)
    · exact State.loadRefusal_eq.trans ((if_neg ht).trans (if_pos hr))
    · exact State.loadRefusal_eq.trans ((if_neg ht).trans ((if_neg hr).trans (if_pos hs)))
    · exact State.loadRefusal_eq.trans ((if_neg ht).trans ((if_neg hr).trans ((if_neg (by simp [hm])).trans (if_pos ⟨hm, hv⟩))))

/-! ### The slot it fills (R21, R108) -/

theorem Rules.counters_length (r : Rules) (lanes : Nat) : (r.counters lanes).length = if r.mode = .stacked then lanes else 1 := by
  unfold Rules.counters
  cases r.mode <;> simp

/-- A counter at load is at its lane's start (R21), which lies in the domain or is reduced into it. -/
theorem Rules.counters_get {r : Rules} {lanes a : Nat} {c : Counter} (hstart : r.start < 10 ^ r.width)
    (hfits : r.wrap = false → ¬ r.spanLeaves lanes) (hc : (r.counters lanes)[a]? = some c) :
    c = Counter.at c.v ∧ (c.v : Int) = if r.wrap then r.spanValue a 0 % ((10 ^ r.width : Nat) : Int) else r.spanValue a 0 := by
  have hd : (0 : Int) < ((10 ^ r.width : Nat) : Int) := by exact_mod_cast Nat.pow_pos (n := r.width) (by decide : 0 < 10)
  have hin : r.wrap = false → a < (if r.mode = .stacked then lanes else 1) →
      r.spanValue a 0 % ((10 ^ r.width : Nat) : Int) = r.spanValue a 0 := fun hw ha => by
    refine Int.emod_eq_of_lt ?_ ?_ <;> by_contra hx
    · exact hfits hw ⟨a, 0, ha, .inl rfl, .inl (by rw [← Rules.spanValue_eq]; omega)⟩
    · exact hfits hw ⟨a, 0, ha, .inl rfl, .inr (by rw [← Rules.spanValue_eq]; omega)⟩
  have ha : a < (if r.mode = .stacked then lanes else 1) := by
    rw [← Rules.counters_length]
    exact (List.getElem?_eq_some_iff.mp hc).1
  unfold Rules.counters at hc
  cases hm : r.mode with
  | sequential =>
    rw [hm] at hc ha
    obtain rfl : a = 0 := by simpa using ha
    cases hc
    have hv : r.spanValue 0 0 = r.start := by rw [Rules.spanValue, Nat.zero_mul, Rules.moveTarget_zero]
    refine ⟨rfl, ?_⟩
    rw [hv]
    split_ifs
    · exact (Int.emod_eq_of_lt (Int.natCast_nonneg _) (by exact_mod_cast hstart)).symm
    · rfl
  | stacked =>
    rw [hm, if_pos rfl] at ha
    rw [hm] at hc
    dsimp only at hc
    rw [List.getElem?_map, List.getElem?_range ha] at hc
    cases hc
    refine ⟨rfl, ?_⟩
    have hv : (((r.laneStart a % (r.domain : Int)).toNat : Nat) : Int) = r.spanValue a 0 % ((10 ^ r.width : Nat) : Int) :=
      Int.toNat_of_nonneg (Int.emod_nonneg _ hd.ne')
    rw [show (Counter.at (r.laneStart a % (r.domain : Int)).toNat).v = (r.laneStart a % (r.domain : Int)).toNat from rfl, hv]
    split_ifs with hw
    · rfl
    · exact hin (by simpa using hw) (by rw [hm, if_pos rfl]; exact ha)

theorem jobBlockOk_lanes (h : jobBlockOk bs = true) : 1 ≤ (byteAt bs 3).toNat := by
  simp only [jobBlockOk, Bool.and_eq_true, decide_eq_true_eq] at h
  exact h.1.1.1.1.1.1.1.1

theorem jobBlockOk_start (h : jobBlockOk bs = true) (hs : jobSource bs = .series) : (jobRules bs).start < 10 ^ (jobRules bs).width := by
  simp only [jobBlockOk, hs, Bool.and_eq_true, decide_eq_true_eq] at h
  exact h.2.1.1.1.1.1.1.1

theorem byteAt_lt_length {n : Nat} (h : byteAt bs n ≠ 0) : n < bs.length := by
  by_contra hn
  exact h (by simp [byteAt, List.getD, List.getElem?_eq_none (not_lt.mp hn)])

/-- The tag's field as its two bytes. -/
theorem beBytes_tag (h : 2 ≤ bs.length) : beBytes 2 (jobTag bs) = [byteAt bs 0, byteAt bs 1] := by
  match bs, h with
  | b0 :: b1 :: rest, _ =>
    have h0 := b0.isLt
    have h1 := b1.isLt
    have htag : jobTag (b0 :: b1 :: rest) = b0.toNat * 256 + b1.toNat := by simp [jobTag, field, beNat]
    rw [htag]
    simp only [beBytes, byteAt, List.getD, List.getElem?_cons_zero, List.getElem?_cons_succ, Option.getD_some, List.cons.injEq, and_true]
    exact ⟨BitVec.eq_of_toNat_eq (by rw [BitVec.toNat_ofNat]; omega), BitVec.eq_of_toNat_eq (by rw [BitVec.toNat_ofNat]; omega)⟩

/-- Settles O15: with no check failing, the picked slot becomes the block's job. -/
theorem ldjbLoadsJob : Obligations.LdjbLoadsJob := by
  classical
  intro i bs s h hp hi r lanes htag htaken hok hspan hinc
  have hnone : s.loadRefusal i bs = none := State.loadRefusal_eq.trans ((if_neg (not_or.mpr ⟨htag, htaken⟩)).trans
    ((if_neg (by simp [hok])).trans ((if_neg hspan).trans (if_neg hinc))))
  have hrun := runLdjb_loads hp hi hnone
  have hlen : 2 ≤ bs.length := by
    have h1 := jobBlockOk_lanes hok
    have := byteAt_lt_length (bs := bs) (n := 3) fun e => by rw [Byte.eq_zero_iff] at e; omega
    omega
  refine ⟨_, exec_ldjb h, ?_⟩
  rw [State.carryOut_slot, State.carryOut_slot, State.carryOut, hrun]
  dsimp only
  rw [State.modSlot_slot_self, State.modSlot_slot_other]
  refine ⟨rfl, ?_, fun a c hc => ?_, rfl, ?_, ?_⟩
  · cases hs : jobSource bs with
    | series => simp only [loadedJob, hs, Rules.counters_length]; rfl
    | makeup => simp only [loadedJob, hs]; rfl
  · cases hs : jobSource bs with
    | series =>
      simp only [loadedJob, hs] at hc
      have hget := Rules.counters_get (jobBlockOk_start hok hs) (fun hw hl => hspan ⟨hs, hw, hl⟩) hc
      rw [Rules.spanValue_eq, Nat.add_zero] at hget
      exact hget
    | makeup =>
      simp only [loadedJob, hs] at hc
      cases hc
  · rw [beBytes_one, beBytes_tag hlen, State.modSlot_sup]
    rfl
  · cases i <;> rfl

end

end Sys2Proof.Machine
end

section
/-! STRT (O16: R44, R59, R111, R112, R164, R173). -/

namespace Sys2Proof.Machine

section
variable {s : State} {bs : Bytes} {i : SlotId}

/-- With no request at any port and no opening target, settling starts the next fill and does no more. -/
theorem State.settle_quiet (hp : ∀ p, (s.port p).slot = .none) (ht : s.window.target = none) :
    s.settle = { s with queue := { s.queue with fill := s.nextFill.orElse fun _ => s.queue.fill } } := by
  obtain ⟨-, -, -, -, htarget, -, -, hevents⟩ := s.settle_settled
  have hport : ∀ p, s.settle.port p = s.port p := fun p => by rw [State.settle_port, State.concluded, hp]
  have hev : s.settle.sup.events = s.sup.events := hevents fun ⟨p, q, r, h, _⟩ => by rw [hp] at h; cases h
  have heq := s.settle_eq
  rw [htarget ht, hev, State.settle_queue] at heq
  generalize s.settle = t at heq hport
  rw [heq] at hport ⊢
  exact State.eq_of_fields rfl rfl rfl rfl (by rw [← ht]) rfl rfl rfl hport rfl rfl rfl

theorem State.startRun_eq (s : State) (i : SlotId) : s.startRun i = ((s.startRunBase i).queueJobStart i).settle := by
  unfold State.startRun State.startRunBase
  rfl

theorem State.queueJobStart_eq (s : State) (i : SlotId) : s.queueJobStart i = { s with account := (s.queueJobStart i).account } := rfl

theorem State.queueJobStart_account (s : State) (i : SlotId) : (s.queueJobStart i).account =
    { s.account with
      queue := s.account.queue ++ [.jobStart i (s.slot i).startBytes]
      due := s.account.due || s.account.queue.isEmpty } := rfl

theorem State.nextFill_queueJobStart (s : State) (i : SlotId) : (s.queueJobStart i).nextFill = s.nextFill := by
  rw [State.queueJobStart_eq]
  rfl

/-- The fill that a run of slot `i` begins with (R111). -/
def State.firstFill (s : State) (i : SlotId) : Fill :=
  { slot := i, target := s.plan.lMax, before := (s.slot i).before, entries := [], skipped := 0, drawn := [], floor := none }

/-- The fill that a run begins with is for L_max, from the counters as they stand (R111, R45). -/
theorem State.startRunBase_nextFill (hl : s.plan.lMax ≤ 44) (hr : s.inRun = false) (hc : ∀ k, (s.slot k).change = none) :
    (s.startRunBase i).nextFill = some (s.firstFill i) := by
  have hslot : (s.startRunBase i).slot i =
      { s.slot i with state := .running, first := some s.plan.lMax, final := .unset, change := none, note := .unset } := by
    rw [State.startRunBase_slot, if_pos rfl]
  have hother : (s.startRunBase i).slot i.other = { s.slot i.other with note := .unset } := by
    rw [State.startRunBase_slot, if_neg (SlotId.other_ne i)]
  have hrun : (s.startRunBase i).runningSlot = some i := State.runningSlot_of (by rw [hslot]) (by
    rw [hother]
    intro e
    have := State.not_inRun hr i.other
    rw [show (s.slot i.other).state = .running from e] at this
    cases this)
  have hstaged : (s.startRunBase i).staged = none := State.staged_eq_none fun k => by
    rw [State.startRunBase_slot]
    split_ifs
    · rfl
    · exact hc k
  have hqueue : (s.startRunBase i).queue = .empty := State.startRunBase_queue s i
  have hfirst : (s.startRunBase i).firstUnopened = s.plan.lMax := by
    have hw : (s.startRunBase i).window = .empty := State.startRunBase_window s i
    have hplan : (s.startRunBase i).plan = s.plan := State.startRunBase_plan s i
    rw [State.firstUnopened, hw, hplan]
    rfl
  have howner : (s.startRunBase i).ownerOf s.plan.lMax = some i := by
    rw [State.ownerOf, hrun, hstaged]
    dsimp only
    rw [State.ownedBy, hslot]
    refine if_pos ?_
    simp only [Final.allows, Bool.true_and, decide_eq_true_eq]
    exact hl.trans (by decide)
  have hbase : (s.startRunBase i).draftBase = some s.plan.lMax := by
    unfold State.draftBase
    rw [hfirst, hqueue]
    dsimp only
    rw [show max s.plan.lMax (DraftQueue.empty.passFloor.getD 0) = s.plan.lMax from Nat.max_zero _, howner]
    rfl
  unfold State.nextFill
  rw [hqueue, if_neg (by simp [DraftQueue.empty, maxDrafts]), hbase]
  dsimp only
  rw [show s.plan.lMax + DraftQueue.empty.drafts.length = s.plan.lMax from rfl, howner]
  dsimp only
  rw [hslot]
  rfl

/-- What STRT leaves, block by block. -/
theorem State.startRun_parts (hl : s.plan.lMax ≤ 44) (hr : s.inRun = false) (hc : ∀ k, (s.slot k).change = none) :
    s.startRun i = { s with
      slotA := (s.startRunBase i).slotA
      slotB := (s.startRunBase i).slotB
      queue := { DraftQueue.empty with fill := some (s.firstFill i) }
      window := .empty
      receiver := { s.receiver with lastVerdict := none }
      account := { s.account with
        queue := s.account.queue ++ [.jobStart i (s.slot i).startBytes]
        due := s.account.due || s.account.queue.isEmpty }
      ports := (s.startRunBase i).ports } := by
  have hport : ∀ p, ((s.startRunBase i).port p).slot = .none := fun p => by
    rw [State.startRunBase_port]
    rfl
  have hstart : ((s.startRunBase i).slot i).startBytes = (s.slot i).startBytes := by
    rw [State.startRunBase_slot, if_pos rfl]
    rfl
  have hfill := State.startRunBase_nextFill (i := i) hl hr hc
  have hplan := State.startRunBase_plan s i
  have hqueue := State.startRunBase_queue s i
  have hwindow := State.startRunBase_window s i
  have hreceiver := State.startRunBase_receiver s i
  have hvoids := State.startRunBase_voids s i
  have haccount := State.startRunBase_account s i
  have hsup := State.startRunBase_sup s i
  have hrun := State.startRunBase_run s i
  have hpending := State.startRunBase_pending s i
  rw [State.startRun_eq]
  generalize s.startRunBase i = b at *
  rw [State.settle_quiet (s := b.queueJobStart i) hport (by rw [State.queueJobStart_window, hwindow]; rfl), State.nextFill_queueJobStart,
    hfill, State.queueJobStart_queue, hqueue]
  refine State.eq_of_fields hplan rfl rfl rfl hwindow hreceiver hvoids ?_ (fun p => rfl) hsup hrun hpending
  dsimp only
  rw [State.queueJobStart_account, haccount, hstart]

/-- Settles O16: the run's base, the JOB_START, and a settling that finds no request and no target. -/
theorem strtBeginsRun : Obligations.StrtBeginsRun := by
  intro i bs s h hp hl hr hb hst hc
  have hname : namedSlot bs = some i := namedSlot_code (by rw [hb]; cases i <;> rfl)
  have hrun := runStrt_named hp hr hname
  rw [if_neg (not_not.mpr hst), State.startRun_parts hl hr hc] at hrun
  have hslot := fun k => State.startRunBase_slot s i k
  have hport := fun p => State.startRunBase_port s i p
  generalize s.startRunBase i = b at hrun hslot hport
  have hself := hslot i
  have hother := hslot i.other
  rw [if_pos rfl] at hself
  rw [if_neg (SlotId.other_ne i)] at hother
  refine ⟨_, exec_strt h, ?_⟩
  rw [State.carryOut, hrun]
  refine ⟨?_, ?_, rfl, rfl, rfl, fun p => (hport p).trans ?_, rfl, ?_, rfl⟩
  · cases i <;> exact hself
  · cases i <;> exact hother
  · simp only [Bool.and_eq_true, decide_eq_true_eq, and_assoc]
    rfl
  · simp only [beBytes_one]
    rfl

end

end Sys2Proof.Machine
end

section
/-! TALY, VLRD and VLCL (O20, O21: R137, R138, R157, R191). -/

namespace Sys2Proof.Machine

section
variable {s : State} {bs : Bytes}

/-! ### Reading bytes of a block -/

theorem flagBit_getLsbD {place k : Nat} (b : Bool) (hp : place < 8) : (flagBit b place).getLsbD k = (b && decide (place = k)) := by
  unfold flagBit
  cases b with
  | false => simp
  | true =>
    rw [if_pos rfl, BitVec.getLsbD_ofNat, Nat.testBit_two_pow, Bool.true_and]
    by_cases hk : place = k
    · simp [← hk, hp]
    · simp [hk]

theorem field_beBytes_end (k n : Nat) : field (beBytes k n) 0 k = n % 256 ^ k := by
  have h := field_beBytes k n []
  rwa [List.append_nil] at h

theorem byteAt_beBytes_end (n : Nat) : byteAt (beBytes 1 n) 0 = BitVec.ofNat 8 n := by rw [beBytes_one]; rfl

/-! ### TALY -/

theorem runTaly_named {i : SlotId} (h : namedSlot bs = some i) : runTaly bs s = (.carriedOut (s.tallyResults i), s) := by
  rw [runTaly, h]

theorem tallyResults_length (s : State) (i : SlotId) : (s.tallyResults i).length = 81 := by
  simp only [State.tallyResults, Tally.bytes, List.length_append, beBytes_length, List.length_cons, List.length_nil]

theorem State.openCount_of_none {i : SlotId} (h : ∀ x ∈ s.window.records, x.slot ≠ i) : s.openCount i = 0 := by
  have : (s.awaiting.filter fun x => x.slot = i) = [] := by
    rw [List.filter_eq_nil_iff]
    exact fun x hx => by simpa using h x (List.mem_of_mem_filter hx)
  rw [State.openCount, this]
  rfl

end

/-- TALY's results, each at its place. -/
theorem tallyResults_fields (s : State) (i : SlotId) :
    let r := s.tallyResults i
    let j := s.slot i
    let v := s.receiver
    byteAt r 0 = BitVec.ofNat 8 i.code ∧ byteAt r 1 = BitVec.ofNat 8 j.state.code ∧ field r 2 2 = j.tag % 2 ^ 16 ∧
    byteAt r 4 = (flagBit j.first.isNone 0 ||| flagBit (j.final = .unset) 1 ||| flagBit (j.final = .empty) 2 |||
      flagBit v.lastVerdict.isNone 3) ∧
    field r 5 4 = (j.first.getD 0) % 2 ^ 32 ∧ (∀ f, j.final = .known f → field r 9 4 = f % 2 ^ 32) ∧
    (j.final = .unset ∨ j.final = .empty → field r 9 4 = 0) ∧
    (List.range 10).map (fun k => field r (13 + 4 * k) 4) =
      [j.tally.repeatsOpened, j.tally.issued, j.tally.delivered, j.tally.voidStation, j.tally.voidReader, j.tally.voidUnverified,
        j.tally.voidAborted, j.tally.postVoided, j.tally.blank, j.tally.skipped].map (· % 2 ^ 32) ∧
    field r 53 4 = s.openCount i % 2 ^ 32 ∧ field r 57 4 = (v.lastVerdict.getD 0) % 2 ^ 32 ∧
    (List.range 5).map (fun k => field r (61 + 4 * k) 4) =
      [v.checksumFails, v.framingFails, v.duplicates, v.shapeMismatches, v.noRecords].map (· % 2 ^ 32) := by
  refine ⟨?_, ?_, ?_, ?_, ?_, fun f hf => ?_, fun hf => ?_, ?_, ?_, ?_, ?_⟩
  · simp [State.tallyResults, byteAt_beBytes_one]
  · simp [State.tallyResults, byteAt_past, byteAt_beBytes_one]
  · simp [State.tallyResults, field_past, field_beBytes]
  · simp [State.tallyResults, byteAt_past, byteAt_cons_zero]
  · simp [State.tallyResults, field_past, field_cons, field_beBytes]
  · simp [State.tallyResults, field_past, field_cons, field_beBytes, hf]
  · rcases hf with hf | hf <;> simp [State.tallyResults, field_past, field_cons, field_beBytes, hf]
  · simp [List.range_succ, State.tallyResults, Tally.bytes, field_past, field_cons, field_beBytes]
  · simp [State.tallyResults, Tally.bytes, field_past, field_cons, field_beBytes]
  · simp [State.tallyResults, Tally.bytes, field_past, field_cons, field_beBytes]
  · simp [List.range_succ, State.tallyResults, Tally.bytes, field_past, field_cons, field_beBytes, field_beBytes_end]

/-- Settles O20: each value read at its place of the block that TALY lays down. -/
theorem talyReportsSlot : Obligations.TalyReportsSlot := by
  intro bs s h
  refine ⟨fun hb => exec_same rfl h (by show runTaly bs s = _; rw [runTaly, namedSlot_none hb]; rfl), fun i hb => ?_⟩
  refine ⟨s.tallyResults i, exec_same rfl h (runTaly_named (namedSlot_code hb)), tallyResults_length s i, ?_⟩
  intro j v
  obtain ⟨hslot, hstate, htag, hflags, hfirst, hknown, hnone, htally, hopen, hlast, hcounts⟩ := tallyResults_fields s i
  have hbits : (byteAt (s.tallyResults i) 4).getLsbD 0 = (s.slot i).first.isNone ∧
      (byteAt (s.tallyResults i) 4).getLsbD 1 = decide ((s.slot i).final = .unset) ∧
      (byteAt (s.tallyResults i) 4).getLsbD 2 = decide ((s.slot i).final = .empty) ∧
      (byteAt (s.tallyResults i) 4).getLsbD 3 = s.receiver.lastVerdict.isNone := by
    rw [hflags]
    simp only [BitVec.getLsbD_or, flagBit_getLsbD _ (by decide : 0 < 8), flagBit_getLsbD _ (by decide : 1 < 8),
      flagBit_getLsbD _ (by decide : 2 < 8), flagBit_getLsbD _ (by decide : 3 < 8)]
    exact ⟨by simp, by simp, by simp, by simp⟩
  refine ⟨hslot, hstate, htag, hbits, hfirst, hknown, hnone, htally, hopen, hlast, hcounts, fun hj hrec => ?_⟩
  have hslot : s.slot i = .cleared := hj
  obtain ⟨b0, b1, b2, -⟩ := hbits
  rw [hslot] at b0 b1 b2 hstate htag hfirst htally
  rw [State.openCount_of_none hrec] at hopen
  refine ⟨hstate, htag, b0, b1, b2, hfirst, hnone (.inl (by rw [hslot]; rfl)), fun k hk => ?_, hopen⟩
  have hzero : (List.range 10).map (fun k => field (s.tallyResults i) (13 + 4 * k) 4) = List.replicate 10 0 := htally
  exact (List.eq_replicate_iff.mp hzero).2 _ (List.mem_map_of_mem (List.mem_range.mpr hk))

/-! ### VLRD and VLCL -/

section
variable {s : State} {bs : Bytes}

/-- VLRD's results from index `i` on (R137). -/
def VoidList.report (v : VoidList) (i : Nat) : Bytes :=
  beBytes 2 v.ranges.length ++ [flagBit v.incomplete 0] ++ beBytes 4 v.dropped ++ beBytes 2 v.changes ++ beBytes 2 i
    ++ beBytes 1 (v.page i).length ++ (v.page i).flatMap fun x => beBytes 5 x.1 ++ beBytes 5 x.2

theorem runVlrd_report (h : field bs 0 2 ≤ 255) : runVlrd bs s = (.carriedOut (s.voids.report (field bs 0 2)), s) := by
  rw [runVlrd, if_neg (by omega)]
  rfl

/-- The ranges of a page follow each other, 10 bytes for each. -/
theorem field_ranges : ∀ (rs : List (Nat × Nat)) (m : Nat) (x : Nat × Nat), rs[m]? = some x →
    field (rs.flatMap fun x => beBytes 5 x.1 ++ beBytes 5 x.2) (10 * m) 5 = x.1 % 2 ^ 40 ∧
    field (rs.flatMap fun x => beBytes 5 x.1 ++ beBytes 5 x.2) (5 + 10 * m) 5 = x.2 % 2 ^ 40
  | y :: rs, 0, x, h => by
    cases h
    simp [field_past, field_beBytes]
  | y :: rs, m + 1, x, h => by
    obtain ⟨h1, h2⟩ := field_ranges rs m x h
    rw [List.flatMap_cons, List.append_assoc, field_past 5 _ _ _ _ (by omega), field_past 5 _ _ _ _ (by omega),
      field_past 5 _ _ _ _ (by omega), field_past 5 _ _ _ _ (by omega), ← h1, ← h2]
    exact ⟨rfl, rfl⟩

/-- VLRD's results, each at its place. -/
theorem VoidList.report_fields (v : VoidList) {i : Nat} (hi : i ≤ 255) :
    field (v.report i) 0 2 = v.ranges.length % 2 ^ 16 ∧ byteAt (v.report i) 2 = (if v.incomplete then 1 else 0) ∧
    field (v.report i) 3 4 = v.dropped % 2 ^ 32 ∧ field (v.report i) 7 2 = v.changes % 2 ^ 16 ∧ field (v.report i) 9 2 = i ∧
    (byteAt (v.report i) 11).toNat = min 10 (v.ranges.length - i) ∧
    ∀ m x, m < 10 → v.ranges[i + m]? = some x →
      field (v.report i) (12 + 10 * m) 5 = x.1 % 2 ^ 40 ∧ field (v.report i) (17 + 10 * m) 5 = x.2 % 2 ^ 40 := by
  have hlen : (v.page i).length = min 10 (v.ranges.length - i) := by rw [VoidList.page, List.length_take, List.length_drop]
  refine ⟨?_, ?_, ?_, ?_, ?_, ?_, fun m x hm hx => ?_⟩
  · simp [VoidList.report, field_beBytes]
  · simp [VoidList.report, byteAt_past, byteAt_cons_zero, flagBit]
  · simp [VoidList.report, field_past, field_cons, field_beBytes]
  · simp [VoidList.report, field_past, field_cons, field_beBytes]
  · simp [VoidList.report, field_past, field_cons, field_beBytes]
    omega
  · simp [VoidList.report, byteAt_past, byteAt_cons_succ, byteAt_beBytes_one, hlen]
  · have hpage : (v.page i)[m]? = some x := by rw [VoidList.page, List.getElem?_take_of_lt hm, List.getElem?_drop, hx]
    obtain ⟨h1, h2⟩ := field_ranges _ m x hpage
    have hskip : ∀ k, field (v.report i) (12 + k) 5 = field ((v.page i).flatMap fun x => beBytes 5 x.1 ++ beBytes 5 x.2) k 5 :=
      fun k => field_skip (beBytes 2 v.ranges.length ++ [flagBit v.incomplete 0] ++ beBytes 4 v.dropped ++ beBytes 2 v.changes ++
        beBytes 2 i ++ beBytes 1 (v.page i).length) _ k 5
    rw [hskip, show 17 + 10 * m = 12 + (5 + 10 * m) by omega, hskip]
    exact ⟨h1, h2⟩

theorem JobSlot.makeupPresent_iff (j : JobSlot) :
    j.makeupPresent = true ↔ j.source = .makeup ∧ j.state ∈ [SlotState.loaded, .running, .draining] := by
  rw [JobSlot.makeupPresent, Bool.and_eq_true, decide_eq_true_eq, SlotState.blocksTag_iff]

theorem State.makeupPresent_iff (s : State) : (s.slotA.makeupPresent || s.slotB.makeupPresent) = true ↔
    ∃ i, (s.slot i).source = .makeup ∧ (s.slot i).state ∈ [SlotState.loaded, .running, .draining] := by
  rw [Bool.or_eq_true, JobSlot.makeupPresent_iff, JobSlot.makeupPresent_iff]
  constructor
  · rintro (h | h)
    · exact ⟨.A, h⟩
    · exact ⟨.B, h⟩
  · rintro ⟨i, h⟩
    cases i with
    | A => exact .inl h
    | B => exact .inr h

end

/-- Settles O21: VLRD's block read at its places, and VLCL's one check. -/
theorem vlrdReportsAndVlclEmpties : Obligations.VlrdReportsAndVlclEmpties := by
  refine ⟨fun bs s h => ⟨fun hi => exec_same rfl h (if_pos hi), fun hi => ?_⟩, fun bs s h => ⟨fun hheld => ?_, fun hheld => ?_⟩⟩
  · exact ⟨_, exec_same rfl h (runVlrd_report hi), s.voids.report_fields hi⟩
  · exact exec_same rfl h (if_pos (s.makeupPresent_iff.mpr hheld))
  · have hrun : runVlcl bs s = _ := if_neg (mt s.makeupPresent_iff.mp (not_exists.mpr hheld))
    rw [exec_vlcl h, State.carryOut, hrun]
    rfl

end Sys2Proof.Machine
end

section
/-! Check characters, rendered strings and station frames (O25, O26, O27: R29, R30, R36, R163, R190). -/

namespace Sys2Proof.Machine

/-! ### Check characters (R29, R30) -/

/-- The check value of a weighted sum under modulus `m` completes the sum to a multiple of `m`. -/
theorem check_completes (m x : Nat) (hm : 0 < m) : (m - x % m) % m < m ∧ ((m - x % m) % m + x) % m = 0 := by
  refine ⟨Nat.mod_lt _ hm, ?_⟩
  have hx := Nat.mod_lt x hm
  have hdiv := Nat.div_add_mod x m
  have hsum : m - x % m + x = m * (x / m + 1) := by
    rw [Nat.mul_add, Nat.mul_one]
    omega
  rw [Nat.mod_add_mod, hsum, Nat.mul_mod_right]

theorem weight11_eq (i : Nat) : [2, 3, 4, 5, 6, 7].getD (i % 6) 0 = weight11 i := by
  have h : i % 6 < 6 := Nat.mod_lt _ (by decide)
  rw [weight11]
  interval_cases i % 6 <;> rfl

/-- Settles O26: scheme by scheme. -/
theorem checkCharacters : Obligations.CheckCharacters := by
  intro r v weighted char
  refine ⟨fun h => ⟨?_, ?_⟩, fun h => ⟨?_, ?_⟩, fun h => ⟨?_, ?_⟩, fun h => ?_⟩
  · rw [Rules.checkOf, h]; rfl
  · rw [Rules.skipsValue, h]; rfl
  · rw [Rules.checkOf, h]; rfl
  · rw [Rules.skipsValue, h]; rfl
  · rw [Rules.skipsValue, h]; rfl
  · obtain ⟨hlt, hsum⟩ := check_completes 10 (weightedSum weight10 r.width v) (by decide)
    refine ⟨_, hlt, hsum, ?_⟩
    rw [Rules.checkOf, h]
    rfl
  · obtain ⟨hlt, hsum⟩ := check_completes 11 (weightedSum weight11 r.width v) (by decide)
    have hvalue : checkValue r.scheme r.width v = some ((11 - weightedSum weight11 r.width v % 11) % 11) := by
      rcases h with h | h <;> rw [h] <;> rfl
    refine ⟨_, hlt, ?_, ?_, ?_⟩
    · simp only [weight11_eq]
      exact hsum
    · rw [Rules.checkOf, hvalue]
      rfl
    · rw [Rules.skipsValue, hvalue]
      simp

/-! ### Rendered strings (R36) -/

theorem Rules.digits_length (r : Rules) (v : Nat) : (r.digits v).length = r.width := by simp [Rules.digits]

/-- Settles O27: the digits of `Rules.digits`, counted from the units digit. -/
theorem renderedStrings : Obligations.RenderedStrings := by
  intro r v check
  refine ⟨r.digits v, r.digits_length v, ?_, fun i hi => ?_⟩
  · rw [Rules.render, List.append_assoc]
    congr 1
    cases check with
    | none => simp
    | some c => cases r.sepSpace <;> simp
  · have hrev : (List.range r.width).reverse[r.width - 1 - i]? = some i := by
      rw [List.getElem?_reverse (by rw [List.length_range]; omega), List.length_range, List.getElem?_range (by omega)]
      congr 1
      omega
    rw [Rules.digits, List.getElem?_map, hrev, Option.map_some]
    congr 1
    have hlt : v < 10 ^ i ↔ v / 10 ^ i = 0 := by
      rw [Nat.div_eq_zero_iff]
      simp
    simp only [Bool.and_eq_true, decide_eq_true_eq, hlt, and_assoc]
    rfl

/-! ### Station frames (R163, R190) -/

theorem byteSum_snoc (bs : Bytes) (b : Byte) : byteSum (bs ++ [b]) = byteSum bs + b := by simp [byteSum]

/-- A body with its check byte is accepted, whatever follows it. -/
theorem frameAccepted_withCheck (command : Byte) (body more : Bytes) (n : Nat) (h : body.length = n) :
    frameAccepted command (n + 1) (withCheck command body ++ more) = true := by
  have htake : (withCheck command body ++ more).take (n + 1) = withCheck command body :=
    List.take_left' (by simp [withCheck, h])
  rw [frameAccepted, htake, Bool.and_eq_true, decide_eq_true_eq, decide_eq_true_eq]
  refine ⟨by simp [withCheck, h], ?_⟩
  rw [withCheck, ← List.cons_append, byteSum_snoc, checkByte]
  bv_omega

/-- One byte less is a short frame. -/
theorem frameAccepted_short (command : Byte) (body : Bytes) (n : Nat) (h : body.length = n) :
    frameAccepted command (n + 1) ((withCheck command body).take n) = false := by
  rw [frameAccepted, Bool.and_eq_false_iff]
  exact .inl (decide_eq_false (by simp [withCheck, h]))

/-- Another byte in the place of the check byte leaves a sum that is not 0. -/
theorem frameAccepted_wrong (command wrong : Byte) (body : Bytes) (n : Nat) (h : body.length = n)
    (hw : wrong ≠ (withCheck command body).getD n 0) :
    frameAccepted command (n + 1) ((withCheck command body).take n ++ [wrong]) = false := by
  have htake : (withCheck command body).take n = body := List.take_left' h
  have hget : (withCheck command body).getD n 0 = checkByte (command :: body) := by
    rw [withCheck, List.getD_append_right _ _ _ _ (by omega), h, Nat.sub_self]
    rfl
  rw [frameAccepted, htake, Bool.and_eq_false_iff]
  refine .inr (decide_eq_false ?_)
  rw [List.take_of_length_le (by simp [h]), ← List.cons_append, byteSum_snoc]
  intro hsum
  rw [hget, checkByte] at hw
  generalize byteSum (command :: body) = x at hsum hw
  exact hw (by bv_omega)

/-- Settles O25: the three frames by their bodies. -/
theorem frameRoundTrip : Obligations.FrameRoundTrip := by
  intro c1 c2 mask more wrong h1 h2
  have hrequest : (beBytes 4 c1).length = 4 := beBytes_length _ _
  have hwaste : (beBytes 4 c1 ++ beBytes 4 c2).length = 8 := by simp [beBytes_length]
  have hmisfire : (beBytes 4 c1 ++ beBytes 2 mask.toNat).length = 6 := by simp [beBytes_length]
  have hmask := mask.isLt
  refine ⟨⟨frameAccepted_withCheck 0x31 _ more 4 hrequest, ?_⟩, ⟨frameAccepted_withCheck 0x32 _ more 8 hwaste, ?_, ?_⟩,
    ⟨frameAccepted_withCheck 0x33 _ more 6 hmisfire, ?_, ?_⟩, frameAccepted_short 0x31 _ 4 hrequest, frameAccepted_short 0x32 _ 8 hwaste,
    frameAccepted_short 0x33 _ 6 hmisfire, frameAccepted_wrong 0x31 wrong _ 4 hrequest, frameAccepted_wrong 0x32 wrong _ 8 hwaste,
    frameAccepted_wrong 0x33 wrong _ 6 hmisfire⟩
  · simp only [encodeRequest, withCheck, List.append_assoc, field_beBytes]
    omega
  · simp only [encodeWaste, withCheck, List.append_assoc, field_beBytes]
    omega
  · simp [encodeWaste, withCheck, field_past, field_beBytes]
    omega
  · simp only [encodeMisfire, withCheck, List.append_assoc, field_beBytes]
    omega
  · refine BitVec.eq_of_toNat_eq ?_
    simp [encodeMisfire, withCheck, field_past, field_beBytes]
    exact hmask

end Sys2Proof.Machine
end

section
/-! The blocks of PLAN and LDJB, read back and checked (O22, O23, O24: R5, R17, R18, R107, R191). -/

namespace Sys2Proof.Machine

/-! ### Padded blocks -/

theorem padTo_eq {n : Nat} {bs : Bytes} (h : bs.length ≤ n) : padTo n bs = bs ++ List.replicate (n - bs.length) 0 := by
  rw [padTo, List.take_append, List.take_of_length_le h, List.take_replicate, Nat.min_eq_left (by omega)]

theorem byteAt_padTo {n k : Nat} (bs : Bytes) (h : k < n) : byteAt (padTo n bs) k = byteAt bs k := by
  rw [byteAt, List.getD, padTo_get bs h]
  rfl

theorem byteAt_append_left {a b : Bytes} {k : Nat} (h : k < a.length) : byteAt (a ++ b) k = byteAt a k := List.getD_append _ _ _ _ h

theorem byteAt_append_right {a b : Bytes} {k : Nat} (h : a.length ≤ k) : byteAt (a ++ b) k = byteAt b (k - a.length) :=
  List.getD_append_right _ _ _ _ h

/-- A field within the bytes given is not changed by the padding. -/
theorem field_padTo {n : Nat} {bs : Bytes} {off len : Nat} (h : bs.length ≤ n) (hf : off + len ≤ bs.length) :
    field (padTo n bs) off len = field bs off len := by
  rw [padTo_eq h, field, field, List.drop_append_of_le_length (by omega), List.take_append_of_le_length (by simp; omega)]

theorem field_append_left {a b : Bytes} {off len : Nat} (h : off + len ≤ a.length) : field (a ++ b) off len = field a off len := by
  rw [field, field, List.drop_append_of_le_length (by omega), List.take_append_of_le_length (by simp; omega)]

theorem field_append_right {a b : Bytes} {off len : Nat} (h : a.length ≤ off) : field (a ++ b) off len = field b (off - a.length) len := by
  have h' := field_skip a b (off - a.length) len
  rwa [Nat.add_sub_cancel' h] at h'

/-! ### PLAN -/

/-- The plies of a PLAN block, two bytes for each. -/
def plyBytes (es : List PlyEntry) : Bytes := es.flatMap fun e => [BitVec.ofNat 8 e.port.val, BitVec.ofNat 8 e.lead]

theorem plyBytes_get : ∀ (es : List PlyEntry) (k : Nat) (e : PlyEntry), es[k]? = some e →
    byteAt (plyBytes es) (2 * k) = BitVec.ofNat 8 e.port.val ∧ byteAt (plyBytes es) (1 + 2 * k) = BitVec.ofNat 8 e.lead
  | x :: es, 0, e, h => by
    cases h
    exact ⟨rfl, rfl⟩
  | x :: es, k + 1, e, h => plyBytes_get es k e h

theorem encodePlan_eq (p : Plan) : encodePlan p = padTo 64 (padTo 13 (BitVec.ofNat 8 p.plies.length :: plyBytes p.plies)
    ++ (beBytes 2 p.silence ++ (beBytes 2 p.divisor ++ (beBytes 1 p.winHigh ++ beBytes 1 p.bufHigh)))) := by
  simp only [encodePlan, plyBytes, List.append_assoc]

theorem encodePlan_head (p : Plan) {k : Nat} (hk : k < 13) :
    byteAt (encodePlan p) k = byteAt (BitVec.ofNat 8 p.plies.length :: plyBytes p.plies) k := by
  rw [encodePlan_eq, byteAt_padTo _ (by omega), byteAt_append_left (by rw [padTo_length]; exact hk), byteAt_padTo _ hk]

theorem encodePlan_fields (p : Plan) :
    field (encodePlan p) 13 2 = p.silence % 2 ^ 16 ∧ field (encodePlan p) 15 2 = p.divisor % 2 ^ 16 ∧
    byteAt (encodePlan p) 17 = BitVec.ofNat 8 p.winHigh ∧ byteAt (encodePlan p) 18 = BitVec.ofNat 8 p.bufHigh := by
  rw [encodePlan_eq]
  refine ⟨?_, ?_, ?_, ?_⟩
  · rw [field_padTo (by simp [padTo_length, beBytes_length]) (by simp [padTo_length, beBytes_length]),
      field_append_right (by rw [padTo_length]), padTo_length]
    simp [field_beBytes]
  · rw [field_padTo (by simp [padTo_length, beBytes_length]) (by simp [padTo_length, beBytes_length]),
      field_append_right (by simp [padTo_length]), padTo_length]
    simp [field_past, field_beBytes]
  · rw [byteAt_padTo _ (by decide), byteAt_append_right (by simp [padTo_length]), padTo_length]
    simp [byteAt_past, byteAt_beBytes_one]
  · rw [byteAt_padTo _ (by decide), byteAt_append_right (by simp [padTo_length]), padTo_length]
    simp [byteAt_past, byteAt_beBytes_end]

theorem toNat_ofNat_byte {n : Nat} (h : n < 256) : (BitVec.ofNat 8 n).toNat = n := by
  rw [BitVec.toNat_ofNat]
  exact Nat.mod_eq_of_lt h

/-- The bytes of a ply in the block of a plan in its ranges. -/
theorem encodePlan_ply {p : Plan} (h : p.plies.length ≤ 6) {k : Nat} {e : PlyEntry} (he : p.plies[k]? = some e) (hl : e.lead ≤ 44) :
    (byteAt (encodePlan p) (1 + 2 * k)).toNat = e.port.val ∧ (byteAt (encodePlan p) (2 + 2 * k)).toNat = e.lead := by
  have hk := (List.getElem?_eq_some_iff.mp he).1
  obtain ⟨h1, h2⟩ := plyBytes_get p.plies k e he
  have hport := e.port.isLt
  rw [encodePlan_head p (by omega), encodePlan_head p (by omega), Nat.add_comm 1, byteAt_cons_succ, show 2 + 2 * k = 1 + 2 * k + 1 by omega,
    byteAt_cons_succ, h1, h2]
  exact ⟨toNat_ofNat_byte (by omega), toNat_ofNat_byte (by omega)⟩

/-- Settles O22: each field of the block is the plan's. -/
theorem planBlockRoundTrip : Obligations.PlanBlockRoundTrip := by
  intro p hp hne
  obtain ⟨hlen, hnodup, hleads, hsil, hdiv0, hdiv, hwin1, hwin, hbuf1, hbuf⟩ := hp
  obtain ⟨f1, f2, f3, f4⟩ := encodePlan_fields p
  have hcount : (byteAt (encodePlan p) 0).toNat = p.plies.length := by
    rw [encodePlan_head p (by decide), byteAt_cons_zero, toNat_ofNat_byte (by omega)]
  have hply : ∀ k e, p.plies[k]? = some e → (byteAt (encodePlan p) (1 + 2 * k)).toNat = e.port.val ∧
      (byteAt (encodePlan p) (2 + 2 * k)).toNat = e.lead :=
    fun k e he => encodePlan_ply hlen he (hleads e (List.mem_of_getElem? he))
  have hplies : planPlies (encodePlan p) = p.plies := by
    refine List.ext_getElem? fun k => ?_
    by_cases hk : k < p.plies.length
    · obtain ⟨h1, h2⟩ := hply k p.plies[k] (List.getElem?_eq_getElem hk)
      rw [planPlies_get (by omega), List.getElem?_eq_getElem hk, h1, h2, Fin.ofNat_val_eq_self]
    · rw [List.getElem?_eq_none (by rw [planPlies_length]; omega), List.getElem?_eq_none (by omega)]
  have hwinB : (byteAt (encodePlan p) 17).toNat = p.winHigh := by rw [f3, toNat_ofNat_byte (by omega)]
  have hbufB : (byteAt (encodePlan p) 18).toNat = p.bufHigh := by rw [f4, toNat_ofNat_byte (by omega)]
  have hplan : planOf (encodePlan p) = p := by
    rw [planOf, hplies, f1, f2, hwinB, hbufB, Nat.min_eq_left hwin, Nat.min_eq_left hbuf, Nat.mod_eq_of_lt (by unfold max16 at hsil; omega),
      Nat.mod_eq_of_lt (by unfold max16 at hdiv; omega)]
  have hok : planBlockOk (encodePlan p) = true := by
    rw [planBlockOk_iff, hcount]
    have hk : ∀ k, k < p.plies.length → (byteAt (encodePlan p) (1 + 2 * k)).toNat ≤ 5 ∧ (byteAt (encodePlan p) (2 + 2 * k)).toNat ≤ 44 :=
      fun k hk => by
        obtain ⟨h1, h2⟩ := hply k p.plies[k] (List.getElem?_eq_getElem hk)
        rw [h1, h2]
        exact ⟨by have := p.plies[k].port.isLt; omega, hleads _ (List.getElem_mem hk)⟩
    refine ⟨hlen, hk, ?_, ?_, ?_, ?_⟩
    · rw [← hcount]
      refine (planPorts_nodup_iff fun k h => (hk k (by omega)).1).mp ?_
      rw [hplies]
      exact hnodup
    · rw [f2, Nat.mod_eq_of_lt (by unfold max16 at hdiv; omega)]
      exact hdiv0
    · rw [ne_eq, Byte.eq_zero_iff, hwinB]
      omega
    · rw [ne_eq, Byte.eq_zero_iff, hbufB]
      omega
  refine ⟨padTo_length _ _, hok, hplan, fun s h hr => ?_⟩
  have h0 : byteAt (encodePlan p) 0 ≠ 0 := fun e => by
    rw [Byte.eq_zero_iff, hcount, List.length_eq_zero_iff] at e
    exact hne e
  refine ⟨_, exec_plan h, ?_⟩
  rw [State.carryOut_plan, runPlan_stores hr h0 hok, hplan]
  rfl

end Sys2Proof.Machine
end

section
/-! The LDJB block, checked byte by byte and read back (O23, O24: R17, R18, R107, R191). -/

namespace Sys2Proof.Machine

/-! ### The lead characters -/

theorem leadChar_iff (b : Byte) : leadChar b = true ↔ (0x41 ≤ b ∧ b ≤ 0x5A) ∨ (0x30 ≤ b ∧ b ≤ 0x39) := by
  simp only [leadChar, Bool.or_eq_true, Bool.and_eq_true, decide_eq_true_eq]

/-- Characters up to the first 0, and zeros from it on: a first part of some length. -/
theorem leadOk_iff : ∀ l : Bytes,
    ((l.takeWhile (· ≠ 0)).all leadChar = true ∧ (l.dropWhile (· ≠ 0)).all (· = 0) = true) ↔
      ∃ n, n ≤ l.length ∧ (∀ k, k < n → leadChar (l.getD k 0) = true) ∧ ∀ k, n ≤ k → l.getD k 0 = 0
  | [] => by
    refine iff_of_true ⟨rfl, rfl⟩ ⟨0, le_refl _, nofun, fun k _ => rfl⟩
  | b :: l => by
    by_cases hb : b = 0
    · subst hb
      rw [List.takeWhile_cons_of_neg (by simp), List.dropWhile_cons_of_neg (by simp), List.all_eq_true, List.all_eq_true]
      constructor
      · rintro ⟨-, h⟩
        refine ⟨0, Nat.zero_le _, nofun, fun k _ => ?_⟩
        by_cases hk : k < (0 :: l).length
        · rw [List.getD_eq_getElem _ _ hk]
          exact of_decide_eq_true (h _ (List.getElem_mem hk))
        · exact List.getD_eq_default _ _ (by omega)
      · rintro ⟨n, -, hc, hz⟩
        obtain rfl : n = 0 := by
          by_contra hn
          have := hc 0 (by omega)
          cases this
        refine ⟨nofun, fun x hx => ?_⟩
        obtain ⟨k, hk, rfl⟩ := List.getElem_of_mem hx
        have := hz k (Nat.zero_le _)
        rw [List.getD_eq_getElem _ _ hk] at this
        exact decide_eq_true this
    · rw [List.takeWhile_cons_of_pos (by simpa using hb), List.dropWhile_cons_of_pos (by simpa using hb), List.all_cons,
        Bool.and_eq_true, and_assoc, leadOk_iff l]
      constructor
      · rintro ⟨hc, n, hn, hcs, hz⟩
        refine ⟨n + 1, Nat.succ_le_succ hn, fun k hk => ?_, fun k hk => ?_⟩
        · cases k with
          | zero => exact hc
          | succ k => exact hcs k (by omega)
        · cases k with
          | zero => omega
          | succ k => exact hz k (by omega)
      · rintro ⟨n, hn, hc, hz⟩
        cases n with
        | zero => exact absurd (hz 0 (le_refl _)) hb
        | succ n => exact ⟨hc 0 (by omega), n, Nat.le_of_succ_le_succ hn, fun k hk => hc (k + 1) (by omega), fun k hk => hz (k + 1) (by omega)⟩

theorem leadPlace {bs : Bytes} {k : Nat} (hk : k < 3) : ((bs.drop 10).take 3).getD k 0 = byteAt bs (10 + k) := by
  rw [byteAt, List.getD, List.getD, List.getElem?_take_of_lt hk, List.getElem?_drop]

theorem jobLeadOk_iff (bs : Bytes) : jobLeadOk bs = true ↔
    ∃ n, n ≤ 3 ∧ (∀ k, k < n → (0x41 ≤ byteAt bs (10 + k) ∧ byteAt bs (10 + k) ≤ 0x5A) ∨
      (0x30 ≤ byteAt bs (10 + k) ∧ byteAt bs (10 + k) ≤ 0x39)) ∧ ∀ k, n ≤ k → k < 3 → byteAt bs (10 + k) = 0 := by
  have hlen : ((bs.drop 10).take 3).length ≤ 3 := List.length_take_le _ _
  rw [jobLeadOk, jobLead, Bool.and_eq_true, leadOk_iff]
  constructor
  · rintro ⟨n, hn, hc, hz⟩
    refine ⟨n, hn.trans hlen, fun k hk => ?_, fun k hk h3 => ?_⟩
    · rw [← leadChar_iff, ← leadPlace (by omega)]
      exact hc k hk
    · rw [← leadPlace h3]
      exact hz k hk
  · rintro ⟨n, hn, hc, hz⟩
    have hchar : ∀ k, k < n → leadChar (((bs.drop 10).take 3).getD k 0) = true := fun k hk => by
      rw [leadPlace (by omega), leadChar_iff]
      exact hc k hk
    refine ⟨n, ?_, hchar, fun k hk => ?_⟩
    · by_contra hlt
      have := hchar _ (not_le.mp hlt)
      rw [List.getD_eq_default _ _ (le_refl _)] at this
      cases this
    · by_cases h3 : k < 3
      · rw [leadPlace h3]
        exact hz k hk h3
      · exact List.getD_eq_default _ _ (by omega)

/-! ### Check 4, byte by byte -/

theorem schemeOf_isSome_iff (b : Byte) : (schemeOf b).isSome = true ↔ b.toNat ≤ 4 := by
  have hb : ∀ n : Nat, n < 256 → (b = BitVec.ofNat 8 n ↔ b.toNat = n) := fun n hn => by
    rw [← BitVec.toNat_inj, toNat_ofNat_byte hn]
  have h0 := hb 0 (by decide)
  have h1 := hb 1 (by decide)
  have h2 := hb 2 (by decide)
  have h3 := hb 3 (by decide)
  have h4 := hb 4 (by decide)
  unfold schemeOf
  split_ifs with c0 c1 c2 c3 c4
  · exact iff_of_true rfl (by rw [h0.mp c0]; decide)
  · exact iff_of_true rfl (by rw [h1.mp c1]; decide)
  · exact iff_of_true rfl (by rw [h2.mp c2]; decide)
  · exact iff_of_true rfl (by rw [h3.mp c3]; decide)
  · exact iff_of_true rfl (by rw [h4.mp c4])
  · refine iff_of_false nofun fun h => ?_
    have n0 := mt h0.mpr c0
    have n1 := mt h1.mpr c1
    have n2 := mt h2.mpr c2
    have n3 := mt h3.mpr c3
    have n4 := mt h4.mpr c4
    omega

theorem jobSource_makeup {bs : Bytes} (h : (byteAt bs 2).getLsbD 0 = true) : jobSource bs = .makeup := if_pos h

theorem jobSource_series {bs : Bytes} (h : ¬ (byteAt bs 2).getLsbD 0 = true) : jobSource bs = .series := if_neg h

theorem jobSkips_forall {bs : Bytes} (h : (byteAt bs 23).toNat ≤ 4) (P : Nat × Nat → Prop) :
    (∀ x ∈ jobSkips bs, P x) ↔ ∀ j, j < (byteAt bs 23).toNat → P (field bs (24 + 10 * j) 5, field bs (29 + 10 * j) 5) := by
  simp only [jobSkips, List.mem_map, List.mem_range, Nat.min_eq_left h, forall_exists_index, and_imp, forall_apply_eq_imp_iff₂]

/-- What check 4 asks of a block whatever its source: A, D, the width, the scheme, the lead characters. -/
def sharedOk (bs : Bytes) : Prop :=
  (1 ≤ (byteAt bs 3).toNat ∧ (byteAt bs 3).toNat ≤ 4) ∧ (1 ≤ (byteAt bs 4).toNat ∧ (byteAt bs 4).toNat ≤ 4) ∧
  (1 ≤ (byteAt bs 5).toNat ∧ (byteAt bs 5).toNat ≤ 10) ∧ (schemeOf (byteAt bs 7)).isSome = true ∧ jobLeadOk bs = true

theorem jobBlockOk_makeup {bs : Bytes} (h : jobSource bs = .makeup) : jobBlockOk bs = true ↔
    sharedOk bs ∧ field bs 13 5 ≤ field bs 18 5 ∧ field bs 18 5 < 10 ^ (byteAt bs 5).toNat := by
  simp only [jobBlockOk, h, Bool.and_eq_true, decide_eq_true_eq]
  simp only [jobRules, h, jobGeometry, Rules.domain, sharedOk, and_assoc]

theorem jobBlockOk_series {bs : Bytes} (h : jobSource bs = .series) : jobBlockOk bs = true ↔
    sharedOk bs ∧ field bs 13 5 < 10 ^ (byteAt bs 5).toNat ∧ (1 ≤ (byteAt bs 6).toNat ∧ (byteAt bs 6).toNat ≤ 9) ∧
      (1 ≤ field bs 18 5 ∧ field bs 18 5 ≤ min (10 ^ (byteAt bs 5).toNat) 4000000000) ∧ (byteAt bs 23).toNat ≤ 4 ∧
      (∀ x ∈ jobSkips bs, x.1 ≤ x.2 ∧ x.2 < 10 ^ (byteAt bs 5).toNat) ∧
      (field bs 8 2 = 0 ∨ (2 ≤ field bs 8 2 ∧ field bs 8 2 ≤ 999)) := by
  simp only [jobBlockOk, h, Bool.and_eq_true, Bool.or_eq_true, decide_eq_true_eq, List.all_eq_true]
  simp only [jobRules, h, jobGeometry, Rules.domain, sharedOk, and_assoc]

/-- Settles O24: the test of the block taken apart, source by source. -/
theorem jobBlockRangeChecks : Obligations.JobBlockRangeChecks := by
  intro bs w makeup
  by_cases hm : makeup
  · rw [jobBlockOk_makeup (jobSource_makeup hm), sharedOk, jobLeadOk_iff, schemeOf_isSome_iff]
    exact ⟨fun ⟨⟨h1, h2, h3, h4, h5⟩, h⟩ => ⟨h1, h2, h3, h4, h5, fun _ => h, fun hn => absurd hm hn⟩,
      fun ⟨h1, h2, h3, h4, h5, h, _⟩ => ⟨⟨h1, h2, h3, h4, h5⟩, h hm⟩⟩
  · rw [jobBlockOk_series (jobSource_series hm), sharedOk, jobLeadOk_iff, schemeOf_isSome_iff]
    constructor
    · rintro ⟨⟨h1, h2, h3, h4, h5⟩, hstart, hstep, hspan, hcount, hskips, hbook⟩
      exact ⟨h1, h2, h3, h4, h5, fun h => absurd h hm, fun _ => ⟨hstart, hstep, hspan, hcount,
        (jobSkips_forall hcount fun x => x.1 ≤ x.2 ∧ x.2 < 10 ^ w).mp hskips, hbook⟩⟩
    · rintro ⟨h1, h2, h3, h4, h5, -, h⟩
      obtain ⟨hstart, hstep, hspan, hcount, hskips, hbook⟩ := h hm
      exact ⟨⟨h1, h2, h3, h4, h5⟩, hstart, hstep, hspan, hcount,
        (jobSkips_forall hcount fun x => x.1 ≤ x.2 ∧ x.2 < 10 ^ w).mpr hskips, hbook⟩

/-! ### The block of a job -/

/-- The fields of an LDJB block before its skip ranges: 24 bytes. -/
def jobHead (tag : Nat) (source : Source) (g : Geometry) (r : Rules) : Bytes :=
  beBytes 2 tag ++ (jobFlags source g r :: (beBytes 1 g.lanes ++ (beBytes 1 g.around ++ (beBytes 1 r.width ++ (beBytes 1 r.step ++
    (beBytes 1 r.scheme.code ++ (beBytes 2 r.bookSize ++ (padTo 3 r.lead ++
    (beBytes 5 (if source = .makeup then r.wlo else r.start) ++ (beBytes 5 (if source = .makeup then r.whi else r.span) ++
    beBytes 1 r.skips.length))))))))))

theorem encodeJob_eq (tag : Nat) (source : Source) (g : Geometry) (r : Rules) : encodeJob tag source g r =
    padTo 64 (jobHead tag source g r ++ r.skips.flatMap fun x => beBytes 5 x.1 ++ beBytes 5 x.2) := by
  simp only [encodeJob, jobHead, List.append_assoc, List.cons_append, List.nil_append]

section
variable (tag : Nat) (source : Source) (g : Geometry) (r : Rules)

theorem jobHead_length : (jobHead tag source g r).length = 24 := by
  simp [jobHead, beBytes_length, padTo_length]

theorem skipBytes_length (rs : List (Nat × Nat)) : (rs.flatMap fun x => beBytes 5 x.1 ++ beBytes 5 x.2).length = 10 * rs.length := by
  induction rs with
  | nil => rfl
  | cons x rs ih =>
    rw [List.flatMap_cons, List.length_append, List.length_append, beBytes_length, beBytes_length, ih, List.length_cons]
    omega

variable {tag source g r}

theorem encodeJob_byte {k : Nat} (hk : k < 24) : byteAt (encodeJob tag source g r) k = byteAt (jobHead tag source g r) k := by
  rw [encodeJob_eq, byteAt_padTo _ (by omega), byteAt_append_left (by rw [jobHead_length]; exact hk)]

theorem encodeJob_field {off len : Nat} (h : r.skips.length ≤ 4) (hk : off + len ≤ 24) :
    field (encodeJob tag source g r) off len = field (jobHead tag source g r) off len := by
  rw [encodeJob_eq, field_padTo (by rw [List.length_append, jobHead_length, skipBytes_length]; omega)
    (by rw [List.length_append, jobHead_length]; omega), field_append_left (by rw [jobHead_length]; exact hk)]

/-- A skip range of the block, at its place. -/
theorem encodeJob_skip (h : r.skips.length ≤ 4) {m : Nat} {x : Nat × Nat} (hx : r.skips[m]? = some x) :
    field (encodeJob tag source g r) (24 + 10 * m) 5 = x.1 % 2 ^ 40 ∧ field (encodeJob tag source g r) (29 + 10 * m) 5 = x.2 % 2 ^ 40 := by
  have hm := (List.getElem?_eq_some_iff.mp hx).1
  obtain ⟨h1, h2⟩ := field_ranges r.skips m x hx
  have hlen : (jobHead tag source g r ++ r.skips.flatMap fun x => beBytes 5 x.1 ++ beBytes 5 x.2).length = 24 + 10 * r.skips.length := by
    rw [List.length_append, jobHead_length, skipBytes_length]
  rw [encodeJob_eq, field_padTo (by omega) (by omega), field_padTo (by omega) (by omega),
    field_append_right (by rw [jobHead_length]; omega), field_append_right (by rw [jobHead_length]; omega), jobHead_length, ← h1, ← h2]
  constructor <;> congr 1 <;> omega

/-- The fields of the head, each at its place. -/
theorem jobHead_fields :
    field (jobHead tag source g r) 0 2 = tag % 2 ^ 16 ∧ byteAt (jobHead tag source g r) 2 = jobFlags source g r ∧
    byteAt (jobHead tag source g r) 3 = BitVec.ofNat 8 g.lanes ∧ byteAt (jobHead tag source g r) 4 = BitVec.ofNat 8 g.around ∧
    byteAt (jobHead tag source g r) 5 = BitVec.ofNat 8 r.width ∧ byteAt (jobHead tag source g r) 6 = BitVec.ofNat 8 r.step ∧
    byteAt (jobHead tag source g r) 7 = BitVec.ofNat 8 r.scheme.code ∧ field (jobHead tag source g r) 8 2 = r.bookSize % 2 ^ 16 ∧
    field (jobHead tag source g r) 13 5 = (if source = .makeup then r.wlo else r.start) % 2 ^ 40 ∧
    field (jobHead tag source g r) 18 5 = (if source = .makeup then r.whi else r.span) % 2 ^ 40 ∧
    byteAt (jobHead tag source g r) 23 = BitVec.ofNat 8 r.skips.length := by
  refine ⟨?_, ?_, ?_, ?_, ?_, ?_, ?_, ?_, ?_, ?_, ?_⟩
  · simp [jobHead, field_beBytes]
  · simp [jobHead, byteAt_past, byteAt_cons_zero]
  · simp [jobHead, byteAt_past, byteAt_cons_succ, byteAt_beBytes_one]
  · simp [jobHead, byteAt_past, byteAt_cons_succ, byteAt_beBytes_one]
  · simp [jobHead, byteAt_past, byteAt_cons_succ, byteAt_beBytes_one]
  · simp [jobHead, byteAt_past, byteAt_cons_succ, byteAt_beBytes_one]
  · simp [jobHead, byteAt_past, byteAt_cons_succ, byteAt_beBytes_one]
  · simp [jobHead, field_past, field_cons, field_beBytes]
  · simp [jobHead, field_past, field_cons, field_append_right, padTo_length, field_beBytes]
  · simp [jobHead, field_past, field_cons, field_append_right, padTo_length, field_beBytes]
  · simp [jobHead, byteAt_past, byteAt_cons_succ, byteAt_append_right, padTo_length, byteAt_beBytes_end]

/-- The lead characters of the block, padded to its three places. -/
theorem encodeJob_lead (h : r.skips.length ≤ 4) : ((encodeJob tag source g r).drop 10).take 3 = padTo 3 r.lead := by
  have hlen : (jobHead tag source g r ++ r.skips.flatMap fun x => beBytes 5 x.1 ++ beBytes 5 x.2).length = 24 + 10 * r.skips.length := by
    rw [List.length_append, jobHead_length, skipBytes_length]
  rw [encodeJob_eq, padTo_eq (by omega), List.append_assoc, List.drop_append_of_le_length (by rw [jobHead_length]; decide),
    List.take_append_of_le_length (by rw [List.length_drop, jobHead_length]; decide)]
  exact List.take_left' (padTo_length _ _)

theorem jobFlags_bits :
    (jobFlags source g r).getLsbD 0 = decide (source = .makeup) ∧ (jobFlags source g r).getLsbD 1 = decide (g.order = .aroundFirst) ∧
    (jobFlags source g r).getLsbD 2 = r.descending ∧ (jobFlags source g r).getLsbD 3 = r.wrap ∧
    (jobFlags source g r).getLsbD 4 = decide (r.mode = .stacked) ∧ (jobFlags source g r).getLsbD 5 = r.spaceFill ∧
    (jobFlags source g r).getLsbD 6 = r.sepSpace := by
  simp only [jobFlags, BitVec.getLsbD_or, flagBit_getLsbD _ (by decide : 0 < 8), flagBit_getLsbD _ (by decide : 1 < 8),
    flagBit_getLsbD _ (by decide : 2 < 8), flagBit_getLsbD _ (by decide : 3 < 8), flagBit_getLsbD _ (by decide : 4 < 8),
    flagBit_getLsbD _ (by decide : 5 < 8), flagBit_getLsbD _ (by decide : 6 < 8)]
  exact ⟨by simp, by simp, by simp, by simp, by simp, by simp, by simp⟩

theorem schemeOf_code (x : Scheme) : schemeOf (BitVec.ofNat 8 x.code) = some x := by cases x <;> rfl

/-- Lead characters, padded with zeros, end at the first zero. -/
theorem lead_of_padded {l : Bytes} (hlen : l.length ≤ 3) (hc : ∀ b ∈ l, leadChar b = true) :
    (padTo 3 l).takeWhile (· ≠ 0) = l ∧ ((padTo 3 l).dropWhile (· ≠ 0)).all (· = 0) = true := by
  have hne : ∀ b ∈ l, decide (b ≠ 0) = true := fun b hb => decide_eq_true fun e => by
    have := hc b hb
    rw [e] at this
    cases this
  rw [padTo_eq hlen, List.takeWhile_append_of_pos hne, List.dropWhile_append_of_pos hne]
  refine ⟨by simp, List.all_eq_true.mpr fun b hb => ?_⟩
  have := List.eq_of_mem_replicate ((List.dropWhile_sublist _).mem hb)
  simp [this]

/-- What a job's block reads back as, field by field. -/
structure ReadsAs (bs : Bytes) (tag : Nat) (source : Source) (g : Geometry) (r : Rules) : Prop where
  tag : jobTag bs = tag
  flags : byteAt bs 2 = jobFlags source g r
  lanes : (byteAt bs 3).toNat = g.lanes
  around : (byteAt bs 4).toNat = g.around
  width : (byteAt bs 5).toNat = r.width
  step : (byteAt bs 6).toNat = r.step
  scheme : schemeOf (byteAt bs 7) = some r.scheme
  book : field bs 8 2 = r.bookSize
  lead : jobLead bs = r.lead
  leadOk : jobLeadOk bs = true
  low : field bs 13 5 = if source = .makeup then r.wlo else r.start
  high : field bs 18 5 = if source = .makeup then r.whi else r.span
  count : (byteAt bs 23).toNat = r.skips.length
  skips : jobSkips bs = r.skips

/-- The values of a job in its ranges fit the places of its block. -/
structure FitsBlock (tag : Nat) (source : Source) (g : Geometry) (r : Rules) : Prop where
  tag : tag < 2 ^ 16
  lanes : g.lanes < 256
  around : g.around < 256
  width : r.width < 256
  step : r.step < 256
  book : r.bookSize < 2 ^ 16
  lead : r.lead.length ≤ 3
  chars : ∀ b ∈ r.lead, leadChar b = true
  low : (if source = .makeup then r.wlo else r.start) < 2 ^ 40
  high : (if source = .makeup then r.whi else r.span) < 2 ^ 40
  count : r.skips.length ≤ 4
  skips : ∀ x ∈ r.skips, x.1 < 2 ^ 40 ∧ x.2 < 2 ^ 40

theorem encodeJob_reads (h : FitsBlock tag source g r) : ReadsAs (encodeJob tag source g r) tag source g r := by
  obtain ⟨ftag, fflags, flanes, faround, fwidth, fstep, fscheme, fbook, flow, fhigh, fcount⟩ := jobHead_fields (tag := tag) (source := source) (g := g) (r := r)
  obtain ⟨hlead, hzeros⟩ := lead_of_padded h.lead h.chars
  have hjl : jobLead (encodeJob tag source g r) = r.lead := by rw [jobLead, encodeJob_lead h.count, hlead]
  have hcount : (byteAt (encodeJob tag source g r) 23).toNat = r.skips.length := by
    rw [encodeJob_byte (by decide), fcount, toNat_ofNat_byte (by have := h.count; omega)]
  refine ⟨?_, ?_, ?_, ?_, ?_, ?_, ?_, ?_, hjl, ?_, ?_, ?_, hcount, ?_⟩
  · rw [jobTag, encodeJob_field h.count (by decide), ftag, Nat.mod_eq_of_lt h.tag]
  · rw [encodeJob_byte (by decide), fflags]
  · rw [encodeJob_byte (by decide), flanes, toNat_ofNat_byte h.lanes]
  · rw [encodeJob_byte (by decide), faround, toNat_ofNat_byte h.around]
  · rw [encodeJob_byte (by decide), fwidth, toNat_ofNat_byte h.width]
  · rw [encodeJob_byte (by decide), fstep, toNat_ofNat_byte h.step]
  · rw [encodeJob_byte (by decide), fscheme, schemeOf_code]
  · rw [encodeJob_field h.count (by decide), fbook, Nat.mod_eq_of_lt h.book]
  · rw [jobLeadOk, hjl, encodeJob_lead h.count, hzeros, Bool.and_true]
    exact List.all_eq_true.mpr h.chars
  · rw [encodeJob_field h.count (by decide), flow, Nat.mod_eq_of_lt h.low]
  · rw [encodeJob_field h.count (by decide), fhigh, Nat.mod_eq_of_lt h.high]
  · refine List.ext_getElem? fun m => ?_
    rw [jobSkips, hcount, Nat.min_eq_left h.count, List.getElem?_map]
    by_cases hm : m < r.skips.length
    · obtain ⟨h1, h2⟩ := encodeJob_skip (tag := tag) (source := source) (g := g) h.count (List.getElem?_eq_getElem hm)
      obtain ⟨b1, b2⟩ := h.skips _ (List.getElem_mem hm)
      rw [List.getElem?_range hm, Option.map_some, h1, h2, Nat.mod_eq_of_lt b1, Nat.mod_eq_of_lt b2, List.getElem?_eq_getElem hm]
    · rw [List.getElem?_eq_none (by simpa using hm), List.getElem?_eq_none (by omega)]
      rfl

theorem ReadsAs.source_eq {bs : Bytes} (h : ReadsAs bs tag source g r) : jobSource bs = source := by
  rw [jobSource, h.flags, (jobFlags_bits (source := source) (g := g) (r := r)).1]
  cases source <;> rfl

theorem ReadsAs.geometry_eq {bs : Bytes} (h : ReadsAs bs tag source g r) : jobGeometry bs = g := by
  rw [jobGeometry, h.lanes, h.around, h.flags, (jobFlags_bits (source := source) (g := g) (r := r)).2.1]
  obtain ⟨lanes, around, order⟩ := g
  cases order <;> rfl

theorem ReadsAs.rules_series {bs : Bytes} (h : ReadsAs bs tag .series g r) (hlo : r.wlo = 0) (hhi : r.whi = 0) : jobRules bs = r := by
  obtain ⟨-, -, hdesc, hwrap, hmode, hspace, hsep⟩ := jobFlags_bits (source := .series) (g := g) (r := r)
  have hm : (if decide (r.mode = .stacked) = true then Mode.stacked else .sequential) = r.mode := by cases r.mode <;> rfl
  simp only [jobRules, h.source_eq, h.width, h.scheme, h.flags, hdesc, hwrap, hmode, hspace, hsep, h.lead, h.low, h.high, h.step, h.skips,
    h.book, hm, Option.getD_some, reduceCtorEq, if_false]
  have hr : r = { r with wlo := 0, whi := 0 } := by
    obtain ⟨⟩ := r
    cases hlo
    cases hhi
    rfl
  exact hr.symm

theorem ReadsAs.rules_makeup {bs : Bytes} (h : ReadsAs bs tag .makeup g r) (hr : r = { Rules.cleared with
      width := r.width, scheme := r.scheme, spaceFill := r.spaceFill, lead := r.lead, sepSpace := r.sepSpace, wlo := r.wlo, whi := r.whi }) :
    jobRules bs = r := by
  obtain ⟨-, -, -, -, -, hspace, hsep⟩ := jobFlags_bits (source := .makeup) (g := g) (r := r)
  simp only [jobRules, h.source_eq, h.width, h.scheme, h.flags, hspace, hsep, h.lead, h.low, h.high, Option.getD_some, if_true]
  exact hr.symm

end

theorem pow_width_le {w : Nat} (h : w ≤ 10) : 10 ^ w ≤ 10 ^ 10 := Nat.pow_le_pow_right (by decide) h

theorem Rules.inRange_fits {tag : Nat} {source : Source} {g : Geometry} {r : Rules} (ht : tag ≤ 65535) (hg : g.inRange)
    (hr : r.inRange source) : FitsBlock tag source g r := by
  obtain ⟨hl1, hl4, ha1, ha4⟩ := hg
  obtain ⟨hw1, hw10, hlead, hchars, hr⟩ := hr
  have hpow := pow_width_le hw10
  have hchars : ∀ b ∈ r.lead, leadChar b = true := fun b hb => (leadChar_iff b).mpr (hchars b hb)
  cases source with
  | makeup =>
    obtain ⟨hlo, hhi, hstart, hstep, -, -, -, hspan, hskips, hbook⟩ := hr
    exact ⟨by omega, by omega, by omega, by omega, by omega, by omega, hlead, hchars, by rw [if_pos rfl]; omega, by rw [if_pos rfl]; omega,
      by rw [hskips]; decide, by rw [hskips]; nofun⟩
  | series =>
    obtain ⟨hstart, hs1, hs9, hspan1, hspan, hcount, hskips, hbook, -, -⟩ := hr
    exact ⟨by omega, by omega, by omega, by omega, by omega, by omega, hlead, hchars, by rw [if_neg nofun]; omega, by rw [if_neg nofun]; omega,
      hcount, fun x hx => by have := hskips x hx; omega⟩

/-- Settles O23: the block reads as the job's values, and these pass check 4. -/
theorem jobBlockRoundTrip : Obligations.JobBlockRoundTrip := by
  intro tag source g r ht hg hr
  have h := encodeJob_reads (Rules.inRange_fits ht hg hr)
  obtain ⟨hw1, hw10, -, -, hr⟩ := hr
  have hshared : sharedOk (encodeJob tag source g r) := by
    obtain ⟨hl1, hl4, ha1, ha4⟩ := hg
    rw [sharedOk, h.lanes, h.around, h.width, h.scheme, h.leadOk]
    exact ⟨⟨hl1, hl4⟩, ⟨ha1, ha4⟩, ⟨hw1, hw10⟩, rfl, rfl⟩
  refine ⟨padTo_length _ _, h.tag, h.source_eq, h.geometry_eq, ?_⟩
  cases source with
  | makeup =>
    obtain ⟨hlo, hhi, hstart, hstep, hdesc, hwrap, hmode, hspan, hskips, hbook⟩ := hr
    refine ⟨h.rules_makeup ?_, (jobBlockOk_makeup h.source_eq).mpr ⟨hshared, ?_⟩⟩
    · obtain ⟨⟩ := r
      cases hstart; cases hstep; cases hdesc; cases hwrap; cases hmode; cases hspan; cases hskips; cases hbook
      rfl
    · rw [h.low, h.high, h.width, if_pos rfl, if_pos rfl]
      exact ⟨hlo, hhi⟩
  | series =>
    obtain ⟨hstart, hs1, hs9, hspan1, hspan, hcount, hskips, hbook, hlo, hhi⟩ := hr
    refine ⟨h.rules_series hlo hhi, (jobBlockOk_series h.source_eq).mpr ⟨hshared, ?_⟩⟩
    rw [h.low, h.high, h.width, h.step, h.count, h.skips, h.book, if_neg nofun, if_neg nofun]
    exact ⟨hstart, ⟨hs1, hs9⟩, ⟨hspan1, hspan⟩, hcount, hskips, hbook⟩

end Sys2Proof.Machine
end

section
/-! The reader's line side and the assembler (R85 to R90). -/

namespace Sys2Proof.Machine

/-! ### The line side -/

theorem exec_readerByteReceived (value : Byte) (b : Bool) (s : State) :
    exec (.readerByteReceived value b) s = execReaderByteReceived value b s := rfl

/-- The loss mark goes onto the newest byte (R86). -/
theorem markLoss_append (init : List FifoEntry) (e : FifoEntry) :
    markLoss (init ++ [e]) = init ++ [{ e with lossAfter := true }] := by
  induction init with
  | nil => rfl
  | cons a as ih =>
    cases as with
    | nil => rfl
    | cons b bs => exact congrArg (a :: ·) ih

theorem execReaderByteReceived_receiving {value : Byte} {stopHigh gap : Bool} {s : State}
    (hl : s.receiver.line = .receiving gap) :
    execReaderByteReceived value stopHigh s = .next { s with receiver := { s.receiver with
      fifo := pushByte s.receiver.fifo { value, framing := !stopHigh, gapBefore := gap, lossAfter := false }
      line := if stopHigh then .idle else .waitHigh
      gapTicks := some 0 } } := by
  rw [execReaderByteReceived, hl]

/-- Settles O55: each line-side command is one update of the receiver, and the FIFO keeps a byte or marks the newest of 32. -/
theorem lineSideTakesBytes : Obligations.LineSideTakesBytes := by
  intro value s v leaves
  refine ⟨rfl, fun hidle => ?_, fun gap stopHigh hline => ⟨fun hroom => ?_, fun init e hfull hfifo => ?_⟩,
    fun hwait => ?_, fun k hk hle => ?_, fun hlt => ?_⟩
  · exact congrArg Host.Outcome.next (if_pos ⟨rfl, hidle⟩)
  · dsimp only [leaves]
    rw [exec_readerByteReceived, execReaderByteReceived_receiving hline, pushByte, if_neg (show ¬ fifoDepth ≤ _ from Nat.not_le.mpr hroom)]
  · dsimp only [leaves]
    rw [exec_readerByteReceived, execReaderByteReceived_receiving hline, pushByte, if_pos (show fifoDepth ≤ _ from hfull),
      show s.receiver.fifo = _ from hfifo, markLoss_append]
  · exact congrArg Host.Outcome.next (if_pos hwait)
  · exact congrArg Host.Outcome.next (if_pos (by simp [show s.receiver.gapTicks = _ from hk, hle]))
  · refine congrArg Host.Outcome.next (if_neg ?_)
    rw [Bool.not_eq_true, Option.any_eq_false]
    exact fun k hk => by simpa using hlt k hk

/-! ### The assembler -/

/-- The assembler is building a frame exactly in COUNT, INDEX, CODES and CHECK. -/
theorem AsmState.inFrame_iff {a : AsmState} : a.inFrame = true ↔ a = .count ∨ a = .index ∨ a = .codes ∨ a = .check := by
  cases a <;> simp [AsmState.inFrame]

section
variable {v : Receiver} {f : Frame} {e : FifoEntry}

/-- A loss mark behind a byte that left the assembler building its frame damages the frame (R89). -/
theorem Receiver.lossIf_frame {a : AsmState} (ha : a.inFrame = true) (b : Bool) :
    (if b then ({ v with asm := a, frame := some f } : Receiver).loss else { v with asm := a, frame := some f }) =
      { v with asm := a, frame := some { f with damaged := f.damaged || b } } := by
  cases b with
  | false => simp
  | true => simp [Receiver.loss, ha]

/-- Outside a frame a loss mark says nothing. -/
theorem Receiver.lossIf_of_not_inFrame (h : v.asm.inFrame = false) (b : Bool) : (if b then v.loss else v) = v := by
  rw [Receiver.loss_of_not_inFrame h, ite_self]

/-- An unmarked byte in a frame is taken by the state, then its loss mark acts. -/
theorem Receiver.takeEntry_unmarked (hfr : e.framing = false) (hgap : e.gapBefore = false) :
    v.takeEntry e = (if e.lossAfter then (v.takeValue e.value).1.loss else (v.takeValue e.value).1, (v.takeValue e.value).2) := by
  simp [Receiver.takeEntry, hfr, hgap]

/-- In HUNT the marks of a byte discard nothing. -/
theorem Receiver.takeEntry_hunt (ha : v.asm = .hunt) (hfr : e.framing = false) :
    v.takeEntry e = (if e.lossAfter then (v.takeValue e.value).1.loss else (v.takeValue e.value).1, (v.takeValue e.value).2) := by
  simp [Receiver.takeEntry, hfr, ha, AsmState.inFrame]

/-- A byte that leaves the assembler in a frame: the receiver, with the loss mark on the frame. -/
theorem Receiver.takeEntry_frame {a : AsmState} (ha : a.inFrame = true) (hfr : e.framing = false) (hgap : e.gapBefore = false)
    (hval : v.takeValue e.value = ({ v with asm := a, frame := some f }, false)) :
    v.takeEntry e = ({ v with asm := a, frame := some { f with damaged := f.damaged || e.lossAfter } }, false) := by
  rw [Receiver.takeEntry_unmarked hfr hgap, hval]
  exact congrArg (·, false) (Receiver.lossIf_frame ha _)

/-- HUNT looks for the sync byte (R88). -/
theorem Receiver.takeValue_hunt_other {b : Byte} (ha : v.asm = .hunt) (hb : b ≠ 0xA5) : v.takeValue b = (v, false) := by
  simp only [Receiver.takeValue, ha]
  exact if_neg hb

theorem Receiver.takeValue_hunt_sync (ha : v.asm = .hunt) :
    v.takeValue 0xA5 = ({ v with asm := .count, frame := some .begun }, false) := by
  simp [Receiver.takeValue, ha]

/-- A byte that HUNT passes over: with a framing error, or not the sync byte. -/
theorem Receiver.takeEntry_hunt_other (ha : v.asm = .hunt) (h : e.framing = true ∨ e.value ≠ 0xA5) : v.takeEntry e = (v, false) := by
  have hloss := Receiver.lossIf_of_not_inFrame (v := v) (by rw [ha]; rfl) e.lossAfter
  cases hfr : e.framing with
  | true => simp [Receiver.takeEntry, hfr, ha, AsmState.inFrame, Receiver.loss]
  | false =>
    rw [Receiver.takeEntry_hunt ha hfr, Receiver.takeValue_hunt_other ha (h.resolve_left (by simp [hfr]))]
    exact congrArg (·, false) hloss

/-- The sync byte begins a frame, whatever gap lies before it. -/
theorem Receiver.takeEntry_hunt_sync (ha : v.asm = .hunt) (hfr : e.framing = false) (hval : e.value = 0xA5) :
    v.takeEntry e = ({ v with asm := .count, frame := some { Frame.begun with damaged := e.lossAfter } }, false) := by
  rw [Receiver.takeEntry_hunt ha hfr, hval, Receiver.takeValue_hunt_sync ha]
  exact congrArg (·, false) ((Receiver.lossIf_frame rfl _).trans (by rw [show Frame.begun.damaged = false from rfl, Bool.false_or]))

/-- A framing error or a gap in a frame discards it, and the byte is then examined in HUNT (R90). -/
theorem Receiver.takeEntry_marked (ha : v.asm.inFrame = true) (h : (e.framing || e.gapBefore) = true) :
    v.takeEntry e = ((v.discardFrame.takeEntry e).1, true) := by
  have hhunt : v.discardFrame.asm.inFrame = false := rfl
  simp [Receiver.takeEntry, ha, h, hhunt]

end

/-- What the step leaves of the state: the receiver, with READER_DISCARD for a counted discard. -/
theorem exec_assemblerTakeByte_eq {s : State} {e : FifoEntry} {rest : List FifoEntry} (hasm : s.receiver.asm ≠ .handling)
    (hfifo : s.receiver.fifo = e :: rest) {w : Receiver} {b : Bool}
    (htake : ({ s.receiver with fifo := rest } : Receiver).takeEntry e = (w, b)) :
    exec .assemblerTakeByte s = .next ({ s with receiver := w }.raiseIf b .readerDiscard) := by
  rw [exec_assemblerTakeByte hasm hfifo, htake]

theorem exec_assemblerTakeByte_handling {s : State} (h : s.receiver.asm = .handling) : exec .assemblerTakeByte s = .next s := by
  simp only [exec, execAssemblerTakeByte, h]

theorem exec_assemblerTakeByte_nil {s : State} (h : s.receiver.fifo = []) : exec .assemblerTakeByte s = .next s := by
  simp only [exec, execAssemblerTakeByte]
  cases s.receiver.asm <;> simp [h]

theorem exec_assemblerGapDiscard (s : State) : exec .assemblerGapDiscard s = execAssemblerGapDiscard s := rfl

/-- Without its occasion the gap discard changes nothing. -/
theorem exec_assemblerGapDiscard_of_not {s : State}
    (h : ¬ (s.receiver.fifo = [] ∧ s.receiver.gapMark = true ∧ s.receiver.asm ≠ .handling)) :
    exec .assemblerGapDiscard s = .next s := by
  rw [exec_assemblerGapDiscard, execAssemblerGapDiscard, if_neg h]

theorem exec_assemblerGapDiscard_building {s : State} (hfifo : s.receiver.fifo = []) (hgap : s.receiver.gapMark = true)
    (ha : s.receiver.asm.inFrame = true) :
    exec .assemblerGapDiscard s =
      .next ({ s with receiver := ({ s.receiver with gapMark := false } : Receiver).discardFrame }.raise .readerDiscard) := by
  have hne : s.receiver.asm ≠ .handling := fun h => by simp [h, AsmState.inFrame] at ha
  rw [exec_assemblerGapDiscard, execAssemblerGapDiscard, if_pos ⟨hfifo, hgap, hne⟩]
  exact congrArg Host.Outcome.next (if_pos ha)

theorem exec_assemblerGapDiscard_hunt {s : State} (hfifo : s.receiver.fifo = []) (hgap : s.receiver.gapMark = true)
    (ha : s.receiver.asm = .hunt) :
    exec .assemblerGapDiscard s = .next { s with receiver := { s.receiver with gapMark := false } } := by
  rw [exec_assemblerGapDiscard, execAssemblerGapDiscard, if_pos ⟨hfifo, hgap, by simp [ha]⟩]
  exact congrArg Host.Outcome.next (if_neg (by simp [ha, AsmState.inFrame]))

/-- A bad or damaged frame is discarded at its check byte (R89, R90). -/
theorem Receiver.judge_bad {v : Receiver} {f : Frame} (h : f.damaged = true ∨ f.sum ≠ 0) :
    v.judge f = ({ v with asm := .hunt, frame := none, checksumFails := satAdd max32 v.checksumFails 1 }, true) :=
  if_pos h

/-- Settles O56: the marks of a byte first, then its value by the state, then its loss mark. -/
theorem assemblerTakesByteByState : Obligations.AssemblerTakesByteByState := by
  intro s v building report discarded fresh
  have hne : building → v.asm ≠ .handling := fun h hh => by simp [building, hh] at h
  refine ⟨?_, fun hfifo hgap => ⟨fun hb => exec_assemblerGapDiscard_building hfifo hgap (AsmState.inFrame_iff.mpr hb),
      exec_assemblerGapDiscard_hunt hfifo hgap⟩,
    fun ha => ⟨exec_assemblerTakeByte_handling ha, exec_assemblerGapDiscard_of_not fun h => h.2.2 ha⟩,
    fun hfifo => exec_assemblerGapDiscard_of_not fun h => hfifo h.1,
    fun hgap => exec_assemblerGapDiscard_of_not fun h => Bool.false_ne_true (hgap.symm.trans h.2.1),
    exec_assemblerTakeByte_nil⟩
  intro e rest hfifo u leaves takes
  refine ⟨fun ha h => ?_, fun ha hfr hval => ?_, fun hb h => ?_, fun hb hfr hgap hval => ?_, ?_⟩
  · exact exec_assemblerTakeByte_eq (by simp [show s.receiver.asm = _ from ha]) hfifo (Receiver.takeEntry_hunt_other (v := u) ha h)
  · have htake := Receiver.takeEntry_hunt_sync (v := u) ha hfr hval
    exact exec_assemblerTakeByte_eq (by simp [show s.receiver.asm = _ from ha]) hfifo htake
  · have hmark : (e.framing || e.gapBefore) = true := by
      rcases h with h | ⟨h, _⟩ <;> simp [h]
    have htake := Receiver.takeEntry_marked (v := u) (AsmState.inFrame_iff.mpr hb) hmark
    rw [Receiver.takeEntry_hunt_other (v := u.discardFrame) rfl (h.imp_right And.right)] at htake
    exact exec_assemblerTakeByte_eq (hne hb) hfifo htake
  · have htake := Receiver.takeEntry_marked (v := u) (AsmState.inFrame_iff.mpr hb) (by simp [hgap] : (e.framing || e.gapBefore) = true)
    rw [Receiver.takeEntry_hunt_sync (v := u.discardFrame) rfl hfr hval] at htake
    exact exec_assemblerTakeByte_eq (hne hb) hfifo htake
  intro f hf hfr hgap sum
  refine ⟨fun ha => ?_, fun ha => ?_, fun ha => ?_, fun ha h => ?_⟩
  · have hval : u.takeValue e.value = ({ u with asm := .index, frame := some { f with count := e.value.toNat, sum } }, false) := by
      simp [Receiver.takeValue, show u.asm = _ from ha, show u.frame = _ from hf, sum]
    exact exec_assemblerTakeByte_eq (hne (by simp [building, ha])) hfifo (Receiver.takeEntry_frame rfl hfr hgap hval)
  · have hval : u.takeValue e.value =
        ({ u with
            asm := if f.indexBytes + 1 < 4 then .index else if f.count = 0 then .check else .codes
            frame := some { f with indexBytes := f.indexBytes + 1, index := f.index * 256 + e.value.toNat, sum } }, false) := by
      simp [Receiver.takeValue, show u.asm = _ from ha, show u.frame = _ from hf, sum]
    exact exec_assemblerTakeByte_eq (hne (by simp [building, ha])) hfifo
      (Receiver.takeEntry_frame (by split_ifs <;> rfl) hfr hgap hval)
  · have hval : u.takeValue e.value =
        ({ u with
            asm := if f.codes.length + 1 < f.count then .codes else .check
            frame := some { f with codes := f.codes ++ [e.value], sum } }, false) := by
      simp [Receiver.takeValue, show u.asm = _ from ha, show u.frame = _ from hf, sum]
    exact exec_assemblerTakeByte_eq (hne (by simp [building, ha])) hfifo
      (Receiver.takeEntry_frame (by split_ifs <;> rfl) hfr hgap hval)
  · have htake := Receiver.takeEntry_check (v := u) ha hf hfr hgap
    rw [Receiver.judge_bad (f := { f with sum := f.sum + e.value }) h] at htake
    exact exec_assemblerTakeByte_eq (hne (by simp [building, ha])) hfifo htake

end Sys2Proof.Machine
end
section
/-! Transactions at a station port, and what the port answers by itself (R161 to R169). -/

namespace Sys2Proof.Machine

/-! ### Changes of one port -/

section
variable (s : State) (p : PortId)

theorem State.modPort_modPort (f g : Port → Port) : (s.modPort p f).modPort p g = s.modPort p fun x => g (f x) := by
  simp [State.modPort]

theorem State.modPort_eq_of {f g : Port → Port} (h : f (s.port p) = g (s.port p)) : s.modPort p f = s.modPort p g := by
  rw [State.modPort, State.modPort, show f s.ports[p] = g s.ports[p] from h]

theorem State.setReqSlot_modPort (y : Port) (z : ReqSlot) :
    (s.modPort p fun _ => y).setReqSlot p z = s.modPort p fun _ => { y with slot := z } := s.modPort_modPort p _ _

theorem State.portAnswers_modPort (y : Port) (q : Request) (reason : Reason) (cursor : Nat) :
    (s.modPort p fun _ => y).portAnswers p q reason cursor = s.modPort p fun _ => { y with slot := .ready q (.refused reason cursor) } :=
  s.setReqSlot_modPort p y _

end

/-! ### The select and the frame -/

section
variable {s : State} {p : PortId}

theorem State.endFetchShort_none (h : (s.port p).fetch = none) : s.endFetchShort p = s := by
  simp only [State.endFetchShort, h]

/-- The port that a select leaves where it is an edge: the mode is taken and the status byte chosen (R161, R162). -/
def Port.selects (x : Port) (clockHigh : Bool) : Port := { x with selected := true, mode3 := clockHigh, out := [x.statusByte] }

theorem State.select_edge (h : (s.port p).fetch = none) (hs : (s.port p).selected = false) (b : Bool) :
    s.select p b = s.modPort p fun x => x.selects b := by
  rw [State.select, hs, Bool.false_and, if_neg Bool.false_ne_true, State.endFetchShort_none h]
  rfl

theorem State.select_selected (h : (s.port p).fetch = none) (hs : (s.port p).selected = true) (b : Bool) : s.select p b = s := by
  rw [State.select, hs, h]
  rfl

/-- A frame taken at a port with no FETCH being clocked leaves `takenPort` there. -/
theorem State.frameTaken_idle (h : (s.port p).fetch = none) : s.frameTaken p = s.modPort p fun _ => s.takenPort p := by
  rw [State.frameTaken]
  cases hs : (s.port p).selected with
  | true =>
    rw [State.select_selected h hs]
    exact s.modPort_eq_of p (by simp only [State.takenPort, hs, Bool.true_and, if_true])
  | false =>
    rw [State.select_edge h hs, State.modPort_modPort]
    exact s.modPort_eq_of p (by simp only [State.takenPort, Port.selects, hs, Bool.false_and, Bool.false_eq_true, if_false])

/-- The timer restarts by the conditions of R173, which look at nothing of the frame. -/
theorem State.restartTimer_modPort (y : Port) (hy : y.state = (s.port p).state) :
    (s.modPort p fun _ => y).restartTimer p = s.modPort p fun _ => { y with timer := s.freshTimer p } := by
  have hruns : (s.modPort p fun _ => y).timerRuns p = s.timerRuns p := by
    simp only [State.timerRuns, State.modPort_port_self, hy]
    rfl
  rw [State.restartTimer, hruns, State.modPort_modPort, State.freshTimer_eq]
  rfl

/-- A frame accepted at such a port leaves `acceptedPort` there (R163). -/
theorem State.accepted_idle (h : (s.port p).fetch = none) :
    (s.frameTaken p).acceptFrame p = s.modPort p fun _ => s.acceptedPort p := by
  rw [State.frameTaken_idle h, State.acceptFrame, State.modPort_modPort]
  exact State.restartTimer_modPort { s.takenPort p with reject := false } rfl

theorem State.acceptedPort_ply (s : State) (p : PortId) : (s.acceptedPort p).ply = (s.port p).ply := rfl

/-- A frame rejected at such a port (R163). -/
theorem State.rejected_idle (h : (s.port p).fetch = none) :
    (s.frameTaken p).rejectFrame p = s.modPort p fun x =>
      { s.takenPort p with reject := true, rejected := min (x.rejected + 1) 65535 } := by
  rw [State.frameTaken_idle h, State.rejectFrame, State.modPort_modPort]
  rfl

end

/-! ### The frame rows, accepted, rejected or selecting -/

section
variable {s : State} {p : PortId} {body : Bytes}

/-- Every frame row at its select selects its port (R161). -/
theorem exec_selectAt {i : Instr} {b : Bool} (h : selectAt i = some (p, b)) : exec i s = .next (s.select p b) := by
  unfold selectAt at h
  split at h <;> cases h <;> rfl

theorem exec_request_accepted (h : (s.port p).fetch = none) (hf : frameAccepted 0x31 5 body = true) :
    exec (.request p (.taken body)) s = .next ((s.modPort p fun _ => s.acceptedPort p).atPort p
      { kind := .request, first := field body 0 4, last := field body 0 4, mask := 0, repeats := none, isNew := false }
      (State.requestFrame p (field body 0 4))) := by
  rw [← State.accepted_idle h]
  exact congrArg Host.Outcome.next (if_pos hf)

theorem exec_waste_accepted (h : (s.port p).fetch = none) (hf : frameAccepted 0x32 9 body = true) :
    exec (.waste p (.taken body)) s = .next ((s.modPort p fun _ => s.acceptedPort p).atPort p
      { kind := .waste, first := field body 0 4, last := field body 4 4, mask := 0, repeats := none, isNew := false }
      (State.wasteFrame p (field body 0 4) (field body 4 4))) := by
  rw [← State.accepted_idle h]
  exact congrArg Host.Outcome.next (if_pos hf)

theorem exec_misfire_accepted (h : (s.port p).fetch = none) (hf : frameAccepted 0x33 7 body = true) :
    exec (.misfire p (.taken body)) s = .next ((s.modPort p fun _ => s.acceptedPort p).atPort p
      { kind := .misfire, first := field body 0 4, last := field body 0 4, mask := BitVec.ofNat 16 (field body 4 2), repeats := none
        isNew := false }
      (State.misfireFrame p (field body 0 4) (BitVec.ofNat 16 (field body 4 2)))) := by
  rw [← State.accepted_idle h]
  exact congrArg Host.Outcome.next (if_pos hf)

theorem exec_request_rejected (hf : frameAccepted 0x31 5 body = false) :
    exec (.request p (.taken body)) s = .next ((s.frameTaken p).rejectFrame p) :=
  congrArg Host.Outcome.next (if_neg (by simpa [cmdRequest, requestLength] using hf))

theorem exec_waste_rejected (hf : frameAccepted 0x32 9 body = false) :
    exec (.waste p (.taken body)) s = .next ((s.frameTaken p).rejectFrame p) :=
  congrArg Host.Outcome.next (if_neg (by simpa [cmdWaste, wasteLength] using hf))

theorem exec_misfire_rejected (hf : frameAccepted 0x33 7 body = false) :
    exec (.misfire p (.taken body)) s = .next ((s.frameTaken p).rejectFrame p) :=
  congrArg Host.Outcome.next (if_neg (by simpa [cmdMisfire, misfireLength] using hf))

/-- A command byte that is none of the five makes an unknown frame (R163). -/
theorem exec_unknownCommandFrame_other {b : Byte} (hb : b ∉ [0x30, 0x31, 0x32, 0x33, 0x34]) :
    exec (.unknownCommandFrame p (some b) (.taken body)) s = .next ((s.frameTaken p).rejectFrame p) := by
  simp only [List.mem_cons, List.not_mem_nil, or_false, not_or] at hb
  obtain ⟨h0, h1, h2, h3, h4⟩ := hb
  have hdec : decodeFrame p (some b) body = .unknownCommandFrame p (some b) (.taken body) := by
    simp only [decodeFrame, cmdProbe, cmdRequest, cmdWaste, cmdMisfire, cmdFetch, h0, h1, h2, h3, h4, if_false]
  simp only [exec, execUnknownCommandFrame, hdec]

end

/-! ### The status byte and the bytes clocked out -/

theorem Port.statusByte_toNat (x : Port) : x.statusByte.toNat =
    x.state.code * 64 + x.slot.code * 16 + (if x.newRun then 8 else 0) + (if x.reject then 4 else 0) := by
  have hstate : ∃ a : Fin 3, x.state.code = a := by
    cases x.state
    exacts [⟨0, rfl⟩, ⟨1, rfl⟩, ⟨2, rfl⟩]
  have hslot : ∃ b : Fin 4, x.slot.code = b := by
    cases x.slot
    exacts [⟨0, rfl⟩, ⟨1, rfl⟩, ⟨2, rfl⟩, ⟨3, rfl⟩]
  obtain ⟨a, ha⟩ := hstate
  obtain ⟨b, hb⟩ := hslot
  rw [Port.statusByte, ha, hb]
  clear ha hb
  generalize x.newRun = n
  generalize x.reject = r
  revert a b n r
  decide

theorem State.clockedOut_get (s : State) (p : PortId) {n k : Nat} (h : k < n) :
    (s.clockedOut p n)[k]? = some ((s.port p).out.getD k 0) := by
  rw [State.clockedOut, List.getElem?_take_of_lt h, List.getD_eq_getElem?_getD]
  by_cases hk : k < (s.port p).out.length
  · rw [List.getElem?_append_left hk, List.getElem?_eq_getElem hk, Option.getD_some]
  · have hle := Nat.le_of_not_lt hk
    rw [List.getElem?_append_right hle, List.getElem?_replicate, if_pos (by omega), List.getElem?_eq_none hle]
    rfl

/-- Settles O40: a select where it is an edge, and an accepted frame, change their port alone. -/
theorem probeShowsPort : Obligations.ProbeShowsPort := by
  refine ⟨fun p s h => ?_, fun i p b s hi h => ⟨fun hs => ?_, fun hs => ?_⟩, fun x => ?_, fun p n k s hk => s.clockedOut_get p hk⟩
  · exact congrArg Host.Outcome.next (State.accepted_idle h)
  · rw [exec_selectAt hi, State.select_edge h hs]
    rfl
  · rw [exec_selectAt hi, State.select_selected h hs]
  · rw [Port.statusByte_toNat]
    cases x.state <;> cases x.slot <;> rfl

/-! ### Rejected frames -/

/-- The sum of bytes, as a number. -/
theorem byteSum_toNat (bs : Bytes) : (byteSum bs).toNat = (bs.map BitVec.toNat).sum % 256 := by
  induction bs using List.reverseRecOn with
  | nil => rfl
  | append_singleton bs b ih =>
    rw [byteSum_snoc, BitVec.toNat_add, ih, List.map_append, List.sum_append]
    simp

/-- A frame is rejected exactly when it is short or its sum is not 0 mod 256 (R163). -/
theorem frameAccepted_eq_false {command : Byte} {required : Nat} {body : Bytes}
    (h : body.length < required ∨ (command.toNat + ((body.take required).map BitVec.toNat).sum) % 256 ≠ 0) :
    frameAccepted command required body = false := by
  rw [frameAccepted, Bool.and_eq_false_iff]
  refine h.imp (fun hlt => by simpa using hlt) fun hsum => ?_
  rw [decide_eq_false_iff_not]
  intro h0
  have := byteSum_toNat (command :: body.take required)
  rw [h0] at this
  exact hsum (by simpa using this.symm)

/-- Settles O41: every kind of rejection is `rejectFrame` at the port the frame was taken at. -/
theorem rejectedFramesOnlyCount : Obligations.RejectedFramesOnlyCount := by
  intro p body b s h rejected bad
  have hrej : ∀ i, exec i s = .next ((s.frameTaken p).rejectFrame p) → rejected i := fun i hi =>
    hi.trans (congrArg Host.Outcome.next (State.rejected_idle h))
  exact ⟨hrej _ rfl, hrej _ rfl, hrej _ rfl, fun hb => hrej _ (exec_unknownCommandFrame_other hb),
    fun hbad => hrej _ (exec_request_rejected (frameAccepted_eq_false hbad)),
    fun hbad => hrej _ (exec_waste_rejected (frameAccepted_eq_false hbad)),
    fun hbad => hrej _ (exec_misfire_rejected (frameAccepted_eq_false hbad))⟩

/-! ### What the port answers itself -/

section
variable {s : State} {p : PortId} {q : Request} {k : State → State} {y : Port}

theorem State.atPort_closed (hy : y.state = .closed) : (s.modPort p fun _ => y).atPort p q k =
    s.modPort p fun _ => { y with slot := .ready q (.refused .closed 0) } := by
  rw [← State.portAnswers_modPort]
  simp only [State.atPort, State.modPort_port_self, hy]

theorem State.atPort_lost (hy : y.state = .lost) : (s.modPort p fun _ => y).atPort p q k =
    s.modPort p fun _ => { y with slot := .ready q (.refused .lost 0) } := by
  rw [← State.portAnswers_modPort]
  simp only [State.atPort, State.modPort_port_self, hy]

theorem State.atPort_active (hy : y.state = .active) : (s.modPort p fun _ => y).atPort p q k = k (s.modPort p fun _ => y) := by
  rw [State.atPort, State.modPort_port_self, hy]

theorem State.leadAt_modPort (hy : y.ply = (s.port p).ply) : (s.modPort p fun _ => y).leadAt p = s.leadAt p := by
  rw [State.leadAt, State.modPort_port_self, hy]
  rfl

theorem State.refuseOrder_modPort : (s.modPort p fun _ => y).refuseOrder p q = s.modPort p fun _ =>
    { y with slot := .ready q (.refused .order y.cursor), order := min (y.order + 1) 65535 } := by
  rw [State.refuseOrder, State.portAnswers_modPort, State.modPort_port_self, State.modPort_modPort]
  rfl

/-- A REQUEST for neither the cursor's impression nor the one before it (R167). -/
theorem State.requestFrame_order {c : Nat} (h0 : c ≠ y.cursor) (h1 : c + 1 ≠ y.cursor) :
    State.requestFrame p c (s.modPort p fun _ => y) = s.modPort p fun _ => { y with
      slot := .ready { kind := .request, first := c, last := c, mask := 0, repeats := none, isNew := false } (.refused .order y.cursor)
      order := min (y.order + 1) 65535 } := by
  have hneg : ¬ (c = y.cursor ∨ (1 ≤ y.cursor ∧ c = y.cursor - 1)) := by omega
  rw [State.requestFrame, State.modPort_port_self]
  dsimp only
  rw [if_neg hneg, State.refuseOrder_modPort]
  simp only [h0, decide_false]

/-- The port that a REQUEST in order leaves before the window takes it: the new-run bit clears for a new impression (R167). -/
def Port.requested (y : Port) (c : Nat) : Port := { y with newRun := y.newRun && decide (c ≠ y.cursor) }

theorem Port.requested_new {c : Nat} (h : c = y.cursor) : y.requested c = { y with newRun := false } := by
  simp [Port.requested, h]

theorem Port.requested_again {c : Nat} (h : c ≠ y.cursor) : y.requested c = y := by
  simp [Port.requested, h]

/-- The request that a REQUEST frame in order makes. -/
def requestOf (c r cursor : Nat) : Request :=
  { kind := .request, first := c, last := c, mask := 0, repeats := some (r, r), isNew := c = cursor }

/-- A REQUEST in order goes to the window with the repeat its ply prints, or is refused where that repeat lies beyond the last (R167). -/
theorem State.requestFrame_inOrder {c : Nat} (h : c = y.cursor ∨ c + 1 = y.cursor) (hply : y.ply = (s.port p).ply) :
    State.requestFrame p c (s.modPort p fun _ => y) =
      if maxRepeat < c + s.leadAt p then
        s.modPort p fun _ => { y.requested c with slot := .ready { requestOf c 0 y.cursor with repeats := none } (.refused .range 0) }
      else (s.modPort p fun _ => y.requested c).takeRequest p (requestOf c (c + s.leadAt p) y.cursor) (c + s.leadAt p) := by
  have hpos : c = y.cursor ∨ (1 ≤ y.cursor ∧ c = y.cursor - 1) := by omega
  have hreq : (if c = y.cursor then (s.modPort p fun _ => y).modPort p fun x => { x with newRun := false } else s.modPort p fun _ => y) =
      s.modPort p fun _ => y.requested c := by
    split_ifs with hc
    · rw [State.modPort_modPort]
      simp only [Port.requested, hc, ne_eq, not_true_eq_false, decide_false, Bool.and_false]
    · simp only [Port.requested, hc, ne_eq, not_false_eq_true, decide_true, Bool.and_true]
  rw [State.requestFrame, State.modPort_port_self]
  dsimp only
  rw [if_pos hpos, hreq, State.leadAt_modPort (y := y.requested c) hply, State.portAnswers_modPort]
  rfl

/-- A WASTE whose range is turned round, too long, or reaches beyond the last repeat (R168). -/
theorem State.wasteFrame_range {c1 c2 : Nat} (hply : y.ply = (s.port p).ply)
    (h : c2 < c1 ∨ 63 < c2 - c1 ∨ 4294967250 < c2 + s.leadAt p) :
    State.wasteFrame p c1 c2 (s.modPort p fun _ => y) = s.modPort p fun _ => { y with
      slot := .ready { kind := .waste, first := c1, last := c2, mask := 0, repeats := none, isNew := false } (.refused .range 0) } := by
  rw [State.wasteFrame, State.leadAt_modPort hply]
  dsimp only
  rw [if_pos (show _ ∨ _ ∨ maxRepeat < _ from h), State.portAnswers_modPort]

/-- A WASTE within its bounds goes to the window with its range of repeats. -/
theorem State.wasteFrame_inOrder {c1 c2 : Nat} (hply : y.ply = (s.port p).ply) (h12 : c1 ≤ c2) (hlen : c2 - c1 ≤ 63)
    (hr : c2 + s.leadAt p ≤ 4294967250) :
    State.wasteFrame p c1 c2 (s.modPort p fun _ => y) = (s.modPort p fun _ => y).takeWaste p
      { kind := .waste, first := c1, last := c2, mask := 0, repeats := some (c1 + s.leadAt p, c2 + s.leadAt p), isNew := false }
      (c1 + s.leadAt p) (c2 + s.leadAt p) := by
  have hneg : ¬ (c2 < c1 ∨ 63 < c2 - c1 ∨ maxRepeat < c2 + s.leadAt p) := by
    rw [show maxRepeat = 4294967250 from rfl]
    omega
  rw [State.wasteFrame, State.leadAt_modPort hply]
  dsimp only
  rw [if_neg hneg]

/-- A MISFIRE for an impression not fetched yet (R169). -/
theorem State.misfireFrame_order {c : Nat} {mask : BitVec 16} (h : y.cursor ≤ c) :
    State.misfireFrame p c mask (s.modPort p fun _ => y) = s.modPort p fun _ => { y with
      slot := .ready { kind := .misfire, first := c, last := c, mask, repeats := none, isNew := false } (.refused .order y.cursor)
      order := min (y.order + 1) 65535 } := by
  rw [State.misfireFrame, State.modPort_port_self]
  dsimp only
  rw [if_pos h, State.refuseOrder_modPort]

/-- A MISFIRE for an earlier impression goes to the window with its repeat, or is refused beyond the last (R169). -/
theorem State.misfireFrame_inOrder {c : Nat} {mask : BitVec 16} (hply : y.ply = (s.port p).ply) (h : c < y.cursor) :
    State.misfireFrame p c mask (s.modPort p fun _ => y) =
      if maxRepeat < c + s.leadAt p then
        s.modPort p fun _ => { y with
          slot := .ready { kind := .misfire, first := c, last := c, mask, repeats := none, isNew := false } (.refused .range 0) }
      else (s.modPort p fun _ => y).takeMisfire p
        { kind := .misfire, first := c, last := c, mask, repeats := some (c + s.leadAt p, c + s.leadAt p), isNew := false }
        (c + s.leadAt p) := by
  rw [State.misfireFrame, State.modPort_port_self, State.leadAt_modPort hply]
  dsimp only
  rw [if_neg (Nat.not_le.mpr h), State.portAnswers_modPort]

end

/-- Settles O42: the port's state, then the cursor rules, then the range of the repeat. -/
theorem portAnswersRefusals : Obligations.PortAnswersRefusals := by
  intro p body s h x c c2 answered mask lead
  refine ⟨fun hf => ?_, fun hf => ?_, fun hf => ?_⟩
  · have hex := exec_request_accepted h hf
    refine ⟨fun hs => ?_, fun hs => ?_, fun hs h0 h1 => ?_, fun hs hc hr => ?_, fun hs hc hr => ?_⟩
    · rw [State.atPort_closed hs] at hex
      simpa [answered, x, hs] using hex
    · rw [State.atPort_lost hs] at hex
      simpa [answered, x, hs] using hex
    · rw [State.atPort_active hs, State.requestFrame_order h0 h1] at hex
      simpa [answered, x, hs, h0] using hex
    · rw [State.atPort_active hs, State.requestFrame_inOrder (.inl hc) (s.acceptedPort_ply p), if_pos (show maxRepeat < _ from hr),
        Port.requested_new hc] at hex
      simpa [answered, x, hs, requestOf] using hex
    · rw [State.atPort_active hs, State.requestFrame_inOrder (.inr hc) (s.acceptedPort_ply p), if_pos (show maxRepeat < _ from hr),
        Port.requested_again (show field body 0 4 ≠ _ by omega)] at hex
      simpa [answered, x, hs, requestOf] using hex
  · have hex := exec_waste_accepted h hf
    refine ⟨fun hs => ?_, fun hs => ?_, fun hs hr => ?_⟩
    · rw [State.atPort_closed hs] at hex
      simpa [answered, x, hs] using hex
    · rw [State.atPort_lost hs] at hex
      simpa [answered, x, hs] using hex
    · rw [State.atPort_active hs, State.wasteFrame_range (c1 := field body 0 4) (c2 := field body 4 4) (s.acceptedPort_ply p) hr] at hex
      simpa [answered, x, hs] using hex
  · have hex := exec_misfire_accepted h hf
    refine ⟨fun hs => ?_, fun hs => ?_, fun hs hc => ?_, fun hs hc hr => ?_⟩
    · rw [State.atPort_closed hs] at hex
      simpa [answered, x, hs] using hex
    · rw [State.atPort_lost hs] at hex
      simpa [answered, x, hs] using hex
    · rw [State.atPort_active hs, State.misfireFrame_order hc] at hex
      simpa [answered, x, hs] using hex
    · rw [State.atPort_active hs, State.misfireFrame_inOrder (c := field body 0 4) (s.acceptedPort_ply p) hc, if_pos (show maxRepeat < _ from hr)] at hex
      simpa [answered, x, hs] using hex

/-- Settles O51: what is being built becomes READY, in PREPARING and in HELD alike. -/
theorem answerReadyFillsSlot : Obligations.AnswerReadyFillsSlot := by
  intro p s
  have hready : ∀ (q : Request) (a : Answer), s.modPort p (fun x => x.answerReady q a) = s.modPort p fun x => { x with
      slot := .ready q a
      late := match a with
        | .late _ => min (x.late + 1) 65535
        | .numbers _ _ _ | .leadIn _ | .blank _ | .ack _ | .refused _ _ | .noAnswer _ _ _ _ _ => x.late } := by
    intro q a
    cases a <;> rfl
  refine ⟨fun q a h => ?_, fun h => ?_⟩
  · rcases h with h | h <;> rw [exec, execAnswerReady, h] <;> exact congrArg Host.Outcome.next (hready q a)
  · rw [exec, execAnswerReady]
    split
    · rename_i q a hslot
      exact absurd hslot (h q a).1
    · rename_i q a hslot
      exact absurd hslot (h q a).2
    · rfl

end Sys2Proof.Machine
end
section
/-! What the window answers from what it holds, and the marks that WASTE and MISFIRE set (R60 to R62, R75, R76). -/

namespace Sys2Proof.Machine

section
variable {s : State} {p : PortId} {y : Port}

theorem State.modPort_inRun (f : Port → Port) : (s.modPort p f).inRun = s.inRun := rfl

theorem State.modPort_atOrBelowNewest (f : Port → Port) (r : Nat) : (s.modPort p f).atOrBelowNewest r = s.atOrBelowNewest r := rfl

/-- A change of the records and one of the port are independent. -/
theorem State.modPort_window_modPort (s : State) (p : PortId) (y : Port) (w : Window) (f : Port → Port) :
    ({ s.modPort p fun _ => y with window := w } : State).modPort p f = { s.modPort p fun _ => f y with window := w } :=
  congrArg (fun t : State => { t with window := w }) (s.modPort_modPort p (fun _ => y) f)

/-- The lead of a bound port is that of its ply's entry. -/
theorem State.leadAt_eq {k : Nat} {e : PlyEntry} (hply : (s.port p).ply = some k) (he : s.plan.plies[k]? = some e) :
    s.leadAt p = e.lead := by
  simp [State.leadAt, Plan.leadOf, hply, he]

theorem State.atOrBelowNewest_iff {r : Nat} : s.atOrBelowNewest r = true ↔ ∃ n, s.window.newest = some n ∧ r ≤ n := by
  simp [State.atOrBelowNewest, Option.any_eq_true]

theorem State.belowFloor_iff {r : Nat} : s.belowFloor r = true ↔ ∃ f, s.queue.passFloor = some f ∧ r < f := by
  simp [State.belowFloor, Option.any_eq_true]

theorem State.isAwaiting_iff {r : Nat} : s.isAwaiting r = true ↔ ∃ x, s.record r = some x ∧ x.closure = .awaiting := by
  simp [State.isAwaiting, Option.any_eq_true]

/-! ### The table of R61 -/

theorem State.classify_leadIn {r : Nat} (h : r < s.plan.lMax) : s.classify r = .leadIn r := if_pos h

theorem State.classify_awaiting {r : Nat} {x : Record} (h : s.plan.lMax ≤ r) (hx : s.record r = some x)
    (hc : x.closure = .awaiting) : s.classify r = s.numbersAnswer x := by
  rw [State.classify, if_neg (Nat.not_lt.mpr h), hx]
  exact if_pos hc

theorem State.classify_closed {r : Nat} {x : Record} (h : s.plan.lMax ≤ r) (hx : s.record r = some x)
    (hc : x.closure ≠ .awaiting) : s.classify r = .late r := by
  rw [State.classify, if_neg (Nat.not_lt.mpr h), hx]
  exact if_neg hc

theorem State.classify_belowOldest {r : Nat} (h : s.plan.lMax ≤ r) (hx : s.record r = none)
    (ho : ∀ x, s.window.records.head? = some x → r < x.repeatIndex) : s.classify r = .late r := by
  rw [State.classify, if_neg (Nat.not_lt.mpr h), hx]
  refine if_pos ?_
  rw [State.oldest]
  cases hh : s.window.records.head? with
  | none => rfl
  | some x => exact decide_eq_true (ho x hh)

theorem State.classify_gap {r : Nat} {x : Record} (h : s.plan.lMax ≤ r) (hx : s.record r = none)
    (ho : s.window.records.head? = some x) (hle : x.repeatIndex ≤ r) : s.classify r = .blank r := by
  rw [State.classify, if_neg (Nat.not_lt.mpr h), hx]
  refine if_neg ?_
  rw [State.oldest, ho]
  simpa using hle

/-- The answer a record gives (R70). -/
theorem State.numbersAnswer_eq (x : Record) : s.numbersAnswer x = .numbers x.repeatIndex (s.slot x.slot).tag
    (x.positions.map fun y =>
      { blank := y.entry.value.isNone, bookEnd := y.entry.bookEnd
        text := (y.entry.value.map fun v => (s.slot x.slot).rules.render v y.entry.check).getD [] }) := by
  rw [State.numbersAnswer]
  congr 2
  funext y
  cases y.entry.value <;> rfl

/-! ### REQUEST, WASTE and MISFIRE at the window -/

theorem State.takeRequest_idle {q : Request} {r : Nat} (h : s.inRun = false) :
    s.takeRequest p q r = s.setReqSlot p (.preparing q (.building (.refused .idle 0))) := if_pos h

theorem State.takeRequest_reached {q : Request} {r : Nat} (h : s.inRun = true) (hr : r < s.plan.lMax ∨ s.atOrBelowNewest r = true) :
    s.takeRequest p q r = s.setReqSlot p (.preparing q (.building (s.classify r))) := by
  rw [State.takeRequest, if_neg (by simp [h]), if_pos hr]

theorem State.takeRequest_passed {q : Request} {r : Nat} (h : s.inRun = true) (hr : ¬ (r < s.plan.lMax ∨ s.atOrBelowNewest r = true))
    (hf : s.belowFloor r = true) : s.takeRequest p q r = s.setReqSlot p (.preparing q (.building (.late r))) := by
  rw [State.takeRequest, if_neg (by simp [h]), if_neg hr, if_pos hf]

/-- An accepted REQUEST in order reaches the window, its new-run bit served. -/
theorem exec_request_window {body : Bytes} {k : Nat} {e : PlyEntry} (hfetch : (s.port p).fetch = none)
    (hactive : (s.port p).state = .active) (hply : (s.port p).ply = some k) (he : s.plan.plies[k]? = some e)
    (hf : frameAccepted 0x31 5 body = true) (hc : field body 0 4 = (s.port p).cursor ∨ field body 0 4 + 1 = (s.port p).cursor)
    (hr : field body 0 4 + e.lead ≤ 4294967250) :
    exec (.request p (.taken body)) s = .next ((s.modPort p fun _ => (s.acceptedPort p).requested (field body 0 4)).takeRequest p
      (requestOf (field body 0 4) (field body 0 4 + e.lead) (s.port p).cursor) (field body 0 4 + e.lead)) := by
  rw [exec_request_accepted hfetch hf, State.atPort_active (y := s.acceptedPort p) hactive, State.requestFrame_inOrder (y := s.acceptedPort p) hc (s.acceptedPort_ply p),
    State.leadAt_eq hply he, if_neg (show ¬ maxRepeat < _ from Nat.not_lt.mpr hr)]
  rfl

/-- Settles O43: the REQUEST reaches the window, which answers by R60, R61 or R62. -/
theorem requestAnsweredFromWindow : Obligations.RequestAnsweredFromWindow := by
  intro p body k e s hfetch hactive hply he hf c r above atOrBelow hc hr building
  let y := (s.acceptedPort p).requested c
  have hex := exec_request_window hfetch hactive hply he hf hc hr
  have answered : ∀ a, (s.modPort p fun _ => y).takeRequest p (requestOf c r (s.port p).cursor) r =
      (s.modPort p fun _ => y).setReqSlot p (.preparing (requestOf c r (s.port p).cursor) (.building a)) → building a := by
    intro a ha
    rw [State.setReqSlot_modPort] at ha
    exact hex.trans (congrArg Host.Outcome.next ha)
  have reached : s.inRun = true → (r < s.plan.lMax ∨ s.atOrBelowNewest r = true) → building (s.classify r) := fun hrun h =>
    answered _ (State.takeRequest_reached (s := s.modPort p fun _ => y) hrun h)
  have held : atOrBelow → s.atOrBelowNewest r = true := fun h => State.atOrBelowNewest_iff.mpr h.2
  refine ⟨fun hrun => answered _ (State.takeRequest_idle hrun), fun hrun => ⟨fun h => ?_, fun h => reached hrun (.inr (held h)),
    fun x h hx hc => ?_, fun x h hx hc => ?_, fun h hx ho => ?_, fun x h hx ho hle => ?_, fun f h hfl hlt => ?_⟩⟩
  · exact State.classify_leadIn h ▸ reached hrun (.inl h)
  · have hans := reached hrun (.inr (held h))
    rw [State.classify_awaiting h.1 hx hc, State.numbersAnswer_eq] at hans
    exact hans
  · exact State.classify_closed h.1 hx hc ▸ reached hrun (.inr (held h))
  · exact State.classify_belowOldest h.1 hx ho ▸ reached hrun (.inr (held h))
  · exact State.classify_gap h.1 hx ho hle ▸ reached hrun (.inr (held h))
  · have hnot : ¬ (r < s.plan.lMax ∨ s.atOrBelowNewest r = true) := by
      rw [State.atOrBelowNewest_iff]
      rintro (hl | ⟨n, hn, hle⟩)
      · exact absurd h.1 (Nat.not_le.mpr hl)
      · exact absurd (h.2 n hn) (Nat.not_lt.mpr hle)
    exact answered _ (State.takeRequest_passed (s := s.modPort p fun _ => y) hrun hnot (State.belowFloor_iff.mpr ⟨f, hfl, hlt⟩))

/-! ### WASTE -/

theorem State.takeWaste_idle {q : Request} {r1 r2 : Nat} (h : s.inRun = false) :
    s.takeWaste p q r1 r2 = s.setReqSlot p (.preparing q (.building (.refused .idle 0))) := if_pos h

theorem State.takeWaste_range {q : Request} {r1 r2 : Nat} (h : s.inRun = true) (hr : ∀ n, s.window.newest = some n → n < r2) :
    s.takeWaste p q r1 r2 = s.setReqSlot p (.preparing q (.building (.refused .range 0))) := by
  have hnot : s.atOrBelowNewest r2 = false := by
    rw [← Bool.not_eq_true, State.atOrBelowNewest_iff]
    rintro ⟨n, hn, hle⟩
    exact absurd (hr n hn) (Nat.not_lt.mpr hle)
  rw [State.takeWaste, if_neg (by simp [h]), if_pos hnot]

theorem State.wasted_iff {r1 r2 : Nat} {x : Record} : s.wasted r1 r2 x = true ↔
    x.closure = .awaiting ∧ r1 ≤ x.repeatIndex ∧ x.repeatIndex ≤ r2 ∧ s.plan.lMax ≤ x.repeatIndex := by
  simp only [State.wasted, Bool.and_eq_true, decide_eq_true_eq]
  tauto

/-- The repeats of a WASTE counted late are those of a record that is none or not AWAITING (R75). -/
theorem State.wasteLate_eq (r1 d : Nat) : s.wasteLate r1 (r1 + d) =
    ((List.range (d + 1)).filter fun i => decide (s.plan.lMax ≤ r1 + i ∧
      ∀ y, s.record (r1 + i) = some y → y.closure ≠ .awaiting)).length := by
  rw [State.wasteLate, repeatsFrom, List.countP_map, List.countP_eq_length_filter, show r1 + d + 1 - r1 = d + 1 by omega]
  congr 2
  funext i
  rw [Function.comp_apply, Bool.eq_iff_iff, Bool.and_eq_true, decide_eq_true_eq, decide_eq_true_eq, Bool.not_eq_true',
    ← Bool.not_eq_true, State.isAwaiting_iff]
  simp

/-- The positions a WASTE marks are the numbered ones of the records it marks. -/
theorem State.wasteCount_eq (r1 r2 : Nat) : s.wasteCount r1 r2 =
    ((s.window.records.filter fun x => decide (x.closure = .awaiting ∧ r1 ≤ x.repeatIndex ∧ x.repeatIndex ≤ r2 ∧
      s.plan.lMax ≤ x.repeatIndex)).map fun x => (x.positions.filter fun z => z.entry.value.isSome).length).sum := by
  have hp : s.wasted r1 r2 = fun x => decide (x.closure = .awaiting ∧ r1 ≤ x.repeatIndex ∧ x.repeatIndex ≤ r2 ∧
      s.plan.lMax ≤ x.repeatIndex) := by
    funext x
    rw [Bool.eq_iff_iff, State.wasted_iff, decide_eq_true_eq]
  rw [State.wasteCount, hp]
  congr 2
  funext x
  exact List.countP_eq_length_filter

theorem State.takeWaste_marks {q : Request} {r1 r2 : Nat} (h : s.inRun = true) (hr : s.atOrBelowNewest r2 = true) :
    (s.modPort p fun _ => y).takeWaste p q r1 r2 =
      { s.modPort p fun _ => { y with
          slot := .preparing q (.building (.ack (s.wasteCount r1 r2))), late := min (y.late + s.wasteLate r1 r2) 65535 } with
        window := { s.window with records := s.window.records.map fun x => if s.wasted r1 r2 x then x.markWaste else x } } := by
  have hrun : ¬ (s.modPort p fun _ => y).inRun = false := by rw [State.modPort_inRun, h]; exact Bool.noConfusion
  have hnew : ¬ (s.modPort p fun _ => y).atOrBelowNewest r2 = false := by rw [State.modPort_atOrBelowNewest, hr]; exact Bool.noConfusion
  rw [State.takeWaste, if_neg hrun, if_neg hnew]
  exact State.modPort_window_modPort ..

/-- An accepted WASTE within its bounds reaches the window. -/
theorem exec_waste_window {body : Bytes} {k : Nat} {e : PlyEntry} (hfetch : (s.port p).fetch = none)
    (hactive : (s.port p).state = .active) (hply : (s.port p).ply = some k) (he : s.plan.plies[k]? = some e)
    (hf : frameAccepted 0x32 9 body = true) (h12 : field body 0 4 ≤ field body 4 4) (hlen : field body 4 4 - field body 0 4 ≤ 63)
    (hr : field body 4 4 + e.lead ≤ 4294967250) :
    exec (.waste p (.taken body)) s = .next ((s.modPort p fun _ => s.acceptedPort p).takeWaste p
      { kind := .waste, first := field body 0 4, last := field body 4 4, mask := 0
        repeats := some (field body 0 4 + e.lead, field body 4 4 + e.lead), isNew := false }
      (field body 0 4 + e.lead) (field body 4 4 + e.lead)) := by
  have hlead := State.leadAt_eq hply he
  rw [exec_waste_accepted hfetch hf, State.atPort_active (y := s.acceptedPort p) hactive,
    State.wasteFrame_inOrder (s.acceptedPort_ply p) h12 hlen (hlead.symm ▸ hr), hlead]

/-- Settles O45: the WASTE reaches the window, which refuses it or marks the records of its range. -/
theorem wasteMarksRecords : Obligations.WasteMarksRecords := by
  intro p body k e s hfetch hactive hply he hf c1 c2 r1 r2 h12 hlen hr q building x hit
  have hex := exec_waste_window hfetch hactive hply he hf h12 hlen hr
  refine ⟨fun hrun => ?_, fun hrun hn => ?_, fun n hrun hn hle => ?_⟩
  · rw [State.takeWaste_idle (show (s.modPort p fun _ => s.acceptedPort p).inRun = false from hrun), State.setReqSlot_modPort] at hex
    exact hex
  · rw [State.takeWaste_range (s := s.modPort p fun _ => s.acceptedPort p) hrun hn, State.setReqSlot_modPort] at hex
    exact hex
  · rw [State.takeWaste_marks hrun (State.atOrBelowNewest_iff.mpr ⟨n, hn, hle⟩)] at hex
    have hlate : s.wasteLate r1 r2 = _ := (show r2 = r1 + (c2 - c1) by omega) ▸ s.wasteLate_eq r1 (c2 - c1)
    have hrecords : (s.window.records.map fun y => if s.wasted r1 r2 y then y.markWaste else y) =
        s.window.records.map fun y => if hit y then
          { y with positions := y.positions.map fun z => if z.entry.value.isSome then { z with waste := true } else z } else y :=
      List.map_congr_left fun y _ => if_congr State.wasted_iff rfl rfl
    rw [hlate, s.wasteCount_eq, hrecords] at hex
    exact hex

/-! ### MISFIRE -/

theorem State.takeMisfire_idle {q : Request} {r : Nat} (h : s.inRun = false) :
    s.takeMisfire p q r = s.setReqSlot p (.preparing q (.building (.refused .idle 0))) := if_pos h

theorem State.takeMisfire_answers {q : Request} {r : Nat} (h : s.inRun = true) (hr : ¬ (s.plan.lMax ≤ r ∧ s.isAwaiting r = true)) :
    s.takeMisfire p q r = s.setReqSlot p (.preparing q (.building (s.misfireAnswer r))) := by
  rw [State.takeMisfire, if_neg (by simp [h]), if_neg hr]

theorem State.takeMisfire_marks {q : Request} {r : Nat} {x : Record} (h : s.inRun = true) (hr : s.plan.lMax ≤ r)
    (hx : s.record r = some x) (hc : x.closure = .awaiting) : (s.modPort p fun _ => y).takeMisfire p q r =
      { s.modPort p fun _ => { y with slot := .preparing q (.building (.ack (x.misfireCount q.mask))) } with
        window := { s.window with
          records := s.window.records.map fun z => if z.repeatIndex = r then z.markMisfire q.mask else z } } := by
  have hrun : ¬ (s.modPort p fun _ => y).inRun = false := by rw [State.modPort_inRun, h]; exact Bool.noConfusion
  have hrec : (s.modPort p fun _ => y).record r = some x := hx
  rw [State.takeMisfire, if_neg hrun, if_pos ⟨hr, State.isAwaiting_iff.mpr ⟨x, hrec, hc⟩⟩, hrec]
  exact State.modPort_window_modPort ..

/-- The table of R76 follows that of R61 up to newest. -/
theorem State.misfireAnswer_reached {r : Nat} (h : r < s.plan.lMax ∨ s.atOrBelowNewest r = true) :
    s.misfireAnswer r = s.classify r := if_pos h

theorem State.misfireAnswer_above {r : Nat} (h : ¬ (r < s.plan.lMax ∨ s.atOrBelowNewest r = true)) :
    s.misfireAnswer r = if s.belowFloor r then .late r else .blank r := if_neg h

/-- An accepted MISFIRE for an earlier impression reaches the window. -/
theorem exec_misfire_window {body : Bytes} {k : Nat} {e : PlyEntry} (hfetch : (s.port p).fetch = none)
    (hactive : (s.port p).state = .active) (hply : (s.port p).ply = some k) (he : s.plan.plies[k]? = some e)
    (hf : frameAccepted 0x33 7 body = true) (hc : field body 0 4 < (s.port p).cursor) (hr : field body 0 4 + e.lead ≤ 4294967250) :
    exec (.misfire p (.taken body)) s = .next ((s.modPort p fun _ => s.acceptedPort p).takeMisfire p
      { kind := .misfire, first := field body 0 4, last := field body 0 4, mask := BitVec.ofNat 16 (field body 4 2)
        repeats := some (field body 0 4 + e.lead, field body 0 4 + e.lead), isNew := false } (field body 0 4 + e.lead)) := by
  rw [exec_misfire_accepted hfetch hf, State.atPort_active (y := s.acceptedPort p) hactive,
    State.misfireFrame_inOrder (s.acceptedPort_ply p) hc, State.leadAt_eq hply he,
    if_neg (show ¬ maxRepeat < _ from Nat.not_lt.mpr hr)]

/-- The positions a MISFIRE marks: numbered, and named by the mask. -/
theorem Record.misfireCount_eq (mask : BitVec 16) (x : Record) : x.misfireCount mask =
    ((List.range x.positions.length).filter fun i =>
      mask.getLsbD i && (x.positions[i]?.any fun z => z.entry.value.isSome)).length := by
  have hmap : (x.positions.mapIdx fun i z => z.numbered && mask.getLsbD i) = (List.range x.positions.length).map fun i =>
      mask.getLsbD i && (x.positions[i]?.any fun z => z.entry.value.isSome) := by
    refine List.ext_getElem (by simp) fun i h1 h2 => ?_
    have hi : i < x.positions.length := by simpa using h1
    simp [List.getElem?_eq_getElem hi, Position.numbered, Bool.and_comm]
  rw [Record.misfireCount, hmap, List.countP_map, List.countP_eq_length_filter]
  rfl

theorem Record.markMisfire_get {mask : BitVec 16} {x : Record} {i : Nat} {z w : Position} (hz : x.positions[i]? = some z)
    (hw : (x.markMisfire mask).positions[i]? = some w) :
    w = { z with misfire := z.misfire || (mask.getLsbD i && z.entry.value.isSome) } := by
  rw [Record.markMisfire, List.getElem?_mapIdx, hz, Option.map_some] at hw
  cases hw
  cases hn : z.entry.value.isSome <;> cases hm : mask.getLsbD i <;> simp [Position.numbered, hn]

/-- Settles O46: the MISFIRE reaches the window, which marks the AWAITING record or answers by the table of R76. -/
theorem misfireMarksPositions : Obligations.MisfireMarksPositions := by
  intro p body k e s hfetch hactive hply he hf c mask r newest hc hr q answered
  have hex := exec_misfire_window hfetch hactive hply he hf hc hr
  have answers : s.inRun = true → ¬ (s.plan.lMax ≤ r ∧ s.isAwaiting r = true) → answered (s.misfireAnswer r) := by
    intro hrun hnot
    rw [State.takeMisfire_answers (s := s.modPort p fun _ => s.acceptedPort p) hrun hnot, State.setReqSlot_modPort] at hex
    exact hex
  have reached : s.inRun = true → (∀ y, s.record r = some y → y.closure ≠ .awaiting) → (∃ n, newest = some n ∧ r ≤ n) →
      answered (s.classify r) := by
    intro hrun hnone hn
    have hnot : ¬ (s.plan.lMax ≤ r ∧ s.isAwaiting r = true) := by
      rintro ⟨_, ha⟩
      obtain ⟨y, hy, hya⟩ := State.isAwaiting_iff.mp ha
      exact hnone y hy hya
    exact State.misfireAnswer_reached (.inr (State.atOrBelowNewest_iff.mpr hn)) ▸ answers hrun hnot
  refine ⟨fun hrun => ?_, fun hrun => ⟨fun hl => ?_, fun hl => ⟨fun y hy hya => ?_, fun y n hn hle hy hya => ?_,
    fun n hn hle hy ho => ?_, fun n y hn hle hy ho hyr => ?_, fun hn hy => ?_⟩⟩⟩
  · rw [State.takeMisfire_idle (show (s.modPort p fun _ => s.acceptedPort p).inRun = false from hrun), State.setReqSlot_modPort] at hex
    exact hex
  · have hans := answers hrun (fun h => absurd h.1 (Nat.not_le.mpr hl))
    rw [State.misfireAnswer_reached (.inl hl), State.classify_leadIn hl] at hans
    exact hans
  · rw [State.takeMisfire_marks hrun hl hy hya, Record.misfireCount_eq] at hex
    refine ⟨_, hex, rfl, by simp, fun j a b ha hb => ?_⟩
    rw [List.getElem?_map, ha, Option.map_some, Option.some.injEq] at hb
    refine ⟨fun hne => by rw [← hb, if_neg hne], fun heq => ?_⟩
    rw [if_pos heq] at hb
    subst hb
    exact ⟨rfl, by simp [Record.markMisfire], fun i z w hz hw => Record.markMisfire_get hz hw⟩
  · exact State.classify_closed hl hy hya ▸ reached hrun (fun z hz => Option.some.inj (hy.symm.trans hz) ▸ hya) ⟨n, hn, hle⟩
  · exact State.classify_belowOldest hl hy ho ▸ reached hrun (by simp [hy]) ⟨n, hn, hle⟩
  · exact State.classify_gap hl hy ho hyr ▸ reached hrun (by simp [hy]) ⟨n, hn, hle⟩
  · have hnot : ¬ (r < s.plan.lMax ∨ s.atOrBelowNewest r = true) := by
      rw [State.atOrBelowNewest_iff]
      rintro (h | ⟨n, h, hle⟩)
      · exact absurd hl (Nat.not_le.mpr h)
      · exact absurd (hn n h) (Nat.not_lt.mpr hle)
    have hans := answers hrun (by simp [State.isAwaiting, hy])
    rw [State.misfireAnswer_above hnot] at hans
    refine ⟨fun f hf hlt => ?_, fun hfl => ?_⟩
    · rw [if_pos (State.belowFloor_iff.mpr ⟨f, hf, hlt⟩)] at hans
      exact hans
    · have hnf : ¬ s.belowFloor r = true := by
        rw [State.belowFloor_iff]
        rintro ⟨f, hf, hlt⟩
        exact absurd (hfl f hf) (Nat.not_le.mpr hlt)
      rw [if_neg hnf] at hans
      exact hans

end

end Sys2Proof.Machine
end
section
/-! FETCH, its completion and its short end (R71, R72, R74, R171, R172). -/

namespace Sys2Proof.Machine

/-! ### The bytes of an answer (R171, R190) -/

/-- Kind, length, body and check byte; the sum of all is 0 mod 256. -/
theorem Answer.bytes_eq (a : Answer) : ∃ check : Byte, a.bytes = a.kind :: (beBytes 2 a.body.length ++ a.body ++ [check]) :=
  ⟨_, rfl⟩

theorem Answer.bytes_sum (a : Answer) : (a.bytes.map BitVec.toNat).sum % 256 = 0 := by
  rw [← byteSum_toNat, Answer.bytes, byteSum_snoc, checkByte]
  bv_omega

/-- The flags of a position: bit 0 blank, bit 1 end of book. -/
theorem NumberPos.bytes_eq (n : NumberPos) : n.bytes =
    [BitVec.ofNat 8 ((if n.blank then 1 else 0) + (if n.bookEnd then 2 else 0)), BitVec.ofNat 8 n.text.length] ++ n.text := by
  rw [NumberPos.bytes]
  cases n.blank <;> cases n.bookEnd <;> rfl

theorem NumberPos.flatMap_bytes_length (ps : List NumberPos) :
    (ps.flatMap NumberPos.bytes).length = (ps.map fun n => 2 + n.text.length).sum := by
  rw [List.length_flatMap]
  congr 2
  funext n
  rw [NumberPos.bytes, List.length_cons, List.length_cons]
  omega

theorem numbers_body (r tag : Nat) (ps : List NumberPos) :
    let body := (Answer.numbers r tag ps).body
    body.length = 7 + (ps.map fun n => 2 + n.text.length).sum ∧ field body 0 4 = r % 2 ^ 32 ∧ field body 4 2 = tag % 2 ^ 16 ∧
    (byteAt body 6).toNat = ps.length % 256 ∧ body.drop 7 = ps.flatMap NumberPos.bytes := by
  refine ⟨?_, ?_, ?_, ?_, rfl⟩
  · simp only [Answer.body, List.length_append, beBytes_length, NumberPos.flatMap_bytes_length]
  · simp [Answer.body, field_beBytes]
  · simp [Answer.body, field_past, field_beBytes]
  · simp [Answer.body, byteAt_past, byteAt_beBytes_one]

theorem refused_body (reason : Reason) (cursor : Nat) :
    let body := (Answer.refused reason cursor).body
    body.length = 5 ∧ field body 1 4 = cursor % 2 ^ 32 ∧ byteAt body 0 = BitVec.ofNat 8 reason.code := by
  refine ⟨rfl, ?_, ?_⟩
  · simp [Answer.body, field_past, field_beBytes_end]
  · simp [Answer.body, byteAt_beBytes_one]

theorem noAnswer_body (cursor late order rejected held : Nat) :
    let body := (Answer.noAnswer cursor late order rejected held).body
    body.length = 12 ∧ field body 0 4 = cursor % 2 ^ 32 ∧ field body 4 2 = late % 2 ^ 16 ∧ field body 6 2 = order % 2 ^ 16 ∧
    field body 8 2 = rejected % 2 ^ 16 ∧ field body 10 2 = held % 2 ^ 16 := by
  refine ⟨rfl, ?_, ?_, ?_, ?_, ?_⟩ <;> simp [Answer.body, field_past, field_beBytes, field_beBytes_end]

/-! ### FETCH -/

section
variable {s : State} {p : PortId}

/-- FETCH taken at an idle port: the answer is chosen and its bytes follow the status byte of the select. -/
theorem exec_fetch_taken (h : (s.port p).fetch = none) : exec (.fetch p (.taken true)) s = .next (s.modPort p fun _ =>
    { s.acceptedPort p with
      fetch := some (s.port p).chooseAnswer, out := (s.takenPort p).out ++ (s.port p).chooseAnswer.answer.bytes }) := by
  have hex : exec (.fetch p (.taken true)) s = .next (((s.frameTaken p).acceptFrame p).modPort p fun x =>
    { x with fetch := some x.chooseAnswer, out := x.out ++ x.chooseAnswer.answer.bytes }) := rfl
  rw [hex, State.accepted_idle h, State.modPort_modPort]
  rfl

theorem Port.chooseAnswer_ready {x : Port} {q : Request} {a : Answer} (h : x.slot = .ready q a) :
    x.chooseAnswer = { answer := a, fromReady := true, isNew := q.isNew, recordClosed := false } := by
  rw [Port.chooseAnswer, h]

theorem Port.chooseAnswer_none {x : Port} (h : ∀ q a, x.slot ≠ .ready q a) :
    x.chooseAnswer = { answer := x.noneAnswer, fromReady := false, isNew := false, recordClosed := false } := by
  rw [Port.chooseAnswer]
  split
  · rename_i q a hslot
    exact absurd hslot (h q a)
  · rfl

theorem exec_answerReady_building {q : Request} {a : Answer}
    (h : (s.port p).slot = .preparing q (.building a) ∨ (s.port p).slot = .held q (.building a)) :
    exec (.answerReady p) s = .next (s.modPort p fun x => x.answerReady q a) := by
  rcases h with h | h <;> rw [exec, execAnswerReady, h]

end

/-- An answer made ready between the select and the command byte is sent behind the status byte of the select (R162, R171). -/
theorem fetch_answer_ready_after_select {s : State} {p : PortId} {q : Request} {a : Answer} {b : Bool}
    (h : (s.port p).fetch = none) (hs : (s.port p).selected = false)
    (hslot : (s.port p).slot = .preparing q (.building a) ∨ (s.port p).slot = .held q (.building a)) :
    ∃ u v t, exec (.fetch p (.select b)) s = .next u ∧ exec (.answerReady p) u = .next v ∧
      exec (.fetch p (.taken true)) v = .next t ∧ (t.port p).out = (s.port p).statusByte :: a.bytes := by
  let u := s.modPort p fun x => x.selects b
  let v := u.modPort p fun x => x.answerReady q a
  have hu : u.port p = (s.port p).selects b := s.modPort_port_self p _
  have hv : v.port p = ((s.port p).selects b).answerReady q a := by rw [u.modPort_port_self, hu]
  have hsel : exec (.fetch p (.select b)) s = .next u :=
    (exec_selectAt (p := p) (b := b) rfl).trans (congrArg Host.Outcome.next (State.select_edge h hs b))
  have hready : exec (.answerReady p) u = .next v := exec_answerReady_building (by rw [hu]; exact hslot)
  have hfetch : (v.port p).fetch = none := by rw [hv]; exact h
  refine ⟨u, v, _, hsel, hready, exec_fetch_taken hfetch, ?_⟩
  have hchoose : (v.port p).chooseAnswer = _ := Port.chooseAnswer_ready (x := v.port p) (q := q) (a := a) (by rw [hv]; rfl)
  rw [State.modPort_port_self, hchoose, State.takenPort, hv]
  rfl

/-- Settles O47: the answer chosen at the port as it stands, and the layout of each kind of answer. -/
theorem fetchClocksChosenAnswer : Obligations.FetchClocksChosenAnswer := by
  refine ⟨?_, fun p q a b s => fetch_answer_ready_after_select, fun a => ⟨a.bytes_eq, a.bytes_sum⟩, fun r tag ps => ⟨rfl, ?_⟩,
    fun r => ⟨rfl, rfl, rfl, ?_⟩, fun n => ⟨rfl, rfl, field_beBytes_end 2 n⟩, fun reason cursor => ⟨rfl, ?_⟩,
    fun cursor late order rejected held => ⟨rfl, noAnswer_body cursor late order rejected held⟩⟩
  · intro p s h x sent
    have hex := exec_fetch_taken h
    refine ⟨fun q a hq => ?_, fun hno => ?_⟩
    · rw [Port.chooseAnswer_ready hq] at hex
      exact hex
    · rw [Port.chooseAnswer_none hno] at hex
      exact hex
  · obtain ⟨hlen, hr, htag, hn, hdrop⟩ := numbers_body r tag ps
    exact ⟨hlen, hr, htag, hn, hdrop.trans (congrArg (ps.flatMap ·) (funext NumberPos.bytes_eq))⟩
  · intro a ha
    simp only [List.mem_cons, List.not_mem_nil, or_false] at ha
    rcases ha with rfl | rfl | rfl <;> exact ⟨rfl, field_beBytes_end 4 r⟩
  · obtain ⟨hlen, hcursor, hcode⟩ := refused_body reason cursor
    refine ⟨hlen, hcursor, hcode.trans ?_⟩
    cases reason <;> rfl

/-! ### The short end of a FETCH -/

section
variable {s : State} {p : PortId} {f : FetchOut}

theorem State.endFetchShort_closed {q : Request} {r tag : Nat} {ps : List NumberPos} (hf : (s.port p).fetch = some f)
    (hslot : (s.port p).slot = .ready q (.numbers r tag ps)) (hr : f.fromReady = true) (hc : f.recordClosed = true) :
    s.endFetchShort p = s.modPort p fun x =>
      { x with fetch := none, selected := false, slot := .ready q (.late r), late := min (x.late + 1) 65535 } := by
  simp only [State.endFetchShort, hf]
  refine s.modPort_eq_of p ?_
  simp only [hslot, hr, hc, if_true, and_self, Port.lateReady]
  rfl

theorem State.endFetchShort_stands (hf : (s.port p).fetch = some f)
    (h : (∀ q r tag ps, (s.port p).slot ≠ .ready q (.numbers r tag ps)) ∨ f.fromReady = false ∨ f.recordClosed = false) :
    s.endFetchShort p = s.modPort p fun x => { x with fetch := none, selected := false } := by
  simp only [State.endFetchShort, hf]
  refine s.modPort_eq_of p ?_
  split
  · rename_i q r tag ps hslot
    rcases h with h | h | h
    · exact absurd hslot (h q r tag ps)
    · exact if_neg (by simp [h])
    · exact if_neg (by simp [h])
  · rfl

/-- After the short end nothing is being clocked and the port is not selected. -/
theorem State.endFetchShort_port (hf : (s.port p).fetch = some f) :
    ((s.endFetchShort p).port p).fetch = none ∧ ((s.endFetchShort p).port p).selected = false := by
  simp only [State.endFetchShort, hf, State.modPort_port_self]
  split
  · split_ifs <;> exact ⟨rfl, rfl⟩
  · exact ⟨rfl, rfl⟩

/-- A select ends the FETCH being clocked before it opens its own transaction (log 10). -/
theorem State.select_endFetchShort (hf : (s.port p).fetch = some f) (b : Bool) : s.select p b = (s.endFetchShort p).select p b := by
  obtain ⟨hnone, hsel⟩ := State.endFetchShort_port hf
  rw [State.select_edge hnone hsel, State.select, hf, Option.isNone_some, Bool.and_false, if_neg Bool.false_ne_true]
  rfl

section
variable {u : State} (h : ∀ b, s.select p b = u.select p b)
include h

theorem State.frameTaken_congr : s.frameTaken p = u.frameTaken p := by
  rw [State.frameTaken, h false, State.frameTaken]

theorem execProbe_congr (m : Moment Bool) : execProbe p m s = execProbe p m u := by
  cases m <;> simp only [execProbe, h, State.frameTaken_congr h]

theorem execRequest_congr (m : Moment Bytes) : execRequest p m s = execRequest p m u := by
  cases m <;> simp only [execRequest, h, State.frameTaken_congr h]

theorem execWaste_congr (m : Moment Bytes) : execWaste p m s = execWaste p m u := by
  cases m <;> simp only [execWaste, h, State.frameTaken_congr h]

theorem execMisfire_congr (m : Moment Bytes) : execMisfire p m s = execMisfire p m u := by
  cases m <;> simp only [execMisfire, h, State.frameTaken_congr h]

theorem execFetch_congr (m : Moment Bool) : execFetch p m s = execFetch p m u := by
  cases m <;> simp only [execFetch, h, State.frameTaken_congr h]

theorem execUnknownCommandFrame_congr (c : Option Byte) (m : Moment Bytes) :
    execUnknownCommandFrame p c m s = execUnknownCommandFrame p c m u := by
  cases m with
  | select b => exact congrArg Host.Outcome.next (h b)
  | taken body =>
    have hrejected : (.next ((s.frameTaken p).rejectFrame p) : Host.Outcome State Fault Refusal) = .next ((u.frameTaken p).rejectFrame p) := by
      rw [State.frameTaken_congr h]
    cases c with
    | none => exact hrejected
    | some b =>
      simp only [execUnknownCommandFrame, decodeFrame]
      split_ifs
      · exact execProbe_congr h _
      · exact execRequest_congr h _
      · exact execWaste_congr h _
      · exact execMisfire_congr h _
      · exact execFetch_congr h _
      · exact hrejected

/-- A frame row sees the state through the select of its port alone. -/
theorem exec_frameAt_congr {i : Instr} (hi : frameAt i = some p) : exec i s = exec i u := by
  unfold frameAt at hi
  split at hi <;> cases hi
  · exact execProbe_congr h _
  · exact execRequest_congr h _
  · exact execWaste_congr h _
  · exact execMisfire_congr h _
  · exact execFetch_congr h _
  · exact execUnknownCommandFrame_congr h _ _

end

end

/-- Settles O48: the short end by what the slot holds, and a new frame by its select. -/
theorem fetchEndedShortLeavesAnswer : Obligations.FetchEndedShortLeavesAnswer := by
  have hex : ∀ (p : PortId) (s : State), exec (.fetchEndedShort p) s = .next (s.endFetchShort p) := fun _ _ => rfl
  refine ⟨fun p s => ⟨fun h => ?_, fun f hf => ⟨fun q r tag ps hslot hr hc => ?_, fun h => ?_⟩⟩, fun i p s hi hf => ?_⟩
  · rw [hex, State.endFetchShort_none h]
  · rw [hex, State.endFetchShort_closed hf hslot hr hc]
  · rw [hex, State.endFetchShort_stands hf h]
  · obtain ⟨f, hf⟩ := Option.isSome_iff_exists.mp hf
    exact ⟨_, hex p s, (State.endFetchShort_port hf).1, exec_frameAt_congr (State.select_endFetchShort hf) hi⟩

/-! ### The completion of a FETCH -/

section
variable {s : State} {p : PortId} {f : FetchOut}

theorem exec_fetchComplete_none (hf : (s.port p).fetch = some f) (hr : f.fromReady = false) :
    exec (.fetchComplete p) s = .next (s.modPort p fun x => { x with fetch := none }) := by
  simp only [exec, execFetchComplete, hf, hr, Bool.false_eq_true, if_false]

theorem exec_fetchComplete_ready (hf : (s.port p).fetch = some f) (hr : f.fromReady = true) :
    exec (.fetchComplete p) s = .next ((s.servedBy p f).modPort p (Port.fetched f)) := by
  simp only [exec, execFetchComplete, hf, hr, if_true]

/-- Serving changes the records alone (R71). -/
theorem State.servedBy_eq (s : State) (p : PortId) (f : FetchOut) :
    s.servedBy p f = { s with window := { s.window with records := (s.servedBy p f).window.records } } := by
  unfold State.servedBy
  split
  · split_ifs <;> rfl
  · rfl

/-- The records that a completed NUMBERS answer serves (R71, R72). -/
theorem State.servedBy_numbers {r tag k : Nat} {ps : List NumberPos} (ha : f.answer = .numbers r tag ps)
    (hk : (s.port p).ply = some k) : (s.servedBy p f).window.records = s.window.records.map fun x =>
      if (s.port p).state = .active ∧ f.recordClosed = false ∧ x.repeatIndex = r ∧ x.closure = .awaiting then
        { x with served := x.served ||| plyBit k } else x := by
  simp only [State.servedBy, ha, hk]
  by_cases hc : (s.port p).state = .active ∧ f.recordClosed = false
  · rw [if_pos hc]
    refine List.map_congr_left fun x _ => ?_
    by_cases hr : x.repeatIndex = r <;> simp [hc, hr]
  · rw [if_neg hc]
    refine (List.map_congr_left fun x _ => ?_).symm.trans (List.map_id _) |>.symm
    exact (if_neg fun h => hc ⟨h.1, h.2.1⟩).symm

/-- Every other completed answer serves no record. -/
theorem State.servedBy_other (h : ∀ r tag ps, f.answer = .numbers r tag ps → (s.port p).ply = none) :
    s.servedBy p f = s := by
  unfold State.servedBy
  split
  · rename_i r tag ps k ha hk
    exact absurd ((h r tag ps ha).symm.trans hk) nofun
  · rfl

end

/-- Settles O49: the window is served, then the slot empties and the cursor moves. -/
theorem fetchCompleteServes : Obligations.FetchCompleteServes := by
  intro p f s hf
  refine ⟨fun hr => exec_fetchComplete_none hf hr, fun hr => ⟨_, exec_fetchComplete_ready hf hr, ?_, fun g hg => ?_, ?_, ?_, ?_⟩⟩
  · rw [State.servedBy_eq]
    rfl
  · rw [State.modPort_port_of_ne _ _ _ _ hg, State.servedBy_port]
  · rw [State.modPort_port_self, State.servedBy_port]
    rfl
  · rw [State.modPort_port_self, State.servedBy_port]
    cases hn : f.isNew <;> cases ha : f.answer <;> simp [Port.fetched, hn, ha, Answer.movesCursor, satAdd, max32]
  · rw [State.modPort_window]
    cases ha : f.answer with
    | numbers r tag ps =>
      cases hk : (s.port p).ply with
      | none => rw [State.servedBy_other fun _ _ _ _ => hk, List.map_id']
      | some k => exact State.servedBy_numbers ha hk
    | _ => rw [State.servedBy_other (by simp [ha]), List.map_id']

end Sys2Proof.Machine
end
section
/-! STATE and its snapshots (R187, R188). -/

namespace Sys2Proof.Machine

/-! ### What a read sends -/

/-- The size of a page of sixteen bytes, its bytes, and zeros beyond them (R177). -/
theorem sentBytes_page {image : Bytes} (h : image.length = 16) (acked : Nat) :
    sentBytes image acked = 16 :: (List.range acked).map fun k => image.getD k 0 := by
  rw [sentBytes, h]
  refine congrArg (16 :: ·) (List.ext_getElem? fun k => ?_)
  by_cases hk : k < acked
  · rw [List.getElem?_take_of_lt hk, List.getElem?_map, List.getElem?_range hk, Option.map_some, List.getD_eq_getElem?_getD]
    by_cases hi : k < image.length
    · rw [List.getElem?_append_left hi, List.getElem?_eq_getElem hi, Option.getD_some]
    · rw [List.getElem?_append_right (Nat.le_of_not_lt hi), List.getElem?_replicate, if_pos (by omega),
        List.getElem?_eq_none (Nat.le_of_not_lt hi), Option.getD_none]
  · rw [List.getElem?_eq_none (by simp; omega), List.getElem?_eq_none (by simp; omega)]

section
variable (s : State) (seq : Nat)

theorem exec_stateRead_page0 {acked : Nat} (h : s.sup.onPage1 = false) : exec (.stateRead acked) s =
    .next { s with sup := { s.sup with
      sequence := (s.sup.sequence + 1) % 128
      snapshot := some { page0 := s.page0 ((s.sup.sequence + 1) % 128), page1 := s.page1 ((s.sup.sequence + 1) % 128) }
      onPage1 := decide (16 ≤ acked)
      out := sentBytes (s.page0 ((s.sup.sequence + 1) % 128)) acked } } := by
  simp only [exec, execStateRead, h, Bool.false_eq_true, if_false, State.takeSnapshot, State.statePage]
  by_cases ha : 16 ≤ acked <;> simp [ha]

theorem exec_stateRead_page1 {acked : Nat} {x : Snapshot} (h : s.sup.onPage1 = true) (hx : s.sup.snapshot = some x) :
    exec (.stateRead acked) s = .next { s with sup := { s.sup with
      onPage1 := decide (acked < 16), out := sentBytes x.page1 acked } } := by
  simp only [exec, execStateRead, h, if_true, State.statePage, hx]
  by_cases ha : 16 ≤ acked <;> simp [ha, Nat.lt_of_not_le]

/-- The slot's state and its change bit share a byte of page 0. -/
theorem slotBits_toNat (a b : SlotState) (m n : Bool) :
    (BitVec.ofNat 8 (a.code * 16 + b.code) ||| flagBit m 7 ||| flagBit n 3).toNat =
      (if m then 128 else 0) + 16 * a.code + (if n then 8 else 0) + b.code := by
  cases a <;> cases b <;> revert m n <;> decide

/-- Up to seven drafts leave the fill's bit free. -/
theorem draftBits_toNat {n : Nat} (h : n ≤ 7) (b : Bool) :
    (BitVec.ofNat 8 n ||| flagBit b 7).toNat = n + if b then 128 else 0 := by
  obtain ⟨k, rfl⟩ : ∃ k : Fin 8, n = k := ⟨⟨n, by omega⟩, rfl⟩
  clear h
  revert k b
  decide

theorem PortState.code_le (x : PortState) : x.code ≤ 2 := by cases x <;> decide

/-- Four port states of two bits each fit a byte. -/
theorem fourStates_lt (a b c d : PortState) : a.code * 64 + b.code * 16 + c.code * 4 + d.code < 256 := by
  have := a.code_le
  have := b.code_le
  have := c.code_le
  have := d.code_le
  omega

theorem stateRepeat_field (r : Option Nat) (post : Bytes) : field (stateRepeat r ++ post) 0 4 = (r.map (· % 2 ^ 32)).getD 0xFFFFFFFF := by
  rw [stateRepeat, field_beBytes]
  cases r <;> rfl

theorem stateRepeat_past (r : Option Nat) (post : Bytes) {off len : Nat} (h : 4 ≤ off) :
    field (stateRepeat r ++ post) off len = field post (off - 4) len := field_past 4 _ _ _ _ h

theorem stateRepeat_byte_past (r : Option Nat) (post : Bytes) {off : Nat} (h : 4 ≤ off) :
    byteAt (stateRepeat r ++ post) off = byteAt post (off - 4) := byteAt_past 4 _ _ _ h

/-- The fields of page 0, each at its place (R188, R191). -/
theorem page0_fields :
    let a := s.page0 seq
    byteAt a 0 = BitVec.ofNat 8 seq ∧
    byteAt a 1 = (BitVec.ofNat 8 (s.slotA.state.code * 16 + s.slotB.state.code) ||| flagBit s.slotA.change.isSome 7 |||
      flagBit s.slotB.change.isSome 3) ∧
    byteAt a 2 = BitVec.ofNat 8 s.occupancy ∧ field a 3 2 = s.slotA.tag % 2 ^ 16 ∧ field a 5 2 = s.slotB.tag % 2 ^ 16 ∧
    field a 7 4 = ((s.staged.map Prod.snd).map (· % 2 ^ 32)).getD 0xFFFFFFFF ∧
    field a 11 4 = (s.window.newest.map (· % 2 ^ 32)).getD 0xFFFFFFFF ∧ byteAt a 15 = s.oldestDistance := by
  refine ⟨rfl, rfl, ?_, ?_, ?_, ?_, ?_, ?_⟩
  · simp [State.page0, byteAt_cons_succ, byteAt_beBytes_one]
  · simp [State.page0, field_cons, field_past, field_beBytes]
  · simp [State.page0, field_cons, field_past, field_beBytes]
  · simp [State.page0, field_cons, field_past, stateRepeat_field]
  · simp [State.page0, field_cons, field_past, stateRepeat_past, stateRepeat_field]
  · simp [State.page0, byteAt_cons_succ, byteAt_past, stateRepeat_byte_past, byteAt_cons_zero]

/-- What page 1 holds before its two zero bytes. -/
def State.page1Fields (s : State) (seq : Nat) : Bytes :=
  BitVec.ofNat 8 (128 + seq) :: (beBytes 1 s.heldRequests ++
    ((BitVec.ofNat 8 s.drafts.length ||| flagBit s.queue.fill.isSome 7) :: (beBytes 2 s.voids.ranges.length ++
    ((flagBit s.voids.incomplete 0 ||| flagBit s.account.full 1) :: (beBytes 2 s.account.count ++ (beBytes 2 s.account.used ++
    (beBytes 1 (s.account.queue.length - s.account.smallItems) ++ (beBytes 1 s.account.smallItems ++
    [BitVec.ofNat 8 ((s.port 0).state.code * 64 + (s.port 1).state.code * 16 + (s.port 2).state.code * 4 + (s.port 3).state.code),
      BitVec.ofNat 8 ((s.port 4).state.code * 64 + (s.port 5).state.code * 16)]))))))))

theorem State.page1_eq : s.page1 seq = padTo 16 (s.page1Fields seq) := rfl

theorem State.page1Fields_length : (s.page1Fields seq).length = 14 := by
  simp [State.page1Fields, beBytes_length]

theorem page1_byte {k : Nat} (h : k < 16) : byteAt (s.page1 seq) k = byteAt (s.page1Fields seq) k := byteAt_padTo _ h

theorem page1_field {off len : Nat} (h : off + len ≤ 14) : field (s.page1 seq) off len = field (s.page1Fields seq) off len :=
  by
  rw [State.page1_eq, field_padTo (by rw [State.page1Fields_length]; omega) (by rw [State.page1Fields_length]; exact h)]

/-- The fields of page 1, each at its place (R188, R191). -/
theorem page1_fields :
    let b := s.page1 seq
    byteAt b 0 = BitVec.ofNat 8 (128 + seq) ∧ byteAt b 1 = BitVec.ofNat 8 s.heldRequests ∧
    byteAt b 2 = (BitVec.ofNat 8 s.drafts.length ||| flagBit s.queue.fill.isSome 7) ∧
    field b 3 2 = s.voids.ranges.length % 2 ^ 16 ∧ byteAt b 5 = (flagBit s.voids.incomplete 0 ||| flagBit s.account.full 1) ∧
    field b 6 2 = s.account.count % 2 ^ 16 ∧ field b 8 2 = s.account.used % 2 ^ 16 ∧
    byteAt b 10 = BitVec.ofNat 8 (s.account.queue.length - s.account.smallItems) ∧ byteAt b 11 = BitVec.ofNat 8 s.account.smallItems ∧
    byteAt b 12 = BitVec.ofNat 8 ((s.port 0).state.code * 64 + (s.port 1).state.code * 16 + (s.port 2).state.code * 4 +
      (s.port 3).state.code) ∧
    byteAt b 13 = BitVec.ofNat 8 ((s.port 4).state.code * 64 + (s.port 5).state.code * 16) ∧ byteAt b 14 = 0 ∧ byteAt b 15 = 0 := by
  refine ⟨rfl, ?_, ?_, ?_, ?_, ?_, ?_, ?_, ?_, ?_, ?_, ?_, ?_⟩
  · rw [page1_byte _ _ (by omega)]
    simp [State.page1Fields, byteAt_cons_succ, byteAt_beBytes_one]
  · rw [page1_byte _ _ (by omega)]
    simp [State.page1Fields, byteAt_cons_succ, byteAt_past, byteAt_cons_zero]
  · rw [page1_field _ _ (by omega)]
    simp [State.page1Fields, field_cons, field_past, field_beBytes]
  · rw [page1_byte _ _ (by omega)]
    simp [State.page1Fields, byteAt_cons_succ, byteAt_past, byteAt_cons_zero]
  · rw [page1_field _ _ (by omega)]
    simp [State.page1Fields, field_cons, field_past, field_beBytes]
  · rw [page1_field _ _ (by omega)]
    simp [State.page1Fields, field_cons, field_past, field_beBytes]
  · rw [page1_byte _ _ (by omega)]
    simp [State.page1Fields, byteAt_cons_succ, byteAt_past, byteAt_beBytes_one]
  · rw [page1_byte _ _ (by omega)]
    simp [State.page1Fields, byteAt_cons_succ, byteAt_past, byteAt_beBytes_one]
  · rw [page1_byte _ _ (by omega)]
    simp [State.page1Fields, byteAt_cons_succ, byteAt_past, byteAt_cons_zero]
  · rw [page1_byte _ _ (by omega)]
    simp [State.page1Fields, byteAt_cons_succ, byteAt_past, byteAt_cons_zero]
  · rw [page1_byte _ _ (by omega)]
    exact List.getD_eq_default _ _ (by rw [State.page1Fields_length])
  · rw [page1_byte _ _ (by omega)]
    exact List.getD_eq_default _ _ (by rw [State.page1Fields_length]; omega)

end

/-- Settles O11: the page of a snapshot taken now or held, and the fields of both pages. -/
theorem stateReadSendsOnePage : Obligations.StateReadSendsOnePage := by
  refine ⟨fun acked s => ⟨fun h => ⟨_, _, exec_stateRead_page0 s h, rfl, rfl, rfl, sentBytes_page (s.page0_length _) acked⟩,
    fun h x hx hlen => ⟨_, exec_stateRead_page1 s h hx, rfl, sentBytes_page hlen acked⟩⟩, ?_⟩
  intro seq s hseq a b job at' none32 small
  have hjob : ∀ x : SlotState, x.code = job x := fun x => by cases x <;> rfl
  have hstate : ∀ p, (s.port p).state.code = at' p := fun p => by
    dsimp only [at']
    cases (s.port p).state <;> rfl
  have hsmall : s.account.smallItems = small := by
    rw [Account.smallItems, List.countP_eq_length_filter]
    exact congrArg (fun p => (s.account.queue.filter p).length) (funext fun it => by cases it <;> rfl)
  have hheld : s.heldRequests = (allPorts.filter fun p => match (s.port p).slot with | .held _ _ => true | _ => false).length := by
    rw [State.heldRequests, List.countP_eq_length_filter]
    refine congrArg (fun p => (allPorts.filter p).length) (funext fun p => ?_)
    cases (s.port p).slot <;> rfl
  obtain ⟨h0, h1, h2, h3, h5, h7, h11, h15⟩ := page0_fields s seq
  obtain ⟨g0, g1, g2, g3, g5, g6, g8, g10, g11, g12, g13, g14, g15⟩ := page1_fields s seq
  refine ⟨⟨s.page0_length seq, ?_, ?_, ?_, h3, h5, fun rc hrc => ?_, fun hA hB => ?_, ?_, fun h => ?_, fun x n hx hn => ?_⟩,
    s.page1_length seq, ?_, ?_, fun hd => ?_, g3, ?_, g6, g8, ?_, ?_, ?_, ?_, g14, g15⟩
  · rw [h0, toNat_ofNat_byte (by omega)]
  · rw [h1, slotBits_toNat, hjob, hjob]
  · rw [h2, BitVec.toNat_ofNat]
    rfl
  · rw [h7]
    rcases hrc with hA | ⟨hA, hB⟩
    · simp [State.staged, hA]
    · simp [State.staged, hA, hB]
  · rw [h7]
    simp [State.staged, hA, hB]
  · rw [h11]
    cases s.window.newest <;> rfl
  · rw [h15, State.oldestDistance, State.oldest]
    rcases h with h | h
    · rw [h]
      rfl
    · rw [h]
      cases s.window.records.head? <;> rfl
  · rw [h15, State.oldestDistance, State.oldest, hx, hn]
    rfl
  · rw [g0, toNat_ofNat_byte (by omega)]
  · have h6 : s.heldRequests ≤ 6 := List.countP_le_length
    exact (congrArg BitVec.toNat g1).trans ((toNat_ofNat_byte (by omega)).trans hheld)
  · rw [g2]
    exact draftBits_toNat hd s.queue.fill.isSome
  · rw [g5]
    cases s.voids.incomplete <;> cases s.account.full <;> rfl
  · rw [g10, hsmall, BitVec.toNat_ofNat]
  · rw [g11, hsmall, BitVec.toNat_ofNat]
  · rw [g12, toNat_ofNat_byte (fourStates_lt _ _ _ _), hstate, hstate, hstate, hstate]
    omega
  · have h4 := (s.port 4).state.code_le
    have h5 := (s.port 5).state.code_le
    rw [g13, toNat_ofNat_byte (by omega), hstate, hstate]
    omega

end Sys2Proof.Machine
end
section
/-! TAKE: one pass of the series unit after another (R24, R27 to R34). -/

namespace Sys2Proof.Machine

/-! ### Moves of a counter (R32, R33) -/

/-- A move, by where its exact target lies. -/
theorem Counter.movesTo_move (r : Rules) (c : Counter) (k : Nat) : c.movesTo r k (c.move r k).1 (c.move r k).2 := by
  have htarget : r.moveTarget c.v k =
    (if r.descending then (c.v : Int) - (k * r.step : Nat) else (c.v : Int) + (k * r.step : Nat)) := rfl
  unfold Counter.movesTo Counter.move
  dsimp only
  rw [← htarget]
  have hdom : (r.domain : Int) = (10 ^ r.width : Nat) := rfl
  rw [hdom]
  have hpos : (0 : Int) < (10 ^ r.width : Nat) := by exact_mod_cast r.domain_pos
  generalize r.moveTarget c.v k = t
  generalize ((10 ^ r.width : Nat) : Int) = m at hpos ⊢
  by_cases hin : 0 ≤ t ∧ t < m
  · have hout : ¬ (t < 0 ∨ m ≤ t) := by omega
    rw [if_pos hin]
    exact ⟨rfl, rfl, fun _ => Int.toNat_of_nonneg hin.1, fun h => absurd h hout, fun h => absurd h hout,
      by rw [if_neg fun h => hout h.1]; exact ⟨rfl, rfl, rfl⟩⟩
  · have hout : t < 0 ∨ m ≤ t := by omega
    rw [if_neg hin]
    cases hw : r.wrap with
    | true =>
      rw [if_pos rfl]
      exact ⟨rfl, rfl, fun h => absurd hout h, fun _ _ => Int.toNat_of_nonneg (Int.emod_nonneg _ hpos.ne'), fun _ h => Bool.noConfusion h,
        by rw [if_neg fun h => Bool.noConfusion h.2.1]; exact ⟨rfl, rfl, rfl⟩⟩
    | false =>
      rw [if_neg Bool.false_ne_true]
      by_cases hs : r.span ≤ c.o + k
      · rw [if_pos hs]
        exact ⟨rfl, rfl, fun h => absurd hout h, fun _ h => Bool.noConfusion h, fun _ _ => rfl,
          by rw [if_neg fun h => absurd h.2.2 (Nat.not_lt.mpr hs)]; exact ⟨rfl, rfl, rfl⟩⟩
      · rw [if_neg hs]
        exact ⟨rfl, rfl, fun h => absurd hout h, fun _ h => Bool.noConfusion h, fun _ _ => rfl,
          by rw [if_pos ⟨hout, rfl, Nat.lt_of_not_le hs⟩]; exact ⟨rfl, rfl, rfl⟩⟩

theorem Counter.move_o (r : Rules) (c : Counter) (k : Nat) : (c.move r k).1.o = c.o + k := (c.movesTo_move r k).1

/-! ### The passes of a take -/

section
variable {r : Rules} {c : Counter}

/-- What the earlier passes consumed and raised adds to what the later ones do. -/
theorem takeLoop_acc (n : Nat) : ∀ (c : Counter) (k : Nat) (b : Bool), takeLoop r n c k b =
    { takeLoop r n c 0 false with
      skipped := k + (takeLoop r n c 0 false).skipped, raised := b || (takeLoop r n c 0 false).raised } := by
  induction n with
  | zero => intro c k b; simp [takeLoop]
  | succ n ih =>
    intro c k b
    simp only [takeLoop]
    split
    · simp
    · split
      · simp
      · split
        · rw [ih, ih _ (0 + _) (false || _)]
          simp [Nat.add_assoc, Bool.or_assoc]
        · split
          · rw [ih, ih _ (0 + 1) (false || _)]
            simp [Nat.add_assoc, Bool.or_assoc]
          · simp

/-- Passes beyond the span are never made. -/
theorem takeLoop_fuel (n : Nat) : ∀ (m : Nat) (c : Counter) (k : Nat) (b : Bool), r.span - c.o < n → r.span - c.o < m →
    takeLoop r n c k b = takeLoop r m c k b := by
  induction n with
  | zero => intro m c k b h; omega
  | succ n ih =>
    intro m c k b hn hm
    obtain ⟨m, rfl⟩ : ∃ m', m = m' + 1 := ⟨m - 1, by omega⟩
    simp only [takeLoop]
    split
    · rfl
    · rename_i hspan
      have ho : c.o < r.span := by
        rw [not_or] at hspan
        omega
      split
      · rfl
      · split
        · rename_i x _
          have hj : 0 < jumpCount r c x := by unfold jumpCount; omega
          exact ih m _ _ _ (by rw [Counter.move_o]; omega) (by rw [Counter.move_o]; omega)
        · split
          · exact ih m _ _ _ (by rw [Counter.move_o]; omega) (by rw [Counter.move_o]; omega)
          · rfl

/-- A counter at its span, or domain-ended, is exhausted then (R27, R33). -/
theorem Counter.take_ended (h : r.span ≤ c.o ∨ c.domainEnded = true) :
    c.take r = { counter := { c with exhausted := true, raised := true }, entry := .blank, skipped := 0, raised := !c.raised } := by
  rw [Counter.take, takeLoop, if_pos h]
  rfl

theorem Counter.take_exhausted (ho : c.o < r.span) (hd : c.domainEnded = false) (he : c.exhausted = true) :
    c.take r = { counter := c, entry := .blank, skipped := 0, raised := false } := by
  have hnot : ¬ (r.span ≤ c.o ∨ c.domainEnded = true) := by simp [hd, ho]
  rw [Counter.take, takeLoop, if_neg hnot, if_pos he]

/-- A live counter at a value that no skip range holds and MOD11SKIP does not skip issues it. -/
theorem Counter.take_issues (ho : c.o < r.span) (hd : c.domainEnded = false) (he : c.exhausted = false)
    (hx : r.skipAt c.v = none) (hs : r.skipsValue c.v = false) :
    c.take r = { counter := (c.move r 1).1, entry := r.issue c.v c.o, skipped := 0, raised := (c.move r 1).2 } := by
  have hnot : ¬ (r.span ≤ c.o ∨ c.domainEnded = true) := by simp [hd, ho]
  simp only [Counter.take, takeLoop, if_neg hnot, he, hx, hs, Bool.false_eq_true, if_false, Bool.false_or]

/-- The steps that a live counter's first pass consumes without issue: a jump (R28), or one step for a skipped value (R30). -/
def Counter.passes (c : Counter) (r : Rules) : Option Nat :=
  match r.skipAt c.v with
  | some x => some (jumpCount r c x)
  | none => if r.skipsValue c.v then some 1 else none

/-- A pass that issues nothing: the take goes on from the counter it leaves. -/
theorem Counter.take_passes {k : Nat} (ho : c.o < r.span) (hd : c.domainEnded = false) (he : c.exhausted = false)
    (hk : c.passes r = some k) :
    c.take r = { (c.move r k).1.take r with
      skipped := k + ((c.move r k).1.take r).skipped, raised := (c.move r k).2 || ((c.move r k).1.take r).raised } := by
  have hnot : ¬ (r.span ≤ c.o ∨ c.domainEnded = true) := by simp [hd, ho]
  have hpos : 0 < k := by
    unfold Counter.passes at hk
    split at hk
    · cases hk
      unfold jumpCount
      omega
    · split at hk <;> cases hk
      exact Nat.one_pos
  have hloop : c.take r = takeLoop r (r.span - c.o) (c.move r k).1 k (c.move r k).2 := by
    rw [Counter.take, takeLoop, if_neg hnot, he, if_neg Bool.false_ne_true]
    unfold Counter.passes at hk
    cases hx : r.skipAt c.v with
    | some x =>
      rw [hx] at hk
      cases hk
      simp only [Nat.zero_add, Bool.false_or]
    | none =>
      rw [hx] at hk
      cases hs : r.skipsValue c.v <;> simp only [hs, Bool.false_eq_true, if_false, if_true, reduceCtorEq, Option.some.injEq] at hk
      subst hk
      simp only [if_true, Nat.zero_add, Bool.false_or]
  rw [hloop, takeLoop_acc, takeLoop_fuel (r.span - c.o) (r.span - (c.move r k).1.o + 1) _ _ _ (by rw [Counter.move_o]; omega) (by omega)]
  rfl

end

/-! ### TAKE -/

/-- The state after a take at fill `f`: counter `i` is `c`, the entries join the fill, its delta grows by `k`. -/
def State.took (s : State) (f : Fill) (i : Nat) (c : Counter) (es : List Entry) (k : Nat) (b : Bool) : State :=
  ((s.modSlot f.slot fun j => { j with counters := j.counters.set i c }).setFill
    (some { f with entries := f.entries ++ es, skipped := f.skipped + k })).raiseIf b .rangeExhausted

section
variable {s : State} {f : Fill} {c : Counter}

theorem State.counterServing_eq (s : State) (f : Fill) :
    s.counterServing f = counterIndex (s.slot f.slot).rules (s.slot f.slot).geometry f.entries.length := by
  unfold State.counterServing counterIndex Geometry.laneOf
  dsimp only
  cases hm : (s.slot f.slot).rules.mode <;> cases ho : (s.slot f.slot).geometry.order <;> simp

/-- TAKE with a counter to serve. -/
theorem exec_take_of (hf : s.queue.fill = some f) (hs : (s.slot f.slot).source = .series)
    (hlen : f.entries.length < (s.slot f.slot).positions) (hc : (s.slot f.slot).counters[s.counterServing f]? = some c) :
    exec .take s = .next (s.took f (s.counterServing f) (c.take (s.slot f.slot).rules).counter
      [(c.take (s.slot f.slot).rules).entry] (c.take (s.slot f.slot).rules).skipped (c.take (s.slot f.slot).rules).raised) := by
  have hwork : s.fillAtWork .series = some f := by
    rw [State.fillAtWork, hf]
    simp [hs, hlen]
  rw [State.counterServing_eq] at hc ⊢
  simp only [exec, execTake, hwork, hc]
  rfl

theorem State.took_slot (i : Nat) (c : Counter) (es : List Entry) (k : Nat) (b : Bool) :
    (s.took f i c es k b).slot f.slot = { s.slot f.slot with counters := (s.slot f.slot).counters.set i c } := by
  rw [State.took, State.raiseIf_slot]
  exact State.modSlot_slot_self ..

theorem State.took_fill (i : Nat) (c : Counter) (es : List Entry) (k : Nat) (b : Bool) :
    (s.took f i c es k b).queue.fill = some { f with entries := f.entries ++ es, skipped := f.skipped + k } := by
  rw [State.took, State.raiseIf_queue]
  rfl

/-- A pass without entries and what follows it are one take. -/
theorem State.took_took (i : Nat) (c c' : Counter) (es : List Entry) (k k' : Nat) (b b' : Bool) :
    (s.took f i c [] k b).took { f with entries := f.entries ++ [], skipped := f.skipped + k } i c' es k' b' =
      s.took f i c' es (k + k') (b || b') := by
  cases b <;> cases b' <;> cases hi : f.slot <;>
    simp [State.took, State.modSlot, State.setFill, State.raiseIf, State.raise, hi, Nat.add_assoc, BitVec.or_assoc]

/-- The take goes on from the counter that a pass without issue leaves. -/
theorem exec_take_passes {k : Nat} (hf : s.queue.fill = some f) (hs : (s.slot f.slot).source = .series)
    (hlen : f.entries.length < (s.slot f.slot).positions) (hc : (s.slot f.slot).counters[s.counterServing f]? = some c)
    (ho : c.o < (s.slot f.slot).rules.span) (hd : c.domainEnded = false) (he : c.exhausted = false)
    (hk : c.passes (s.slot f.slot).rules = some k) :
    exec .take s = exec .take (s.took f (s.counterServing f) (c.move (s.slot f.slot).rules k).1 [] k
      (c.move (s.slot f.slot).rules k).2) := by
  let r := (s.slot f.slot).rules
  let u := s.took f (s.counterServing f) (c.move r k).1 [] k (c.move r k).2
  let g : Fill := { f with entries := f.entries ++ [], skipped := f.skipped + k }
  have hslot : u.slot g.slot = { s.slot f.slot with counters := (s.slot f.slot).counters.set (s.counterServing f) (c.move r k).1 } :=
    State.took_slot ..
  have hserve : u.counterServing g = s.counterServing f := by
    rw [State.counterServing_eq, State.counterServing_eq, hslot]
    simp [g]
  have hlt : s.counterServing f < (s.slot f.slot).counters.length := (List.getElem?_eq_some_iff.mp hc).1
  have hcount : (u.slot g.slot).counters[u.counterServing g]? = some (c.move r k).1 := by
    rw [hserve, hslot]
    exact List.getElem?_set_self hlt
  have hrules : (u.slot g.slot).rules = r := by rw [hslot]
  have hu := exec_take_of (State.took_fill ..) (by rw [hslot]; exact hs)
    (by rw [hslot]; simpa [JobSlot.positions, g] using hlen) hcount
  rw [exec_take_of hf hs hlen hc, hu, hrules, hserve, State.took_took, Counter.take_passes ho hd he hk]

end

/-- Settles O28: the first pass of the take ends it, or leaves a counter to go on from. -/
theorem takeIssuesOrGoesOn : Obligations.TakeIssuesOrGoesOn := by
  intro f c s hf hs hlen hc r after blank live range
  have hex := exec_take_of hf hs hlen hc
  have hrange : r.skipAt c.v = range := by
    refine congrArg (fun p => r.skips.find? p) (funext fun x => ?_)
    simp
  have passes : ∀ k, live → c.passes r = some k → ∃ c' event, c.movesTo r k c' event ∧
      exec .take s = exec .take (after c' [] k event) := fun k ⟨ho, hd, he⟩ hk =>
    ⟨_, _, c.movesTo_move r k, exec_take_passes hf hs hlen hc ho hd he hk⟩
  refine ⟨fun h => ?_, fun ho hd he => ?_, fun ⟨ho, hd, he⟩ hx hskip => ?_, fun hlive hx hskip => ?_, fun x hlive hx => ?_⟩
  · rw [Counter.take_ended h] at hex
    exact hex
  · rw [Counter.take_exhausted ho hd he] at hex
    exact hex
  · rw [Counter.take_issues ho hd he (hrange.trans hx) hskip] at hex
    refine ⟨_, _, c.movesTo_move r 1, hex.trans ?_⟩
    simp [after, State.took, Rules.issue, r]
  · exact passes 1 hlive (by simp [Counter.passes, hrange, hx, hskip])
  · obtain ⟨c', event, hmove, hgo⟩ := passes (jumpCount r c x) hlive (by simp [Counter.passes, hrange, hx])
    exact ⟨_, c', event, rfl, hmove, hgo⟩

end Sys2Proof.Machine
end
section
/-! MAKEUP_DRAW: lookups in the void list, and the removal of the value issued (R38, R39, R133 to R135). -/

namespace Sys2Proof.Machine

/-! ### Lookups (R133) -/

/-- A lookup that finds a value finds the lowest listed one from its floor. -/
theorem lookup_some {f g x : Nat} : ∀ {rs : List (Nat × Nat)}, rangesWf rs → lookup f g rs = some x →
    f ≤ x ∧ x ≤ g ∧ listed rs x = true ∧ ∀ y, f ≤ y → listed rs y = true → x ≤ y
  | (lo, hi) :: rs, hw, h => by
    have hle : lo ≤ hi := rangesWf_head hw
    unfold lookup at h
    split_ifs at h with h1 h2
    · obtain ⟨hf, hg, hl, hmin⟩ := lookup_some (rangesWf_tail hw) h
      refine ⟨hf, hg, (listed_cons _ _ _).mpr (.inr hl), fun y hy hly => ?_⟩
      rcases (listed_cons _ _ _).mp hly with ⟨_, hyhi⟩ | hly
      · have : y ≤ hi := hyhi
        omega
      · exact hmin y hy hly
    · obtain rfl := Option.some.inj h
      refine ⟨Nat.le_max_right .., h2, (listed_cons _ _ _).mpr (.inl ⟨Nat.le_max_left .., ?_⟩), fun y hy hly => ?_⟩
      · exact Nat.max_le.mpr ⟨hle, Nat.le_of_not_lt h1⟩
      · refine Nat.max_le.mpr ⟨?_, hy⟩
        rcases (listed_cons _ _ _).mp hly with ⟨hylo, _⟩ | hly
        · exact hylo
        · by_contra hn
          exact not_listed_of_le hw (x := y) (by dsimp only; omega) hly

/-- A lookup that finds none: no value from its floor to its ceiling is listed. -/
theorem lookup_none {f g : Nat} : ∀ {rs : List (Nat × Nat)}, rangesWf rs → lookup f g rs = none →
    ∀ y, f ≤ y → y ≤ g → ¬ listed rs y = true
  | [], _, _, y, _, _ => not_listed_nil y
  | (lo, hi) :: rs, hw, h, y, hf, hg => by
    unfold lookup at h
    intro hly
    split_ifs at h with h1 h2
    · rcases (listed_cons _ _ _).mp hly with ⟨_, hyhi⟩ | hly
      · have : y ≤ hi := hyhi
        omega
      · exact lookup_none (rangesWf_tail hw) h y hf hg hly
    · rcases (listed_cons _ _ _).mp hly with ⟨hylo, _⟩ | hly
      · have : lo ≤ y := hylo
        omega
      · exact not_listed_of_le hw (x := y) (by have := rangesWf_head hw; dsimp only at *; omega) hly

section
variable {rs : List (Nat × Nat)} {f g : Nat} {passes : Nat → Bool}

theorem lookup_eq_none_iff (hw : rangesWf rs) : lookup f g rs = none ↔ ∀ y, f ≤ y → y ≤ g → ¬ listed rs y = true := by
  refine ⟨lookup_none hw, fun h => ?_⟩
  cases hl : lookup f g rs with
  | none => rfl
  | some x =>
    obtain ⟨hf, hg, hx, _⟩ := lookup_some hw hl
    exact absurd hx (h x hf hg)

theorem lookup_eq_some_of (hw : rangesWf rs) {x : Nat} (hf : f ≤ x) (hg : x ≤ g) (hx : listed rs x = true)
    (hmin : ∀ y, f ≤ y → y ≤ g → listed rs y = true → x ≤ y) : lookup f g rs = some x := by
  cases hl : lookup f g rs with
  | none => exact absurd hx (lookup_none hw hl x hf hg)
  | some z =>
    obtain ⟨hzf, hzg, hz, hzmin⟩ := lookup_some hw hl
    rw [Nat.le_antisymm (hzmin x hf hx) (hmin z hzf hzg hz)]

theorem drawLookups_nothing {n : Nat} (h : lookup f g rs = none) : drawLookups passes g rs (n + 1) f = .nothing := by
  rw [drawLookups, h]

theorem drawLookups_passes {n x : Nat} (h : lookup f g rs = some x) (hp : passes x = true) :
    drawLookups passes g rs (n + 1) f = drawLookups passes g rs n (x + 1) := by
  rw [drawLookups, h]
  exact if_pos hp

theorem drawLookups_issues {n x : Nat} (h : lookup f g rs = some x) (hp : passes x = false) :
    drawLookups passes g rs (n + 1) f = .issues x := by
  rw [drawLookups, h]
  exact if_neg (by simp [hp])

/-- With lookups enough for every value of the window the draw comes to its end: it finds none, or issues the lowest value not passed over. -/
theorem drawLookups_enough (hw : rangesWf rs) (n : Nat) : ∀ f, 0 < n → g + 2 ≤ n + f →
    ((∀ x, f ≤ x → x ≤ g → listed rs x = true → passes x = true) → drawLookups passes g rs n f = .nothing) ∧
    ∀ x, f ≤ x → x ≤ g → listed rs x = true → passes x = false →
      (∀ y, f ≤ y → y ≤ g → listed rs y = true → passes y = false → x ≤ y) → drawLookups passes g rs n f = .issues x := by
  induction n with
  | zero => intro f h; omega
  | succ n ih =>
    intro f _ hn
    cases hl : lookup f g rs with
    | none =>
      refine ⟨fun _ => drawLookups_nothing hl, fun x hf hg hx _ _ => absurd hx (lookup_none hw hl x hf hg)⟩
    | some z =>
      obtain ⟨hzf, hzg, hz, hmin⟩ := lookup_some hw hl
      cases hp : passes z with
      | true =>
        obtain ⟨hall, hsome⟩ := ih (z + 1) (by omega) (by omega)
        rw [drawLookups_passes hl hp]
        refine ⟨fun h => hall fun x hx => h x (by omega), fun x hf hg hx hpx hxmin => ?_⟩
        have hne : x ≠ z := fun e => by rw [e, hp] at hpx; cases hpx
        have hzx := hmin x hf hx
        exact hsome x (by omega) hg hx hpx fun y hy => hxmin y (by omega)
      | false =>
        rw [drawLookups_issues hl hp]
        refine ⟨fun h => ?_, fun x hf hg hx hpx hxmin => ?_⟩
        · rw [h z hzf hzg hz] at hp
          cases hp
        · rw [Nat.le_antisymm (hmin x hf hx) (hxmin z hzf hzg hz hp)]

end

/-! ### Removing the value issued (R134, R135) -/

section
variable {full : Bool} {x lo hi : Nat}

/-- What a removal drops: in a full list, the part below a value that a range holds inside. -/
def splitDrops (full : Bool) (x lo hi : Nat) : Bool := full && decide (lo < x ∧ x < hi)

theorem removeRange_at : ∀ {rs : List (Nat × Nat)}, rangesWf rs → (lo, hi) ∈ rs → lo ≤ x → x ≤ hi →
    (removeRange full x rs).2 = (if splitDrops full x lo hi then x - lo else 0) ∧
    ∀ y, listed (removeRange full x rs).1 y = true ↔
      listed rs y = true ∧ y ≠ x ∧ ¬ (splitDrops full x lo hi = true ∧ lo ≤ y ∧ y < x)
  | (a, b) :: rs, hw, hm, hlo, hhi => by
    have hab : a ≤ b := rangesWf_head hw
    have above : ∀ y, listed rs y = true → b + 1 < y := fun y hy => by
      by_contra hn
      exact not_listed_of_le hw (x := y) (by dsimp only; omega) hy
    rcases List.mem_cons.mp hm with he | hm
    · obtain ⟨rfl, rfl⟩ := Prod.mk.inj he
      have inner : ∀ d : Bool, splitDrops full x lo hi = d → (d = true ↔ full = true ∧ lo < x ∧ x < hi) := fun d h => by
        rw [← h, splitDrops, Bool.and_eq_true, decide_eq_true_eq]
      generalize splitDrops full x lo hi = d at inner ⊢
      replace inner := inner d rfl
      have own : ∀ (p : Nat → Prop) (y : Nat), (listed rs y = false → (p y ↔ (lo ≤ y ∧ y ≤ hi) ∧ y ≠ x ∧ ¬ (d = true ∧ lo ≤ y ∧ y < x))) →
          ((p y ∨ listed rs y = true) ↔ ((lo ≤ y ∧ y ≤ hi) ∨ listed rs y = true) ∧ y ≠ x ∧ ¬ (d = true ∧ lo ≤ y ∧ y < x)) := fun p y h => by
        cases hy : listed rs y with
        | true =>
          have := above y hy
          simp only [or_true, true_and, true_iff]
          omega
        | false => simpa using h hy
      unfold removeRange
      rw [if_neg (by omega), if_neg (by omega)]
      by_cases h3 : lo = hi
      · obtain rfl : d = false := by rw [← Bool.not_eq_true, inner]; omega
        rw [if_pos h3]
        refine ⟨rfl, fun y => ?_⟩
        rw [listed_cons, ← own (fun _ => False) y (fun _ => by simp only [Bool.false_eq_true, false_and, not_false_eq_true, and_true, false_iff]; omega), false_or]
      rw [if_neg h3]
      by_cases h4 : x = lo
      · obtain rfl : d = false := by rw [← Bool.not_eq_true, inner]; omega
        rw [if_pos h4]
        refine ⟨rfl, fun y => ?_⟩
        rw [listed_cons, listed_cons]
        exact own (fun y => x + 1 ≤ y ∧ y ≤ hi) y fun _ => by simp only [Bool.false_eq_true, false_and, not_false_eq_true, and_true]; omega
      rw [if_neg h4]
      by_cases h5 : x = hi
      · obtain rfl : d = false := by rw [← Bool.not_eq_true, inner]; omega
        rw [if_pos h5]
        refine ⟨rfl, fun y => ?_⟩
        rw [listed_cons, listed_cons]
        exact own (fun y => lo ≤ y ∧ y ≤ x - 1) y fun _ => by simp only [Bool.false_eq_true, false_and, not_false_eq_true, and_true]; omega
      rw [if_neg h5]
      by_cases h6 : full = true
      · obtain rfl : d = true := inner.mpr ⟨h6, by omega, by omega⟩
        rw [if_pos h6]
        refine ⟨rfl, fun y => ?_⟩
        rw [listed_cons, listed_cons]
        exact own (fun y => x + 1 ≤ y ∧ y ≤ hi) y fun _ => by simp only [true_and]; omega
      · obtain rfl : d = false := by rw [← Bool.not_eq_true, inner]; exact fun h => h6 h.1
        rw [if_neg h6]
        refine ⟨rfl, fun y => ?_⟩
        rw [listed_cons, listed_cons, listed_cons, ← or_assoc]
        exact own (fun y => (lo ≤ y ∧ y ≤ x - 1) ∨ (x + 1 ≤ y ∧ y ≤ hi)) y fun _ => by simp only [Bool.false_eq_true, false_and, not_false_eq_true, and_true]; omega
    · have hlt : b + 1 < lo := rangesWf_lt hw hm
      obtain ⟨hdrop, hlist⟩ := removeRange_at (rangesWf_tail hw) hm hlo hhi
      unfold removeRange
      rw [if_pos (by omega)]
      refine ⟨hdrop, fun y => ?_⟩
      rw [listed_cons, listed_cons, hlist]
      have hown : a ≤ y ∧ y ≤ b → y ≠ x ∧ ¬ (splitDrops full x lo hi = true ∧ lo ≤ y ∧ y < x) := by omega
      tauto

end

section
variable {v : VoidList} {x lo hi : Nat}

/-- Only in a full list does a removal drop a part of the range it splits. -/
theorem VoidList.full_iff (h : v.ok) : decide (maxRanges ≤ v.ranges.length) = true ↔ v.ranges.length = 256 := by
  have hlen : v.ranges.length ≤ 256 := h.2.1
  rw [decide_eq_true_eq, show maxRanges = 256 from rfl]
  omega

theorem VoidList.remove_eq (v : VoidList) (x : Nat) : v.remove x = { v with
    ranges := (removeRange (maxRanges ≤ v.ranges.length) x v.ranges).1
    incomplete := v.incomplete || decide ((removeRange (maxRanges ≤ v.ranges.length) x v.ranges).2 ≠ 0)
    dropped := min (v.dropped + (removeRange (maxRanges ≤ v.ranges.length) x v.ranges).2) 4294967295
    changes := (v.changes + 1) % 65536 } := rfl

/-- A removal that splits no range, or finds room for the split. -/
theorem VoidList.remove_keeps (h : v.ok) (hm : (lo, hi) ∈ v.ranges) (hlo : lo ≤ x) (hhi : x ≤ hi)
    (hd : v.ranges.length < 256 ∨ x = lo ∨ x = hi) :
    (v.remove x).dropped = v.dropped ∧ (v.remove x).incomplete = v.incomplete ∧
    ∀ y, listed (v.remove x).ranges y = (listed v.ranges y && decide (y ≠ x)) := by
  obtain ⟨hdrop, hlist⟩ := removeRange_at (full := maxRanges ≤ v.ranges.length) h.1 hm hlo hhi
  have hs : splitDrops (maxRanges ≤ v.ranges.length) x lo hi = false := by
    rw [← Bool.not_eq_true, splitDrops, Bool.and_eq_true, VoidList.full_iff h, decide_eq_true_eq]
    omega
  have hmax : v.dropped ≤ 4294967295 := h.2.2.2.1
  rw [hs] at hdrop hlist
  rw [VoidList.remove_eq]
  refine ⟨?_, ?_, fun y => ?_⟩
  · show min (v.dropped + _) 4294967295 = v.dropped
    rw [hdrop, if_neg Bool.false_ne_true, Nat.add_zero, Nat.min_eq_left hmax]
  · show (v.incomplete || decide (_ ≠ 0)) = v.incomplete
    rw [hdrop]
    simp
  · rw [Bool.eq_iff_iff, hlist]
    simp

/-- A removal that splits the range of a full list drops the part below the value (R134, R135). -/
theorem VoidList.remove_splits (h : v.ok) (hm : (lo, hi) ∈ v.ranges) (hfull : v.ranges.length = 256) (hlo : lo < x) (hhi : x < hi) :
    (v.remove x).dropped = min (v.dropped + (x - lo)) 4294967295 ∧ (v.remove x).incomplete = true ∧
    ∀ y, listed (v.remove x).ranges y = (listed v.ranges y && decide (y < lo ∨ x < y)) := by
  obtain ⟨hdrop, hlist⟩ := removeRange_at (full := maxRanges ≤ v.ranges.length) h.1 hm hlo.le hhi.le
  have hs : splitDrops (maxRanges ≤ v.ranges.length) x lo hi = true := by
    rw [splitDrops, Bool.and_eq_true, VoidList.full_iff h, decide_eq_true_eq]
    exact ⟨hfull, hlo, hhi⟩
  rw [hs, if_pos rfl] at hdrop
  rw [hs] at hlist
  rw [VoidList.remove_eq]
  refine ⟨?_, ?_, fun y => ?_⟩
  · show min (v.dropped + _) 4294967295 = _
    rw [hdrop]
  · show (v.incomplete || decide (_ ≠ 0)) = true
    rw [hdrop, decide_eq_true (by omega), Bool.or_true]
  · rw [Bool.eq_iff_iff, hlist, Bool.and_eq_true, decide_eq_true_eq]
    simp only [true_and, and_congr_right_iff]
    omega

/-- A removal drops values exactly when it splits a range of a full list. -/
theorem VoidList.removeDrops_iff (h : v.ok) (hx : listed v.ranges x = true) :
    v.removeDrops x = true ↔ v.ranges.length = 256 ∧ ∃ lo hi, (lo, hi) ∈ v.ranges ∧ lo < x ∧ x < hi := by
  have drops : ∀ lo hi, (lo, hi) ∈ v.ranges → lo ≤ x → x ≤ hi →
      (v.removeDrops x = true ↔ v.ranges.length = 256 ∧ lo < x ∧ x < hi) := fun lo hi hm hlo hhi => by
    rw [VoidList.removeDrops, (removeRange_at h.1 hm hlo hhi).1, ← VoidList.full_iff h, decide_eq_true_eq, splitDrops]
    by_cases hd : lo < x ∧ x < hi
    · simp [hd]
      omega
    · simp [hd]
  obtain ⟨⟨lo, hi⟩, hm, hlo, hhi⟩ := (listed_iff _ _).mp hx
  rw [drops lo hi hm hlo hhi]
  refine and_congr_right fun hfull => ⟨fun hd => ⟨lo, hi, hm, hd⟩, fun ⟨a, b, hab, ha, hb⟩ => ?_⟩
  exact ((drops lo hi hm hlo hhi).mp ((drops a b hab ha.le hb.le).mpr ⟨hfull, ha, hb⟩)).2

end

/-! ### MAKEUP_DRAW -/

/-- The state that the lookups of a draw at fill `f` leave. -/
def State.drawsTo (s : State) (f : Fill) : Draw → State
  | .issues x => s.drawIssues f x
  | .nothing => s.drawNothing f
  | .passing floor => s.setFill (some { f with floor := some floor })

section
variable {s : State} {f : Fill}

theorem State.fillAtWork_of {source : Source} (hf : s.queue.fill = some f) (hs : (s.slot f.slot).source = source)
    (hlen : f.entries.length < (s.slot f.slot).positions) : s.fillAtWork source = some f := by
  rw [State.fillAtWork, hf]
  simp [hs, hlen]

theorem exec_makeupDraw_exhausted {m : Option Nat} (hwork : s.fillAtWork .makeup = some f)
    (he : (s.slot f.slot).draw.exhausted = true) :
    exec (.makeupDraw m) s = .next (s.setFill (some { f with entries := f.entries ++ [.blank], floor := none })) := by
  simp only [exec, execMakeupDraw, hwork, he, if_true]

theorem exec_makeupDraw_live {m : Option Nat} (hwork : s.fillAtWork .makeup = some f)
    (he : (s.slot f.slot).draw.exhausted = false) :
    exec (.makeupDraw m) s = .next (s.drawsTo f (drawLookups (s.slot f.slot).rules.skipsValue (s.slot f.slot).rules.whi s.voids.ranges
      (m.getD ((s.slot f.slot).rules.whi + 2)) (f.floor.getD (s.slot f.slot).rules.wlo))) := by
  simp only [exec, execMakeupDraw, hwork, he, Bool.false_eq_true, if_false]
  generalize drawLookups _ _ _ _ _ = d
  cases d <;> rfl

/-- What the lookups come to does not depend on the floor the fill kept before. -/
theorem State.drawsTo_floor (k : Nat) (d : Draw) :
    (s.setFill (some { f with floor := some k })).drawsTo { f with floor := some k } d = s.drawsTo f d := by
  cases d with
  | nothing =>
    show State.drawNothing _ _ = State.drawNothing _ _
    unfold State.drawNothing
    cases hi : f.slot <;> rfl
  | _ => rfl

/-- What an issue leaves (R38, R134, R135). -/
theorem State.drawIssues_spec (hv : s.voids.ok) {x : Nat} (hx : listed s.voids.ranges x = true) :
    let t := s.drawIssues f x
    t.queue.fill = some { f with
      entries := f.entries ++ [{ value := some x, check := (s.slot f.slot).rules.checkOf x, bookEnd := false }]
      floor := none, drawn := f.drawn ++ [x] } ∧
    t.voids = s.voids.remove x ∧
    s.FlagsDrop t (s.voids.ranges.length = 256 ∧ ∃ lo hi, (lo, hi) ∈ s.voids.ranges ∧ lo < x ∧ x < hi) ∧
    t = { s with queue := { s.queue with fill := t.queue.fill }, voids := t.voids, sup := { s.sup with events := t.sup.events } } := by
  have hdrops := VoidList.removeDrops_iff hv hx
  unfold State.FlagsDrop
  rw [← hdrops]
  dsimp only
  unfold State.drawIssues State.raiseIf
  cases s.voids.removeDrops x with
  | true => exact ⟨rfl, rfl, ⟨fun _ => rfl, fun h => absurd rfl h⟩, rfl⟩
  | false => exact ⟨rfl, rfl, ⟨fun h => absurd h Bool.false_ne_true, fun _ => rfl⟩, rfl⟩

theorem State.drawNothing_eq (s : State) (f : Fill) : s.drawNothing f =
    (({ s with queue := { s.queue with fill := some { f with
      entries := f.entries ++ [{ value := none, check := none, bookEnd := false }], floor := none } } } : State).modSlot f.slot fun j =>
        { j with draw := { exhausted := true, raised := true } }).raiseIf (!(s.slot f.slot).draw.raised) .rangeExhausted := by
  unfold State.drawNothing
  cases hi : f.slot <;> rfl

end

/-- Settles O29: the lookups of a draw and what each outcome leaves, then the removal by the range that holds the value. -/
theorem drawTakesLowestValue : Obligations.DrawTakesLowestValue := by
  refine ⟨?_, fun x lo hi v hv hm hlo hhi => ⟨rfl, VoidList.remove_keeps hv hm hlo hhi, VoidList.remove_splits hv hm⟩⟩
  intro f n any s hf hs hlen hv j start within filled withEntry blank issues exhausts
  have hwork := State.fillAtWork_of hf hs hlen
  refine ⟨fun he => exec_makeupDraw_exhausted hwork he, fun he => ?_⟩
  have hex := fun m => exec_makeupDraw_live (m := m) hwork he
  have nothing : ∀ m, drawLookups j.rules.skipsValue j.rules.whi s.voids.ranges (m.getD (j.rules.whi + 2)) start = .nothing → exhausts m :=
    fun m h => by
      have h' := hex m
      rw [h] at h'
      exact h'.trans (congrArg Host.Outcome.next (s.drawNothing_eq f))
  have issued : ∀ m x, listed s.voids.ranges x = true →
      drawLookups j.rules.skipsValue j.rules.whi s.voids.ranges (m.getD (j.rules.whi + 2)) start = .issues x → issues m x :=
    fun m x hx h => by
      have h' := hex m
      rw [h] at h'
      exact ⟨_, h', State.drawIssues_spec hv hx⟩
  refine ⟨hex (some 0), fun hnone => nothing _ (drawLookups_nothing ?_), fun x hx hmin => ?_, fun m hm => ?_⟩
  · exact (lookup_eq_none_iff hv.1).mpr fun y h1 h2 h3 => hnone y ⟨h1, h2, h3⟩
  · obtain ⟨h1, h2, h3⟩ := hx
    have hl := lookup_eq_some_of hv.1 h1 h2 h3 fun y a b c => hmin y ⟨a, b, c⟩
    refine ⟨fun hp => ?_, fun hp => issued _ x h3 (drawLookups_issues hl hp)⟩
    have hnext := exec_makeupDraw_live (s := filled { f with floor := some (x + 1) }) (f := { f with floor := some (x + 1) })
      (m := some n) (State.fillAtWork_of rfl hs hlen) he
    exact ((hex (some (n + 1))).trans (congrArg (fun d => Host.Outcome.next (s.drawsTo f d)) (drawLookups_passes hl hp))).trans
      ((congrArg Host.Outcome.next (State.drawsTo_floor (x + 1) _)).symm.trans hnext.symm)
  · have henough := drawLookups_enough (passes := j.rules.skipsValue) (g := j.rules.whi) hv.1 (m.getD (j.rules.whi + 2)) start
    obtain ⟨hall, hsome⟩ := henough (by cases m with | none => exact Nat.succ_pos _ | some k => exact (hm k rfl).1)
      (by cases m with | none => exact Nat.le_add_right .. | some k => exact (hm k rfl).2)
    exact ⟨fun h => nothing m (hall fun x a b c => h x ⟨a, b, c⟩),
      fun x ⟨a, b, c⟩ hp hmin => issued m x c (hsome x a b c hp fun y ya yb yc => hmin y ⟨ya, yb, yc⟩)⟩

end Sys2Proof.Machine
end
section
/-! Insertion of a range: its pieces, the ranges they join, and what is dropped (R129 to R131). -/

namespace Sys2Proof.Machine

/-! ### Lists of the form of R127 -/

theorem rangesWf_append {a b : List (Nat × Nat)} (ha : rangesWf a) (hb : rangesWf b) (h : ∀ x ∈ a, ∀ y ∈ b, x.2 + 1 < y.1) :
    rangesWf (a ++ b) :=
  ⟨fun x hx => (List.mem_append.mp hx).elim (ha.1 x) (hb.1 x), List.pairwise_append.mpr ⟨ha.2, hb.2, h⟩⟩

theorem listed_append (a b : List (Nat × Nat)) (y : Nat) : listed (a ++ b) y = (listed a y || listed b y) := List.any_append

/-- The form of R127 is canonical: the values listed determine the ranges. -/
theorem rangesWf_ext : ∀ {a b : List (Nat × Nat)}, rangesWf a → rangesWf b → (∀ y, listed a y = true ↔ listed b y = true) → a = b
  | [], [], _, _, _ => rfl
  | [], r :: _, _, hb, h =>
    absurd ((h r.1).mpr ((listed_cons _ _ _).mpr (.inl ⟨Nat.le_refl _, rangesWf_head hb⟩))) (not_listed_nil _)
  | r :: _, [], ha, _, h =>
    absurd ((h r.1).mp ((listed_cons _ _ _).mpr (.inl ⟨Nat.le_refl _, rangesWf_head ha⟩))) (not_listed_nil _)
  | (a1, a2) :: as, (b1, b2) :: bs, ha, hb, h => by
    have hale : a1 ≤ a2 := rangesWf_head ha
    have hble : b1 ≤ b2 := rangesWf_head hb
    have aboveA : ∀ y, listed as y = true → a2 + 1 < y := fun y hy => by
      by_contra hn
      exact not_listed_of_le ha (x := y) (by dsimp only; omega) hy
    have aboveB : ∀ y, listed bs y = true → b2 + 1 < y := fun y hy => by
      by_contra hn
      exact not_listed_of_le hb (x := y) (by dsimp only; omega) hy
    have h' : ∀ y, (a1 ≤ y ∧ y ≤ a2) ∨ listed as y = true ↔ (b1 ≤ y ∧ y ≤ b2) ∨ listed bs y = true := fun y => by
      simpa only [listed_cons] using h y
    have low : a1 = b1 := by
      have h1 : b1 ≤ a1 := ((h' a1).mp (.inl ⟨Nat.le_refl _, hale⟩)).elim And.left fun e => by have := aboveB _ e; omega
      have h2 : a1 ≤ b1 := ((h' b1).mpr (.inl ⟨Nat.le_refl _, hble⟩)).elim And.left fun e => by have := aboveA _ e; omega
      omega
    have high : a2 = b2 := by
      by_contra hne
      rcases Nat.lt_or_gt_of_ne hne with hlt | hlt
      · rcases (h' (a2 + 1)).mpr (.inl ⟨by omega, by omega⟩) with e | e
        · omega
        · have := aboveA _ e
          omega
      · rcases (h' (b2 + 1)).mp (.inl ⟨by omega, by omega⟩) with e | e
        · omega
        · have := aboveB _ e
          omega
    subst low high
    have tail : as = bs := rangesWf_ext (rangesWf_tail ha) (rangesWf_tail hb) fun y => by
      have hy := h' y
      have hA := aboveA y
      have hB := aboveB y
      constructor <;> intro hl
      · rcases hy.mp (.inr hl) with hin | hin
        · have := hA hl; omega
        · exact hin
      · rcases hy.mpr (.inr hl) with hin | hin
        · have := hB hl; omega
        · exact hin
    rw [tail]

/-- A value lies in one range at most. -/
theorem rangesWf_unique : ∀ {rs : List (Nat × Nat)} {p q : Nat × Nat} {y : Nat}, rangesWf rs → q ∈ rs → p ∈ rs →
    q.1 ≤ y ∧ y ≤ q.2 → p.1 ≤ y ∧ y ≤ p.2 → q = p
  | r :: rs, p, q, y, hw, hq, hp, hqy, hpy => by
    rcases List.mem_cons.mp hq with eq | hq' <;> rcases List.mem_cons.mp hp with ep | hp'
    · rw [eq, ep]
    · have := rangesWf_lt hw hp'
      rw [eq] at hqy
      omega
    · have := rangesWf_lt hw hq'
      rw [ep] at hpy
      omega
    · exact rangesWf_unique (rangesWf_tail hw) hq' hp' hqy hpy

/-- Values listed without a gap lie in one range. -/
theorem listed_interval : ∀ {rs : List (Nat × Nat)} {a b : Nat}, rangesWf rs → a ≤ b → (∀ y, a ≤ y → y ≤ b → listed rs y = true) →
    ∃ r ∈ rs, r.1 ≤ a ∧ b ≤ r.2
  | [], a, b, _, hab, h => absurd (h a (Nat.le_refl _) hab) (not_listed_nil _)
  | (lo, hi) :: rs, a, b, hw, hab, h => by
    have above : ∀ y, listed rs y = true → hi + 1 < y := fun y hy => by
      by_contra hn
      exact not_listed_of_le hw (x := y) (by dsimp only; omega) hy
    rcases (listed_cons _ _ _).mp (h a (Nat.le_refl _) hab) with ⟨hlo, hhi⟩ | ha
    · by_cases hb : b ≤ hi
      · exact ⟨(lo, hi), List.mem_cons_self, hlo, hb⟩
      · exfalso
        have hhi' : a ≤ hi := hhi
        rcases (listed_cons _ _ _).mp (h (hi + 1) (by omega) (by omega)) with ⟨_, hn⟩ | hn
        · have : hi + 1 ≤ hi := hn
          omega
        · have := above _ hn
          omega
    · have hahi := above a ha
      obtain ⟨r, hr, hra, hrb⟩ := listed_interval (rangesWf_tail hw) hab fun y hy hyb => by
        rcases (listed_cons _ _ _).mp (h y hy hyb) with ⟨_, hn⟩ | hn
        · have : y ≤ hi := hn
          omega
        · exact hn
      exact ⟨r, List.mem_cons_of_mem _ hr, hra, hrb⟩

/-! ### The pieces (R131) -/

/-- The pieces of one piece without `h` lie in it, apart, and list its other values. -/
theorem cutPiece_spec (h : Nat) {p : Nat × Nat} (hp : p.1 ≤ p.2) : rangesWf (cutPiece h p) ∧
    (∀ q ∈ cutPiece h p, p.1 ≤ q.1 ∧ q.2 ≤ p.2) ∧ ∀ y, listed (cutPiece h p) y = true ↔ (p.1 ≤ y ∧ y ≤ p.2) ∧ y ≠ h := by
  obtain ⟨lo, hi⟩ := p
  dsimp only at hp
  simp only [cutPiece]
  split_ifs with hin h1 h2 h2
  · refine ⟨⟨by simp; omega, by simp; omega⟩, by simp; omega, fun y => ?_⟩
    simp [listed]
    omega
  · refine ⟨⟨by simp; omega, by simp⟩, by simp; omega, fun y => ?_⟩
    simp [listed]
    omega
  · refine ⟨⟨by simp; omega, by simp⟩, by simp; omega, fun y => ?_⟩
    simp [listed]
    omega
  · refine ⟨⟨by simp, by simp⟩, by simp, fun y => ?_⟩
    simp [listed]
    omega
  · refine ⟨⟨by simp; omega, by simp⟩, by simp, fun y => ?_⟩
    simp [listed]
    omega

theorem cutPieces_spec (h : Nat) : ∀ {ps : List (Nat × Nat)}, rangesWf ps → rangesWf (ps.flatMap (cutPiece h)) ∧
    (∀ q ∈ ps.flatMap (cutPiece h), ∃ p ∈ ps, p.1 ≤ q.1 ∧ q.2 ≤ p.2) ∧
    ∀ y, listed (ps.flatMap (cutPiece h)) y = true ↔ listed ps y = true ∧ y ≠ h
  | [], _ => ⟨rangesWf_nil, nofun, fun y => by simp [listed]⟩
  | p :: ps, hw => by
    obtain ⟨hwf, hin, hlist⟩ := cutPiece_spec h (rangesWf_head hw)
    obtain ⟨iwf, iin, ilist⟩ := cutPieces_spec h (rangesWf_tail hw)
    rw [List.flatMap_cons]
    refine ⟨rangesWf_append hwf iwf fun x hx y hy => ?_, fun q hq => ?_, fun y => ?_⟩
    · obtain ⟨r, hr, hry, _⟩ := iin y hy
      have := (hin x hx).2
      have := rangesWf_lt hw hr
      omega
    · rcases List.mem_append.mp hq with hq | hq
      · exact ⟨p, List.mem_cons_self, hin q hq⟩
      · obtain ⟨r, hr, hrq⟩ := iin q hq
        exact ⟨r, List.mem_cons_of_mem _ hr, hrq⟩
    · rw [listed_append, Bool.or_eq_true, hlist, ilist, listed_cons]
      tauto

/-- The pieces of a range list its values that are not held, in ranges apart. -/
theorem piecesWithout_spec (held : List Nat) {lo hi : Nat} (h : lo ≤ hi) : rangesWf (piecesWithout held lo hi) ∧
    ∀ y, listed (piecesWithout held lo hi) y = true ↔ lo ≤ y ∧ y ≤ hi ∧ y ∉ held := by
  have key : ∀ (held : List Nat) (ps : List (Nat × Nat)), rangesWf ps →
      rangesWf (held.foldl (fun ps h => ps.flatMap (cutPiece h)) ps) ∧
      ∀ y, listed (held.foldl (fun ps h => ps.flatMap (cutPiece h)) ps) y = true ↔ listed ps y = true ∧ y ∉ held := by
    intro held
    induction held with
    | nil => exact fun ps hw => ⟨hw, fun y => by simp⟩
    | cons x held ih =>
      intro ps hw
      obtain ⟨cwf, _, clist⟩ := cutPieces_spec x hw
      obtain ⟨iwf, ilist⟩ := ih _ cwf
      refine ⟨iwf, fun y => ?_⟩
      rw [List.foldl_cons, ilist, clist, List.mem_cons, not_or, and_assoc]
  obtain ⟨hwf, hlist⟩ := key held [(lo, hi)] (rangesWf_cons rangesWf_nil h fun _ hx => absurd hx List.not_mem_nil)
  refine ⟨hwf, fun y => ?_⟩
  rw [piecesWithout, hlist, listed_cons]
  simp [listed, and_assoc]

/-! ### The pieces that are dropped -/

/-- Of the pieces placed in order, those that are dropped (R131). -/
def VoidList.droppedOf : VoidList → List (Nat × Nat) → List (Nat × Nat)
  | _, [] => []
  | v, p :: ps => if v.drops p then p :: VoidList.droppedOf (v.place p) ps else VoidList.droppedOf (v.place p) ps

/-- The values of a list of ranges, counted. -/
def valueCount (ps : List (Nat × Nat)) : Nat := (ps.map fun p => p.2 - p.1 + 1).sum

theorem valueCount_cons (p : Nat × Nat) (ps : List (Nat × Nat)) : valueCount (p :: ps) = p.2 - p.1 + 1 + valueCount ps := rfl

section
variable {v : VoidList} {p : Nat × Nat}

theorem VoidList.eq_of_fields {w : VoidList} (hr : v.ranges = w.ranges) (hi : v.incomplete = w.incomplete) (hd : v.dropped = w.dropped)
    (hc : v.changes = w.changes) : v = w := by
  cases v
  cases w
  simp_all

theorem VoidList.place_drops (h : v.drops p = true) :
    v.place p = { v with incomplete := true, dropped := satAdd max32 v.dropped (p.2 - p.1 + 1) } := if_pos h

theorem VoidList.place_joins (h : v.drops p = false) : v.place p = { v with ranges := mergePiece p.1 p.2 v.ranges } :=
  if_neg (by simp [h])

theorem VoidList.place_wf (hw : rangesWf v.ranges) (hp : p.1 ≤ p.2) : rangesWf (v.place p).ranges := by
  cases h : v.drops p with
  | true => rw [VoidList.place_drops h]; exact hw
  | false => rw [VoidList.place_joins h]; exact mergePiece_wf hw hp

/-- A piece that is dropped touches no range, and meets a full list. -/
theorem VoidList.drops_spec : v.drops p = true ↔ (∀ r ∈ v.ranges, touches p.1 p.2 r = false) ∧ 256 ≤ v.ranges.length := by
  rw [VoidList.drops, Bool.and_eq_true, Bool.not_eq_true', List.any_eq_false, decide_eq_true_eq]
  exact and_congr_left' (forall₂_congr fun _ _ => by rw [Bool.not_eq_true])

/-- The ranges after a merge cover those before. -/
theorem mergePiece_covers : ∀ {rs : List (Nat × Nat)} {lo hi : Nat}, ∀ r ∈ rs, ∃ q ∈ mergePiece lo hi rs, q.1 ≤ r.1 ∧ r.2 ≤ q.2
  | r' :: rs, lo, hi, r, hr => by
    have self : ∀ (rs : List (Nat × Nat)) (a b : Nat), ∃ q ∈ mergePiece a b rs, q.1 ≤ a ∧ b ≤ q.2 := by
      intro rs
      induction rs with
      | nil => exact fun a b => ⟨(a, b), List.mem_singleton.mpr rfl, Nat.le_refl _, Nat.le_refl _⟩
      | cons r rs ih =>
        intro a b
        unfold mergePiece
        split_ifs
        · obtain ⟨q, hq, hqa⟩ := ih a b
          exact ⟨q, List.mem_cons_of_mem _ hq, hqa⟩
        · exact ⟨(a, b), List.mem_cons_self, Nat.le_refl _, Nat.le_refl _⟩
        · obtain ⟨q, hq, h1, h2⟩ := ih (min a r.1) (max b r.2)
          exact ⟨q, hq, by omega, by omega⟩
    unfold mergePiece
    split_ifs
    · rcases List.mem_cons.mp hr with rfl | hr
      · exact ⟨r, List.mem_cons_self, Nat.le_refl _, Nat.le_refl _⟩
      · obtain ⟨q, hq, hqr⟩ := mergePiece_covers (lo := lo) (hi := hi) r hr
        exact ⟨q, List.mem_cons_of_mem _ hq, hqr⟩
    · exact ⟨r, List.mem_cons_of_mem _ hr, Nat.le_refl _, Nat.le_refl _⟩
    · rcases List.mem_cons.mp hr with rfl | hr
      · obtain ⟨q, hq, h1, h2⟩ := self rs (min lo r.1) (max hi r.2)
        exact ⟨q, hq, by omega, by omega⟩
      · exact mergePiece_covers r hr

theorem VoidList.place_covers (r : Nat × Nat) (hr : r ∈ v.ranges) : ∃ q ∈ (v.place p).ranges, q.1 ≤ r.1 ∧ r.2 ≤ q.2 := by
  cases h : v.drops p with
  | true => rw [VoidList.place_drops h]; exact ⟨r, hr, Nat.le_refl _, Nat.le_refl _⟩
  | false => rw [VoidList.place_joins h]; exact mergePiece_covers r hr

theorem VoidList.dropsSome_eq : ∀ (ps : List (Nat × Nat)) (v : VoidList), v.dropsSome ps = !(v.droppedOf ps).isEmpty
  | [], _ => rfl
  | p :: ps, v => by
    rw [VoidList.dropsSome, VoidList.droppedOf, VoidList.dropsSome_eq ps]
    cases v.drops p <;> simp

theorem VoidList.droppedOf_sublist : ∀ (ps : List (Nat × Nat)) (v : VoidList), (v.droppedOf ps).Sublist ps
  | [], _ => List.Sublist.slnil
  | p :: ps, v => by
    rw [VoidList.droppedOf]
    split_ifs
    · exact (VoidList.droppedOf_sublist ps _).cons_cons p
    · exact (VoidList.droppedOf_sublist ps _).cons p

theorem rangesWf_sublist {a b : List (Nat × Nat)} (h : a.Sublist b) (hb : rangesWf b) : rangesWf a :=
  ⟨fun x hx => hb.1 x (h.subset hx), hb.2.sublist h⟩

theorem listed_sublist {a b : List (Nat × Nat)} (h : a.Sublist b) {y : Nat} (hy : listed a y = true) : listed b y = true := by
  obtain ⟨r, hr, hry⟩ := (listed_iff _ _).mp hy
  exact (listed_iff _ _).mpr ⟨r, h.subset hr, hry⟩

/-- The count and the flag after placing the pieces in order: those dropped, and nothing else. -/
theorem VoidList.places_fields : ∀ (ps : List (Nat × Nat)) (v : VoidList), v.dropped ≤ max32 →
    (ps.foldl VoidList.place v).dropped = min (v.dropped + valueCount (v.droppedOf ps)) max32 ∧
    (ps.foldl VoidList.place v).incomplete = (v.incomplete || !(v.droppedOf ps).isEmpty) ∧
    (ps.foldl VoidList.place v).changes = v.changes
  | [], v, h => ⟨(Nat.min_eq_left h).symm, (Bool.or_false _).symm, rfl⟩
  | p :: ps, v, h => by
    rw [List.foldl_cons, VoidList.droppedOf]
    cases hd : v.drops p with
    | true =>
      have hdropped : (v.place p).dropped = min (v.dropped + (p.2 - p.1 + 1)) max32 := by rw [VoidList.place_drops hd]; rfl
      obtain ⟨h1, h2, h3⟩ := VoidList.places_fields ps (v.place p) (hdropped ▸ Nat.min_le_right ..)
      rw [if_pos rfl]
      refine ⟨?_, h2.trans ?_, h3.trans ?_⟩
      · rw [h1, hdropped, valueCount_cons]
        generalize max32 = m
        omega
      · rw [VoidList.place_drops hd, Bool.true_or, List.isEmpty_cons, Bool.not_false, Bool.or_true]
      · rw [VoidList.place_drops hd]
    | false =>
      obtain ⟨h1, h2, h3⟩ := VoidList.places_fields ps (v.place p) (by rw [VoidList.place_joins hd]; exact h)
      rw [if_neg Bool.false_ne_true]
      refine ⟨h1.trans ?_, h2.trans ?_, h3.trans ?_⟩ <;> rw [VoidList.place_joins hd]

/-- The values listed after placing the pieces in order: those listed before, and those of the pieces that are not dropped; no value of a
dropped piece is. -/
theorem VoidList.places_listed : ∀ (ps : List (Nat × Nat)) (v : VoidList), rangesWf v.ranges → rangesWf ps → ∀ y,
    (listed (ps.foldl VoidList.place v).ranges y = true ↔
      listed v.ranges y = true ∨ (listed ps y = true ∧ ¬ listed (v.droppedOf ps) y = true)) ∧
    (listed (v.droppedOf ps) y = true → ¬ listed v.ranges y = true)
  | [], v, _, _, y => by simp [VoidList.droppedOf, listed]
  | p :: ps, v, hv, hps, y => by
    have hp := rangesWf_head hps
    have apart : p.1 ≤ y ∧ y ≤ p.2 → ¬ listed ps y = true := fun h => not_listed_of_le hps (by omega)
    have hsub : ∀ w : VoidList, listed (w.droppedOf ps) y = true → listed ps y = true := fun w =>
      listed_sublist (VoidList.droppedOf_sublist ps w)
    obtain ⟨ih, idrop⟩ := VoidList.places_listed ps (v.place p) (VoidList.place_wf hv hp) (rangesWf_tail hps) y
    have hsub := hsub (v.place p)
    rw [List.foldl_cons, VoidList.droppedOf, listed_cons, ih]
    cases hd : v.drops p with
    | true =>
      have hranges : (v.place p).ranges = v.ranges := by rw [VoidList.place_drops hd]
      have hnot : p.1 ≤ y ∧ y ≤ p.2 → ¬ listed v.ranges y = true := fun hin hl => by
        obtain ⟨r, hr, h1, h2⟩ := (listed_iff _ _).mp hl
        have := (VoidList.drops_spec.mp hd).1 r hr
        rw [← Bool.not_eq_true, touches_iff] at this
        omega
      rw [hranges] at idrop ⊢
      rw [if_pos rfl, listed_cons]
      generalize (listed v.ranges y = true) = A at idrop hnot ⊢
      generalize (p.1 ≤ y ∧ y ≤ p.2) = P at apart hnot ⊢
      generalize (listed ps y = true) = Q at apart hsub ⊢
      generalize (listed ((v.place p).droppedOf ps) y = true) = D at hsub idrop ⊢
      tauto
    | false =>
      have hlist : listed (v.place p).ranges y = true ↔ listed v.ranges y = true ∨ (p.1 ≤ y ∧ y ≤ p.2) := by
        rw [VoidList.place_joins hd]
        exact listed_mergePiece hv hp y
      rw [hlist] at idrop ⊢
      rw [if_neg Bool.false_ne_true]
      by_cases hD : listed ((v.place p).droppedOf ps) y = true
      · obtain ⟨hA, hP⟩ := not_or.mp (idrop hD)
        simp [hA, hP, hD]
      · simp [hD, or_assoc]

/-- A piece that touches a range of the list is not dropped, whatever was placed before it. -/
theorem VoidList.droppedOf_touches : ∀ (ps : List (Nat × Nat)) (v : VoidList), ∀ q ∈ v.droppedOf ps, ∀ r ∈ v.ranges,
    touches q.1 q.2 r = false
  | [], _, q, hq, _, _ => absurd hq List.not_mem_nil
  | p :: ps, v, q, hq, r, hr => by
    have later : q ∈ (v.place p).droppedOf ps → touches q.1 q.2 r = false := fun hq => by
      obtain ⟨r', hr', h1, h2⟩ := VoidList.place_covers (p := p) r hr
      have := VoidList.droppedOf_touches ps (v.place p) q hq r' hr'
      rw [← Bool.not_eq_true, touches_iff] at this ⊢
      omega
    rw [VoidList.droppedOf] at hq
    cases hd : v.drops p with
    | true =>
      rw [hd, if_pos rfl] at hq
      rcases List.mem_cons.mp hq with rfl | hq
      · exact (VoidList.drops_spec.mp hd).1 r hr
      · exact later hq
    | false =>
      rw [hd, if_neg Bool.false_ne_true] at hq
      exact later hq

/-- In a full list, pieces that touch no range are all dropped. -/
theorem VoidList.droppedOf_full : ∀ (ps : List (Nat × Nat)) (v : VoidList), 256 ≤ v.ranges.length →
    (∀ q ∈ ps, ∀ r ∈ v.ranges, touches q.1 q.2 r = false) → v.droppedOf ps = ps ∧ (ps.foldl VoidList.place v).ranges = v.ranges
  | [], _, _, _ => ⟨rfl, rfl⟩
  | p :: ps, v, hlen, h => by
    have hd : v.drops p = true := VoidList.drops_spec.mpr ⟨h p List.mem_cons_self, hlen⟩
    have hranges : (v.place p).ranges = v.ranges := by rw [VoidList.place_drops hd]
    obtain ⟨ih1, ih2⟩ := VoidList.droppedOf_full ps (v.place p) (by rw [hranges]; exact hlen)
      fun q hq r hr => h q (List.mem_cons_of_mem _ hq) r (hranges ▸ hr)
    exact ⟨by rw [VoidList.droppedOf, hd, if_pos rfl, ih1], ih2.trans hranges⟩

/-- Pieces whose values are all listed change nothing. -/
theorem VoidList.places_listedAll : ∀ (ps : List (Nat × Nat)) (v : VoidList), rangesWf v.ranges → (∀ q ∈ ps, q.1 ≤ q.2) →
    (∀ q ∈ ps, ∀ y, q.1 ≤ y → y ≤ q.2 → listed v.ranges y = true) → ps.foldl VoidList.place v = v ∧ v.droppedOf ps = []
  | [], _, _, _, _ => ⟨rfl, rfl⟩
  | p :: ps, v, hw, hle, h => by
    have hp := hle p List.mem_cons_self
    have hall := h p List.mem_cons_self
    obtain ⟨r, hr, h1, h2⟩ := listed_interval hw hp hall
    have hd : v.drops p = false := by
      rw [← Bool.not_eq_true, VoidList.drops_spec]
      rintro ⟨ht, _⟩
      have := ht r hr
      rw [← Bool.not_eq_true, touches_iff] at this
      omega
    have hmerge : mergePiece p.1 p.2 v.ranges = v.ranges := rangesWf_ext (mergePiece_wf hw hp) hw fun y => by
      rw [listed_mergePiece hw hp]
      exact or_iff_left_of_imp fun hy => hall y hy.1 hy.2
    have hplace : v.place p = v := by rw [VoidList.place_joins hd, hmerge]
    obtain ⟨ih1, ih2⟩ := VoidList.places_listedAll ps v hw (fun q hq => hle q (List.mem_cons_of_mem _ hq))
      fun q hq => h q (List.mem_cons_of_mem _ hq)
    exact ⟨by rw [List.foldl_cons, hplace, ih1], by rw [VoidList.droppedOf, hd, if_neg Bool.false_ne_true, hplace, ih2]⟩

end

/-! ### Counting values -/

theorem countP_interval (lo a b : Nat) (hlo : lo ≤ a) (n : Nat) :
    (List.range n).countP (fun d => decide (a ≤ lo + d ∧ lo + d ≤ b)) = min n (b + 1 - lo) - min n (a - lo) := by
  induction n with
  | zero => simp
  | succ n ih =>
    rw [List.range_succ, List.countP_append, ih, List.countP_singleton]
    by_cases h : a ≤ lo + n ∧ lo + n ≤ b
    · rw [if_pos (decide_eq_true h)]
      omega
    · rw [if_neg (by simpa using h)]
      omega

/-- The values of a range list, counted over a range that holds them all. -/
theorem countP_listed : ∀ {ps : List (Nat × Nat)} {lo hi : Nat}, rangesWf ps → (∀ q ∈ ps, lo ≤ q.1 ∧ q.2 ≤ hi) →
    (List.range (hi + 1 - lo)).countP (fun d => listed ps (lo + d)) = valueCount ps
  | [], lo, hi, _, _ => by simp [listed, valueCount]
  | (a, b) :: ps, lo, hi, hw, h => by
    have hab : a ≤ b := rangesWf_head hw
    obtain ⟨hloa, hbhi⟩ : lo ≤ a ∧ b ≤ hi := h (a, b) List.mem_cons_self
    have ih := countP_listed (rangesWf_tail hw) fun q hq => h q (List.mem_cons_of_mem _ hq)
    have hsplit : ∀ l : List Nat, l.countP (fun d => listed ((a, b) :: ps) (lo + d)) =
        l.countP (fun d => decide (a ≤ lo + d ∧ lo + d ≤ b)) + l.countP fun d => listed ps (lo + d) := by
      intro l
      induction l with
      | nil => rfl
      | cons d l il =>
        have hd : (listed ((a, b) :: ps) (lo + d) = true ↔ _) := listed_cons (a, b) ps (lo + d)
        simp only [List.countP_cons, il]
        by_cases hin : a ≤ lo + d ∧ lo + d ≤ b
        · have hnot : ¬ listed ps (lo + d) = true := not_listed_of_le hw (by dsimp only; omega)
          rw [if_pos (hd.mpr (.inl hin)), if_pos (decide_eq_true hin), if_neg hnot]
          omega
        · have hiff : listed ((a, b) :: ps) (lo + d) = listed ps (lo + d) := by
            rw [Bool.eq_iff_iff, hd]
            exact or_iff_right hin
          rw [hiff, if_neg (show ¬ decide (a ≤ lo + d ∧ lo + d ≤ b) = true by rwa [decide_eq_true_eq]), Nat.add_zero, Nat.add_assoc]
    rw [hsplit, countP_interval lo a b hloa, ih]
    simp only [valueCount, List.map_cons, List.sum_cons]
    omega

/-! ### One insertion -/

section
variable {v : VoidList} {ps : List (Nat × Nat)}

theorem VoidList.insert_cases (v : VoidList) (ps : List (Nat × Nat)) :
    v.insert ps = if (ps.foldl VoidList.place v).ranges = v.ranges ∧ v.droppedOf ps = [] then ps.foldl VoidList.place v
      else (ps.foldl VoidList.place v).bump := by
  rw [VoidList.insert, VoidList.dropsSome_eq]
  exact if_congr (and_congr_right' (by simp)) rfl rfl

/-- The count and the flag after an insertion (R131). -/
theorem VoidList.insert_fields (h : v.dropped ≤ max32) :
    (v.insert ps).dropped = min (v.dropped + valueCount (v.droppedOf ps)) max32 ∧
    (v.insert ps).incomplete = (v.incomplete || !(v.droppedOf ps).isEmpty) := by
  obtain ⟨hd, hi, _⟩ := VoidList.places_fields ps v h
  rw [VoidList.insert_cases]
  split_ifs <;> exact ⟨hd, hi⟩

/-- What an insertion looks at: the ranges, and the count and flag of what was dropped; not the change count. -/
def VoidList.core (v : VoidList) : List (Nat × Nat) × Nat × Bool := (v.ranges, v.dropped, v.incomplete)

theorem VoidList.core_places (ps : List (Nat × Nat)) : ∀ {v w : VoidList}, v.core = w.core →
    (ps.foldl VoidList.place v).core = (ps.foldl VoidList.place w).core := by
  induction ps with
  | nil => exact fun h => h
  | cons p ps ih =>
    intro v w h
    refine ih ?_
    obtain ⟨hr, hrest⟩ := Prod.mk.inj h
    obtain ⟨hd, hi⟩ := Prod.mk.inj hrest
    have hdrops : v.drops p = w.drops p := by rw [VoidList.drops, VoidList.drops, hr]
    cases hp : v.drops p with
    | true =>
      rw [VoidList.place_drops hp, VoidList.place_drops (hdrops ▸ hp)]
      simp only [VoidList.core, hr, hd]
    | false =>
      rw [VoidList.place_joins hp, VoidList.place_joins (hdrops ▸ hp)]
      simp only [VoidList.core, hr, hd, hi]

theorem VoidList.core_insert (v : VoidList) (ps : List (Nat × Nat)) : (v.insert ps).core = (ps.foldl VoidList.place v).core := by
  rw [VoidList.insert_cases]
  split_ifs <;> rfl

/-- The change count moves exactly when the ranges changed or a value was dropped (R127, R131). -/
theorem VoidList.insert_changes (h : v.dropped ≤ max32) :
    ((v.insert ps).ranges = v.ranges ∧ v.droppedOf ps = [] → (v.insert ps).changes = v.changes) ∧
    ((v.insert ps).ranges ≠ v.ranges ∨ v.droppedOf ps ≠ [] → (v.insert ps).changes = (v.changes + 1) % 65536) := by
  have hc := (VoidList.places_fields ps v h).2.2
  rw [VoidList.insert_ranges, VoidList.insert_cases]
  refine ⟨fun hsame => by rw [if_pos hsame, hc], fun hdiff => ?_⟩
  rw [if_neg fun hsame => hdiff.elim (· hsame.1) (· hsame.2)]
  show ((ps.foldl VoidList.place v).changes + 1) % 65536 = _
  rw [hc]

theorem VoidList.insert_listed (hw : rangesWf v.ranges) (hps : rangesWf ps) (y : Nat) :
    listed (v.insert ps).ranges y = true ↔ listed v.ranges y = true ∨ (listed ps y = true ∧ ¬ listed (v.droppedOf ps) y = true) := by
  rw [VoidList.insert_ranges]
  exact (VoidList.places_listed ps v hw hps y).1

/-- Of the values of the pieces, those that are not listed afterwards are those of the pieces dropped. -/
theorem VoidList.insert_unlisted (hw : rangesWf v.ranges) (hps : rangesWf ps) {y : Nat} (hy : listed ps y = true) :
    listed (v.insert ps).ranges y = false ↔ listed (v.droppedOf ps) y = true := by
  rw [← Bool.not_eq_true, VoidList.insert_listed hw hps]
  have := (VoidList.places_listed ps v hw hps y).2
  tauto

/-- A list without values is empty. -/
theorem rangesWf_eq_nil_iff {a : List (Nat × Nat)} (h : rangesWf a) : a = [] ↔ ∀ y, ¬ listed a y = true :=
  ⟨fun e y => e ▸ not_listed_nil y, fun hn => rangesWf_ext h rangesWf_nil fun y => iff_of_false (hn y) (not_listed_nil y)⟩

theorem valueCount_eq_zero_iff : valueCount ps = 0 ↔ ps = [] := by
  cases ps with
  | nil => exact iff_of_true rfl rfl
  | cons p ps => exact iff_of_false (by rw [valueCount_cons]; omega) (List.cons_ne_nil _ _)

end

/-! ### INSERTION of a range (R129 to R131) -/

section
variable {s : State} {lo hi : Nat}

/-- The pieces of the range that an insertion drops. -/
def State.droppedIn (s : State) (lo hi : Nat) : List (Nat × Nat) := s.voids.droppedOf (piecesWithout s.heldValues lo hi)

theorem State.insertRange_eq (s : State) (lo hi : Nat) : s.insertRange lo hi = { s with
    voids := s.voids.insert (piecesWithout s.heldValues lo hi)
    sup := { s.sup with events := if s.droppedIn lo hi = [] then s.sup.events else s.sup.events ||| 0x800 } } := by
  rw [State.insertRange, VoidList.dropsSome_eq, State.droppedIn]
  cases s.voids.droppedOf (piecesWithout s.heldValues lo hi) <;> rfl

theorem State.insertRange_congr {a b : Nat} (h : piecesWithout s.heldValues lo hi = piecesWithout s.heldValues a b) :
    s.insertRange lo hi = s.insertRange a b := by
  rw [State.insertRange, h, State.insertRange]

theorem State.droppedIn_wf (h : lo ≤ hi) : rangesWf (s.droppedIn lo hi) ∧ (∀ q ∈ s.droppedIn lo hi, lo ≤ q.1 ∧ q.2 ≤ hi) ∧
    ∀ y, listed (s.droppedIn lo hi) y = true → lo ≤ y ∧ y ≤ hi ∧ y ∉ s.heldValues := by
  obtain ⟨hwf, hlist⟩ := piecesWithout_spec s.heldValues h
  have hsub := VoidList.droppedOf_sublist (piecesWithout s.heldValues lo hi) s.voids
  have hdwf := rangesWf_sublist hsub hwf
  have hmem : ∀ y, listed (s.droppedIn lo hi) y = true → lo ≤ y ∧ y ≤ hi ∧ y ∉ s.heldValues := fun y hy =>
    (hlist y).mp (listed_sublist hsub hy)
  refine ⟨hdwf, fun q hq => ?_, hmem⟩
  have hle := hdwf.1 q hq
  exact ⟨(hmem q.1 ((listed_iff _ _).mpr ⟨q, hq, Nat.le_refl _, hle⟩)).1,
    (hmem q.2 ((listed_iff _ _).mpr ⟨q, hq, hle, Nat.le_refl _⟩)).2.1⟩

/-- The value of the range is dropped: not held, and not listed after the insertion. -/
theorem State.insertRange_unlisted (hv : s.voids.ok) (h : lo ≤ hi) (y : Nat) : listed (s.droppedIn lo hi) y = true ↔
    (lo ≤ y ∧ y ≤ hi ∧ y ∉ s.heldValues) ∧ listed (s.insertRange lo hi).voids.ranges y = false := by
  obtain ⟨hwf, hlist⟩ := piecesWithout_spec s.heldValues h
  rw [State.insertRange_eq]
  refine ⟨fun hy => ?_, fun ⟨hin, hy⟩ => (VoidList.insert_unlisted hv.1 hwf ((hlist y).mpr hin)).mp hy⟩
  have hin := (State.droppedIn_wf h).2.2 y hy
  exact ⟨hin, (VoidList.insert_unlisted hv.1 hwf ((hlist y).mpr hin)).mpr hy⟩

/-- The values of a range that have a property and are those of a range list, counted. -/
theorem filter_range_length {ps : List (Nat × Nat)} (hw : rangesWf ps) (hin : ∀ q ∈ ps, lo ≤ q.1 ∧ q.2 ≤ hi) {p : Nat → Bool}
    (hp : ∀ d, d < hi + 1 - lo → (p d = true ↔ listed ps (lo + d) = true)) :
    ((List.range (hi + 1 - lo)).filter p).length = valueCount ps := by
  rw [← List.countP_eq_length_filter, ← countP_listed hw hin]
  exact List.countP_congr fun d hd => hp d (List.mem_range.mp hd)

/-- A range split at a held value is the part below it and then the part above (R131). -/
theorem piecesWithout_split {held : List Nat} {h : Nat} (hh : h ∈ held) (h1 : lo < h) (h2 : h < hi) :
    piecesWithout held lo hi = piecesWithout held lo (h - 1) ++ piecesWithout held (h + 1) hi := by
  obtain ⟨hwf, hlist⟩ := piecesWithout_spec held (show lo ≤ hi by omega)
  obtain ⟨awf, alist⟩ := piecesWithout_spec held (show lo ≤ h - 1 by omega)
  obtain ⟨bwf, blist⟩ := piecesWithout_spec held (show h + 1 ≤ hi by omega)
  refine rangesWf_ext hwf (rangesWf_append awf bwf fun x hx y hy => ?_) fun y => ?_
  · have ha := (alist x.2).mp ((listed_iff _ _).mpr ⟨x, hx, awf.1 x hx, Nat.le_refl _⟩)
    have hb := (blist y.1).mp ((listed_iff _ _).mpr ⟨y, hy, Nat.le_refl _, bwf.1 y hy⟩)
    omega
  · rw [listed_append, Bool.or_eq_true, hlist, alist, blist]
    have hne : y ∉ held → y ≠ h := fun hn e => hn (e ▸ hh)
    constructor
    · rintro ⟨a, b, c⟩
      have := hne c
      rcases Nat.lt_or_ge y h with hlt | hge
      · exact .inl ⟨a, by omega, c⟩
      · exact .inr ⟨by omega, b, c⟩
    · rintro (⟨a, b, c⟩ | ⟨a, b, c⟩)
      · exact ⟨a, by omega, c⟩
      · exact ⟨by omega, b, c⟩

/-- A held end of a range is left out of it. -/
theorem piecesWithout_low {held : List Nat} (hh : lo ∈ held) (h : lo < hi) : piecesWithout held lo hi = piecesWithout held (lo + 1) hi := by
  obtain ⟨hwf, hlist⟩ := piecesWithout_spec held h.le
  obtain ⟨bwf, blist⟩ := piecesWithout_spec held (show lo + 1 ≤ hi from h)
  refine rangesWf_ext hwf bwf fun y => ?_
  rw [hlist, blist]
  have hne : y ∉ held → y ≠ lo := fun hn e => hn (e ▸ hh)
  exact ⟨fun ⟨a, b, c⟩ => ⟨by have := hne c; omega, b, c⟩, fun ⟨a, b, c⟩ => ⟨by omega, b, c⟩⟩

theorem piecesWithout_high {held : List Nat} (hh : hi ∈ held) (h : lo < hi) : piecesWithout held lo hi = piecesWithout held lo (hi - 1) := by
  obtain ⟨hwf, hlist⟩ := piecesWithout_spec held h.le
  obtain ⟨bwf, blist⟩ := piecesWithout_spec held (show lo ≤ hi - 1 by omega)
  refine rangesWf_ext hwf bwf fun y => ?_
  rw [hlist, blist]
  have hne : y ∉ held → y ≠ hi := fun hn e => hn (e ▸ hh)
  exact ⟨fun ⟨a, b, c⟩ => ⟨a, by have := hne c; omega, c⟩, fun ⟨a, b, c⟩ => ⟨a, by omega, c⟩⟩

/-- A range with no value held is one piece. -/
theorem piecesWithout_free {held : List Nat} (h : lo ≤ hi) (hf : ∀ y, lo ≤ y → y ≤ hi → y ∉ held) : piecesWithout held lo hi = [(lo, hi)] := by
  obtain ⟨hwf, hlist⟩ := piecesWithout_spec held h
  refine rangesWf_ext hwf (rangesWf_cons rangesWf_nil h fun _ hx => absurd hx List.not_mem_nil) fun y => ?_
  rw [hlist, listed_cons, or_iff_left (not_listed_nil y)]
  exact ⟨fun ⟨a, b, _⟩ => ⟨a, b⟩, fun ⟨a, b⟩ => ⟨a, b, hf y a b⟩⟩

/-- A run of values not held that overlaps or adjoins a range of the list joins it (R131). -/
theorem State.insertRange_joins (hv : s.voids.ok) (h : lo ≤ hi) {a b : Nat} {r : Nat × Nat} (hlo : lo ≤ a) (hab : a ≤ b) (hhi : b ≤ hi)
    (hfree : ∀ y, a ≤ y → y ≤ b → y ∉ s.heldValues) (hr : r ∈ s.voids.ranges) (h1 : a ≤ r.2 + 1) (h2 : r.1 ≤ b + 1) {y : Nat}
    (hya : a ≤ y) (hyb : y ≤ b) : listed (s.insertRange lo hi).voids.ranges y = true := by
  obtain ⟨hwf, hlist⟩ := piecesWithout_spec s.heldValues h
  obtain ⟨dwf, _, dmem⟩ := State.droppedIn_wf (s := s) h
  by_contra hn
  have hy : listed (s.droppedIn lo hi) y = true :=
    (State.insertRange_unlisted hv h y).mpr ⟨⟨by omega, by omega, hfree y hya hyb⟩, by simpa using hn⟩
  obtain ⟨q, hq, hqy⟩ := (listed_iff _ _).mp hy
  obtain ⟨p, hp, hpa, hpb⟩ := listed_interval hwf hab fun z hza hzb => (hlist z).mpr ⟨by omega, by omega, hfree z hza hzb⟩
  have hqp : q ∈ piecesWithout s.heldValues lo hi := (VoidList.droppedOf_sublist _ _).subset hq
  have htouch := VoidList.droppedOf_touches _ _ q hq r hr
  rw [← Bool.not_eq_true, touches_iff] at htouch
  obtain rfl := rangesWf_unique hwf hqp hp hqy ⟨by omega, by omega⟩
  omega

end

/-- Settles O30: the range's pieces in ascending order, each joined, listed or dropped whole. -/
theorem insertionListsValues : Obligations.InsertionListsValues := by
  refine ⟨fun s v => State.mem_heldValues, ?_⟩
  intro lo hi s hv hle t free lost same
  obtain ⟨hwf, hlist⟩ := piecesWithout_spec s.heldValues hle
  obtain ⟨dwf, din, dmem⟩ := State.droppedIn_wf (s := s) hle
  have hdrop := State.insertRange_unlisted hv hle
  have hmax : s.voids.dropped ≤ max32 := hv.2.2.2.1
  have heq : t = _ := s.insertRange_eq lo hi
  have hvoids : t.voids = s.voids.insert (piecesWithout s.heldValues lo hi) := by rw [heq]
  have hranges : ∀ y, listed t.voids.ranges y = true ↔
      listed s.voids.ranges y = true ∨ ((lo ≤ y ∧ y ≤ hi ∧ y ∉ s.heldValues) ∧ ¬ listed (s.droppedIn lo hi) y = true) := fun y => by
    rw [hvoids, VoidList.insert_listed hv.1 hwf, hlist]
    rfl
  obtain ⟨hdropped, hincomplete⟩ := VoidList.insert_fields (ps := piecesWithout s.heldValues lo hi) hmax
  obtain ⟨hstay, hmove⟩ := VoidList.insert_changes (ps := piecesWithout s.heldValues lo hi) hmax
  rw [← hvoids] at hdropped hincomplete hstay hmove
  have hlost : lost = valueCount (s.droppedIn lo hi) := filter_range_length dwf din fun d hd => by
    rw [hdrop, Bool.and_eq_true, decide_eq_true_eq, Bool.not_eq_true']
    exact and_congr_left' ⟨fun h => ⟨by omega, by omega, h⟩, fun h => h.2.2⟩
  have hnone : lost = 0 ↔ s.droppedIn lo hi = [] := by rw [hlost, valueCount_eq_zero_iff]
  refine ⟨?_, ?_, ?_, ?_, ?_, ?_, ?_, ?_, ?_, ?_, ?_, ?_, ?_, ?_, ?_⟩
  · rw [hvoids]
    exact VoidList.insert_ok hv hwf.1
  · exact fun y hy => ((hranges y).mp hy).imp_right And.left
  · exact fun y hy => (hranges y).mpr (.inl hy)
  · intro hinc y h1 h2 h3
    rw [hincomplete, Bool.or_eq_false_iff, Bool.not_eq_false', List.isEmpty_iff] at hinc
    exact (hranges y).mpr (.inr ⟨⟨h1, h2, h3⟩, by rw [State.droppedIn, hinc.2]; exact not_listed_nil y⟩)
  · intro hlen hfree
    have hnil : s.droppedIn lo hi = [] := by
      have hroom : s.voids.drops (lo, hi) = false := by
        rw [← Bool.not_eq_true, VoidList.drops_spec]
        exact fun h => Nat.not_le.mpr hlen h.2
      rw [State.droppedIn, piecesWithout_free hle hfree, VoidList.droppedOf, if_neg (by rw [hroom]; exact Bool.false_ne_true),
        VoidList.droppedOf]
    refine ⟨fun y h1 h2 => (hranges y).mpr (.inr ⟨⟨h1, h2, hfree y h1 h2⟩, by rw [hnil]; exact not_listed_nil y⟩), ?_⟩
    rw [hdropped, show s.voids.droppedOf _ = [] from hnil]
    exact Nat.min_eq_left hmax
  · exact fun a b r hlo hab hhi hfree hr h1 h2 y hya hyb => State.insertRange_joins hv hle hlo hab hhi hfree hr h1 h2 hya hyb
  · intro hlen hapart hfree
    have hcount : free = valueCount (piecesWithout s.heldValues lo hi) :=
      filter_range_length hwf (fun q hq => by
        have hq12 := hwf.1 q hq
        have h1 := (hlist q.1).mp ((listed_iff _ _).mpr ⟨q, hq, Nat.le_refl _, hq12⟩)
        have h2 := (hlist q.2).mp ((listed_iff _ _).mpr ⟨q, hq, hq12, Nat.le_refl _⟩)
        exact ⟨h1.1, h2.2.1⟩) fun d hd => by
          rw [hlist, decide_eq_true_eq]
          exact ⟨fun h => ⟨by omega, by omega, h⟩, fun h => h.2.2⟩
    have hin : ∀ q ∈ piecesWithout s.heldValues lo hi, lo ≤ q.1 ∧ q.2 ≤ hi ∧ q.1 ≤ q.2 := fun q hq => by
      have hq12 := hwf.1 q hq
      have h1 := (hlist q.1).mp ((listed_iff _ _).mpr ⟨q, hq, Nat.le_refl _, hq12⟩)
      have h2 := (hlist q.2).mp ((listed_iff _ _).mpr ⟨q, hq, hq12, Nat.le_refl _⟩)
      exact ⟨h1.1, h2.2.1, hq12⟩
    obtain ⟨hall, hkeep⟩ := VoidList.droppedOf_full (piecesWithout s.heldValues lo hi) s.voids hlen.ge fun q hq r hr => by
      obtain ⟨h1, h2, h3⟩ := hin q hq
      have := hapart r hr
      rw [← Bool.not_eq_true, touches_iff]
      omega
    have hne : s.droppedIn lo hi ≠ [] := fun h => hfree (by
      rw [hcount, ← hall]
      exact valueCount_eq_zero_iff.mpr h)
    have hsome : s.voids.droppedOf (piecesWithout s.heldValues lo hi) ≠ [] := hne
    have hr : t.voids.ranges = s.voids.ranges := by rw [hvoids, VoidList.insert_ranges, hkeep]
    refine ⟨?_, by rw [heq]; exact if_neg hne⟩
    have hi : t.voids.incomplete = true := by
      rw [hincomplete]
      cases hd : s.voids.droppedOf (piecesWithout s.heldValues lo hi) with
      | nil => exact absurd hd hsome
      | cons p ps => simp
    have hd : t.voids.dropped = min (s.voids.dropped + free) 4294967295 := by rw [hdropped, hall, hcount]; rfl
    have hc := hmove (.inr hsome)
    exact VoidList.eq_of_fields hr hi hd hc
  · intro h hh
    refine ⟨fun h1 h2 => ?_, fun h1 h2 => ?_, fun h1 h2 => ?_⟩
    · have hsplit : t.voids.core = ((s.insertRange lo (h - 1)).insertRange (h + 1) hi).voids.core := by
        rw [hvoids, piecesWithout_split hh h1 h2, State.insertRange_eq (s.insertRange lo (h - 1)), State.insertRange_heldValues,
          State.insertRange_eq s, VoidList.core_insert, VoidList.core_insert, List.foldl_append]
        exact (VoidList.core_places _ (VoidList.core_insert _ _)).symm
      obtain ⟨hr, hrest⟩ := Prod.mk.inj hsplit
      exact ⟨hr, Prod.mk.inj hrest⟩
    · subst h1
      exact State.insertRange_congr (piecesWithout_low hh h2)
    · subst h2
      exact State.insertRange_congr (piecesWithout_high hh h1)
  · rw [hlost]
    exact hdropped
  · rw [hincomplete]
    congr 1
    rw [Bool.eq_iff_iff, Bool.not_eq_true', ← Bool.not_eq_true, List.isEmpty_iff, decide_eq_true_eq, ne_eq, hnone]
    rfl
  · exact fun h => hstay ⟨h.1, hnone.mp h.2⟩
  · exact fun h => hmove (h.imp_right fun h => mt hnone.mpr h)
  · have hiff : (∃ y, lo ≤ y ∧ y ≤ hi ∧ y ∉ s.heldValues ∧ listed t.voids.ranges y = false) ↔ s.droppedIn lo hi ≠ [] := by
      rw [ne_eq, rangesWf_eq_nil_iff dwf]
      simp only [not_forall, not_not]
      exact exists_congr fun y => by rw [hdrop, and_assoc, and_assoc]
    refine ⟨fun h => ?_, fun h => ?_⟩
    · rw [heq]
      exact if_neg (hiff.mp h)
    · rw [heq]
      exact if_pos (not_not.mp (mt hiff.mpr h))
  · intro hall
    obtain ⟨hsame, hnil⟩ := VoidList.places_listedAll (piecesWithout s.heldValues lo hi) s.voids hv.1 hwf.1 fun q hq y h1 h2 => by
      obtain ⟨a, b, c⟩ := (hlist y).mp ((listed_iff _ _).mpr ⟨q, hq, h1, h2⟩)
      exact (hall y a b).resolve_left c
    rw [heq, VoidList.insert_cases, hsame, if_pos ⟨rfl, hnil⟩, State.droppedIn, hnil, if_pos rfl]
  · rw [heq]

end Sys2Proof.Machine
end
section
/-! What a flush takes back, slot by slot (R50 to R52, R26). -/

namespace Sys2Proof.Machine

/-- Raising events leaves the rest of the supervisor port. -/
theorem State.Raises.sup_eq {s t : State} (h : s.Raises t) : t.sup = { s.sup with events := t.sup.events } := by
  obtain ⟨e, he⟩ := h
  rw [he]

section
variable {s : State} {q : Nat} {k : SlotId}

/-- The final repeat that a slot keeps when its exhaustion note is withdrawn (R52). -/
def State.withdrawnFinal (s : State) (k : SlotId) : Final :=
  match s.staged with
  | some (_, rc) => if (s.slot k).state = .running then (s.slot k).cutAt rc else .unset
  | none => .unset

theorem State.withdrawNote_slot_self (s : State) (k : SlotId) (b : Option Before) : (s.withdrawNote k b).slot k =
    if b.isSome = true ∧ (s.slot k).note ≠ .unset then { s.slot k with note := .unset, final := s.withdrawnFinal k } else s.slot k := by
  rw [State.withdrawNote_slot]
  exact if_congr (and_iff_right rfl) rfl rfl

theorem State.withdrawNote_slot_ne (s : State) {i k : SlotId} (h : k ≠ i) (b : Option Before) :
    (s.withdrawNote i b).slot k = s.slot k := by
  rw [State.withdrawNote_slot, if_neg fun hk => h hk.1]

theorem State.withdrawnFinal_congr {t : State} (hs : t.staged = s.staged) (hk : (s.slot k).Flushed (t.slot k)) :
    t.withdrawnFinal k = s.withdrawnFinal k := by
  unfold State.withdrawnFinal
  rw [hs, hk.state]
  cases s.staged with
  | none => rfl
  | some z => simp only [JobSlot.cutAt, hk.first]

/-- A slot after a flush: set back where it lost an item, and its note withdrawn then. -/
theorem State.flush_slot_eq (s : State) (q : Nat) (k : SlotId) : (s.flush q).slot k =
    if (s.removedBefore q k).isSome = true ∧ (s.slot k).note ≠ .unset then
      { (s.flushed q).slot k with note := .unset, final := s.withdrawnFinal k }
    else (s.flushed q).slot k := by
  have hnote : ((s.flushed q).slot k).note = (s.slot k).note := by
    rw [State.flushed_slot]
    cases s.removedBefore q k <;> rfl
  have hstaged : (s.flushed q).staged = s.staged := State.staged_congr fun i => (s.flushed_flushed q i).1.change
  have hstaged' : ((s.flushed q).withdrawNote .A (s.removedBefore q .A)).staged = s.staged :=
    (State.staged_congr fun i => (State.withdrawNote_flushed _ _ i _).change).trans hstaged
  rw [State.flush_eq]
  cases k with
  | A =>
    rw [State.withdrawNote_slot_ne _ (by decide), State.withdrawNote_slot_self, hnote,
      State.withdrawnFinal_congr hstaged (s.flushed_flushed q .A).1]
  | B =>
    have hB : ((s.flushed q).withdrawNote .A (s.removedBefore q .A)).slot .B = (s.flushed q).slot .B :=
      State.withdrawNote_slot_ne _ (by decide) _
    rw [State.withdrawNote_slot_self, hB, hnote,
      State.withdrawnFinal_congr hstaged' (by rw [hB]; exact (s.flushed_flushed q .B).1)]

theorem State.flush_slot_kept (h : s.removedBefore q k = none) : (s.flush q).slot k = s.slot k := by
  rw [State.flush_slot_eq, h, if_neg fun hn => Bool.noConfusion hn.1, State.flushed_slot, h]
  rfl

theorem State.flush_slot_removed {b : Before} (h : s.removedBefore q k = some b) : (s.flush q).slot k =
    { (s.slot k).restore b with
      note := .unset
      final := if (s.slot k).note = .unset then (s.slot k).final else s.withdrawnFinal k } := by
  rw [State.flush_slot_eq, State.flushed_slot, h]
  by_cases hn : (s.slot k).note = .unset
  · rw [if_neg fun hs => hs.2 hn, if_pos hn]
    show (s.slot k).restore b = _
    rw [JobSlot.restore, ← hn]
  · rw [if_pos ⟨rfl, hn⟩, if_neg hn]
    rfl

theorem State.gone_find (s : State) (q : Nat) (k : SlotId) : (s.gone q).find? (fun d => decide (d.slot = k)) =
    s.queue.drafts.find? fun d => decide (d.slot = k ∧ q ≤ d.repeatIndex) := by
  rw [State.gone, List.find?_filter]
  refine congrArg (fun p => s.queue.drafts.find? p) (funext fun d => ?_)
  simp [Bool.and_comm]

/-- The oldest item of slot `k` at or above `q`: its first draft there, else its fill (R50). -/
theorem State.removedBefore_eq_none (hd : s.queue.drafts.find? (fun d => decide (d.slot = k ∧ q ≤ d.repeatIndex)) = none)
    (hf : ∀ f, s.queue.fill = some f → f.slot = k → f.target < q) : s.removedBefore q k = none := by
  rw [State.removedBefore, oldestRemoved, State.gone_find, hd, State.abandoned]
  cases hfill : s.queue.fill with
  | none => rfl
  | some f =>
    by_cases hk : f.slot = k
    · have := hf f hfill hk
      simp [Option.filter, Nat.not_le.mpr this]
    · by_cases hq : q ≤ f.target <;> simp [Option.filter, hq, hk]

theorem State.removedBefore_draft {d : Draft}
    (hd : s.queue.drafts.find? (fun d => decide (d.slot = k ∧ q ≤ d.repeatIndex)) = some d) : s.removedBefore q k = some d.before := by
  rw [State.removedBefore, oldestRemoved, State.gone_find, hd]

theorem State.removedBefore_fill {f : Fill} (hd : s.queue.drafts.find? (fun d => decide (d.slot = k ∧ q ≤ d.repeatIndex)) = none)
    (hf : s.queue.fill = some f) (hk : f.slot = k) (hq : q ≤ f.target) : s.removedBefore q k = some f.before := by
  rw [State.removedBefore, oldestRemoved, State.gone_find, hd, State.abandoned, hf]
  simp [Option.filter, hq, hk]

/-- A restored counter keeps its event mark (R26). -/
theorem JobSlot.restore_counter {j : JobSlot} {b : Before} {a : Nat} {c : Counter} {x : CounterSnap} (hc : j.counters[a]? = some c)
    (hx : b.counters[a]? = some x) : (j.restore b).counters[a]? =
      some { v := x.v, o := x.o, exhausted := x.exhausted, domainEnded := x.domainEnded, raised := c.raised } := by
  show (List.zipWith Counter.restore j.counters b.counters)[a]? = _
  rw [List.getElem?_zipWith, hc, hx]
  rfl

/-- The values a flush returns are inserted as the queue stands without what went (R50, R131). -/
theorem State.flush_values (s : State) (q : Nat) : s.returned q =
    (s.queue.drafts.filter fun d => decide (q ≤ d.repeatIndex)).flatMap Draft.drawn ++
      ((s.queue.fill.filter fun f => decide (q ≤ f.target)).map Fill.drawn).getD [] := by
  rw [State.returned, State.gone, State.abandoned]
  refine congrArg _ ?_
  cases s.queue.fill.filter fun f => decide (q ≤ f.target) <;> simp

/-- The queue without what went. -/
theorem State.flush_queue_eq (s : State) (q : Nat) : (s.flush q).queue = { s.queue with
    drafts := s.queue.drafts.filter (fun d => decide (d.repeatIndex < q))
    fill := s.queue.fill.filter (fun f => decide (f.target < q)) } := by
  rw [State.flush_queue]
  simp only [← Nat.not_lt, decide_not, Bool.not_not]

/-- What the insertions of a flush look at: the queue without what went, and the records. -/
theorem State.flushed_inserts (s : State) (q : Nat) : ∃ u : State, u.heldValues = (s.keepBelow q).heldValues ∧ u.voids = s.voids ∧
    u.sup = s.sup ∧ s.flushed q = u.insertValues (s.returned q) := by
  refine ⟨((s.keepBelow q).restoreRemoved .A (s.removedBefore q .A)).restoreRemoved .B (s.removedBefore q .B), ?_, ?_, ?_, rfl⟩
  · refine State.heldValues_congr (by simp) (by simp) fun i => ?_
    rw [(State.restoreRemoved_flushed _ .B i _).1, (State.restoreRemoved_flushed _ .A i _).1]
  · rw [State.restoreRemoved_voids, State.restoreRemoved_voids]
    rfl
  · rw [State.restoreRemoved_sup, State.restoreRemoved_sup]
    rfl

theorem State.keepBelow_eq (s : State) (q : Nat) : s.keepBelow q = { s with queue := (s.flush q).queue } := by
  rw [State.flush_queue]
  rfl

/-- The drawn values return to the void list (R50). -/
theorem State.flush_voids (s : State) (q : Nat) :
    (s.flush q).voids = (({ s with queue := (s.flush q).queue } : State).insertValues (s.returned q)).voids := by
  obtain ⟨u, hheld, hvoids, -, hu⟩ := s.flushed_inserts q
  rw [← State.keepBelow_eq, State.flush_eq, State.withdrawNote_voids, State.withdrawNote_voids, hu]
  exact State.insertValues_voids_congr _ hheld hvoids

/-- A flush raises VOID_LIST_INCOMPLETE exactly when it drops a drawn value, and no other flag (R131). -/
theorem State.flush_flagsDrop (s : State) (q : Nat) : s.FlagsDrop (s.flush q) (s.flushDrops q) := by
  obtain ⟨u, hheld, hvoids, hsup, hu⟩ := s.flushed_inserts q
  have hevents : (s.flush q).sup.events = (u.insertValues (s.returned q)).sup.events := by
    rw [State.flush_eq, State.withdrawNote_sup, State.withdrawNote_sup, hu]
  refine (State.insertValues_flagsDrop _ u).congr (by rw [hsup]) hevents ?_
  rw [State.dropsInserting_congr (s := s.keepBelow q) hheld hvoids, State.keepBelow_eq, State.flush_queue_eq, State.flush_values]
  rfl

/-- A flush changes the slots, the queue, the void list and the event flags. -/
theorem State.flush_frame (s : State) (q : Nat) : s.flush q = { s with
    slotA := (s.flush q).slotA, slotB := (s.flush q).slotB, queue := (s.flush q).queue, voids := (s.flush q).voids
    sup := { s.sup with events := (s.flush q).sup.events } } :=
  State.eq_of_fields (by simp) rfl rfl rfl (by simp) (by simp) rfl (by simp) (State.port_congr (State.flush_ports s q))
    (s.raises_flush q).sup_eq (by simp) (by simp)

end

/-- Settles O32: each slot by its oldest removed item, and the drawn values as one insertion after another. -/
theorem flushTakesBackNumbers : Obligations.FlushTakesBackNumbers := by
  intro q s t lost
  refine ⟨s.flush_queue_eq q, fun i hd hf => State.flush_slot_kept (State.removedBefore_eq_none hd hf), fun i b hb => ?_, ?_,
    s.flush_flagsDrop q, s.flush_frame q⟩
  · have hrem : s.removedBefore q i = some b := by
      rcases hb with ⟨d, hd, rfl⟩ | ⟨hd, f, hf, hk, hq, rfl⟩
      · exact State.removedBefore_draft hd
      · exact State.removedBefore_fill hd hf hk hq
    intro j
    have hslot : t.slot i = _ := State.flush_slot_removed hrem
    refine ⟨?_, fun a c x hc hx => ?_⟩
    · rw [hslot]
      have hfinal : s.withdrawnFinal i = match s.staged with
          | some (_, rc) => if j.state ≠ .running then .unset
            else if (∃ f, j.first = some f ∧ rc ≤ f) ∨ rc = 0 then .empty else .known (rc - 1)
          | none => .unset := by
        unfold State.withdrawnFinal
        cases s.staged with
        | none => rfl
        | some z =>
          by_cases hr : (s.slot i).state = .running
          · simp [hr, JobSlot.cutAt, Option.any_eq_true, j]
          · simp [hr, j]
      generalize s.withdrawnFinal i = final at hfinal ⊢
      subst hfinal
      rfl
    · rw [hslot]
      exact JobSlot.restore_counter hc hx
  · rw [s.flush_voids q, State.flush_values]

end Sys2Proof.Machine
end
section
/-! What a closure does to the record, the tally, the void list, the ports and the pending queue (R72, R80, R97 to R102). -/

namespace Sys2Proof.Machine

/-! ### The ports (R72) -/

section
variable {x : Port} {r : Nat}

theorem FetchOut.numbersFor_iff {f : FetchOut} : f.numbersFor r = true ↔ (∃ tag ps, f.answer = .numbers r tag ps) ∧ f.fromReady = true := by
  unfold FetchOut.numbersFor
  cases ha : f.answer with
  | numbers r' tag ps =>
    simp only [Bool.and_eq_true, decide_eq_true_eq, Answer.numbers.injEq, exists_and_left, exists_eq', and_true]
    exact and_comm
  | _ => simp

/-- The port is clocking out its NUMBERS answer for `r`. -/
def Port.clocks (x : Port) (r : Nat) : Bool := x.fetch.any fun f => f.numbersFor r

theorem Port.clocks_iff : x.clocks r = true ↔ ∃ f tag ps, x.fetch = some f ∧ f.answer = .numbers r tag ps ∧ f.fromReady = true := by
  simp only [Port.clocks, Option.any_eq_true, FetchOut.numbersFor_iff]
  constructor
  · rintro ⟨f, hf, ⟨tag, ps, ha⟩, hr⟩
    exact ⟨f, tag, ps, hf, ha, hr⟩
  · rintro ⟨f, tag, ps, hf, ha, hr⟩
    exact ⟨f, hf, ⟨tag, ps, ha⟩, hr⟩

/-- The answer being clocked out is marked where its record closed. -/
def FetchOut.marked (f : FetchOut) (r : Nat) : FetchOut := if f.numbersFor r then { f with recordClosed := true } else f

/-- What the closure leaves in the request slot. -/
def ReqSlot.recordCloses (z : ReqSlot) (r : Nat) (clocking : Bool) : ReqSlot :=
  match z with
  | .preparing q (.building (.numbers r' _ _)) => if r' = r then .preparing q (.building (.late r)) else z
  | .held q (.building (.numbers r' _ _)) => if r' = r then .held q (.building (.late r)) else z
  | .ready q (.numbers r' _ _) => if r' = r ∧ clocking = false then .ready q (.late r) else z
  | _ => z

/-- A READY answer for `r` that is not being clocked out becomes LATE, and counts late. -/
def ReqSlot.turnsLate (z : ReqSlot) (r : Nat) (clocking : Bool) : Bool :=
  match z with
  | .ready _ (.numbers r' _ _) => r' = r && !clocking
  | _ => false

theorem Port.recordCloses_eq (x : Port) (r : Nat) : x.recordCloses r = { x with
    slot := x.slot.recordCloses r (x.clocks r)
    late := if x.slot.turnsLate r (x.clocks r) then min (x.late + 1) 65535 else x.late
    fetch := x.fetch.map fun f => f.marked r } := by
  unfold Port.recordCloses
  dsimp only
  have hmap : (fun f : FetchOut => if f.numbersFor r then { f with recordClosed := true } else f) = fun f => f.marked r := rfl
  rw [hmap]
  cases hz : x.slot with
  | none => simp only [ReqSlot.recordCloses, ReqSlot.turnsLate, Bool.false_eq_true, if_false, ← hz]
  | preparing q ph =>
    cases ph with
    | waiting => simp only [ReqSlot.recordCloses, ReqSlot.turnsLate, Bool.false_eq_true, if_false, ← hz]
    | building a =>
      cases a with
      | numbers r' tag ps =>
        by_cases hr : r' = r <;>
          simp only [ReqSlot.recordCloses, ReqSlot.turnsLate, hr, if_true, if_false, Bool.false_eq_true, ← hz]
      | _ => simp only [ReqSlot.recordCloses, ReqSlot.turnsLate, Bool.false_eq_true, if_false, ← hz]
  | held q ph =>
    cases ph with
    | waiting => simp only [ReqSlot.recordCloses, ReqSlot.turnsLate, Bool.false_eq_true, if_false, ← hz]
    | building a =>
      cases a with
      | numbers r' tag ps =>
        by_cases hr : r' = r <;>
          simp only [ReqSlot.recordCloses, ReqSlot.turnsLate, hr, if_true, if_false, Bool.false_eq_true, ← hz]
      | _ => simp only [ReqSlot.recordCloses, ReqSlot.turnsLate, Bool.false_eq_true, if_false, ← hz]
  | ready q a =>
    cases a with
    | numbers r' tag ps =>
      have hclocks : (x.fetch.any fun f => f.numbersFor r) = x.clocks r := rfl
      rw [hclocks]
      by_cases hr : r' = r <;> cases hc : x.clocks r <;>
        simp only [ReqSlot.recordCloses, ReqSlot.turnsLate, hr, Port.lateReady, satAdd, max16, true_and, false_and, if_true, if_false,
          decide_true, decide_false, Bool.true_and, Bool.false_and, Bool.not_false, Bool.not_true, Bool.false_eq_true, reduceCtorEq, ← hz]
    | _ => simp only [ReqSlot.recordCloses, ReqSlot.turnsLate, Bool.false_eq_true, if_false, ← hz]

theorem ReqSlot.recordCloses_ready {q : Request} {tag : Nat} {ps : List NumberPos} {z : ReqSlot} {b : Bool}
    (h : z = .ready q (.numbers r tag ps)) : z.recordCloses r b = if b then z else .ready q (.late r) := by
  subst h
  cases b <;> simp [ReqSlot.recordCloses]

/-- A slot without a NUMBERS answer for the record stands (R72). -/
theorem ReqSlot.recordCloses_other {z : ReqSlot} {b : Bool} (h : ∀ q tag ps, z ≠ .preparing q (.building (.numbers r tag ps)) ∧
    z ≠ .held q (.building (.numbers r tag ps)) ∧ z ≠ .ready q (.numbers r tag ps)) : z.recordCloses r b = z := by
  unfold ReqSlot.recordCloses
  split
  · rename_i q r' tag ps
    refine if_neg ?_
    rintro rfl
    exact (h q tag ps).1 rfl
  · rename_i q r' tag ps
    refine if_neg ?_
    rintro rfl
    exact (h q tag ps).2.1 rfl
  · rename_i q r' tag ps
    refine if_neg ?_
    rintro ⟨rfl, -⟩
    exact (h q tag ps).2.2 rfl
  · rfl

theorem ReqSlot.turnsLate_iff {z : ReqSlot} {b : Bool} : z.turnsLate r b = true ↔ (∃ q tag ps, z = .ready q (.numbers r tag ps)) ∧ b = false := by
  unfold ReqSlot.turnsLate
  split
  · rename_i q r' tag ps
    simp only [Bool.and_eq_true, decide_eq_true_eq, Bool.not_eq_true', ReqSlot.ready.injEq, Answer.numbers.injEq]
    exact and_congr_left' ⟨fun hr => ⟨q, tag, ps, rfl, hr, rfl, rfl⟩, fun ⟨_, _, _, _, hr, _⟩ => hr⟩
  · rename_i hno
    refine ⟨fun h => Bool.noConfusion h, fun ⟨⟨q, tag, ps, hz⟩, _⟩ => absurd hz (hno q r tag ps)⟩

/-- What a closure leaves at a port, read off its slot and its FETCH. -/
theorem Port.recordCloses_spec (a : Port) (r : Nat) :
    let b := a.recordCloses r
    let clocked := ∃ f tag ps, a.fetch = some f ∧ f.answer = .numbers r tag ps ∧ f.fromReady = true
    (∀ q tag ps, a.slot = .preparing q (.building (.numbers r tag ps)) → b.slot = .preparing q (.building (.late r))) ∧
    (∀ q tag ps, a.slot = .held q (.building (.numbers r tag ps)) → b.slot = .held q (.building (.late r))) ∧
    (∀ q tag ps, a.slot = .ready q (.numbers r tag ps) → ¬ clocked → b.slot = .ready q (.late r) ∧ b.late = min (a.late + 1) 65535) ∧
    (∀ q tag ps, a.slot = .ready q (.numbers r tag ps) → clocked → b.slot = a.slot) ∧
    (∀ f tag ps, a.fetch = some f → f.answer = .numbers r tag ps → f.fromReady = true → b.fetch = some { f with recordClosed := true }) ∧
    (¬ clocked → b.fetch = a.fetch) ∧
    ((∀ q tag ps, a.slot ≠ .preparing q (.building (.numbers r tag ps)) ∧ a.slot ≠ .held q (.building (.numbers r tag ps)) ∧
        a.slot ≠ .ready q (.numbers r tag ps)) → b.slot = a.slot) ∧
    ((∀ q tag ps, a.slot ≠ .ready q (.numbers r tag ps)) ∨ clocked → b.late = a.late) ∧
    b = { a with slot := b.slot, late := b.late, fetch := b.fetch } := by
  rw [← Port.clocks_iff, Port.recordCloses_eq]
  dsimp only
  refine ⟨fun q tag ps hz => ?_, fun q tag ps hz => ?_, fun q tag ps hz hc => ?_, fun q tag ps hz hc => ?_, fun f tag ps hf ha hr => ?_,
    fun hc => ?_, fun h => ReqSlot.recordCloses_other h, fun h => if_neg fun ht => ?_, rfl⟩
  · rw [hz]
    exact if_pos rfl
  · rw [hz]
    exact if_pos rfl
  · rw [Bool.not_eq_true] at hc
    rw [ReqSlot.recordCloses_ready hz, hc, if_neg Bool.false_ne_true, if_pos (ReqSlot.turnsLate_iff.mpr ⟨⟨q, tag, ps, hz⟩, rfl⟩)]
    exact ⟨rfl, rfl⟩
  · rw [ReqSlot.recordCloses_ready hz, if_pos hc]
  · rw [hf, Option.map_some, FetchOut.marked, if_pos (FetchOut.numbersFor_iff.mpr ⟨⟨tag, ps, ha⟩, hr⟩)]
  · cases hf : a.fetch with
    | none => rfl
    | some f =>
      rw [Port.clocks, hf] at hc
      rw [Option.map_some, FetchOut.marked, if_neg (show ¬ f.numbersFor r = true from hc)]
  · obtain ⟨⟨q, tag, ps, hz⟩, hc⟩ := ReqSlot.turnsLate_iff.mp ht
    rcases h with h | h
    · exact h q tag ps hz
    · rw [h] at hc
      cases hc

end

/-! ### The closure -/

section
variable {s : State} {r : Nat} {x : Record} {kind : Closure} {codes : Bytes}

theorem State.settleRecord_window (s : State) (y : Record) : (s.settleRecord y).window =
    { s.window with records := s.window.records.map fun z => if z.repeatIndex = y.repeatIndex then y else z } := by
  rw [State.settleRecord, State.mapPorts_window, State.modSlot_window]
  rfl

theorem State.settleRecord_port (s : State) (y : Record) (p : PortId) :
    (s.settleRecord y).port p = (s.port p).recordCloses y.repeatIndex := by
  rw [State.settleRecord, State.mapPorts_port, State.modSlot_port, State.modRecord_port]

/-- What the values held are after the record settled (R130): as the window then stands. -/
theorem State.settleRecord_heldValues (s : State) (y : Record) :
    (s.settleRecord y).heldValues = ({ s with window := (s.settleRecord y).window } : State).heldValues :=
  State.heldValues_congr (State.settleRecord_queue s y) rfl fun i => by
    rw [State.settleRecord_slot]
    split_ifs <;> rfl

theorem State.closeRecord_of (h : s.record r = some x) (ha : x.closure = .awaiting) : s.closeRecord r kind codes =
    ((s.settleRecord (x.close kind s.plan.plySet codes)).insertValues (x.close kind s.plan.plySet codes).voided).enqueue (.repeatItem r) := by
  rw [State.closeRecord, h]
  dsimp only
  rw [if_neg (not_not.mpr ha), show (x.close kind s.plan.plySet codes).repeatIndex = r from State.record_index (rec := x) h]

/-- The values that a closed record voids (R101). -/
theorem Record.voided_eq (y : Record) : y.voided =
    y.positions.filterMap fun z => if z.outcome = .delivered ∨ z.outcome = .blank then none else z.entry.value := by
  rw [Record.voided]
  refine congrArg (fun f => y.positions.filterMap f) (funext fun z => ?_)
  cases z.outcome <;> rfl

/-- One tally count for each numbered position, by its outcome (R100). -/
theorem Tally.closing_eq (l : Tally) (y : Record) :
    let n := fun os : List PosOutcome => (y.positions.filter fun z => z.entry.value.isSome && os.contains z.outcome).length
    l.closing y = { l with
      delivered := min (l.delivered + n [.delivered]) 4294967295
      voidStation := min (l.voidStation + n [.waste, .misfire, .stationLost, .unserved]) 4294967295
      voidReader := min (l.voidReader + n [.plyMissing, .mismatch, .unreadable, .noForm]) 4294967295
      voidUnverified := min (l.voidUnverified + n [.unverified]) 4294967295
      voidAborted := min (l.voidAborted + n [.aborted]) 4294967295 } := by
  intro n
  have count : ∀ (f : PosOutcome → Bool) (os : List PosOutcome), (∀ o, f o = os.contains o) →
      y.positions.countP (fun p => p.numbered && f p.outcome) = n os := fun f os h => by
    rw [List.countP_eq_length_filter]
    exact congrArg (fun g => (y.positions.filter g).length) (funext fun z => by rw [h]; rfl)
  rw [Tally.closing]
  dsimp only
  rw [count (fun o => o = .delivered) [.delivered] (fun o => by cases o <;> rfl),
    count PosOutcome.isStation [.waste, .misfire, .stationLost, .unserved] (fun o => by cases o <;> rfl),
    count PosOutcome.isReader [.plyMissing, .mismatch, .unreadable, .noForm] (fun o => by cases o <;> rfl),
    count (fun o => o = .unverified) [.unverified] (fun o => by cases o <;> rfl),
    count (fun o => o = .aborted) [.aborted] (fun o => by cases o <;> rfl)]
  rfl

end

/-- Settles O53: the record settles with its tally and the ports, its values go to the void list, and it joins the queue. -/
theorem closureTakesEffect : Obligations.ClosureTakesEffect := by
  intro r x kind codes s hx ha hkind y t n l
  have ht : t = ((s.settleRecord y).insertValues y.voided).enqueue (.repeatItem r) := State.closeRecord_of hx ha
  have hr : y.repeatIndex = r := State.record_index (rec := x) hx
  have hwindow : t.window = (s.settleRecord y).window := by rw [ht, State.enqueue_window, State.insertValues_window]
  have hslot (k : SlotId) : t.slot k = (s.settleRecord y).slot k := by rw [ht, State.enqueue_slot, State.insertValues_slot]
  have hport (p : PortId) : t.port p = (s.port p).recordCloses r := by
    rw [ht, State.enqueue_port, State.insertValues_port, State.settleRecord_port, hr]
  have hheld : (s.settleRecord y).heldValues = ({ s with window := t.window } : State).heldValues := by
    rw [hwindow, State.settleRecord_heldValues]
  refine ⟨rfl, ?_, ?_, ?_, ⟨?_, ?_⟩, ?_, fun p => ?_, ?_⟩
  · rw [hwindow, State.settleRecord_window, hr]
  · rw [hslot, State.settleRecord_slot]
    exact (if_pos rfl).trans (congrArg (fun l => { s.slot x.slot with tally := l }) (Tally.closing_eq l y))
  · rw [hslot, State.settleRecord_slot]
    exact if_neg (SlotId.other_ne x.slot)
  · rw [← Record.voided_eq]
    refine (congrArg State.voids ht).trans ((State.enqueue_voids _ _).trans ?_)
    exact State.insertValues_voids_congr _ hheld (State.settleRecord_voids s y)
  · refine (State.insertValues_flagsDrop y.voided (s.settleRecord y)).congr ?_ ?_ ?_
    · rw [State.settleRecord_sup]
    · rw [ht, State.enqueue_sup]
    · rw [State.dropsInserting_congr hheld (State.settleRecord_voids s y), Record.voided_eq]
  · rw [ht, State.enqueue, State.insertValues_account, State.settleRecord_account]
  · have h := Port.recordCloses_spec (s.port p) r
    rw [← hport p] at h
    exact h
  · exact State.eq_of_fields (by simp [t]) rfl rfl (by simp [t]) rfl (by simp [t]) rfl rfl (fun p => rfl)
      (s.raises_closeRecord r kind codes).sup_eq (by simp [t]) (by simp [t])

end Sys2Proof.Machine
end
section
/-! Handling a good frame (R91 to R94): the closure it begins and the insertions each step of handling takes (R132). -/

namespace Sys2Proof.Machine

section
variable {s : State} {f : Frame} {c : Closing} {n : Option Nat} {m : Nat}

theorem exec_closeUnverified : exec (.closeUnverified n) s = execCloseUnverified s n := rfl

theorem exec_frameVerdict : exec (.frameVerdict n) s = execFrameVerdict s n := rfl

/-! ### The insertions of a closure in progress (R132) -/

/-- Insertions do not look at the closure in progress. -/
theorem State.insertValues_setClosing (c : Option Closing) (xs : List Nat) : ∀ s : State,
    (s.setClosing c).insertValues xs = (s.insertValues xs).setClosing c := by
  induction xs with
  | nil => exact fun _ => rfl
  | cons x xs ih =>
    intro s
    have one : (s.setClosing c).insertValue x = (s.insertValue x).setClosing c := by
      show (s.setClosing c).insertRange x x = (s.insertRange x x).setClosing c
      have hheld : (s.setClosing c).heldValues = s.heldValues := rfl
      rw [State.insertRange, State.insertRange, hheld]
      show State.raiseIf _ (s.voids.dropsSome (piecesWithout s.heldValues x x)) _ = _
      cases s.voids.dropsSome (piecesWithout s.heldValues x x) <;> rfl
    exact (congrArg (fun t => t.insertValues xs) one).trans (ih (s.insertValue x))

theorem State.setClosing_of_eq {c : Option Closing} (h : s.window.closing = c) : s.setClosing c = s := by
  subst h
  rfl

theorem State.takeInsertions_some (h : s.window.closing = some c) (hn : n = some m) (hm : m < c.values.length) :
    s.takeInsertions n = (s.insertValues (c.values.take m)).setClosing (some { c with values := c.values.drop m }) := by
  rw [State.takeInsertions, h, hn]
  exact if_neg (Nat.not_le.mpr hm)

theorem State.takeInsertions_all (h : s.window.closing = some c) (hn : ∀ m, n = some m → c.values.length ≤ m) :
    s.takeInsertions n = (s.insertValues c.values).endClosing c.repeatIndex := by
  have hlen : c.values.length ≤ n.getD c.values.length := by
    cases n with
    | none => exact Nat.le_refl _
    | some m => exact hn m rfl
  rw [State.takeInsertions, h]
  dsimp only
  rw [if_pos hlen, List.take_of_length_le hlen]

/-! ### The end of handling (R91) -/

theorem State.handled_of (ha : s.receiver.asm = .handling) (hf : s.receiver.frame = some f) : s.handled = some f :=
  (if_pos ha).trans hf

/-- The end of handling of frame `f`, its repeat the last verdict repeat. -/
def State.endsHandling (t : State) (v : Receiver) (f : Frame) : State :=
  { t with receiver := { v with asm := .hunt, frame := none, lastVerdict := some f.index } }

theorem State.endClosing_of {v : Receiver} (hv : s.receiver = v) (ha : v.asm = .handling) (hf : v.frame = some f) (r : Nat) :
    s.endClosing r = if r = f.index then ((s.setClosing none).enqueue (.repeatItem r)).endsHandling v f
      else (s.setClosing none).enqueue (.repeatItem r) := by
  subst hv
  rw [State.endClosing, State.handled_of ha hf]
  dsimp only [Option.any_some]
  by_cases hr : r = f.index
  · rw [if_pos hr, if_pos (decide_eq_true hr.symm), hr]
    rfl
  · rw [if_neg hr, if_neg fun h => hr (of_decide_eq_true h).symm]

/-! ### The records of a window in order -/

/-- The lowest AWAITING record below the frame's repeat (R93). -/
theorem State.awaitingBelow_eq_some (hw : s.window.ok) {y : Record} {r : Nat} (hy : y ∈ s.window.records)
    (hb : y.closure = .awaiting ∧ y.repeatIndex < r)
    (hl : ∀ z ∈ s.window.records, z.closure = .awaiting ∧ z.repeatIndex < r → y.repeatIndex ≤ z.repeatIndex) : s.awaitingBelow r = some y := by
  have hpair : s.awaiting.Pairwise fun a b => a.repeatIndex < b.repeatIndex := hw.1.filter _
  have hya : y ∈ s.awaiting := List.mem_filter.mpr ⟨hy, decide_eq_true hb.1⟩
  obtain ⟨as, bs, hsplit⟩ := List.append_of_mem hya
  refine List.find?_eq_some_iff_append.mpr ⟨decide_eq_true hb.2, as, bs, hsplit, fun z hz => ?_⟩
  rw [hsplit] at hpair
  have hlt : z.repeatIndex < y.repeatIndex := (List.pairwise_append.mp hpair).2.2 z hz y List.mem_cons_self
  have hmem : z ∈ s.awaiting := hsplit ▸ List.mem_append_left _ hz
  obtain ⟨hz', ha⟩ := List.mem_filter.mp hmem
  rw [Bool.not_eq_true', decide_eq_false_iff_not]
  exact fun hr => absurd (hl z hz' ⟨of_decide_eq_true ha, hr⟩) (Nat.not_le.mpr hlt)

theorem State.awaitingBelow_eq_none {r : Nat} (h : ∀ y ∈ s.window.records, ¬ (y.closure = .awaiting ∧ y.repeatIndex < r)) :
    s.awaitingBelow r = none := by
  rw [State.awaitingBelow, State.awaiting, List.find?_eq_none]
  intro y hy hlt
  rw [List.mem_filter] at hy
  exact h y hy.1 ⟨of_decide_eq_true hy.2, of_decide_eq_true hlt⟩

/-! ### The closure a step of handling begins -/

section
variable {y : Record} {kind : Closure} {codes : Bytes}

theorem State.beginClosing_of {r : Nat} (h : s.record r = some y) (ha : y.closure = .awaiting) : s.beginClosing r kind codes =
    (s.settleRecord (y.close kind s.plan.plySet codes)).setClosing
      (some { repeatIndex := r, values := (y.close kind s.plan.plySet codes).voided }) := by
  rw [State.beginClosing, h]
  dsimp only
  rw [if_neg (not_not.mpr ha), show (y.close kind s.plan.plySet codes).repeatIndex = r from State.record_index (rec := y) h]

/-- With insertions enough the closure is taken whole, and with the frame's own record handling ends. -/
theorem State.beginClosing_all (hasm : s.receiver.asm = .handling) (hframe : s.receiver.frame = some f) (hc : s.window.closing = none)
    {r : Nat} (h : s.record r = some y) (ha : y.closure = .awaiting)
    (hn : ∀ m, n = some m → (y.close kind s.plan.plySet codes).voided.length ≤ m) :
    (s.beginClosing r kind codes).takeInsertions n = if r = f.index then (s.closeRecord r kind codes).endsHandling s.receiver f
      else s.closeRecord r kind codes := by
  have hrec : ((s.beginClosing r kind codes).insertValues (y.close kind s.plan.plySet codes).voided).receiver = s.receiver := by
    rw [State.insertValues_receiver, State.beginClosing_receiver]
  rw [State.takeInsertions_all (congrArg (fun t => t.window.closing) (State.beginClosing_of h ha)) hn,
    State.endClosing_of hrec hasm hframe]
  have hclose : (((s.beginClosing r kind codes).insertValues (y.close kind s.plan.plySet codes).voided).setClosing none).enqueue
      (.repeatItem r) = s.closeRecord r kind codes := by
    rw [State.closeRecord_of h ha, State.beginClosing_of h ha, State.insertValues_setClosing]
    have hnone : ((s.settleRecord (y.close kind s.plan.plySet codes)).insertValues
        (y.close kind s.plan.plySet codes).voided).window.closing = none := by
      rw [State.insertValues_window, State.settleRecord_window]
      exact hc
    exact congrArg (fun t : State => t.enqueue (.repeatItem r)) (State.setClosing_of_eq hnone)
  rw [hclose]

/-- With fewer the values left wait in the closure. -/
theorem State.beginClosing_some {r : Nat} (h : s.record r = some y) (ha : y.closure = .awaiting) (hn : n = some m)
    (hm : m < (y.close kind s.plan.plySet codes).voided.length) :
    (s.beginClosing r kind codes).takeInsertions n =
      (({ s.closeRecord r kind codes with voids := s.voids, account := s.account, sup := s.sup } : State).insertValues
        ((y.close kind s.plan.plySet codes).voided.take m)).setClosing
          (some { repeatIndex := r, values := (y.close kind s.plan.plySet codes).voided.drop m }) := by
  have hsettled : ({ s.closeRecord r kind codes with voids := s.voids, account := s.account, sup := s.sup } : State) =
      s.settleRecord (y.close kind s.plan.plySet codes) := by
    rw [State.closeRecord_of h ha]
    refine State.eq_of_fields ?_ ?_ ?_ ?_ ?_ ?_ ?_ ?_ (State.port_congr ?_) ?_ ?_ ?_ <;> simp
  rw [State.takeInsertions_some (congrArg (fun t => t.window.closing) (State.beginClosing_of h ha)) hn hm, hsettled,
    State.beginClosing_of h ha, State.insertValues_setClosing]
  rfl

end

/-! ### The two rows of handling -/

theorem execCloseUnverified_below (hasm : s.receiver.asm = .handling) (hframe : s.receiver.frame = some f) (hc : s.window.closing = none)
    {y : Record} (hy : s.awaitingBelow f.index = some y) :
    exec (.closeUnverified n) s = .next ((s.beginClosing y.repeatIndex .unverified []).takeInsertions n) := by
  rw [exec_closeUnverified, execCloseUnverified, hc, State.handled_of hasm hframe]
  dsimp only
  rw [hy]

theorem execCloseUnverified_none (hasm : s.receiver.asm = .handling) (hframe : s.receiver.frame = some f) (hc : s.window.closing = none)
    (hy : s.awaitingBelow f.index = none) : exec (.closeUnverified n) s = .next s := by
  rw [exec_closeUnverified, execCloseUnverified, hc, State.handled_of hasm hframe]
  dsimp only
  rw [hy]

theorem execFrameVerdict_below (hasm : s.receiver.asm = .handling) (hframe : s.receiver.frame = some f) (hc : s.window.closing = none)
    {y : Record} (hy : s.awaitingBelow f.index = some y) : exec (.frameVerdict n) s = .next s := by
  rw [exec_frameVerdict, execFrameVerdict, hc, State.handled_of hasm hframe]
  dsimp only
  rw [hy]

theorem execFrameVerdict_none (hasm : s.receiver.asm = .handling) (hframe : s.receiver.frame = some f) (hc : s.window.closing = none)
    (hy : s.awaitingBelow f.index = none) : exec (.frameVerdict n) s = .next (s.frameVerdict n f) := by
  rw [exec_frameVerdict, execFrameVerdict, hc, State.handled_of hasm hframe]
  dsimp only
  rw [hy]

theorem State.frameVerdict_closes {y : Record} (h : s.record f.index = some y) (ha : y.closure = .awaiting)
    (hlen : f.codes.length = y.positions.length) :
    s.frameVerdict n f = (s.beginClosing f.index .verified f.codes).takeInsertions n := by
  rw [State.frameVerdict, h]
  dsimp only
  rw [if_pos ha, if_neg (not_not.mpr hlen)]

theorem State.frameVerdict_shape {y : Record} (h : s.record f.index = some y) (ha : y.closure = .awaiting)
    (hlen : f.codes.length ≠ y.positions.length) : s.frameVerdict n f = { s with
      receiver := { s.receiver with asm := .hunt, frame := none, shapeMismatches := min (s.receiver.shapeMismatches + 1) 4294967295 }
      sup := { s.sup with events := s.sup.events ||| 0x080 } } := by
  rw [State.frameVerdict, h]
  dsimp only
  rw [if_pos ha, if_pos hlen]
  rfl

theorem State.frameVerdict_noRecord (h : ∀ y, s.record f.index = some y → y.closure ≠ .awaiting) : s.frameVerdict n f =
    { s with receiver := { s.receiver with
      asm := .hunt, frame := none, noRecords := min (s.receiver.noRecords + 1) 4294967295, lastVerdict := some f.index } } := by
  rw [State.frameVerdict]
  cases hrec : s.record f.index with
  | none => rfl
  | some y =>
    dsimp only
    rw [if_neg (h y hrec)]
    rfl

/-- While a closure is in progress either row takes what is left of it (R132). -/
theorem exec_handling_closing (hc : s.window.closing = some c) {i : Instr} (hi : i ∈ [Instr.closeUnverified n, .frameVerdict n]) :
    exec i s = .next (s.takeInsertions n) := by
  simp only [List.mem_cons, List.not_mem_nil, or_false] at hi
  rcases hi with rfl | rfl
  · rw [exec_closeUnverified, execCloseUnverified, hc]
  · rw [exec_frameVerdict, execFrameVerdict, hc]

end

/-- Settles O54: with no closure in progress the step begins one, by the frame's row; else it takes what is left of it. -/
theorem handlingClosesRecords : Obligations.HandlingClosesRecords := by
  intro f n s hasm hframe hw below ended rest closes
  have closed : ∀ (i : Instr) (y : Record) (kind : Closure) (codes : Bytes), s.window.closing = none → s.record y.repeatIndex = some y →
      y.closure = .awaiting → exec i s = .next ((s.beginClosing y.repeatIndex kind codes).takeInsertions n) →
      closes i y kind codes := by
    intro i y kind codes hc hrec ha hexec
    dsimp only [closes]
    rw [hexec, ← Record.voided_eq]
    refine ⟨fun hn => ?_, fun m hn hm => ?_⟩
    · rw [State.beginClosing_all hasm hframe hc hrec ha hn]
      rfl
    · rw [State.beginClosing_some hrec ha hn hm]
      rfl
  refine ⟨fun hc => ⟨fun y hy hb hl => ?_, fun hno => ?_⟩, fun c hc i hi => ?_⟩
  · have hbelow := State.awaitingBelow_eq_some hw hy hb hl
    exact ⟨closed _ y _ _ hc (State.record_of_mem hw hy) hb.1 (execCloseUnverified_below hasm hframe hc hbelow),
      execFrameVerdict_below hasm hframe hc hbelow⟩
  · have hnone := State.awaitingBelow_eq_none hno
    have hverdict := execFrameVerdict_none (n := n) hasm hframe hc hnone
    refine ⟨execCloseUnverified_none hasm hframe hc hnone, fun y hy ha hlen => ?_, fun y hy ha hlen => ?_, fun h => ?_⟩
    · have hr := State.record_index hy
      refine closed _ y _ _ hc (by rw [hr, hy]) ha ?_
      rw [hverdict, State.frameVerdict_closes hy ha hlen, hr]
    · rw [hverdict, State.frameVerdict_shape hy ha hlen]
    · rw [hverdict, State.frameVerdict_noRecord h]
  · rw [exec_handling_closing hc hi]
    refine ⟨fun m hn hm => congrArg Host.Outcome.next (State.takeInsertions_some hc hn hm), fun hn => ?_⟩
    intro u t
    rw [State.takeInsertions_all hc hn, State.endClosing_of (State.insertValues_receiver s c.values) hasm hframe]
    rfl

end Sys2Proof.Machine
end
section
/-! Appends in turn end (R148, R153): what may yet join the pending queue is bounded, so the attempts after a release come to a state with none due. -/

namespace Sys2Proof.Machine

section
variable {s t : State} {k : SlotId}

/-! ### What may yet join the pending queue -/

/-- The items that a slot may yet add to the pending queue while appends go on: a JOB_END unless it is ENDED or one waits, and where a change to it
is staged a JOB_START and a JOB_END after it. -/
def JobSlot.owed (j : JobSlot) (endWaits : Bool) : Nat :=
  (if j.state ≠ .ended ∧ endWaits = false then 1 else 0) + if j.change.isSome then 2 else 0

def State.owed (s : State) (k : SlotId) : Nat := (s.slot k).owed (s.account.queue.any (Item.isJobEndOf k))

/-- The items waiting with those that may yet join them. -/
def State.budget (s : State) : Nat := s.account.queue.length + (s.owed .A + s.owed .B)

theorem JobSlot.owed_le (j : JobSlot) (b : Bool) : j.owed b ≤ 3 := by
  unfold JobSlot.owed
  split_ifs <;> omega

theorem State.budget_lt (s : State) : s.budget < s.account.queue.length + 8 := by
  have ha : s.owed .A ≤ 3 := JobSlot.owed_le _ _
  have hb : s.owed .B ≤ 3 := JobSlot.owed_le _ _
  unfold State.budget
  omega

theorem State.budget_eq (s : State) (k : SlotId) : s.budget = s.account.queue.length + (s.owed k + s.owed k.other) := by
  cases k
  · rfl
  · show _ + (s.owed .A + s.owed .B) = _ + (s.owed .B + s.owed .A)
    omega

theorem State.owed_congr (hk : (t.slot k).state = (s.slot k).state ∧ (t.slot k).change = (s.slot k).change)
    (hq : t.account.queue = s.account.queue) : t.owed k = s.owed k := by
  unfold State.owed JobSlot.owed
  rw [hk.1, hk.2, hq]

theorem State.budget_congr (hk : ∀ k, (t.slot k).state = (s.slot k).state ∧ (t.slot k).change = (s.slot k).change)
    (hq : t.account.queue = s.account.queue) : t.budget = s.budget := by
  rw [State.budget, State.budget, State.owed_congr (hk .A) hq, State.owed_congr (hk .B) hq, hq]

theorem State.budget_of_standing (h : t.standing = s.standing) : t.budget = s.budget :=
  State.budget_congr (fun k => ⟨State.slot_state h k, State.slot_change h k⟩) (State.items_of_standing h)

/-! ### Job control -/

theorem State.budget_queueJobEnd (s : State) (k : SlotId) : (s.queueJobEnd k).budget ≤ s.budget := by
  unfold State.queueJobEnd
  split_ifs with h
  · obtain ⟨hdrain, -, hwaits⟩ := h
    have hself : (s.enqueue (.jobEnd k (s.slot k).endBytes)).owed k + 1 = s.owed k := by
      unfold State.owed JobSlot.owed
      rw [State.enqueue_slot, State.enqueue]
      simp [hwaits, hdrain, Item.isJobEndOf]
      omega
    have hother : (s.enqueue (.jobEnd k (s.slot k).endBytes)).owed k.other = s.owed k.other := by
      unfold State.owed
      rw [State.enqueue_slot, State.enqueue]
      simp [Item.isJobEndOf, SlotId.other_ne k]
    have hlen : (s.enqueue (.jobEnd k (s.slot k).endBytes)).account.queue.length = s.account.queue.length + 1 := by simp [State.enqueue]
    rw [State.budget_eq _ k, State.budget_eq s k, hother, hlen]
    omega
  · exact Nat.le_refl _

theorem State.owed_modSlot (s : State) (i k : SlotId) (f : JobSlot → JobSlot) : (s.modSlot i f).owed k =
    ((s.modSlot i f).slot k).owed (s.account.queue.any (Item.isJobEndOf k)) := by rw [State.owed, State.modSlot_account]

/-- A slot that runs and drains owes what it owed. -/
theorem State.budget_drains {i : SlotId} (h : (s.slot i).state = .running) :
    (s.modSlot i fun j => { j with state := .draining }).budget = s.budget := by
  have howed (k : SlotId) : (s.modSlot i fun j => { j with state := .draining }).owed k = s.owed k := by
    rw [State.owed_modSlot, State.modSlot_slot]
    split_ifs with hk
    · subst hk
      simp [State.owed, JobSlot.owed, h]
    · rfl
  rw [State.budget, State.budget, howed, howed, State.modSlot_account]

theorem State.budget_drain {i : SlotId} (h : (s.slot i).state = .running) : (s.drain i).budget ≤ s.budget :=
  (State.budget_queueJobEnd _ i).trans (State.budget_drains h).le

/-- A staged change that takes effect uses up what it owed: its JOB_START, and the JOB_END after it. -/
theorem State.budget_changeTakesEffect (s : State) : s.changeTakesEffect.budget ≤ s.budget := by
  unfold State.changeTakesEffect
  split
  · rename_i old new rc hold hnew
    refine (State.budget_queueJobEnd _ _).trans ((State.budget_queueJobEnd _ _).trans ?_)
    rw [State.budget_of_standing (State.standing_raise _ _)]
    have hdrains := State.budget_drains (State.runningSlot_state hold)
    have hchange : ((s.modSlot old fun j => { j with state := .draining }).slot new).change.isSome = true := by
      have := State.staged_change hnew
      rw [State.modSlot_slot]
      split_ifs with hk
      · subst hk
        simp [this]
      · simp [this]
    generalize (s.modSlot old fun j => { j with state := .draining }) = u at hdrains hchange
    rw [← hdrains]
    generalize hf : (fun j : JobSlot =>
      ({ j with state := if j.final = Final.empty then SlotState.draining else SlotState.running, change := none } : JobSlot)) = f
    have hself : (u.modSlot new f).owed new + 1 ≤ u.owed new := by
      rw [State.owed_modSlot, State.modSlot_slot_self, State.owed, JobSlot.owed, JobSlot.owed, hchange, ← hf]
      simp only [Option.isSome_none, Bool.false_eq_true, if_false, if_true]
      split_ifs <;> omega
    have hother : (u.modSlot new f).owed new.other = u.owed new.other := by
      rw [State.owed_modSlot, State.modSlot_slot, if_neg (SlotId.other_ne new), State.owed]
    have hlen : (u.modSlot new f).account.queue = u.account.queue := by rw [State.modSlot_account]
    generalize u.modSlot new f = v at hself hother hlen
    have howed (k : SlotId) : (v.queueJobStart new).owed k = v.owed k := by
      unfold State.owed
      rw [State.queueJobStart_slot, State.queueJobStart, State.enqueue]
      simp [Item.isJobEndOf]
    have hqueue : (v.queueJobStart new).account.queue.length = v.account.queue.length + 1 := by simp [State.queueJobStart, State.enqueue]
    rw [State.budget_eq _ new, State.budget_eq u new, howed, howed, hother, hqueue, hlen]
    omega
  · exact Nat.le_refl _

theorem State.budget_reportOpening (s : State) (q : Nat) : (s.reportOpening q).budget ≤ s.budget := by
  have hchanges : (s.openingChanges q).budget ≤ s.budget := by
    unfold State.openingChanges
    split
    · split_ifs
      · exact s.budget_changeTakesEffect
      · exact Nat.le_refl _
    · exact Nat.le_refl _
  refine Nat.le_trans ?_ hchanges
  unfold State.reportOpening State.openingDrains
  split
  · rename_i i hi _
    split_ifs
    · exact State.budget_drain (State.runningSlot_state hi)
    · exact Nat.le_refl _
  · exact Nat.le_refl _

theorem State.budget_reportPass (s : State) (p : Nat) : (s.reportPass p).budget ≤ s.budget := by
  unfold State.reportPass
  split
  · split_ifs
    · exact s.budget_changeTakesEffect
    · exact Nat.le_refl _
  · exact Nat.le_refl _

/-! ### Openings and retakes -/

theorem State.budget_settle (s : State) : s.settle.budget = s.budget :=
  State.budget_congr (fun k => by rw [State.settle_slot]; exact ⟨rfl, rfl⟩) (by rw [State.settle_account])

theorem State.budget_passTo (s : State) (base p : Nat) : (s.passTo base p).budget ≤ s.budget := by
  refine (State.budget_reportPass _ p).trans (Nat.le_of_eq (State.budget_congr (fun k => ?_) ?_))
  · have hk := State.flush_slot s base k
    exact ⟨hk.state, hk.change⟩
  · exact congrArg Account.queue (State.flush_account s base)

theorem State.budget_catchUp (s : State) (r : Nat) : (s.catchUp r).budget ≤ s.budget := by
  unfold State.catchUp
  split_ifs
  · split
    · split_ifs
      · exact State.budget_passTo _ _ _
      · exact Nat.le_refl _
    · exact Nat.le_refl _
  · exact Nat.le_refl _

theorem State.budget_retakePort (p : PortId) (s : State) : (State.retakePort p s).budget ≤ s.budget := by
  have hcatch (r : Nat) : ((s.raiseTarget r).catchUp r).budget ≤ s.budget :=
    (State.budget_catchUp _ r).trans (Nat.le_of_eq (State.budget_of_standing (State.standing_raiseTarget s r)))
  have hset (t : State) (x : ReqSlot) : (t.setReqSlot p x).budget = t.budget := State.budget_of_standing (State.standing_setReqSlot t p x)
  unfold State.retakePort
  split
  · dsimp only
    split
    · exact Nat.le_of_eq (hset _ _)
    · split
      · exact Nat.le_of_eq (hset _ _)
      · split
        · exact (Nat.le_of_eq (hset _ _)).trans (hcatch _)
        · split
          · exact hcatch _
          · exact (Nat.le_of_eq (hset _ _)).trans (hcatch _)
  · exact Nat.le_refl _

theorem State.budget_retakeHeld (s : State) : s.retakeHeld.budget ≤ s.budget := by
  rw [State.retakeHeld, State.budget_settle]
  exact State.forPorts_keeps (P := fun t => t.budget ≤ s.budget) _ (fun p t ht => (State.budget_retakePort p t).trans ht) _ (Nat.le_refl _)

theorem State.budget_openDraft (s : State) (d : Draft) (rest : List Draft) : (s.openDraft d rest).budget ≤ s.budget := by
  unfold State.openDraft
  dsimp only
  rw [State.budget_settle]
  refine (State.budget_reportOpening _ _).trans (Nat.le_of_eq ((State.budget_of_standing (State.standing_checkWindowHigh _)).trans ?_))
  refine State.budget_congr (fun k => ?_) (by rw [State.modSlot_account])
  rw [State.modSlot_slot]
  split_ifs with hk
  · subst hk
    exact ⟨rfl, rfl⟩
  · exact ⟨rfl, rfl⟩

theorem State.budget_openReady (s : State) : s.openReady.budget ≤ s.budget :=
  State.openReady_keeps (P := fun t => t.budget ≤ s.budget) (fun t d rest _ h => (t.budget_openDraft d rest).trans h) (Nat.le_refl _)

theorem State.budget_recordLeaves (s : State) (r : Nat) : (s.recordLeaves r).budget ≤ s.budget := by
  have hdrop : (s.dropRecord r).budget = s.budget :=
    State.budget_congr (fun k => by rw [State.dropRecord_slot]; exact ⟨rfl, rfl⟩) (by rw [State.dropRecord_account])
  unfold State.recordLeaves
  split
  · exact Nat.le_refl _
  · dsimp only
    refine (State.budget_queueJobEnd _ _).trans ((State.budget_retakeHeld _).trans ?_)
    split_ifs
    · exact (State.budget_openReady _).trans (Nat.le_of_eq hdrop)
    · exact Nat.le_of_eq hdrop

/-! ### Appends -/

theorem State.owed_appended {it : Item} {rest : List Item} {at' : Nat} {bs : Bytes} (hq : s.account.queue = it :: rest)
    (hk : it.isJobEndOf k = false) : (s.appended at' bs rest).owed k = s.owed k := by
  have hslot : (s.appended at' bs rest).slot k = s.slot k := State.slot_congr rfl rfl k
  rw [State.owed, State.owed, hslot, hq, List.any_cons, hk, Bool.false_or]
  rfl

/-- An append that takes its item leaves less to come. -/
theorem State.budget_itemAppended {it : Item} {rest : List Item} {at' : Nat} {bs : Bytes} (hq : s.account.queue = it :: rest) :
    ((s.appended at' bs rest).checkBufferHigh.itemAppended it).budget < s.budget := by
  have hlen : (s.appended at' bs rest).account.queue.length + 1 = s.account.queue.length := by rw [hq]; rfl
  have hhigh := State.standing_checkBufferHigh (s.appended at' bs rest)
  have hother : (∀ i, it.isJobEndOf i = false) → (s.appended at' bs rest).checkBufferHigh.budget < s.budget := fun hi => by
    rw [State.budget_of_standing hhigh, State.budget, State.budget, State.owed_appended hq (hi .A), State.owed_appended hq (hi .B)]
    omega
  cases it with
  | repeatItem r => exact Nat.lt_of_le_of_lt (State.budget_recordLeaves _ r) (hother fun _ => rfl)
  | jobStart i z => exact hother fun _ => rfl
  | postVoid z => exact hother fun _ => rfl
  | jobEnd i z =>
    have hne : (Item.jobEnd i z).isJobEndOf i.other = false := decide_eq_false (SlotId.other_ne i)
    rw [State.itemAppended, State.budget_of_standing (State.standing_stopTimers _), State.budget_of_standing (State.standing_raise _ _)]
    have hqueue := State.items_of_standing hhigh
    have hself : ((s.appended at' bs rest).checkBufferHigh.modSlot i fun j => { j with state := .ended }).owed i ≤ s.owed i := by
      rw [State.owed_modSlot, State.modSlot_slot_self, State.owed, JobSlot.owed, JobSlot.owed]
      simp only [ne_eq, not_true_eq_false, false_and, if_false, Nat.zero_add]
      rw [State.slot_change hhigh, show ((s.appended at' bs rest).slot i).change = (s.slot i).change from
        congrArg JobSlot.change (State.slot_congr rfl rfl i)]
      omega
    have hoth : ((s.appended at' bs rest).checkBufferHigh.modSlot i fun j => { j with state := .ended }).owed i.other = s.owed i.other := by
      rw [← State.owed_appended (at' := at') (bs := bs) hq hne]
      refine State.owed_congr ?_ (by rw [State.modSlot_account]; exact hqueue)
      rw [State.modSlot_slot, if_neg (SlotId.other_ne i)]
      exact ⟨State.slot_state hhigh _, State.slot_change hhigh _⟩
    rw [State.budget_eq _ i, State.budget_eq s i, hoth, State.modSlot_account, hqueue]
    omega

/-- After an attempt none is due, or less is to come. -/
theorem State.appendAttempt_budget (h : s.appendAttempt.account.due = true) : s.appendAttempt.budget < s.budget := by
  unfold State.appendAttempt at h ⊢
  split at h
  · cases h
  · rename_i it rest hq
    dsimp only at h ⊢
    split at h
    · rw [State.raiseIf_account] at h
      cases h
    · rename_i at' hp
      rw [State.budget_of_standing (State.standing_markDue _)]
      exact State.budget_itemAppended hq

/-- The attempts in turn, while one is due, come to a state with none due. -/
theorem State.appendsTo_appendAll : ∀ (n : Nat) (s : State), s.budget < n →
    ∃ k, s.appendsTo k (appendAll n s) ∧ (appendAll n s).account.due = false := by
  intro n
  induction n with
  | zero => exact fun s h => absurd h (Nat.not_lt_zero _)
  | succ n ih =>
    intro s hn
    unfold appendAll
    by_cases hd : s.account.due = true
    · rw [if_pos hd]
      have hexec : exec .append s = .next s.appendAttempt := congrArg Host.Outcome.next (if_pos hd)
      have hnext : ∃ k, s.appendAttempt.appendsTo k (appendAll n s.appendAttempt) ∧
          (appendAll n s.appendAttempt).account.due = false := by
        by_cases hd' : s.appendAttempt.account.due = true
        · exact ih _ (Nat.lt_of_lt_of_le (State.appendAttempt_budget hd') (Nat.le_of_lt_succ hn))
        · have hstay : ∀ m, appendAll m s.appendAttempt = s.appendAttempt := fun m => by
            cases m with
            | zero => rfl
            | succ m => exact if_neg hd'
          rw [hstay]
          exact ⟨0, rfl, Bool.eq_false_iff.mpr hd'⟩
      obtain ⟨k, hto, hdue⟩ := hnext
      exact ⟨k + 1, ⟨hd, _, hexec, hto⟩, hdue⟩
    · rw [if_neg hd]
      exact ⟨0, rfl, Bool.eq_false_iff.mpr hd⟩

end

end Sys2Proof.Machine
end
section
/-! NEXT and RLSE (O36: R146, R151 to R153). -/

namespace Sys2Proof.Machine

/-! ### The used bytes (R146) -/

section
variable {a : Account}

theorem Account.used_none (h : a.count = 0) : a.used = 0 := if_pos h

theorem Account.used_ahead (h : a.count ≠ 0) (hlt : a.ro < a.wo) : a.used = a.wo - a.ro := by
  rw [Account.used, if_neg h, if_pos hlt]

theorem Account.used_wrapped (h : a.count ≠ 0) (hlt : a.wo < a.ro) : a.used = (8192 - a.ro) + a.wo := by
  rw [Account.used, if_neg h, if_neg (Nat.lt_asymm hlt), if_pos hlt]
  rfl

theorem Account.used_full (h : a.count ≠ 0) (he : a.ro = a.wo) : a.used = 8192 := by
  rw [Account.used, if_neg h, if_neg (by omega), if_neg (by omega)]
  rfl

end

section
variable {s : State} {bs : Bytes}

/-! ### NEXT -/

theorem Memory.byteAt_readBytes (m : Memory) : ∀ (n a k : Nat), k < n → byteAt (Memory.readBytes m a n) k = Memory.read m (a + k)
  | n + 1, a, 0, _ => rfl
  | n + 1, a, k + 1, h => by
    have := Memory.byteAt_readBytes m n (a + 1) k (Nat.lt_of_succ_lt_succ h)
    rw [show a + (k + 1) = a + 1 + k by omega, ← this]
    rfl

/-- NEXT's report: the oldest record's size, the count, the used bytes, the record. -/
def Account.nextReport (a : Account) : Bytes := beBytes 2 a.oldestSize ++ beBytes 2 a.count ++ beBytes 2 a.used ++ a.oldestRecord

theorem runNext_report (h : s.account.count ≠ 0) : runNext bs s = (.carriedOut s.account.nextReport, s) := if_neg h

theorem Account.nextReport_fields (a : Account) : a.nextReport.length = 6 + a.oldestSize ∧
    field a.nextReport 0 2 = a.oldestSize % 2 ^ 16 ∧ field a.nextReport 2 2 = a.count % 2 ^ 16 ∧ field a.nextReport 4 2 = a.used % 2 ^ 16 ∧
    ∀ k, k < a.oldestSize → byteAt a.nextReport (6 + k) = a.ring.read (a.ro + k) := by
  refine ⟨?_, ?_, ?_, ?_, fun k hk => ?_⟩
  · simp only [Account.nextReport, Account.oldestRecord, List.length_append, beBytes_length, Memory.readBytes_length]
  · simp [Account.nextReport, field_beBytes]
  · simp [Account.nextReport, field_past, field_beBytes]
  · simp [Account.nextReport, field_past, field_beBytes]
  · rw [← Memory.byteAt_readBytes a.ring a.oldestSize a.ro k hk]
    simp only [Account.nextReport, Account.oldestRecord, List.append_assoc]
    rw [show 6 + k = 2 + (2 + (2 + k)) by omega]
    simp [byteAt_past]

/-! ### RLSE -/

/-- The comparison of the used bytes with the threshold (R151). -/
theorem State.checkBufferHigh_eq (s : State) : s.checkBufferHigh = { s with
    account := { s.account with high := decide (s.plan.bufHigh * 256 ≤ s.account.used) }
    sup := { s.sup with
      events := if s.plan.bufHigh * 256 ≤ s.account.used ∧ s.account.high = false then s.sup.events ||| 0x010 else s.sup.events } } := by
  rw [State.checkBufferHigh]
  by_cases hu : s.plan.bufHigh * 256 ≤ s.account.used
  · cases hh : s.account.high
    · rw [if_pos ⟨hu, rfl⟩, decide_eq_true hu]
      rfl
    · rw [if_neg fun h => Bool.noConfusion h.2, decide_eq_true hu]
      rfl
  · rw [if_neg fun h => hu h.1, decide_eq_false hu]
    rfl

/-- A release before the appends it allows: the oldest record gone, the high mark by what remains. -/
theorem State.release_eq (s : State) : s.release = appendAll (s.account.queue.length + 8) { s with
    account := { s.account.released with
      high := decide (s.plan.bufHigh * 256 ≤ s.account.released.used), due := !s.account.queue.isEmpty }
    sup := { s.sup with
      events := if s.plan.bufHigh * 256 ≤ s.account.released.used ∧ s.account.high = false then s.sup.events ||| 0x010
        else s.sup.events } } := by
  rw [State.release, State.checkBufferHigh_eq]
  rfl

theorem runRlse_releases (h : s.account.count ≠ 0) : runRlse bs s =
    (.carriedOut (beBytes 2 s.release.account.count ++ beBytes 2 s.release.account.used), s.release) := if_neg h

theorem appendAll_of_not_due (n : Nat) (h : s.account.due = false) : appendAll n s = s := by
  cases n with
  | zero => rfl
  | succ n => exact if_neg (by rw [h]; exact Bool.false_ne_true)

end

/-- Settles O36: NEXT's report read back at its places, and RLSE's release with the appends that follow it. -/
theorem nextReadsAndReleaseFrees : Obligations.NextReadsAndReleaseFrees := by
  intro bs s a type size wraps b
  refine ⟨Account.used_none, Account.used_ahead, Account.used_wrapped, Account.used_full,
    fun hc h => exec_same rfl h (if_pos hc), fun hc h => exec_same rfl h (if_pos hc),
    fun hc h => ⟨_, exec_same rfl h (runNext_report (bs := bs) hc), a.nextReport_fields⟩, fun hc h hq => ?_, fun hc h => ?_⟩
  · have hnone : (!s.account.queue.isEmpty) = false := by rw [show s.account.queue = [] from hq]; rfl
    have hrel := s.release_eq
    rw [hnone, appendAll_of_not_due _ rfl] at hrel
    have hrun := runRlse_releases (bs := bs) (s := s) hc
    rw [hrel] at hrun
    refine ⟨_, exec_rlse h, ?_⟩
    rw [State.carryOut, hrun]
    exact ⟨rfl, rfl, rfl, rfl⟩
  · intro released
    obtain ⟨n, hto, hdue⟩ := State.appendsTo_appendAll (s.account.queue.length + 8) released released.budget_lt
    refine ⟨n, _, hto, hdue, ?_⟩
    have hrel : s.release = appendAll (s.account.queue.length + 8) released := s.release_eq
    have hrun := runRlse_releases (bs := bs) (s := s) hc
    rw [hrel] at hrun
    rw [exec_rlse h, State.carryOut, hrun]
    rfl

end Sys2Proof.Machine
end
section
/-! PVOD (O37: R148, R158, R159). -/

namespace Sys2Proof.Machine

section
variable {s : State} {bs : Bytes} {i k : SlotId} {tag lo hi : Nat}

/-! ### The slot a post-void is made against (R158) -/

theorem JobSlot.holdsTag_iff {j : JobSlot} : j.holdsTag tag = true ↔ j.state ≠ .free ∧ j.tag = tag := by
  simp [JobSlot.holdsTag]

theorem State.slotOfTag_none (h : ∀ k, ¬ (tag ≠ 0 ∧ (s.slot k).state ≠ .free ∧ (s.slot k).tag = tag)) : s.slotOfTag tag = none := by
  unfold State.slotOfTag
  by_cases ht : tag = 0
  · rw [if_pos ht]
  · have hA : ¬ s.slotA.holdsTag tag = true := fun hA => h .A ⟨ht, JobSlot.holdsTag_iff.mp hA⟩
    have hB : ¬ s.slotB.holdsTag tag = true := fun hB => h .B ⟨ht, JobSlot.holdsTag_iff.mp hB⟩
    rw [if_neg ht, if_neg hA, if_neg hB]

theorem State.slotOfTag_chosen (hk : tag ≠ 0 ∧ (s.slot k).state ≠ .free ∧ (s.slot k).tag = tag)
    (ho : (s.slot k.other).state ≠ .free ∧ (s.slot k.other).tag = tag →
      (s.slot k).state.rank < (s.slot k.other).state.rank ∨ ((s.slot k).state.rank = (s.slot k.other).state.rank ∧ k = .A)) :
    s.slotOfTag tag = some k := by
  obtain ⟨ht, hk⟩ := hk
  have hholds := JobSlot.holdsTag_iff.mpr hk
  unfold State.slotOfTag
  rw [if_neg ht]
  cases k with
  | A =>
    have hA : s.slotA.holdsTag tag = true := hholds
    rw [if_pos hA, if_neg]
    rintro ⟨hB, hlt⟩
    rcases ho (JobSlot.holdsTag_iff.mp hB) with h | ⟨h, -⟩
    · exact absurd hlt (Nat.lt_asymm h)
    · exact absurd hlt (Nat.not_lt.mpr h.le)
  | B =>
    have hB : s.slotB.holdsTag tag = true := hholds
    by_cases hA : s.slotA.holdsTag tag = true
    · have hlt : s.slotB.state.rank < s.slotA.state.rank := by
        rcases ho (JobSlot.holdsTag_iff.mp hA) with h | ⟨-, h⟩
        · exact h
        · cases h
      rw [if_pos hA, if_pos ⟨hB, hlt⟩]
    · rw [if_neg hA, if_pos hB]

theorem State.openIn_iff : s.openIn lo hi = true ↔
    ∃ x ∈ s.window.records, x.closure = .awaiting ∧ ∃ p ∈ x.positions, ∃ v, p.entry.value = some v ∧ lo ≤ v ∧ v ≤ hi := by
  simp only [State.openIn, State.awaiting, List.any_eq_true, List.mem_filter, decide_eq_true_eq, Option.any_eq_true, Bool.and_eq_true,
    and_assoc]

/-! ### The checks (R158) -/

theorem runPvod_range (h : field bs 7 5 < field bs 2 5 ∨ maxRaw < field bs 7 5) : runPvod bs s = (refusedRange, s) := if_pos h

theorem runPvod_noTag (h : s.slotOfTag (field bs 0 2) = none) (hr : ¬ (field bs 7 5 < field bs 2 5 ∨ maxRaw < field bs 7 5)) :
    runPvod bs s = (refusedTag, s) := by
  rw [runPvod]
  dsimp only
  rw [if_neg hr, h]

/-- PVOD once its slot is known: the count, then the open values, then the queue. -/
theorem runPvod_slot (h : s.slotOfTag (field bs 0 2) = some k) (hr : ¬ (field bs 7 5 < field bs 2 5 ∨ maxRaw < field bs 7 5)) :
    runPvod bs s =
      if (s.slot k).tally.delivered < field bs 7 5 - field bs 2 5 + 1 then (refusedUnderflow, s)
      else if s.openIn (field bs 2 5) (field bs 7 5) then (refusedOpen, s)
      else if 8 ≤ s.account.queue.countP Item.isSmall then (refusedQueue, s)
      else
        let t := s.postVoid k (field bs 0 2) (field bs 2 5) (field bs 7 5) (field bs 12 2)
        (.carriedOut (beBytes 1 k.code ++ beBytes 4 (field bs 7 5 - field bs 2 5 + 1) ++ beBytes 4 (t.slot k).tally.delivered ++
          beBytes 4 (t.slot k).tally.postVoided), t) := by
  rw [runPvod]
  dsimp only
  rw [if_neg hr, h]
  rfl

/-! ### The effects (R159) -/

/-- An insertion and a change of the slots that keeps their sources do not meet. -/
theorem State.insertRange_modSlot (f : JobSlot → JobSlot) (hf : ∀ j, (f j).source = j.source) (lo hi : Nat) :
    (s.modSlot i f).insertRange lo hi = (s.insertRange lo hi).modSlot i f := by
  have hheld : (s.modSlot i f).heldValues = s.heldValues :=
    State.heldValues_congr (State.modSlot_queue s i f) (by rw [State.modSlot_window]) fun k => by
      rw [State.modSlot_slot]
      split_ifs with hk
      · rw [hf, hk]
      · rfl
  rw [State.insertRange, State.insertRange, hheld, State.modSlot_voids]
  cases i <;> cases s.voids.dropsSome (piecesWithout s.heldValues lo hi) <;> rfl

theorem State.enqueue_modSlot (f : JobSlot → JobSlot) (it : Item) : (s.modSlot i f).enqueue it = (s.enqueue it).modSlot i f := by
  cases i <;> rfl

/-- An attempt on a POST_VOID item looks at no slot. -/
theorem State.appendAttempt_postVoid {z : Bytes} {rest : List Item} (hq : s.account.queue = .postVoid z :: rest) :
    s.appendAttempt = match s.account.place z.length with
      | none => { s with account := { s.account with full := true, due := false } }.raiseIf (!s.account.full) .bufferFull
      | some at' => (s.appended at' z rest).checkBufferHigh.markDue := by
  rw [State.appendAttempt, hq]
  rfl

theorem State.appendAttempt_modSlot {z : Bytes} {rest : List Item} (hq : s.account.queue = .postVoid z :: rest)
    (f : JobSlot → JobSlot) : (s.modSlot i f).appendAttempt = s.appendAttempt.modSlot i f := by
  have hq' : (s.modSlot i f).account.queue = .postVoid z :: rest := by rw [State.modSlot_account, hq]
  rw [State.appendAttempt_postVoid hq, State.appendAttempt_postVoid hq', State.modSlot_account]
  cases s.account.place z.length with
  | none => cases i <;> cases s.account.full <;> rfl
  | some at' =>
    dsimp only
    rw [State.checkBufferHigh_eq, State.checkBufferHigh_eq]
    cases i <;> rfl

theorem State.appendAttempt_postVoid_frame {z : Bytes} {rest : List Item} (hq : s.account.queue = .postVoid z :: rest) :
    s.appendAttempt = { s with account := s.appendAttempt.account, sup := { s.sup with events := s.appendAttempt.sup.events } } := by
  rw [State.appendAttempt_postVoid hq]
  cases s.account.place z.length with
  | none => cases s.account.full <;> rfl
  | some at' =>
    dsimp only
    rw [State.checkBufferHigh_eq]
    rfl

/-- What a post-void does beside the tally: the range, the item, and an attempt when it is the only one waiting. -/
def State.voidItem (s : State) (lo hi : Nat) (it : Item) : State :=
  if s.account.queue.isEmpty then ((s.insertRange lo hi).enqueue it).appendAttempt else (s.insertRange lo hi).enqueue it

/-- The slot's count moves from delivered to post_voided (R159). -/
def JobSlot.postVoided (n : Nat) (j : JobSlot) : JobSlot := { j with tally := j.tally.postVoid n }

theorem State.postVoid_eq (s : State) (i : SlotId) (tag lo hi operator : Nat) : s.postVoid i tag lo hi operator =
    (s.voidItem lo hi (.postVoid (postVoidBytes tag lo hi operator))).modSlot i (JobSlot.postVoided (hi - lo + 1)) := by
  have hslot : (fun j : JobSlot => ({ j with tally := j.tally.postVoid (hi - lo + 1) } : JobSlot)) = JobSlot.postVoided (hi - lo + 1) := rfl
  rw [State.postVoid, hslot, State.insertRange_modSlot (JobSlot.postVoided (hi - lo + 1)) (fun _ => rfl), State.enqueue_modSlot, State.voidItem]
  cases hq : s.account.queue with
  | nil =>
    rw [List.isEmpty_nil, if_pos rfl, if_pos rfl]
    refine State.appendAttempt_modSlot (z := postVoidBytes tag lo hi operator) (rest := []) ?_ _
    simp [State.enqueue, hq]
  | cons it rest => rw [List.isEmpty_cons, if_neg Bool.false_ne_true, if_neg Bool.false_ne_true]

theorem State.insertRange_frame (s : State) (lo hi : Nat) : s.insertRange lo hi = { s with
    voids := (s.insertRange lo hi).voids, sup := { s.sup with events := (s.insertRange lo hi).sup.events } } := by
  rw [State.insertRange]
  cases s.voids.dropsSome (piecesWithout s.heldValues lo hi) <;> rfl

theorem State.voidItem_waits {it : Item} (hq : s.account.queue ≠ []) : s.voidItem lo hi it = (s.insertRange lo hi).enqueue it := by
  rw [State.voidItem, if_neg fun h => hq (List.isEmpty_iff.mp h)]

theorem State.voidItem_first {it : Item} (hq : s.account.queue = []) :
    s.voidItem lo hi it = ((s.insertRange lo hi).enqueue it).appendAttempt := by
  rw [State.voidItem, hq]
  rfl

theorem State.enqueue_first {it : Item} (hq : s.account.queue = []) : (s.insertRange lo hi).enqueue it =
    { s.insertRange lo hi with account := { s.account with queue := [it], due := true } } := by
  rw [State.enqueue, State.insertRange_account, hq]
  simp

theorem State.voidItem_frame (s : State) (lo hi : Nat) (z : Bytes) : s.voidItem lo hi (.postVoid z) = { s with
    voids := (s.insertRange lo hi).voids, account := (s.voidItem lo hi (.postVoid z)).account
    sup := { s.sup with events := (s.voidItem lo hi (.postVoid z)).sup.events } } := by
  by_cases hq : s.account.queue = []
  · rw [State.voidItem_first hq, State.enqueue_first hq, State.appendAttempt_postVoid_frame rfl, State.insertRange_frame]
  · rw [State.voidItem_waits hq, State.enqueue, State.insertRange_frame]

theorem postVoidBytes_eq (tag lo hi operator : Nat) : postVoidBytes tag lo hi operator =
    [4, 0] ++ beBytes 2 tag ++ List.replicate 8 0 ++ beBytes 5 lo ++ beBytes 5 hi ++ beBytes 2 operator := by
  simp [postVoidBytes, recordHeader, beBytes, List.replicate_succ]

end

/-- Settles O37: the checks one after the other, then the tally beside the item and its attempt. -/
theorem postVoidChecksAndEffects : Obligations.PostVoidChecksAndEffects := by
  intro bs s h tag lo hi refused holds order chosen openValue small
  have horder : ∀ x, order x = x.rank := fun x => by cases x <;> rfl
  have hrefused : ∀ code, runPvod bs s = (.refusal code, s) → refused code := fun code hr => exec_same rfl h hr
  have hin : lo ≤ hi → hi ≤ 9999999999 → ¬ (hi < lo ∨ maxRaw < hi) := fun h1 h2 h => h.elim (Nat.not_lt.mpr h1) (Nat.not_lt.mpr h2)
  refine ⟨fun hr => hrefused 3 (runPvod_range hr), fun h1 h2 hno => hrefused 5 (runPvod_noTag (State.slotOfTag_none hno) (hin h1 h2)),
    fun k h1 h2 hk => ?_⟩
  have hslot : s.slotOfTag tag = some k := State.slotOfTag_chosen hk.1 fun ho => by
    have := hk.2 ⟨hk.1.1, ho⟩
    rwa [horder, horder] at this
  have hrun := runPvod_slot hslot (hin h1 h2)
  have hopen : s.openIn lo hi = true ↔ openValue := State.openIn_iff
  refine ⟨fun hd => hrefused 12 ?_, fun hd ho => hrefused 10 ?_, fun hd ho hs => hrefused 11 ?_, fun hd ho hs => ?_⟩
  · rw [hrun, if_pos hd]
    rfl
  · rw [hrun, if_neg (by omega), if_pos (hopen.mpr ho)]
    rfl
  · rw [hrun, if_neg (by omega), if_neg (fun hc => ho (hopen.mp hc)), if_pos hs]
    rfl
  · rw [if_neg (by omega), if_neg (fun hc => ho (hopen.mp hc)), if_neg (by omega), State.postVoid_eq, postVoidBytes_eq] at hrun
    have hframe := s.voidItem_frame lo hi ([4, 0] ++ beBytes 2 tag ++ List.replicate 8 0 ++ beBytes 5 lo ++ beBytes 5 hi ++
      beBytes 2 (field bs 12 2))
    generalize hX : s.voidItem lo hi (.postVoid ([4, 0] ++ beBytes 2 tag ++ List.replicate 8 0 ++ beBytes 5 lo ++ beBytes 5 hi ++
      beBytes 2 (field bs 12 2))) = X at hframe
    rw [hX] at hrun
    have hk1 : (X.modSlot k (JobSlot.postVoided (hi - lo + 1))).slot k = JobSlot.postVoided (hi - lo + 1) (s.slot k) := by
      rw [State.modSlot_slot_self, State.slot_congr (t := X) (s := s) (by rw [hframe]) (by rw [hframe])]
    have hk2 : (X.modSlot k (JobSlot.postVoided (hi - lo + 1))).slot k.other = s.slot k.other := by
      rw [State.modSlot_slot, if_neg (SlotId.other_ne k), State.slot_congr (t := X) (s := s) (by rw [hframe]) (by rw [hframe])]
    have hY : X.modSlot k (JobSlot.postVoided (hi - lo + 1)) = { X with
        slotA := (X.modSlot k (JobSlot.postVoided (hi - lo + 1))).slotA
        slotB := (X.modSlot k (JobSlot.postVoided (hi - lo + 1))).slotB } := by cases k <;> rfl
    generalize X.modSlot k (JobSlot.postVoided (hi - lo + 1)) = Y at hrun hk1 hk2 hY
    refine ⟨_, exec_pvod h, ?_⟩
    rw [State.carryOut, hrun]
    have hslots : ∀ j, State.slot { Y with sup := { Y.sup with
        task := wordPvod
        running := some { word := wordPvod, params := bs, outcome := some (.carriedOut (beBytes 1 k.code ++ beBytes 4 (hi - lo + 1) ++
          beBytes 4 (Y.slot k).tally.delivered ++ beBytes 4 (Y.slot k).tally.postVoided)) } } } j = Y.slot j := State.slot_congr rfl rfl
    refine ⟨(hslots k).trans hk1, (hslots k.other).trans hk2, ?_, fun hq => ?_, fun hq => ?_, ?_, ?_⟩
    · rw [hY, hframe]
    · rw [hY, ← hX, State.voidItem_waits hq]
      refine ⟨?_, by rw [State.enqueue_sup]⟩
      have hempty : s.account.queue.isEmpty = false := by rwa [List.isEmpty_eq_false_iff]
      rw [State.enqueue, State.insertRange_account, hempty, Bool.or_false]
    · refine ⟨X, ?_, by rw [hY], by rw [hY]⟩
      rw [← hX, State.voidItem_first hq, State.enqueue_first hq]
      exact congrArg Host.Outcome.next (if_pos rfl)
    · rw [hslots]
      simp only [beBytes_one]
      rfl
    · have field {α : Type} (g : State → α) (hg : ∀ a b, g { X with slotA := a, slotB := b } = g X) : g Y = g { s with
          voids := (s.insertRange lo hi).voids, account := X.account, sup := { s.sup with events := X.sup.events } } :=
        ((congrArg g hY).trans (hg _ _)).trans (congrArg g hframe)
      refine State.eq_of_fields (field State.plan fun _ _ => rfl) rfl rfl (field State.queue fun _ _ => rfl)
        (field State.window fun _ _ => rfl) (field State.receiver fun _ _ => rfl) rfl rfl
        (State.port_congr (field State.ports fun _ _ => rfl)) ?_ (field State.run fun _ _ => rfl) (field State.pending fun _ _ => rfl)
      have hevents : X.sup.events = Y.sup.events := (congrArg (fun t => t.sup.events) hY).symm
      refine (congrArg (fun u : Supervisor => ({ u with task := _, running := _ } : Supervisor)) (field State.sup fun _ _ => rfl)).trans ?_
      rw [hevents]
      rfl

end Sys2Proof.Machine
end
section
/-! APPEND (O38: R112, R122, R146 to R150, R191): where a record is placed, what joins the pending queue meanwhile, and the layouts of the records. -/

namespace Sys2Proof.Machine

/-! ### What a leaving record adds to the pending queue -/

section
variable {s : State}

theorem State.queued_settle (s : State) : s.Queued s.settle := .of_eq (State.settle_account s)

theorem State.queued_reportPass (s : State) (p : Nat) : s.Queued (s.reportPass p) := by
  unfold State.reportPass
  split
  · split_ifs
    · exact s.queued_changeTakesEffect
    · exact .refl s
  · exact .refl s

theorem State.queued_catchUp (s : State) (r : Nat) : s.Queued (s.catchUp r) := by
  unfold State.catchUp
  split_ifs
  · split
    · split_ifs
      · exact (State.queued_reportPass _ _).from (State.flush_account s _)
      · exact .refl s
    · exact .refl s
  · exact .refl s

theorem State.queued_retakePort (p : PortId) (s : State) : s.Queued (State.retakePort p s) := by
  have hcatch (r : Nat) : s.Queued ((s.raiseTarget r).catchUp r) := (State.queued_catchUp _ r).from rfl
  unfold State.retakePort
  split
  · dsimp only
    split
    · exact .of_eq rfl
    · split
      · exact .of_eq rfl
      · split
        · exact (hcatch _).into rfl
        · split
          · exact hcatch _
          · exact (hcatch _).into rfl
  · exact .refl s

theorem State.queued_retakeHeld (s : State) : s.Queued s.retakeHeld :=
  (State.forPorts_keeps (P := fun t => s.Queued t) _ (fun p _ ht => ht.trans (State.queued_retakePort p _)) s (.refl s)).trans
    (State.queued_settle _)

theorem State.queued_openDraft (s : State) (d : Draft) (rest : List Draft) : s.Queued (s.openDraft d rest) := by
  unfold State.openDraft
  dsimp only
  refine .trans (.trans (.of_eq ?_) (State.queued_reportOpening _ _)) (State.queued_settle _)
  rw [State.checkWindowHigh_account, State.modSlot_account]

theorem State.queued_openReady (s : State) : s.Queued s.openReady :=
  State.openReady_keeps (P := fun t => s.Queued t) (fun t d rest _ h => h.trans (t.queued_openDraft d rest)) (.refl s)

theorem State.queued_recordLeaves (s : State) (r : Nat) : s.Queued (s.recordLeaves r) := by
  unfold State.recordLeaves
  split
  · exact .refl s
  · dsimp only
    refine .trans (.trans ?_ (State.queued_retakeHeld _)) (State.queued_queueJobEnd _ _)
    split_ifs
    · exact (State.queued_openReady _).from (State.dropRecord_account s r)
    · exact .of_eq (State.dropRecord_account s r)

theorem State.queued_itemAppended (s : State) (it : Item) : s.Queued (s.itemAppended it) := by
  cases it with
  | repeatItem r => exact s.queued_recordLeaves r
  | jobStart i bs => exact .refl s
  | postVoid bs => exact .refl s
  | jobEnd i bs => exact .of_eq (by rw [State.itemAppended, State.stopTimers_account, State.raise_account, State.modSlot_account])

/-! ### Where a record is placed (R147) -/

/-- An account takes a record of `z` bytes (R147). -/
def Account.fits (a : Account) (z : Nat) : Prop :=
  a.count = 0 ∨ (a.ro < a.wo ∧ (a.wo + z ≤ 8192 ∨ z < a.ro)) ∨ (a.wo < a.ro ∧ a.wo + z < a.ro)

/-- Where it takes it. -/
def Account.offset (a : Account) (z : Nat) : Nat := if a.wo + z ≤ 8192 then a.wo else 0

theorem Account.place_of_fits {a : Account} {z : Nat} (hro : a.ro < 8192) (h : a.fits z) : a.place z = some (a.offset z) := by
  unfold Account.place Account.offset
  rw [show ringSize = 8192 from rfl]
  rcases h with h | ⟨hlt, h⟩ | ⟨hlt, h⟩
  · rw [if_pos h]
  · by_cases hc : a.count = 0
    · rw [if_pos hc]
    · rw [if_neg hc, if_pos hlt]
      by_cases hw : a.wo + z ≤ 8192
      · rw [if_pos hw, if_pos hw]
      · rw [if_neg hw, if_neg hw, if_pos (h.resolve_left hw)]
  · by_cases hc : a.count = 0
    · rw [if_pos hc]
    · rw [if_neg hc, if_neg (Nat.lt_asymm hlt), if_pos hlt, if_pos h, if_pos (by omega)]

theorem Account.place_of_not_fits {a : Account} {z : Nat} (h : ¬ a.fits z) : a.place z = none := by
  unfold Account.fits at h
  simp only [not_or, not_and, not_le, not_lt] at h
  obtain ⟨hc, h1, h2⟩ := h
  unfold Account.place
  rw [show ringSize = 8192 from rfl, if_neg hc]
  split_ifs with a1 a2 a3 a4 a5
  · exact absurd a2 (Nat.not_le.mpr (h1 a1).1)
  · exact absurd a3 (Nat.not_lt.mpr (h1 a1).2)
  · rfl
  · exact absurd a5 (Nat.not_lt.mpr (h2 a4))
  · rfl
  · rfl

/-- A record lies over free bytes only. -/
theorem Account.fits_free {a : Account} {z k : Nat} (h : a.fits z) (hro : a.ro < 8192) (hc : a.count ≠ 0)
    (hk : (a.ro < a.wo ∧ a.ro ≤ k ∧ k < a.wo) ∨ (a.wo < a.ro ∧ (a.ro ≤ k ∨ k < a.wo)) ∨ a.ro = a.wo) :
    k < a.offset z ∨ a.offset z + z ≤ k := by
  unfold Account.offset
  unfold Account.fits at h
  split_ifs <;> omega

/-! ### An attempt -/

theorem exec_append (hd : s.account.due = true) : exec .append s = .next s.appendAttempt := congrArg Host.Outcome.next (if_pos hd)

theorem State.appendAttempt_placed {it : Item} {rest : List Item} {at' : Nat} (hq : s.account.queue = it :: rest)
    (hp : s.account.place (s.itemBytes it).length = some at') :
    s.appendAttempt = ((s.appended at' (s.itemBytes it) rest).checkBufferHigh.itemAppended it).markDue := by
  rw [State.appendAttempt, hq]
  dsimp only
  rw [hp]
  rfl

theorem State.appendAttempt_waits {it : Item} {rest : List Item} (hq : s.account.queue = it :: rest)
    (hp : s.account.place (s.itemBytes it).length = none) : s.appendAttempt = { s with
      account := { s.account with full := true, due := false }
      sup := { s.sup with events := if s.account.full then s.sup.events else s.sup.events ||| 0x020 } } := by
  rw [State.appendAttempt, hq]
  dsimp only
  rw [hp]
  cases s.account.full <;> rfl

/-- The account after a placement: the ring with the record, the front item gone, more items behind. -/
theorem State.appendAttempt_account {it : Item} {rest : List Item} {at' : Nat} (hq : s.account.queue = it :: rest)
    (hp : s.account.place (s.itemBytes it).length = some at') : ∃ high more, s.appendAttempt.account =
      { s.account.placed at' (s.itemBytes it) with queue := rest ++ more, full := false, high, due := !(rest ++ more).isEmpty } := by
  obtain ⟨more, hm⟩ := State.queued_itemAppended (s.appended at' (s.itemBytes it) rest).checkBufferHigh it
  refine ⟨decide (s.plan.bufHigh * 256 ≤ (s.appended at' (s.itemBytes it) rest).account.used), more, ?_⟩
  rw [State.appendAttempt_placed hq hp, State.markDue]
  dsimp only
  rw [hm, State.checkBufferHigh_eq]
  rfl

end
/-! ### The layouts of the records (R191) -/

section

/-- The header's fields, each at its place. -/
theorem recordHeader_fields (type n tag r closure served lost : Nat) (post : Bytes) :
    let z := recordHeader type n tag r closure served lost ++ post
    byteAt z 0 = BitVec.ofNat 8 type ∧ byteAt z 1 = BitVec.ofNat 8 n ∧ field z 2 2 = tag % 2 ^ 16 ∧ field z 4 4 = r % 2 ^ 32 ∧
    byteAt z 8 = BitVec.ofNat 8 closure ∧ byteAt z 9 = BitVec.ofNat 8 served ∧ byteAt z 10 = BitVec.ofNat 8 lost ∧ byteAt z 11 = 0 := by
  simp [recordHeader, field_past, field_beBytes, byteAt_past, byteAt_beBytes_one]

/-- The fields from 4 to 11 are zeros where the header carries no repeat. -/
theorem recordHeader_zeros (type n tag : Nat) (post : Bytes) (k : Nat) (h4 : 4 ≤ k) (h12 : k < 12) :
    byteAt (recordHeader type n tag 0 0 0 0 ++ post) k = 0 := by
  have hzero : recordHeader type n tag 0 0 0 0 ++ post = beBytes 1 type ++ (beBytes 1 n ++ (beBytes 2 tag ++ (List.replicate 8 0 ++ post))) := by
    simp [recordHeader, beBytes, List.replicate_succ]
  rw [hzero, byteAt_past 1 _ _ _ (by omega), byteAt_past 1 _ _ _ (by omega), byteAt_past 2 _ _ _ (by omega), byteAt,
    List.getD_append _ _ _ _ (by rw [List.length_replicate]; omega), List.getD_eq_getElem?_getD,
    List.getElem?_replicate, if_pos (by omega)]
  rfl

theorem Position.bytes_length (p : Position) : p.bytes.length = 8 := by
  simp only [Position.bytes, List.length_append, beBytes_length, List.length_cons, List.length_nil]

/-- A list of blocks of one size, from block `k` on. -/
theorem drop_flatMap {α : Type} (f : α → Bytes) {n : Nat} (hf : ∀ x, (f x).length = n) : ∀ (xs : List α) (k : Nat) (x : α), xs[k]? = some x →
    (xs.flatMap f).drop (n * k) = f x ++ (xs.drop (k + 1)).flatMap f
  | y :: xs, 0, x, h => by
    cases h
    rfl
  | y :: xs, k + 1, x, h => by
    rw [List.flatMap_cons, show n * (k + 1) = (f y).length + n * k by rw [hf]; ring, List.drop_append, List.drop_eq_nil_of_le (by omega),
      List.nil_append, Nat.add_sub_cancel_left]
    exact drop_flatMap f hf xs k x h

theorem field_of_drop {z cs : Bytes} {a : Nat} (h : z.drop a = cs) (o len : Nat) : field z (a + o) len = field cs o len := by
  unfold field
  rw [← h, List.drop_drop]

theorem byteAt_of_drop {z cs : Bytes} {a : Nat} (h : z.drop a = cs) (o : Nat) : byteAt z (a + o) = byteAt cs o := by
  unfold byteAt
  rw [← h, List.getD_eq_getElem?_getD, List.getD_eq_getElem?_getD, List.getElem?_drop]

/-- One position's fields, each at its place. -/
theorem Position.bytes_fields (p : Position) (post : Bytes) :
    let z := p.bytes ++ post
    field z 0 5 = (p.entry.value.getD 0) % 2 ^ 40 ∧ byteAt z 5 = p.entry.check.getD 0 ∧ byteAt z 6 = BitVec.ofNat 8 p.outcome.code ∧
    byteAt z 7 = (flagBit p.entry.value.isNone 0 ||| flagBit p.entry.bookEnd 1) := by
  refine ⟨?_, ?_, ?_, ?_⟩
  · simp [Position.bytes, field_beBytes]
  · simp [Position.bytes, byteAt_past, byteAt_cons_zero]
  · simp only [Position.bytes, List.append_assoc]
    rw [byteAt_past 5 _ _ _ (by omega)]
    rw [show 6 - 5 = 1 from rfl, List.singleton_append, byteAt_cons_succ, byteAt_beBytes_one]
  · simp only [Position.bytes, List.append_assoc]
    rw [byteAt_past 5 _ _ _ (by omega)]
    rw [show 7 - 5 = 2 from rfl, List.singleton_append, byteAt_cons_succ, byteAt_past 1 _ _ _ (Nat.le_refl 1)]
    rfl

theorem Record.bytes_drop (tag : Nat) (x : Record) {k : Nat} {p : Position} (hp : x.positions[k]? = some p) :
    (x.bytes tag).drop (12 + 8 * k) = p.bytes ++ (x.positions.drop (k + 1)).flatMap Position.bytes := by
  rw [Record.bytes, List.drop_append, List.drop_eq_nil_of_le (by rw [recordHeader_length]; omega), List.nil_append, recordHeader_length,
    Nat.add_sub_cancel_left]
  exact drop_flatMap Position.bytes Position.bytes_length _ _ _ hp

theorem PosOutcome.code_le (o : PosOutcome) : o.code ≤ 12 := by cases o <;> decide

theorem flagBits_toNat (a b : Bool) : (flagBit a 0 ||| flagBit b 1).toNat = (if a then 1 else 0) + (if b then 2 else 0) := by
  cases a <;> cases b <;> rfl

/-- A JOB_START record's fields, each at its place. -/
theorem JobSlot.startBytes_fields (j : JobSlot) :
    let z := j.startBytes
    let makeup := j.source = .makeup
    z.length = 32 ∧ byteAt z 12 = (if makeup then 1 else 0) ∧ byteAt z 13 = (if makeup then 2 else if j.rules.mode = .stacked then 1 else 0) ∧
    (byteAt z 14).toNat = j.rules.width % 256 ∧ (byteAt z 15).toNat = (if makeup then 0 else j.rules.step % 256) ∧
    byteAt z 16 = (if ¬ makeup ∧ j.rules.descending = true then 1 else 0) ∧
    field z 17 5 = (if makeup then j.rules.wlo else j.rules.start) % 2 ^ 40 ∧
    field z 22 5 = (if makeup then j.rules.whi else j.rules.span) % 2 ^ 40 ∧
    byteAt z 27 = BitVec.ofNat 8 j.rules.scheme.code ∧ (byteAt z 28).toNat = j.geometry.lanes % 256 ∧
    (byteAt z 29).toNat = j.geometry.around % 256 ∧ byteAt z 30 = BitVec.ofNat 8 j.geometry.order.code ∧ byteAt z 31 = 0 := by
  have hlen : j.startBytes.length = 32 := by
    simp only [JobSlot.startBytes, List.length_append, recordHeader_length, beBytes_length, List.length_cons, List.length_nil]
  refine ⟨hlen, ?_⟩
  generalize hbody : [if j.source = .makeup then (1 : Byte) else 0, if j.source = .makeup then 2 else if j.rules.mode = .stacked then 1 else 0] ++
    beBytes 1 j.rules.width ++ beBytes 1 (if j.source = .makeup then 0 else j.rules.step) ++
    [if j.source = .makeup then (0 : Byte) else if j.rules.descending then 1 else 0] ++
    beBytes 5 (if j.source = .makeup then j.rules.wlo else j.rules.start) ++ beBytes 5 (if j.source = .makeup then j.rules.whi else j.rules.span) ++
    beBytes 1 j.rules.scheme.code ++ beBytes 1 j.geometry.lanes ++ beBytes 1 j.geometry.around ++
    beBytes 1 j.geometry.order.code ++ [(0 : Byte)] = body
  have hdrop : j.startBytes.drop 12 = body := by
    rw [← hbody, JobSlot.startBytes]
    simp only [List.append_assoc]
    exact List.drop_left' (recordHeader_length ..)
  have hbyte (o : Nat) : byteAt j.startBytes (12 + o) = byteAt body o := byteAt_of_drop hdrop o
  have hfield (o len : Nat) : field j.startBytes (12 + o) len = field body o len := field_of_drop hdrop o len
  refine ⟨(hbyte 0).trans ?_, (hbyte 1).trans ?_, ?_, ?_, (hbyte 4).trans ?_, (hfield 5 5).trans ?_, (hfield 10 5).trans ?_, (hbyte 15).trans ?_,
    ?_, ?_, (hbyte 18).trans ?_, (hbyte 19).trans ?_⟩
  · rw [← hbody]
    rfl
  · rw [← hbody]
    rfl
  · rw [show byteAt j.startBytes 14 = byteAt body 2 from hbyte 2, ← hbody]
    simp [byteAt_cons_succ, byteAt_beBytes_one]
  · rw [show byteAt j.startBytes 15 = byteAt body 3 from hbyte 3, ← hbody]
    by_cases hm : j.source = .makeup <;> simp [hm, byteAt_cons_succ, byteAt_past, byteAt_beBytes_one]
  · rw [← hbody]
    by_cases hm : j.source = .makeup <;> simp [hm, byteAt_cons_succ, byteAt_past, byteAt_cons_zero]
  · rw [← hbody]
    simp [field_cons, field_past, field_beBytes]
  · rw [← hbody]
    simp [field_cons, field_past, field_beBytes]
  · rw [← hbody]
    simp [byteAt_cons_succ, byteAt_past, byteAt_beBytes_one]
  · rw [show byteAt j.startBytes 28 = byteAt body 16 from hbyte 16, ← hbody]
    simp [byteAt_cons_succ, byteAt_past, byteAt_beBytes_one]
  · rw [show byteAt j.startBytes 29 = byteAt body 17 from hbyte 17, ← hbody]
    simp [byteAt_cons_succ, byteAt_past, byteAt_beBytes_one]
  · rw [← hbody]
    simp [byteAt_cons_succ, byteAt_past, byteAt_beBytes_one]
  · rw [← hbody]
    simp [byteAt_cons_succ, byteAt_past, byteAt_cons_zero]

/-- A JOB_END record's counters, each at its place. -/
theorem JobSlot.endBytes_fields (j : JobSlot) : j.endBytes.length = 52 ∧
    (List.range 10).map (fun k => field j.endBytes (12 + 4 * k) 4) =
      [j.tally.repeatsOpened, j.tally.issued, j.tally.delivered, j.tally.voidStation, j.tally.voidReader, j.tally.voidUnverified,
        j.tally.voidAborted, j.tally.postVoided, j.tally.blank, j.tally.skipped].map (· % 2 ^ 32) := by
  have hdrop : j.endBytes.drop 12 = j.tally.bytes := List.drop_left' (recordHeader_length ..)
  have hfield (o len : Nat) : field j.endBytes (12 + o) len = field j.tally.bytes o len := field_of_drop hdrop o len
  refine ⟨by simp only [JobSlot.endBytes, Tally.bytes, List.length_append, recordHeader_length, beBytes_length], ?_⟩
  simp only [hfield]
  simp [List.range_succ, Tally.bytes, field_past, field_beBytes, field_beBytes_end]

end

/-- Settles O38: a record lies at its offset in the ring or waits, and each kind of record is its header followed by its own fields. -/
theorem appendPlacesRecordOrWaits : Obligations.AppendPlacesRecordOrWaits := by
  refine ⟨fun it rest s hq hd hok hsizes => ?_, fun r x s hx hlen => ?_, fun j => ⟨?_, ?_⟩⟩
  · intro a z fits offset unreleased
    obtain ⟨hwf, hwo, hro, -⟩ := hok
    have hro : a.ro < 8192 := hro
    refine ⟨fun hfits => ?_, fun hno => ?_⟩
    · have hplace : a.place z = some offset := Account.place_of_fits hro hfits
      obtain ⟨high, more, hacc⟩ := State.appendAttempt_account hq hplace
      refine ⟨_, exec_append hd, ?_⟩
      rw [hacc]
      refine ⟨fun k hk => ?_, fun k hk => ?_, fun k hk hu => ?_, rfl, rfl, rfl, rfl, rfl, fun hne => ?_, more, rfl⟩
      · refine (Memory.read_writeBytes hwf offset (s.itemBytes it) (offset + k)).trans ?_
        rw [if_pos ⟨by omega, by omega⟩, Nat.add_sub_cancel_left]
      · refine (Memory.read_writeBytes hwf offset (s.itemBytes it) k).trans ?_
        rw [if_neg (by omega)]
      · exact Account.fits_free hfits hro hu.1 hu.2
      · show (!(rest ++ more).isEmpty) = true
        have hne : rest ++ more ≠ [] := hne
        simpa using hne
    · rw [exec_append hd, State.appendAttempt_waits hq (Account.place_of_not_fits hno)]
  · intro z
    have hz : z = x.bytes (s.slot x.slot).tag := by
      show s.itemBytes (.repeatItem r) = _
      rw [State.itemBytes, hx]
    have hr : x.repeatIndex = r := State.record_index hx
    rw [hz]
    obtain ⟨h0, h1, h2, h4, h8, h9, h10, h11⟩ := recordHeader_fields 1 x.positions.length (s.slot x.slot).tag x.repeatIndex x.closure.code
      x.served.toNat x.lost.toNat (x.positions.flatMap Position.bytes)
    have hserved : x.served.toNat < 64 := x.served.isLt
    have hlost : x.lost.toNat < 64 := x.lost.isLt
    refine ⟨Record.bytes_length _ _, h0, ?_, h2, ?_, ?_, ?_, ?_, h11, fun k p hp => ?_⟩
    · rw [Record.bytes, h1, BitVec.toNat_ofNat]
      omega
    · rw [← hr]
      exact h4
    · rw [Record.bytes, h8]
      cases x.closure <;> rfl
    · rw [Record.bytes, h9, BitVec.toNat_ofNat]
      omega
    · rw [Record.bytes, h10, BitVec.toNat_ofNat]
      omega
    · have hdrop := Record.bytes_drop (s.slot x.slot).tag x hp
      obtain ⟨p0, p5, p6, p7⟩ := p.bytes_fields ((x.positions.drop (k + 1)).flatMap Position.bytes)
      refine ⟨?_, ?_, ?_, ?_⟩
      · rw [show 12 + 8 * k = 12 + 8 * k + 0 from rfl, field_of_drop hdrop, p0]
      · rw [show 17 + 8 * k = 12 + 8 * k + 5 by omega, byteAt_of_drop hdrop, p5]
      · rw [show 18 + 8 * k = 12 + 8 * k + 6 by omega, byteAt_of_drop hdrop, p6]
        cases p.outcome <;> rfl
      · rw [show 19 + 8 * k = 12 + 8 * k + 7 by omega, byteAt_of_drop hdrop, p7, flagBits_toNat]
        cases p.entry.value <;> cases p.entry.bookEnd <;> rfl
  · intro z makeup
    obtain ⟨hlen, b12, b13, b14, b15, b16, f17, f22, b27, b28, b29, b30, b31⟩ := j.startBytes_fields
    have hz : z = recordHeader 2 0 j.tag 0 0 0 0 ++ j.startBytes.drop 12 := by
      have : j.startBytes.take 12 = recordHeader 2 0 j.tag 0 0 0 0 := by
        rw [JobSlot.startBytes]
        simp only [List.append_assoc]
        exact List.take_left' (recordHeader_length ..)
      rw [← this]
      exact (List.take_append_drop 12 _).symm
    obtain ⟨h0, h1, h2, -⟩ := recordHeader_fields 2 0 j.tag 0 0 0 0 (j.startBytes.drop 12)
    refine ⟨hlen, hz ▸ h0, hz ▸ h1, hz ▸ h2, fun k h4 h12 => hz ▸ recordHeader_zeros 2 0 j.tag _ k h4 h12, b12, b13, b14, b15, b16, f17, f22,
      ?_, b28, b29, ?_, b31⟩
    · show (byteAt j.startBytes 27).toNat = _
      rw [b27]
      cases j.rules.scheme <;> rfl
    · show byteAt j.startBytes 30 = _
      rw [b30]
      cases j.geometry.order <;> rfl
  · intro z
    obtain ⟨hlen, hcounts⟩ := j.endBytes_fields
    obtain ⟨h0, h1, h2, -⟩ := recordHeader_fields 3 0 j.tag 0 0 0 0 j.tally.bytes
    exact ⟨hlen, h0, h1, h2, fun k h4 h12 => recordHeader_zeros 3 0 j.tag _ k h4 h12, hcounts⟩

end Sys2Proof.Machine
end
section
/-! Retakes of held requests where no pass is called for (R65, R68), as STOP, QUIT and a leaving record make them. -/

namespace Sys2Proof.Machine

section
variable {s t : State} {x : Port} {r : Nat}

/-- A retake of repeat `r` calls for no pass (R65). -/
def State.noPass (s : State) (r : Nat) : Prop :=
  s.window.records ≠ [] ∨ ∀ b, s.draftBase = some b → max s.firstUnopened (r - 47) ≤ b

theorem State.catchUp_of_noPass (h : s.noPass r) : s.catchUp r = s := by
  unfold State.catchUp
  rcases h with h | h
  · rw [if_neg fun he => h (List.isEmpty_iff.mp he)]
  · split_ifs
    · cases hb : s.draftBase with
      | none => rfl
      | some b => exact if_neg (Nat.not_lt.mpr (h b hb))
    · rfl

/-- What a retake does to a port, with no pass called for (R68). -/
def State.retaken (s : State) (x : Port) : Port :=
  match x.slot with
  | .held q .waiting =>
    let r := q.repeatIndex
    if r < s.plan.lMax ∨ s.atOrBelowNewest r = true then { x with slot := .held q (.building (s.classify r)) }
    else if s.belowFloor r then { x with slot := .held q (.building (.late r)) }
    else match s.concludes r with
      | some a => { x with slot := .held q (.building a) }
      | none => if s.blockedAt r then x else { x with slot := .preparing q .waiting }
  | _ => x

/-- The repeat for which a retake at a port raises the opening target (R62, R68). -/
def State.asked (s : State) (x : Port) : Option Nat :=
  match x.slot with
  | .held q .waiting =>
    if (q.repeatIndex < s.plan.lMax ∨ s.atOrBelowNewest q.repeatIndex = true) ∨ s.belowFloor q.repeatIndex = true then none
    else some q.repeatIndex
  | _ => none

theorem State.reached_iff : s.reached r ↔ r < s.plan.lMax ∨ s.atOrBelowNewest r = true := by
  unfold State.reached
  rw [atOrBelowNewest_iff]

theorem State.passed_iff : s.passed r ↔ s.belowFloor r = true := by
  unfold State.belowFloor State.passed
  cases s.queue.passFloor <;> simp

theorem State.asked_eq_some {g : Nat} : s.asked x = some g ↔
    ∃ q, x.slot = .held q .waiting ∧ ¬ s.reached q.repeatIndex ∧ ¬ s.passed q.repeatIndex ∧ g = q.repeatIndex := by
  unfold State.asked
  split
  · rename_i q hq
    have hcond : ((q.repeatIndex < s.plan.lMax ∨ s.atOrBelowNewest q.repeatIndex = true) ∨ s.belowFloor q.repeatIndex = true) ↔
        s.reached q.repeatIndex ∨ s.passed q.repeatIndex := or_congr State.reached_iff.symm State.passed_iff.symm
    split_ifs with h
    · refine ⟨nofun, fun ⟨q', hq', h1, h2, _⟩ => ?_⟩
      rw [hq] at hq'
      cases hq'
      exact absurd (hcond.mp h) (not_or.mpr ⟨h1, h2⟩)
    · obtain ⟨h1, h2⟩ := not_or.mp (fun h' => h (hcond.mpr h'))
      constructor
      · rintro ⟨⟩
        exact ⟨q, hq, h1, h2, rfl⟩
      · rintro ⟨q', hq', -, -, rfl⟩
        rw [hq] at hq'
        cases hq'
        rfl
  · rename_i hno
    exact ⟨nofun, fun ⟨q, hq, _⟩ => absurd hq (hno q)⟩

/-- A retaken port, case by case (R68). -/
theorem State.retakesPort_retaken (s : State) (x : Port) : s.RetakesPort x (s.retaken x) := by
  refine ⟨fun q hq => ?_, fun h => ?_⟩
  · intro r
    obtain ⟨-, -, hblank, hnone⟩ := s.concludes_cases r
    have hnewest : ¬ s.reached r → ¬ ∃ n, s.window.newest = some n ∧ r ≤ n := fun h h' => h (.inr h')
    rw [State.retaken, hq]
    dsimp only
    have far (h : ¬ s.reached r) : ¬ (r < s.plan.lMax ∨ s.atOrBelowNewest r = true) := fun h' => h (State.reached_iff.mpr h')
    have above (h : ¬ s.passed r) : ¬ s.belowFloor r = true := fun h' => h (State.passed_iff.mpr h')
    refine ⟨fun h1 => if_pos (State.reached_iff.mp h1), fun h1 h2 => ?_, fun h1 h2 h3 => ?_, fun h1 h2 h3 h4 => ?_, fun h1 h2 h3 h4 => ?_⟩
    · rw [if_neg (far h1), if_pos (State.passed_iff.mp h2)]
    · rw [if_neg (far h1), if_neg (above h2), hblank (hnewest h1) h2 h3]
    · rw [if_neg (far h1), if_neg (above h2), hnone (hnewest h1) h2 h3]
      exact if_pos ((State.blockedAt_iff h3).mpr h4)
    · rw [if_neg (far h1), if_neg (above h2), hnone (hnewest h1) h2 h3]
      exact if_neg fun h => h4 ((State.blockedAt_iff h3).mp h)
  · unfold State.retaken
    split
    · rename_i q hq
      exact absurd hq (h q)
    · rfl

/-- Whether the retake of a port's request calls for no pass. -/
def State.calmAt (s : State) (x : Port) : Prop := ∀ q, x.slot = .held q .waiting → s.noPass q.repeatIndex

/-- The opening target after a port asked for a repeat. -/
def raisedTo (target : Option Nat) : Option Nat → Option Nat
  | none => target
  | some r => some (max r (target.getD 0))

theorem State.SameWork.noPass (h : s.SameWork t) (hn : s.noPass r) : t.noPass r := by
  obtain ⟨_, _, _, rfl⟩ := h
  exact hn

theorem State.SameWork.raiseTarget (h : s.SameWork t) (r : Nat) : s.SameWork (t.raiseTarget r) := h.trans ⟨_, _, _, rfl⟩

theorem State.setReqSlot_of_port (p : PortId) (hp : t.port p = x) (z : ReqSlot) :
    t.setReqSlot p z = t.modPort p fun _ => { x with slot := z } := by
  refine State.eq_of_fields rfl rfl rfl rfl rfl rfl rfl rfl (fun q => ?_) rfl rfl rfl
  rw [State.setReqSlot, State.modPort_port, State.modPort_port, hp]

theorem State.modPort_of_port (p : PortId) (hp : t.port p = x) : t.modPort p (fun _ => x) = t := by
  refine State.eq_of_fields rfl rfl rfl rfl rfl rfl rfl rfl (fun q => ?_) rfl rfl rfl
  rw [State.modPort_port]
  split_ifs with hq
  · rw [hq, hp]
  · rfl

/-- A port that holds no waiting request is not retaken. -/
theorem State.retaken_of_not (h : ∀ q, x.slot ≠ .held q .waiting) : s.retaken x = x := (s.retakesPort_retaken x).2 h

theorem State.asked_of_not (h : ∀ q, x.slot ≠ .held q .waiting) : s.asked x = none := by
  unfold State.asked
  split
  · rename_i q hq
    exact absurd hq (h q)
  · rfl

theorem State.retakePort_of_not (p : PortId) (h : ∀ q, (t.port p).slot ≠ .held q .waiting) : State.retakePort p t = t := by
  unfold State.retakePort
  split
  · rename_i q hq
    exact absurd hq (h q)
  · rfl

section
variable {q : Request} (hx : x.slot = .held q .waiting)
include hx

theorem State.asked_near (h : (q.repeatIndex < s.plan.lMax ∨ s.atOrBelowNewest q.repeatIndex = true) ∨ s.belowFloor q.repeatIndex = true) :
    s.asked x = none := by
  rw [State.asked, hx]
  exact if_pos h

theorem State.asked_far (h1 : ¬ (q.repeatIndex < s.plan.lMax ∨ s.atOrBelowNewest q.repeatIndex = true))
    (h2 : ¬ s.belowFloor q.repeatIndex = true) : s.asked x = some q.repeatIndex := by
  rw [State.asked, hx]
  exact if_neg (not_or.mpr ⟨h1, h2⟩)

theorem State.retaken_held : s.retaken x =
    if q.repeatIndex < s.plan.lMax ∨ s.atOrBelowNewest q.repeatIndex = true then
      { x with slot := .held q (.building (s.classify q.repeatIndex)) }
    else if s.belowFloor q.repeatIndex then { x with slot := .held q (.building (.late q.repeatIndex)) }
    else ((s.concludes q.repeatIndex).map fun a => { x with slot := .held q (.building a) }).getD
      (if s.blockedAt q.repeatIndex then x else { x with slot := .preparing q .waiting }) := by
  rw [State.retaken, hx]
  dsimp only
  cases s.concludes q.repeatIndex <;> rfl

end

/-- One retake with no pass: the port, and the target it may raise. -/
theorem State.retakePort_calm (h : s.SameWork t) (p : PortId) (hp : t.port p = x) (hcalm : s.calmAt x) :
    State.retakePort p t = { t.modPort p (fun _ => s.retaken x) with
      window := { t.window with target := raisedTo t.window.target (s.asked x) } } := by
  have hwork : t.plan = s.plan ∧ (∀ r, t.atOrBelowNewest r = s.atOrBelowNewest r) ∧ (∀ r, t.classify r = s.classify r) ∧
      ∀ r, t.belowFloor r = s.belowFloor r := by
    obtain ⟨_, _, _, rfl⟩ := h
    exact ⟨rfl, fun _ => rfl, fun _ => rfl, fun _ => rfl⟩
  obtain ⟨hplan, hnewest, hclassify, hfloor⟩ := hwork
  by_cases hheld : ∃ q, x.slot = .held q .waiting
  · obtain ⟨q, hx⟩ := hheld
    rw [State.retakePort, hp, hx, State.retaken_held hx]
    dsimp only
    rw [hplan, hnewest, hclassify, hfloor]
    by_cases h1 : q.repeatIndex < s.plan.lMax ∨ s.atOrBelowNewest q.repeatIndex = true
    · rw [if_pos h1, if_pos h1, State.asked_near hx (.inl h1), State.setReqSlot_of_port p hp]
      rfl
    · by_cases h2 : s.belowFloor q.repeatIndex = true
      · rw [if_neg h1, if_pos h2, if_neg h1, if_pos h2, State.asked_near hx (.inr h2), State.setReqSlot_of_port p hp]
        rfl
      · have hraised := h.raiseTarget q.repeatIndex
        have hp' : (t.raiseTarget q.repeatIndex).port p = x := hp
        rw [if_neg h1, if_neg h2, if_neg h1, if_neg h2, State.catchUp_of_noPass (hraised.noPass (hcalm q hx)), hraised.concludes,
          hraised.blockedAt, State.asked_far hx h1 h2]
        cases hc : s.concludes q.repeatIndex with
        | some a =>
          dsimp only
          rw [State.setReqSlot_of_port p hp']
          rfl
        | none =>
          by_cases h3 : s.blockedAt q.repeatIndex = true
          · have hstay : (t.raiseTarget q.repeatIndex).modPort p (fun _ => x) = t.raiseTarget q.repeatIndex := State.modPort_of_port p hp'
            simp only [h3, if_true, Option.map_none, Option.getD_none]
            exact hstay.symm
          · dsimp only
            rw [if_neg h3, State.setReqSlot_of_port p hp', Option.map_none, Option.getD_none, if_neg h3]
            rfl
  · have hno : ∀ q, x.slot ≠ .held q .waiting := fun q hq => hheld ⟨q, hq⟩
    rw [State.retakePort_of_not p (hp ▸ hno), State.retaken_of_not hno, State.asked_of_not hno, State.modPort_of_port p hp]
    rfl

/-! ### All retakes in turn -/

/-- What the retakes of the ports `l` leave of `t`: the ports' work and a target raised to the repeats asked for. -/
structure State.Retook (s t u : State) (l : List PortId) : Prop where
  work : s.SameWork u
  sup : u.sup = t.sup
  done : ∀ p ∈ l, u.port p = s.retaken (s.port p)
  other : ∀ p, p ∉ l → u.port p = t.port p
  covers : ∀ g, (∃ p ∈ l, s.asked (s.port p) = some g) ∨ t.window.target = some g → ∃ h, u.window.target = some h ∧ g ≤ h
  among : ∀ h, u.window.target = some h → (∃ p ∈ l, s.asked (s.port p) = some h) ∨ t.window.target = some h

theorem raisedTo_covers {target a : Option Nat} {g : Nat} (h : a = some g ∨ target = some g) : ∃ k, raisedTo target a = some k ∧ g ≤ k := by
  cases a with
  | none =>
    rcases h with h | h
    · cases h
    · exact ⟨g, h, Nat.le_refl g⟩
  | some r =>
    refine ⟨_, rfl, ?_⟩
    rcases h with h | h
    · cases h
      exact Nat.le_max_left _ _
    · rw [h]
      exact Nat.le_max_right _ _

theorem raisedTo_among {target a : Option Nat} {k : Nat} (h : raisedTo target a = some k) : a = some k ∨ target = some k := by
  cases a with
  | none => exact .inr h
  | some r =>
    cases h
    cases target with
    | none => simp
    | some g =>
      simp only [Option.getD_some, Option.some.injEq]
      omega

theorem State.retook_fold : ∀ (l : List PortId) (t : State), l.Nodup → s.SameWork t → (∀ p ∈ l, t.port p = s.port p) →
    (∀ p, s.calmAt (s.port p)) → s.Retook t (l.foldl (fun u p => State.retakePort p u) t) l := by
  intro l
  induction l with
  | nil => exact fun t _ hw _ _ => ⟨hw, rfl, nofun, fun _ _ => rfl, fun g h => ⟨g, h.resolve_left nofun, Nat.le_refl g⟩, fun h hh => .inr hh⟩
  | cons p l ih =>
    intro t hn hw hp hcalm
    obtain ⟨hpl, hn⟩ := List.nodup_cons.mp hn
    have hstep := State.retakePort_calm hw p (hp p List.mem_cons_self) (hcalm p)
    have hsw : s.SameWork (State.retakePort p t) := by
      rw [hstep]
      exact hw.trans ⟨_, _, _, rfl⟩
    have hport (q : PortId) : (State.retakePort p t).port q = if q = p then s.retaken (s.port p) else t.port q := by
      rw [hstep]
      exact State.modPort_port t p q (fun _ => s.retaken (s.port p))
    have htarget : (State.retakePort p t).window.target = raisedTo t.window.target (s.asked (s.port p)) := by rw [hstep]
    have hsup : (State.retakePort p t).sup = t.sup := by
      rw [hstep]
      rfl
    have hrest := ih (State.retakePort p t) hn hsw (fun q hq => by
      have hne : q ≠ p := fun e => hpl (e ▸ hq)
      rw [hport, if_neg hne]
      exact hp q (List.mem_cons_of_mem p hq)) hcalm
    rw [List.foldl_cons]
    refine ⟨hrest.work, hrest.sup.trans hsup, fun q hq => ?_, fun q hq => ?_, fun g hg => ?_, fun h hh => ?_⟩
    · rcases List.mem_cons.mp hq with rfl | hq
      · rw [hrest.other q hpl, hport, if_pos rfl]
      · exact hrest.done q hq
    · obtain ⟨hqp, hql⟩ := not_or.mp (mt List.mem_cons.mpr hq)
      rw [hrest.other q hql, hport, if_neg hqp]
    · rcases hg with ⟨q, hq, hasks⟩ | hg
      · rcases List.mem_cons.mp hq with rfl | hq
        · obtain ⟨k, hk, hgk⟩ := raisedTo_covers (target := t.window.target) (.inl hasks)
          obtain ⟨k', hk', hkk⟩ := hrest.covers k (.inr (htarget.trans hk))
          exact ⟨k', hk', hgk.trans hkk⟩
        · exact hrest.covers g (.inl ⟨q, hq, hasks⟩)
      · obtain ⟨k, hk, hgk⟩ := raisedTo_covers (a := s.asked (s.port p)) (.inr hg)
        obtain ⟨k', hk', hkk⟩ := hrest.covers k (.inr (htarget.trans hk))
        exact ⟨k', hk', hgk.trans hkk⟩
    · rcases hrest.among h hh with ⟨q, hq, hasks⟩ | ht
      · exact .inl ⟨q, List.mem_cons_of_mem p hq, hasks⟩
      · rcases raisedTo_among (htarget.symm.trans ht) with ha | ha
        · exact .inl ⟨p, List.mem_cons_self, ha⟩
        · exact .inr ha

/-- Every held request retaken, with no pass called for. -/
theorem State.retook (hcalm : ∀ p, s.calmAt (s.port p)) : s.Retook s (s.forPorts State.retakePort) allPorts :=
  State.retook_fold allPorts s (by decide) (.refl s) (fun _ _ => rfl) hcalm

end

/-! ### The state around retakes -/

/-- `t` has the records, the drafts and the jobs of `w`: only the fill in flight, the opening target, the ports, the supervisor port and the
account may differ. -/
def State.SameJobs (w t : State) : Prop :=
  ∃ f g ps u a, t = { w with queue := { w.queue with fill := f }, window := { w.window with target := g }, ports := ps, sup := u, account := a }

section
variable {w t : State}

theorem State.SameWork.sameJobs (h : w.SameWork t) : w.SameJobs t := by
  obtain ⟨_, _, _, rfl⟩ := h
  exact ⟨_, _, _, _, _, rfl⟩

theorem State.SameJobs.trans {u : State} (h : w.SameJobs t) (k : t.SameJobs u) : w.SameJobs u := by
  obtain ⟨_, _, _, _, _, rfl⟩ := h
  obtain ⟨_, _, _, _, _, rfl⟩ := k
  exact ⟨_, _, _, _, _, rfl⟩

theorem State.sameJobs_settle (w : State) : w.SameJobs w.settle := ⟨_, _, _, _, _, w.settle_eq⟩

theorem State.sameJobs_queueJobEnd (w : State) (i : SlotId) : w.SameJobs (w.queueJobEnd i) := by
  unfold State.queueJobEnd
  split_ifs
  · exact ⟨_, _, _, _, _, rfl⟩
  · exact ⟨_, _, _, _, _, rfl⟩

theorem State.sameJobs_markDue (w : State) : w.SameJobs w.markDue := ⟨_, _, _, _, _, rfl⟩

theorem State.SameJobs.retakesPort (h : w.SameJobs t) {x y : Port} (hr : w.RetakesPort x y) : t.RetakesPort x y := by
  obtain ⟨_, _, _, _, _, rfl⟩ := h
  exact hr

theorem State.SameJobs.reached (h : w.SameJobs t) (r : Nat) : t.reached r ↔ w.reached r := by
  obtain ⟨_, _, _, _, _, rfl⟩ := h
  exact Iff.rfl

theorem State.SameJobs.passed (h : w.SameJobs t) (r : Nat) : t.passed r ↔ w.passed r := by
  obtain ⟨_, _, _, _, _, rfl⟩ := h
  exact Iff.rfl

theorem State.SameJobs.slot (h : w.SameJobs t) (i : SlotId) : t.slot i = w.slot i := by
  obtain ⟨_, _, _, _, _, rfl⟩ := h
  exact State.slot_congr rfl rfl i

theorem State.SameJobs.queue (h : w.SameJobs t) : t.queue = { w.queue with fill := t.queue.fill } := by
  obtain ⟨_, _, _, _, _, rfl⟩ := h
  rfl

theorem State.SameJobs.holdsRecordOf (h : w.SameJobs t) (i : SlotId) : t.holdsRecordOf i = w.holdsRecordOf i := by
  obtain ⟨_, _, _, _, _, rfl⟩ := h
  rfl

/-- What settled stays settled whatever the account becomes. -/
theorem State.Settled.of_account {f : Option Fill} {g : Option Nat} {ps : PortId → Port} {e : BitVec 12} (h : w.Settled f g ps e)
    (ht : t = { w with account := t.account }) : t.Settled f g ps e := by
  generalize t.account = a at ht
  subst ht
  exact h

theorem State.queueJobEnd_markDue_eq (w : State) (i : SlotId) :
    (w.queueJobEnd i).markDue = { w with account := (w.queueJobEnd i).markDue.account } := by
  unfold State.queueJobEnd
  split_ifs <;> rfl

/-- The JOB_END that a slot queues, by the slot, the records and the items waiting. -/
theorem State.endItems_eq (w : State) (i : SlotId) : w.endItems i =
    if (w.slot i).state = .draining ∧ (∀ y ∈ w.window.records, y.slot ≠ i) ∧ w.account.queue.any (Item.isJobEndOf i) = false then
      [Item.jobEnd i (w.slot i).endBytes] else [] := by
  have hold : w.holdsRecordOf i = false ↔ ∀ y ∈ w.window.records, y.slot ≠ i := by
    unfold State.holdsRecordOf
    rw [List.any_eq_false]
    simp
  unfold State.endItems
  simp only [hold]

end

/-- Every held request retaken with no pass called for, then settled: each port, the target, and what settling leaves of them (R64, R66 to R68). -/
theorem State.retakeHeld_calm (w : State) (hcalm : ∀ p, w.calmAt (w.port p)) : ∃ (ports : PortId → Port) (target : Option Nat),
    (∀ p, ports p = w.retaken (w.port p)) ∧
    (∀ g, (∃ p, w.asked (w.port p) = some g) ∨ w.window.target = some g → ∃ h, target = some h ∧ g ≤ h) ∧
    (∀ h, target = some h → (∃ p, w.asked (w.port p) = some h) ∨ w.window.target = some h) ∧
    w.retakeHeld.Settled w.queue.fill target ports w.sup.events ∧ w.SameJobs w.retakeHeld ∧ w.retakeHeld.account = w.account ∧
    w.retakeHeld.voids = w.voids := by
  have h := State.retook hcalm
  refine ⟨(w.forPorts State.retakePort).port, (w.forPorts State.retakePort).window.target, fun p => h.done p (mem_allPorts p),
    fun g hg => h.covers g (hg.imp_left fun ⟨p, hp⟩ => ⟨p, mem_allPorts p, hp⟩),
    fun g hg => (h.among g hg).imp_left fun ⟨p, _, hp⟩ => ⟨p, hp⟩, ?_, h.work.sameJobs.trans (State.sameJobs_settle _), ?_, ?_⟩
  · have hsettled := (w.forPorts State.retakePort).settle_settled
    rw [h.work.queue, h.sup] at hsettled
    exact hsettled
  · rw [State.retakeHeld, State.settle_account]
    obtain ⟨_, _, _, hw⟩ := h.work
    rw [hw]
  · rw [State.retakeHeld, State.settle_voids]
    obtain ⟨_, _, _, hw⟩ := h.work
    rw [hw]

end Sys2Proof.Machine
end
section
/-! What an append does beyond the ring, item by item (O39: R68, R81, R122, R123, R149, R151). -/

namespace Sys2Proof.Machine

/-! ### What job control and retakes leave of the window, the tallies and the BUFFER_HIGH flag -/

/-- The records, newest, the high mark, the tallies and the BUFFER_HIGH flag are as before. -/
structure State.Aside (s t : State) : Prop where
  flag : t.sup.events.getLsbD 4 = s.sup.events.getLsbD 4
  records : t.window.records = s.window.records
  newest : t.window.newest = s.window.newest
  high : t.window.high = s.window.high
  tally : ∀ i, (t.slot i).tally = (s.slot i).tally

section
variable {s t u : State}

theorem State.Aside.refl (s : State) : s.Aside s := ⟨rfl, rfl, rfl, rfl, fun _ => rfl⟩

theorem State.Aside.trans (h : s.Aside t) (k : t.Aside u) : s.Aside u :=
  ⟨k.flag.trans h.flag, k.records.trans h.records, k.newest.trans h.newest, k.high.trans h.high, fun i => (k.tally i).trans (h.tally i)⟩

theorem State.Aside.of_eq (hsup : t.sup = s.sup) (hw : t.window = s.window) (hslot : ∀ i, (t.slot i).tally = (s.slot i).tally) : s.Aside t :=
  ⟨by rw [hsup], by rw [hw], by rw [hw], by rw [hw], hslot⟩

theorem Event.flag_getLsbD (e : Event) : e.flag.getLsbD 4 = decide (e = .bufferHigh) := by cases e <;> rfl

theorem State.aside_raise (s : State) {e : Event} (he : e ≠ .bufferHigh) : s.Aside (s.raise e) := by
  refine ⟨?_, rfl, rfl, rfl, fun i => by rw [State.raise_slot]⟩
  rw [State.raise_events, BitVec.getLsbD_or, Event.flag_getLsbD, decide_eq_false he, Bool.or_false]

theorem State.aside_modSlot (s : State) (i : SlotId) (f : JobSlot → JobSlot) (hf : ∀ j, (f j).tally = j.tally) : s.Aside (s.modSlot i f) :=
  .of_eq (State.modSlot_sup s i f) (State.modSlot_window s i f) fun k => by
    rw [State.modSlot_slot]
    split_ifs with hk
    · rw [hf, hk]
    · rfl

theorem State.aside_queueJobEnd (s : State) (i : SlotId) : s.Aside (s.queueJobEnd i) :=
  .of_eq (State.queueJobEnd_sup s i) (State.queueJobEnd_window s i) fun k => by rw [State.queueJobEnd_slot]

theorem State.aside_queueJobStart (s : State) (i : SlotId) : s.Aside (s.queueJobStart i) :=
  .of_eq rfl rfl fun k => by rw [State.queueJobStart_slot]

theorem State.aside_drain (s : State) (i : SlotId) : s.Aside (s.drain i) :=
  (State.aside_modSlot s i (fun j => { j with state := .draining }) fun _ => rfl).trans (State.aside_queueJobEnd _ i)

theorem State.aside_changeTakesEffect (s : State) : s.Aside s.changeTakesEffect := by
  unfold State.changeTakesEffect
  split
  · rename_i old new _ _ _
    refine .trans (.trans ?_ (State.aside_queueJobEnd _ new)) (State.aside_queueJobEnd _ old)
    refine .trans (.trans ?_ (State.aside_queueJobStart _ new)) (State.aside_raise _ (by decide))
    exact (State.aside_modSlot s old (fun j => { j with state := .draining }) fun _ => rfl).trans
      (State.aside_modSlot _ new (fun j => { j with state := if j.final = Final.empty then .draining else .running, change := none }) fun _ => rfl)
  · exact .refl s

theorem State.aside_reportOpening (s : State) (q : Nat) : s.Aside (s.reportOpening q) := by
  have hchanges : s.Aside (s.openingChanges q) := by
    unfold State.openingChanges
    split
    · split_ifs
      · exact s.aside_changeTakesEffect
      · exact .refl s
    · exact .refl s
  refine hchanges.trans ?_
  unfold State.reportOpening State.openingDrains
  split
  · split_ifs
    · exact State.aside_drain _ _
    · exact .refl _
  · exact .refl _

theorem State.aside_reportPass (s : State) (p : Nat) : s.Aside (s.reportPass p) := by
  unfold State.reportPass
  split
  · split_ifs
    · exact s.aside_changeTakesEffect
    · exact .refl s
  · exact .refl s

theorem State.FlagsDrop.flag {p : Prop} (h : s.FlagsDrop t p) : t.sup.events.getLsbD 4 = s.sup.events.getLsbD 4 := by
  by_cases hp : p
  · rw [h.1 hp, BitVec.getLsbD_or]
    simp
  · rw [h.2 hp]

theorem State.aside_flush (s : State) (q : Nat) : s.Aside (s.flush q) := by
  have hw := State.flush_window s q
  exact ⟨(State.flush_flagsDrop s q).flag, by rw [hw], by rw [hw], by rw [hw], fun i => by rw [State.flush_slot s q i]⟩

theorem State.aside_settle (s : State) : s.Aside s.settle := by
  refine ⟨?_, State.settle_records s, State.settle_newest s, State.settle_high s, fun i => by rw [State.settle_slot]⟩
  obtain ⟨-, -, -, -, -, -, hheld, hnone⟩ := s.settle_settled
  by_cases h : ∃ p q r, (s.port p).slot = .preparing q .waiting ∧ (s.settle.port p).slot = .held r .waiting
  · rw [hheld h, BitVec.getLsbD_or]
    simp
  · rw [hnone h]

theorem State.aside_passTo (s : State) (base p : Nat) : s.Aside (s.passTo base p) := by
  have hfloor : (s.flush base).Aside { s.flush base with queue := { (s.flush base).queue with passFloor := some p } } :=
    ⟨rfl, rfl, rfl, rfl, fun i => congrArg JobSlot.tally (State.slot_congr rfl rfl i)⟩
  exact ((State.aside_flush s base).trans hfloor).trans (State.aside_reportPass _ p)

theorem State.aside_catchUp (s : State) (r : Nat) : s.Aside (s.catchUp r) := by
  unfold State.catchUp
  split_ifs
  · split
    · split_ifs
      · exact s.aside_passTo _ _
      · exact .refl s
    · exact .refl s
  · exact .refl s

theorem State.aside_setReqSlot (s : State) (p : PortId) (x : ReqSlot) : s.Aside (s.setReqSlot p x) := ⟨rfl, rfl, rfl, rfl, fun _ => rfl⟩

theorem State.aside_retakePort (p : PortId) (s : State) : s.Aside (State.retakePort p s) := by
  have hcatch (r : Nat) : s.Aside ((s.raiseTarget r).catchUp r) :=
    .trans (t := s.raiseTarget r) ⟨rfl, rfl, rfl, rfl, fun _ => rfl⟩ (State.aside_catchUp _ r)
  unfold State.retakePort
  split
  · dsimp only
    split
    · exact s.aside_setReqSlot p _
    · split
      · exact s.aside_setReqSlot p _
      · split
        · exact (hcatch _).trans (State.aside_setReqSlot _ p _)
        · split
          · exact hcatch _
          · exact (hcatch _).trans (State.aside_setReqSlot _ p _)
  · exact .refl s

theorem State.aside_retakeHeld (s : State) : s.Aside s.retakeHeld :=
  (State.forPorts_keeps (P := fun t => s.Aside t) _ (fun p t ht => ht.trans (State.aside_retakePort p t)) s (.refl s)).trans
    (State.aside_settle _)

/-! ### The BUFFER_HIGH flag while a record leaves -/

theorem State.raiseIf_flag (s : State) (c : Bool) {e : Event} (he : e ≠ .bufferHigh) :
    (s.raiseIf c e).sup.events.getLsbD 4 = s.sup.events.getLsbD 4 := by
  cases c
  · rfl
  · exact (s.aside_raise he).flag

theorem State.openDraft_flag (s : State) (d : Draft) (rest : List Draft) :
    (s.openDraft d rest).sup.events.getLsbD 4 = s.sup.events.getLsbD 4 := by
  unfold State.openDraft
  dsimp only
  rw [(State.aside_settle _).flag, (State.aside_reportOpening _ _).flag, State.checkWindowHigh, State.raiseIf_flag _ _ (by decide)]
  exact congrArg (fun u : Supervisor => u.events.getLsbD 4) (State.modSlot_sup _ _ _)

theorem State.openReady_flag (s : State) : s.openReady.sup.events.getLsbD 4 = s.sup.events.getLsbD 4 :=
  State.openReady_keeps (P := fun t => t.sup.events.getLsbD 4 = s.sup.events.getLsbD 4)
    (fun t d rest _ h => (t.openDraft_flag d rest).trans h) rfl

theorem State.dropRecord_flag (s : State) (r : Nat) : (s.dropRecord r).sup.events.getLsbD 4 = s.sup.events.getLsbD 4 :=
  State.raiseIf_flag _ _ (by decide)

theorem State.recordLeaves_flag (s : State) (r : Nat) : (s.recordLeaves r).sup.events.getLsbD 4 = s.sup.events.getLsbD 4 := by
  unfold State.recordLeaves
  split
  · rfl
  · dsimp only
    rw [(State.aside_queueJobEnd _ _).flag, (State.aside_retakeHeld _).flag]
    split_ifs
    · rw [State.openReady_flag, State.dropRecord_flag]
    · exact s.dropRecord_flag r

theorem State.itemAppended_flag (s : State) (it : Item) : (s.itemAppended it).sup.events.getLsbD 4 = s.sup.events.getLsbD 4 := by
  cases it with
  | repeatItem r => exact s.recordLeaves_flag r
  | jobStart i z => rfl
  | postVoid z => rfl
  | jobEnd i z => exact (State.aside_raise _ (by decide)).flag.trans (congrArg (fun u : Supervisor => u.events.getLsbD 4) (State.modSlot_sup _ _ _))

end

/-! ### An attempt that takes its item -/

section
variable {s : State}

theorem State.checkBufferHigh_events (s : State) : s.checkBufferHigh.sup.events =
    s.sup.events ||| if s.checkBufferHigh.account.high && !s.account.high then 0x010 else 0 := by
  rw [State.checkBufferHigh_eq]
  by_cases h : s.plan.bufHigh * 256 ≤ s.account.used <;> cases hh : s.account.high <;> simp [h]

theorem events_or_zero (e : BitVec 12) : e ||| 0 = e := BitVec.or_zero

/-- The comparison of the occupancy with the threshold (R82). -/
theorem State.checkWindowHigh_eq (s : State) : s.checkWindowHigh = { s with
    window := { s.window with high := decide (s.plan.winHigh ≤ s.window.records.length) }
    sup := { s.sup with
      events := s.sup.events ||| if s.plan.winHigh ≤ s.window.records.length ∧ s.window.high = false then 0x004 else 0 } } := by
  rw [State.checkWindowHigh]
  by_cases hu : s.plan.winHigh ≤ s.window.records.length
  · cases hh : s.window.high
    · rw [if_pos ⟨hu, rfl⟩, State.occupancy, decide_eq_true hu]
      rfl
    · rw [if_neg fun h => Bool.noConfusion h.2, State.occupancy, decide_eq_true hu, events_or_zero]
      rfl
  · rw [if_neg fun h => hu h.1, State.occupancy, decide_eq_false hu, events_or_zero]
    rfl

/-- The state in which an item's own effects begin: its record in the ring, the used bytes compared. -/
def State.placing (s : State) (it : Item) (rest : List Item) (at' : Nat) : State :=
  (s.appended at' (s.itemBytes it) rest).checkBufferHigh

section
variable {it : Item} {rest : List Item} {at' : Nat}

theorem State.placing_eq (s : State) (it : Item) (rest : List Item) (at' : Nat) : s.placing it rest at' = { s with
    account := { s.account.placed at' (s.itemBytes it) with
      queue := rest, full := false, high := (s.placing it rest at').account.high }
    sup := { s.sup with events := s.sup.events ||| if (s.placing it rest at').account.high && !s.account.high then 0x010 else 0 } } := by
  have hevents : (s.placing it rest at').sup.events =
      s.sup.events ||| if (s.placing it rest at').account.high && !s.account.high then 0x010 else 0 :=
    State.checkBufferHigh_events (s.appended at' (s.itemBytes it) rest)
  rw [← hevents, State.placing, State.checkBufferHigh_eq]
  rfl

/-- The account's marks after the attempt: the high mark says what the used bytes are (R151). -/
theorem State.appendAttempt_high (hq : s.account.queue = it :: rest) (hp : s.account.place (s.itemBytes it).length = some at') :
    s.appendAttempt.account.high = decide (s.plan.bufHigh * 256 ≤ s.appendAttempt.account.used) ∧
      (s.placing it rest at').account.high = s.appendAttempt.account.high := by
  obtain ⟨more, hm⟩ := State.queued_itemAppended (s.placing it rest at') it
  have hacc : s.appendAttempt.account = { s.account.placed at' (s.itemBytes it) with
      queue := rest ++ more, full := false, high := (s.placing it rest at').account.high
      due := !((s.placing it rest at').itemAppended it).account.queue.isEmpty } := by
    rw [State.appendAttempt_placed hq hp, State.markDue]
    have hm : ((s.appended at' (s.itemBytes it) rest).checkBufferHigh.itemAppended it).account = _ := hm
    dsimp only
    rw [State.placing, hm]
    rw [show (s.appended at' (s.itemBytes it) rest).checkBufferHigh = s.placing it rest at' from rfl, State.placing_eq]
  have hhigh : (s.placing it rest at').account.high = decide (s.plan.bufHigh * 256 ≤ (s.account.placed at' (s.itemBytes it)).used) := by
    rw [State.placing, State.checkBufferHigh_eq]
    rfl
  rw [hacc]
  exact ⟨hhigh, rfl⟩

end

end

/-! ### JOB_END (R123) -/

section
variable (c : State) (i : SlotId) (bs : Bytes)

theorem State.itemAppended_jobEnd_slot (k : SlotId) : (c.itemAppended (.jobEnd i bs)).slot k =
    if k = i then { c.slot i with state := .ended } else c.slot k := by
  rw [State.itemAppended, State.stopTimers_slot, State.raise_slot, State.modSlot_slot]

theorem State.itemAppended_jobEnd_port (p : PortId) : (c.itemAppended (.jobEnd i bs)).port p = { c.port p with timer :=
    if c.run = true ∧ (c.itemAppended (.jobEnd i bs)).inRun = true ∧ c.plan.silence ≠ 0 ∧ (c.port p).state = .active then
      (c.port p).timer else none } := by
  have hin : (c.itemAppended (.jobEnd i bs)).inRun = ((c.modSlot i fun j => { j with state := .ended }).raise .jobEnded).inRun :=
    State.inRun_congr (by rw [State.itemAppended, State.stopTimers_slotA]) (by rw [State.itemAppended, State.stopTimers_slotB])
  rw [hin, State.itemAppended, State.stopTimers_port, State.timerRuns, State.raise_port, State.modSlot_port, State.raise_run,
    State.modSlot_run, State.raise_plan, State.modSlot_plan]
  generalize ((c.modSlot i fun j => { j with state := .ended }).raise .jobEnded).inRun = running
  have hcond : (c.run && decide ((c.port p).state = .active) && running && decide (c.plan.silence ≠ 0)) = true ↔
      c.run = true ∧ running = true ∧ c.plan.silence ≠ 0 ∧ (c.port p).state = .active := by
    simp only [Bool.and_eq_true, decide_eq_true_eq]
    tauto
  by_cases h : c.run = true ∧ running = true ∧ c.plan.silence ≠ 0 ∧ (c.port p).state = .active
  · rw [if_pos (hcond.mpr h), if_pos h]
  · rw [if_neg (mt hcond.mp h), if_neg h]

theorem State.itemAppended_jobEnd_frame : c.itemAppended (.jobEnd i bs) = { c with
    slotA := (c.itemAppended (.jobEnd i bs)).slotA, slotB := (c.itemAppended (.jobEnd i bs)).slotB
    ports := (c.itemAppended (.jobEnd i bs)).ports, sup := { c.sup with events := c.sup.events ||| 0x200 } } := by
  cases i <;> rfl

end

/-! ### A record leaves (R81) -/

theorem State.openingStopped_iff {c : State} : c.openingStopped = true ↔
    (∃ g, c.window.target = some g ∧ ∀ b, c.draftBase = some b → b ≤ g) ∧ c.spanStops := by
  unfold State.openingStopped State.spanStops State.blockedAt State.oldest
  rw [Option.any_eq_true]
  constructor
  · rintro ⟨g, hg, h⟩
    cases hb : c.draftBase with
    | none => simp [hb] at h
    | some b =>
      cases hx : c.window.records.head? with
      | none => simp [hb, hx] at h
      | some x =>
        simp only [hb, hx, Option.map_some, Bool.and_eq_true, decide_eq_true_eq] at h
        exact ⟨⟨g, hg, fun b' hb' => by cases hb'; exact h.2⟩, b, x, rfl, rfl, h.1⟩
  · rintro ⟨⟨g, hg, hle⟩, b, x, hb, hx, hspan⟩
    refine ⟨g, hg, ?_⟩
    simp only [hb, hx, Option.map_some, Bool.and_eq_true, decide_eq_true_eq]
    exact ⟨hspan, hle b hb⟩

/-- A leaving record: the window without it, the openings that resume, then the retakes and the JOB_END that may be due. -/
theorem State.recordLeaves_spec {c : State} {r : Nat} {x : Record} (hx : c.record r = some x) : ∃ (k : Nat) (w : State),
    (c.dropRecord r).opensTo k w ∧ (c.openingStopped = false → k = 0) ∧ (c.openingStopped = true → ¬ w.mayOpen) ∧
    w.window.records.map Record.repeatIndex =
      (c.dropRecord r).window.records.map Record.repeatIndex ++ (c.queue.drafts.take k).map Draft.repeatIndex ∧
    w.window.high = decide (c.plan.winHigh ≤ w.window.records.length) ∧ w.voids = c.voids ∧ w.plan = c.plan ∧
    c.recordLeaves r = w.retakeHeld.queueJobEnd x.slot := by
  have hdrafts : (c.dropRecord r).queue.drafts = c.queue.drafts := by rw [State.dropRecord_queue]
  have hplan : (c.dropRecord r).plan = c.plan := State.dropRecord_plan c r
  have hhigh : (c.dropRecord r).window.high = decide (c.plan.winHigh ≤ (c.dropRecord r).window.records.length) := by
    rw [State.dropRecord, State.checkWindowHigh_eq]
  cases hs : c.openingStopped with
  | true =>
    obtain ⟨k, hto, hnot, -, hrecords, hmark⟩ := (c.dropRecord r).openReady_spec
    rw [hdrafts] at hrecords
    rw [hplan] at hmark
    refine ⟨k, _, hto, nofun, fun _ => hnot, hrecords, hmark hhigh, by rw [State.openReady_voids, State.dropRecord_voids],
      by rw [State.openReady_plan, hplan], ?_⟩
    rw [State.recordLeaves, hx]
    dsimp only
    rw [if_pos hs]
  | false =>
    refine ⟨0, c.dropRecord r, rfl, fun _ => rfl, nofun, by simp, hhigh, State.dropRecord_voids c r, hplan, ?_⟩
    rw [State.recordLeaves, hx]
    dsimp only
    rw [if_neg (by rw [hs]; exact Bool.false_ne_true)]

/-- The retakes behind a leaving record, port by port, where no pass is called for (R65, R68). -/
theorem State.retakes_calm {w t : State} {i : SlotId} (htail : t = (w.retakeHeld.queueJobEnd i).markDue)
    (hcalm : w.window.records ≠ [] ∨ ∀ (p : PortId) (q : Request) (b : Nat), (w.port p).slot = .held q .waiting → w.draftBase = some b →
      max w.firstUnopened (q.repeatIndex - 47) ≤ b) :
    let asks := fun g => ∃ (p : PortId) (q : Request), (w.port p).slot = .held q .waiting ∧ ¬ t.reached q.repeatIndex ∧
      ¬ t.passed q.repeatIndex ∧ g = q.repeatIndex
    ∃ (ports : PortId → Port) (target : Option Nat), (∀ p, t.RetakesPort (w.port p) (ports p)) ∧
      (∀ g, asks g ∨ w.window.target = some g → ∃ h, target = some h ∧ g ≤ h) ∧
      (∀ h, target = some h → asks h ∨ w.window.target = some h) ∧
      t.Settled w.queue.fill target ports w.sup.events ∧
      (∀ i, t.slot i = w.slot i) ∧ t.voids = w.voids ∧ t.queue = { w.queue with fill := t.queue.fill } ∧
      t.account.queue = w.account.queue ++ if (w.slot i).state = .draining ∧ (∀ y ∈ w.window.records, y.slot ≠ i) ∧
        w.account.queue.any (Item.isJobEndOf i) = false then [Item.jobEnd i (w.slot i).endBytes] else [] := by
  intro asks
  obtain ⟨ports, target, hports, hcovers, hamong, hsettled, hjobs, hacc, hvoid⟩ := w.retakeHeld_calm fun p q hq =>
    hcalm.imp_right fun h b hb => h p q b hq hb
  have hsame : w.SameJobs t := by
    rw [htail]
    exact (hjobs.trans (State.sameJobs_queueJobEnd _ _)).trans (State.sameJobs_markDue _)
  have hasks (g : Nat) : (∃ p, w.asked (w.port p) = some g) ↔ asks g := by
    simp only [asks, State.asked_eq_some, hsame.reached, hsame.passed]
  refine ⟨ports, target, fun p => ?_, fun g hg => hcovers g (hg.imp_left (hasks g).mpr),
    fun h hh => (hamong h hh).imp_left (hasks h).mp, ?_, hsame.slot, ?_, hsame.queue, ?_⟩
  · rw [hports]
    exact hsame.retakesPort (State.retakesPort_retaken w _)
  · refine hsettled.of_account ?_
    have hacct := State.queueJobEnd_markDue_eq w.retakeHeld i
    rwa [← htail] at hacct
  · rw [htail, State.markDue_voids, State.queueJobEnd_voids, hvoid]
  · rw [htail, State.markDue]
    dsimp only
    rw [State.queueJobEnd_items, State.endItems_eq, hacc, hjobs.slot, (State.aside_retakeHeld w).records]

/-- Settles O39: the comparison after the append, then each item's own effect, a leaving record's through the openings and retakes in turn. -/
theorem appendEffectByItem : Obligations.AppendEffectByItem := by
  intro it rest at' s hq hd hp
  obtain ⟨hhigh, hplaced⟩ := State.appendAttempt_high hq hp
  have ht : s.appendAttempt = ((s.placing it rest at').itemAppended it).markDue := State.appendAttempt_placed hq hp
  have hplacing := s.placing_eq it rest at'
  rw [hplaced] at hplacing
  generalize hc : s.placing it rest at' = c at ht hplacing
  have hflag : s.appendAttempt.sup.events.getLsbD 4 = c.sup.events.getLsbD 4 := by
    rw [ht]
    exact c.itemAppended_flag it
  have hexec := exec_append hd
  generalize s.appendAttempt = t at *
  refine ⟨t, hexec, ⟨hhigh, ?_⟩, fun hsmall hend => ?_, fun i bs hi => ?_, fun r x hr hx => ?_⟩
  · rw [hflag, hplacing]
    dsimp only
    rw [BitVec.getLsbD_or]
    cases t.account.high && !s.account.high <;> rfl
  · have hc : t = { c with account := t.account } := by
      cases it with
      | repeatItem r => cases hsmall
      | jobEnd i bs => exact absurd (hend i) (by simp [Item.isJobEndOf])
      | jobStart i bs => exact ht.trans (by rw [ht]; rfl)
      | postVoid bs => exact ht.trans (by rw [ht]; rfl)
    exact hc.trans (by rw [hplacing])
  · subst hi
    have hcslot : ∀ k, c.slot k = s.slot k := State.slot_congr (by rw [hplacing]) (by rw [hplacing])
    have hslot (k : SlotId) : t.slot k = if k = i then { s.slot i with state := .ended } else s.slot k := by
      rw [ht, State.markDue_slot, State.itemAppended_jobEnd_slot, hcslot, hcslot]
    have hin : t.inRun = (c.itemAppended (.jobEnd i bs)).inRun := by rw [ht]; rfl
    have hframe : t = { c with slotA := t.slotA, slotB := t.slotB, ports := t.ports, account := t.account
                               sup := { c.sup with events := c.sup.events ||| 0x200 } } := by
      refine ht.trans ?_
      rw [ht, State.itemAppended_jobEnd_frame]
      rfl
    refine ⟨(hslot i).trans (if_pos rfl), (hslot i.other).trans (if_neg (SlotId.other_ne i)), ?_, fun p => ?_, ?_⟩
    · rw [hframe, hplacing]
    · rw [hin, ht, State.markDue_port, State.itemAppended_jobEnd_port]
      rw [show c.port p = s.port p from State.port_congr (by rw [hplacing]) p, show c.run = s.run by rw [hplacing],
        show c.plan = s.plan by rw [hplacing]]
    · have hevents : t.sup = { s.sup with events := t.sup.events } := by
        rw [hframe, hplacing]
      exact State.eq_of_fields (by rw [hframe, hplacing]) rfl rfl (by rw [hframe, hplacing]) (by rw [hframe, hplacing])
        (by rw [hframe, hplacing]) (by rw [hframe, hplacing]) rfl (fun p => rfl) hevents (by rw [hframe, hplacing]) (by rw [hframe, hplacing])
  · subst hr
    intro left v stopped
    have hv : c.dropRecord r = v := by
      rw [State.dropRecord, State.checkWindowHigh_eq, hplacing]
    have hrecord : c.record r = some x := by
      rw [hplacing]
      exact hx
    have hstopped : c.openingStopped = true ↔ stopped := by
      rw [State.openingStopped_iff, hplacing]
      exact Iff.rfl
    obtain ⟨k, w, hto, hk, hmay, hrecords, hmark, hvoids, hplan, hleaves⟩ := State.recordLeaves_spec hrecord
    have hdrafts : c.queue.drafts = s.queue.drafts := by rw [hplacing]
    have hcplan : c.plan = s.plan := by rw [hplacing]
    have hcvoids : c.voids = s.voids := by rw [hplacing]
    rw [hv, hdrafts] at hrecords
    rw [hcplan] at hmark hplan
    have htail : t = (w.retakeHeld.queueJobEnd x.slot).markDue := by
      rw [ht, State.itemAppended, hleaves]
    have haside : w.Aside t := by
      have := (State.aside_retakeHeld w).trans (State.aside_queueJobEnd _ x.slot)
      rw [htail]
      exact this.trans ⟨rfl, rfl, rfl, rfl, fun i => by rw [State.markDue_slot]⟩
    refine ⟨k, w, hv ▸ hto, fun hs => hk (Bool.eq_false_iff.mpr (mt hstopped.mp hs)), fun hs => hmay (hstopped.mpr hs), ?_,
      haside.records, haside.newest, ?_, haside.tally, ?_, ?_, ?_, htail, fun hcalm => ?_⟩
    · rw [haside.records]
      exact hrecords
    · rw [haside.high, haside.records]
      exact hmark
    · rw [htail, State.markDue_plan, State.queueJobEnd_plan, State.retakeHeld_plan, hplan]
    · rw [ht, State.itemAppended, State.markDue_receiver, State.recordLeaves_receiver, hplacing]
    · rw [ht, State.itemAppended, State.markDue_run, State.recordLeaves_run, hplacing]
    · intro asks
      obtain ⟨ports, target, hports, hcovers, hamong, hsettled, hslots, hvoid, hqueue, hacc⟩ := State.retakes_calm htail hcalm
      exact ⟨ports, target, hports, hcovers, hamong, hsettled, hslots, hvoid.trans (hvoids.trans hcvoids), hqueue, hacc⟩

end Sys2Proof.Machine
end
section
/-! SWAP (O33: R66, R67, R114): the staging, the flush from the change repeat, the RUNNING job's final repeat, and what settles then. -/

namespace Sys2Proof.Machine

section
variable {s t : State} {i : SlotId} {rc : Nat}

theorem JobSlot.cutAt_eq (j : JobSlot) (rc : Nat) :
    j.cutAt rc = if (∃ f, j.first = some f ∧ rc ≤ f) ∨ rc = 0 then .empty else .known (rc - 1) := by
  have hfirst : j.first.any (fun f => rc ≤ f) = true ↔ ∃ f, j.first = some f ∧ rc ≤ f := by
    simp only [Option.any_eq_true, decide_eq_true_eq]
  unfold JobSlot.cutAt
  by_cases h : (∃ f, j.first = some f ∧ rc ≤ f) ∨ rc = 0
  · rw [if_pos h, if_pos (h.imp_left hfirst.mpr)]
  · rw [if_neg h, if_neg fun h' => h (h'.imp_left hfirst.mp)]

/-- What settled stays settled while the supervisor port keeps its event flags and the rest stands. -/
theorem State.Settled.of_sup {f : Option Fill} {g : Option Nat} {ps : PortId → Port} {e : BitVec 12} (h : s.Settled f g ps e)
    (u : Supervisor) (hu : u.events = s.sup.events) : State.Settled { s with sup := u } f g ps e := by
  obtain ⟨h1, h2, h3, h4, h5, h6, h7, h8⟩ := h
  refine ⟨h1, h2, h3, h4, h5, h6, fun hx => ?_, fun hx => ?_⟩
  · exact hu.trans (h7 hx)
  · exact hu.trans (h8 hx)

/-- The staged change before anything settles: the slot staged, the queue flushed, the RUNNING job cut. -/
def State.staging (s : State) (i : SlotId) (rc : Nat) : State :=
  ((s.modSlot i.other fun j => { j with change := some rc, first := some rc }).flush rc).modSlot i fun x =>
    if x.final = .unset then { x with final := x.cutAt rc } else x

theorem State.stage_eq (s : State) (i : SlotId) (rc : Nat) : s.stage i i.other rc = (s.staging i rc).settle := rfl

/-- A command that settles last leaves a task's port as the row does: the events are all that it raised. -/
theorem State.Raises.carried (h : s.Raises t) (word : BitVec 32) (run : Option TaskRun) :
    { t.sup with task := word, running := run } = { s.sup with events := t.sup.events, task := word, running := run } := by
  rw [h.sup_eq]

theorem runSwap_stages {bs : Bytes} (hi : s.runningSlot = some i) (hs : s.staged = none) (hl : (s.slot i.other).state = .loaded)
    (hr : field bs 0 4 ≤ maxRepeat) (hlanes : (s.slot i).geometry.lanes = (s.slot i.other).geometry.lanes)
    (haround : (s.slot i).geometry.around = (s.slot i.other).geometry.around) (ha : s.changeAhead (field bs 0 4) = true) :
    runSwap bs s = (.carriedOut (beBytes 1 i.other.code ++ beBytes 4 (field bs 0 4) ++
      ((s.stage i i.other (field bs 0 4)).slot i).final.bytes), s.stage i i.other (field bs 0 4)) := by
  rw [runSwap_running hi hs, if_neg (not_not.mpr hl), if_neg (Nat.not_lt.mpr hr),
    if_neg fun h => h.elim (fun h => h hlanes.symm) fun h => h haround.symm, if_neg (by rw [ha]; exact Bool.noConfusion)]

theorem State.changeAhead_true (h : match s.window.newest with | some n => n < rc | none => s.plan.lMax ≤ rc) :
    s.changeAhead rc = true := by
  unfold State.changeAhead State.firstUnopened
  cases hn : s.window.newest with
  | none => rw [hn] at h; exact decide_eq_true h
  | some n => rw [hn] at h; exact decide_eq_true h

theorem Final.bytes_eq (f : Final) :
    f.bytes = match f with | .known g => 0 :: beBytes 4 g | .empty => 1 :: beBytes 4 0 | .unset => 0 :: beBytes 4 0 := by
  cases f <;> rfl

theorem State.settle_queue_eq (s : State) : s.settle.queue = { s.queue with fill := s.settle.queue.fill } := by
  have h := s.settle_eq
  generalize s.settle = z at h ⊢
  rw [h]

theorem State.settle_window_eq (s : State) : s.settle.window = { s.window with target := s.settle.window.target } := by
  have h := s.settle_eq
  generalize s.settle = z at h ⊢
  rw [h]

/-- What the staging leaves, from the flush `v`, once everything has settled. -/
theorem State.stage_spec (s : State) (i : SlotId) (rc : Nat) :
    let v := (s.modSlot i.other fun j => { j with change := some rc, first := some rc }).flush rc
    let t := s.stage i i.other rc
    t.slot i.other = v.slot i.other ∧
    t.slot i = { v.slot i with final := if (v.slot i).final = .unset then
        (if (∃ f, (s.slot i).first = some f ∧ rc ≤ f) ∨ rc = 0 then .empty else .known (rc - 1)) else (v.slot i).final } ∧
    t.Settled v.queue.fill s.window.target s.port v.sup.events ∧
    t.queue = { v.queue with fill := t.queue.fill } ∧ t.window = { s.window with target := t.window.target } ∧ t.voids = v.voids := by
  intro v
  rw [State.stage_eq]
  have hvi := State.flush_slot (s.modSlot i.other fun j => { j with change := some rc, first := some rc }) rc i
  rw [State.modSlot_slot, if_neg (SlotId.other_ne i).symm] at hvi
  have hfirst : (v.slot i).first = (s.slot i).first := hvi.first
  have hwindow : (s.staging i rc).window = s.window := by simp [State.staging]
  have hport : (s.staging i rc).port = s.port := funext fun p => by simp [State.staging]
  have huv : s.staging i rc = v.modSlot i fun x => if x.final = .unset then { x with final := x.cutAt rc } else x := rfl
  generalize s.staging i rc = u at hwindow hport huv
  have hqueue : u.queue = v.queue := by rw [huv, State.modSlot_queue]
  have hsup : u.sup = v.sup := by rw [huv, State.modSlot_sup]
  refine ⟨?_, ?_, ?_, ?_, ?_, ?_⟩
  · rw [State.settle_slot, huv, State.modSlot_slot, if_neg (SlotId.other_ne i)]
  · rw [State.settle_slot, huv, State.modSlot_slot_self, JobSlot.cutAt_eq, hfirst]
    by_cases hf : (v.slot i).final = .unset
    · rw [if_pos hf, if_pos hf, ← hfirst]
    · rw [if_neg hf, if_neg hf]
  · have hsettled := u.settle_settled
    rw [hport, hwindow, hqueue, hsup] at hsettled
    exact hsettled
  · have h := u.settle_queue_eq
    rw [hqueue] at h
    exact h
  · have h := u.settle_window_eq
    rw [hwindow] at h
    exact h
  · rw [State.settle_voids, huv, State.modSlot_voids]

end

/-- Settles O33: the staging leaves its two slots and the queue as said, and what is left settles. -/
theorem swapStagesChange : Obligations.SwapStagesChange := by
  intro i bs s h hi hl hc rc hrc hlanes haround hahead v
  have hother : (s.slot i.other).state ≠ .running := by rw [hl]; nofun
  have hstaged : s.staged = none := State.staged_none (hc i) (hc i.other)
  have hrun := runSwap_stages (State.runningSlot_of hi hother) hstaged hl hrc hlanes haround (State.changeAhead_true hahead)
  obtain ⟨hto, hti, hsettled, hqueue, hwindow, hvoids⟩ := s.stage_spec i rc
  have hvo := State.flush_slot (s.modSlot i.other fun j => { j with change := some rc, first := some rc }) rc i.other
  have hvq : v.queue = _ := State.flush_queue_eq (s.modSlot i.other fun j => { j with change := some rc, first := some rc }) rc
  rw [State.modSlot_slot, if_pos rfl] at hvo
  rw [State.modSlot_queue] at hvq
  refine ⟨_, exec_swap h, ?_⟩
  rw [State.carryOut, hrun]
  dsimp only
  have hplan := s.stage_plan i i.other rc
  have hreceiver := s.stage_receiver i i.other rc
  have haccount := s.stage_account i i.other rc
  have hpins := s.stage_run i i.other rc
  have hpending := s.stage_pending i i.other rc
  have hraises := s.raises_stage i i.other rc
  generalize s.stage i i.other rc = t at hto hti hsettled hqueue hwindow hvoids hplan hreceiver haccount hpins hpending hraises
  have hsame (k : SlotId) (w : Supervisor) : State.slot { t with sup := w } k = t.slot k := State.slot_congr rfl rfl k
  refine ⟨(hsame _ _).trans hto, ?_, ?_, ?_, (hsame _ _).trans hti, ?_, ?_, hsettled.of_sup _ rfl, hvoids, ⟨(t.slot i).final.bytes, ?_, ?_⟩, ?_⟩
  · rw [hsame, hto]
    exact hvo.state.trans hl
  · rw [hsame, hto]
    exact hvo.change
  · rw [hsame, hto]
    exact hvo.first
  · rw [hqueue, hvq]
  · rw [hqueue, hvq]
  · rw [beBytes_one]
    rfl
  · rw [hsame]
    exact (t.slot i).final.bytes_eq
  · exact State.eq_of_fields hplan rfl rfl rfl hwindow hreceiver rfl haccount (fun p => rfl) (hraises.carried _ _) hpins hpending

end Sys2Proof.Machine
end
section
/-! STOP (O34: R68, R118, R122): the flush above newest, the end of the RUNNING job and of a staged SWAP, and the retakes of a state in which no
slot is RUNNING. -/

namespace Sys2Proof.Machine

/-! ### Retakes with no slot RUNNING -/

section
variable {w t : State} {x y : Port}

theorem State.draftBase_of_ownerless (h : ∀ q, w.ownerOf q = none) : w.draftBase = none := by
  unfold State.draftBase
  simp only [h]
  cases w.staged <;> simp

theorem State.ownerOf_of_no_running (h : w.runningSlot = none) (q : Nat) : w.ownerOf q = none := by
  unfold State.ownerOf
  rw [h]

theorem State.nextFill_of_baseless (h : w.draftBase = none) : w.nextFill = none := by
  cases hf : w.nextFill with
  | none => rfl
  | some f =>
    obtain ⟨-, -, -, -, -, -, -, -, b, hb, -⟩ := State.nextFill_spec hf
    exact nomatch h.symm.trans hb

/-- What becomes of a port's waiting request when no repeat is left to open: above newest it is answered LATE below the pass floor, else
BLANK. -/
def State.Dismissed (w : State) (x y : Port) : Prop :=
  y = { x with slot := y.slot } ∧
  (∀ q, ¬ w.reached q.repeatIndex →
    let answer : Answer := if w.belowFloor q.repeatIndex then .late q.repeatIndex else .blank q.repeatIndex
    (x.slot = .preparing q .waiting → y = { x with slot := .preparing q (.building answer) }) ∧
    (x.slot = .held q .waiting → y = { x with slot := .held q (.building answer) })) ∧
  ((∀ q, x.slot ≠ .preparing q .waiting ∧ x.slot ≠ .held q .waiting) → y = x)

theorem State.dismissal (w : State) (r : Nat) {z : Answer} (hl : w.passed r → z = .late r) (hb : ¬ w.passed r → z = .blank r) :
    z = if w.belowFloor r then .late r else .blank r := by
  by_cases h : w.passed r
  · rw [if_pos (State.passed_iff.mp h), hl h]
  · rw [if_neg fun h' => h (State.passed_iff.mpr h'), hb h]

/-- A request that waits PREPARING is concluded, where nothing is left to open. -/
theorem State.settlesPort_preparing (hblank : ∀ r, t.blankTo r) (h : t.SettlesPort x y) {q : Request} (hq : x.slot = .preparing q .waiting) :
    ∃ a, y = { x with slot := .preparing q (.building a) } ∧
      ((¬ ∃ n, t.window.newest = some n ∧ q.repeatIndex ≤ n) →
        a = if t.belowFloor q.repeatIndex then .late q.repeatIndex else .blank q.repeatIndex) := by
  obtain ⟨hnewest, hpassed, hrest, -, -⟩ := h.1 q hq
  by_cases hn : ∃ n, t.window.newest = some n ∧ q.repeatIndex ≤ n
  · exact ⟨_, hnewest hn, fun h' => absurd hn h'⟩
  · by_cases hp : t.passed q.repeatIndex
    · exact ⟨_, hpassed hn hp, fun _ => t.dismissal q.repeatIndex (fun _ => rfl) fun h' => absurd hp h'⟩
    · exact ⟨_, hrest hn hp (hblank _), fun _ => t.dismissal q.repeatIndex (fun h' => absurd h' hp) fun _ => rfl⟩

/-- A held request is answered at its retake, where nothing is left to open, and stands then. -/
theorem State.retakesPort_held (hblank : ∀ r, w.blankTo r) (h : w.RetakesPort x y) {q : Request} (hq : x.slot = .held q .waiting) :
    ∃ a, y = { x with slot := .held q (.building a) } ∧
      (¬ w.reached q.repeatIndex → a = if w.belowFloor q.repeatIndex then .late q.repeatIndex else .blank q.repeatIndex) := by
  obtain ⟨hreached, hpassed, hrest, -, -⟩ := h.1 q hq
  by_cases hn : w.reached q.repeatIndex
  · exact ⟨_, hreached hn, fun h' => absurd hn h'⟩
  · by_cases hp : w.passed q.repeatIndex
    · exact ⟨_, hpassed hn hp, fun _ => w.dismissal q.repeatIndex (fun _ => rfl) fun h' => absurd hp h'⟩
    · exact ⟨_, hrest hn hp (hblank _), fun _ => w.dismissal q.repeatIndex (fun h' => absurd h' hp) fun _ => rfl⟩

/-- The retake of a port and what settles of it, where nothing is left to open. -/
theorem State.SameJobs.dismissed (hj : w.SameJobs t) (hblank : ∀ r, w.blankTo r) (h : t.SettlesPort (w.retaken x) y) : w.Dismissed x y := by
  have hblank' : ∀ r, t.blankTo r := by
    obtain ⟨_, _, _, _, _, rfl⟩ := hj
    exact hblank
  have hfloor : ∀ r, t.belowFloor r = w.belowFloor r := by
    obtain ⟨_, _, _, _, _, rfl⟩ := hj
    exact fun _ => rfl
  have hnewest : t.window.newest = w.window.newest := by
    obtain ⟨_, _, _, _, _, rfl⟩ := hj
    rfl
  by_cases hheld : ∃ q, x.slot = .held q .waiting
  · obtain ⟨q, hq⟩ := hheld
    obtain ⟨a, ha, hanswer⟩ := State.retakesPort_held hblank (w.retakesPort_retaken x) hq
    have hy : y = { x with slot := .held q (.building a) } := by
      rw [ha] at h
      exact h.2.2 fun _ => ⟨nofun, nofun⟩
    subst hy
    refine ⟨rfl, fun q' hq' => ⟨fun h' => ?_, fun h' => ?_⟩, fun h' => absurd hq (h' q).2⟩
    · rw [hq] at h'
      cases h'
    · rw [hq] at h'
      cases h'
      rw [hanswer hq']
  · have hno : ∀ q, x.slot ≠ .held q .waiting := fun q hq => hheld ⟨q, hq⟩
    rw [State.retaken_of_not hno] at h
    by_cases hprep : ∃ q, x.slot = .preparing q .waiting
    · obtain ⟨q, hq⟩ := hprep
      obtain ⟨a, ha, hanswer⟩ := State.settlesPort_preparing hblank' h hq
      subst ha
      refine ⟨rfl, fun q' hq' => ⟨fun h' => ?_, fun h' => absurd h' (hno q')⟩, fun h' => absurd hq (h' q).1⟩
      rw [hq] at h'
      cases h'
      rw [hanswer fun h' => hq' (.inr (hnewest ▸ h')), hfloor]
    · have hy : y = x := h.2.2 fun q => ⟨fun h' => hprep ⟨q, h'⟩, hno q⟩
      subst hy
      exact ⟨rfl, fun q _ => ⟨fun h' => absurd ⟨q, h'⟩ hprep, fun h' => absurd h' (hno q)⟩, fun _ => rfl⟩

/-- Where nothing is left to open, retakes and what settles end the opening target and dismiss what waits, and nothing else changes. -/
theorem State.retakeHeld_idle (h : w.runningSlot = none) :
    w.retakeHeld.queue = w.queue ∧ w.retakeHeld.window = { w.window with target := none } ∧ w.retakeHeld.sup = w.sup ∧
      w.retakeHeld.account = w.account ∧ w.retakeHeld.voids = w.voids ∧ (∀ k, w.retakeHeld.slot k = w.slot k) ∧
      ∀ p, w.Dismissed (w.port p) (w.retakeHeld.port p) := by
  have hbase : w.draftBase = none := State.draftBase_of_ownerless (State.ownerOf_of_no_running h)
  have hblank : ∀ r, w.blankTo r := fun r b hb => absurd (hbase.symm.trans hb) nofun
  obtain ⟨ports, target, hports, -, -, hsettled, hjobs, haccount, hvoids⟩ :=
    w.retakeHeld_calm fun p q _ => .inr fun b hb => absurd (hbase.symm.trans hb) nofun
  have hraises := w.raises_retakeHeld
  generalize w.retakeHeld = t at hsettled hjobs haccount hvoids hraises ⊢
  have hdis : ∀ p, w.Dismissed (w.port p) (t.port p) := fun p => hjobs.dismissed hblank (hports p ▸ hsettled.2.2.2.2.2.1 p)
  have hblank' : ∀ r, t.blankTo r := by
    obtain ⟨_, _, _, _, _, rfl⟩ := hjobs
    exact hblank
  obtain ⟨hfill, hnext, -, htarget, hnone, hsettles, -, hevents⟩ := hsettled
  refine ⟨?_, ?_, ?_, haccount, hvoids, hjobs.slot, hdis⟩
  · have hf : t.queue.fill = w.queue.fill := by
      cases hw : w.queue.fill with
      | some f => exact hfill f hw
      | none =>
        rw [hnext hw]
        obtain ⟨_, _, _, _, _, rfl⟩ := hjobs
        have hb : State.draftBase { w with queue := { w.queue with fill := none } } = none := hbase
        exact State.nextFill_of_baseless hb
    rw [hjobs.queue, hf]
  · have ht : t.window.target = none := by
      cases target with
      | none => exact hnone rfl
      | some g => exact htarget g rfl (hblank' g)
    obtain ⟨_, _, _, _, _, rfl⟩ := hjobs
    rw [← ht]
  · rw [hraises.sup_eq, hevents]
    rintro ⟨p, q, r, hq, hr⟩
    obtain ⟨a, ha, -⟩ := State.settlesPort_preparing hblank' (hsettles p) hq
    rw [ha] at hr
    cases hr

end

/-! ### The end of the RUNNING job and of a staged SWAP -/

section
variable {s : State} {k : SlotId}

/-- A slot when its job ends at newest (R118). -/
def State.endedSlot (s : State) (k : SlotId) : JobSlot :=
  if (s.slot k).state = .running then { s.slot k with state := .draining, final := s.finalAtStop k, note := .unset } else s.slot k

/-- At most one slot is RUNNING and at most one staged. -/
def State.singles (s : State) : Prop :=
  (∀ k, (s.slot k).state = .running → s.runningSlot = some k) ∧ ∀ k rc, (s.slot k).change = some rc → s.staged = some (k, rc)

theorem State.singles_flush (h : s.singles) (q : Nat) : (s.flush q).singles := by
  obtain ⟨hr, hs⟩ := h
  refine ⟨fun k hk => ?_, fun k rc hk => ?_⟩
  · rw [State.flush_runningSlot]
    exact hr k ((s.flush_slot q k).state.symm.trans hk)
  · rw [State.flush_staged]
    exact hs k rc ((s.flush_slot q k).change.symm.trans hk)

/-- Only the RUNNING job has ended. -/
def State.jobEnded (s : State) : State := s.runningSlot.elim s s.endJob

theorem State.endRunning_eq (s : State) : s.endRunning = s.jobEnded.killStaged := by
  unfold State.endRunning State.jobEnded
  cases s.runningSlot <;> rfl

theorem State.jobEnded_slot (h : s.singles) (k : SlotId) : s.jobEnded.slot k = s.endedSlot k := by
  unfold State.endedSlot State.jobEnded
  cases hi : s.runningSlot with
  | none => exact (if_neg fun hk => nomatch hi.symm.trans (h.1 k hk)).symm
  | some i =>
    rw [Option.elim_some, State.endJob_slot]
    by_cases hk : k = i
    · rw [if_pos hk, if_pos (hk ▸ State.runningSlot_state hi), hk]
    · rw [if_neg hk, if_neg fun h' => hk (Option.some.inj ((h.1 k h').symm.trans hi))]

theorem State.jobEnded_staged (s : State) : s.jobEnded.staged = s.staged := by
  unfold State.jobEnded
  cases s.runningSlot with
  | none => rfl
  | some i => exact State.endJob_staged s i

/-- Each slot once the RUNNING job has ended and a staged SWAP died (R118). -/
theorem State.endRunning_slot_eq (h : s.singles) (k : SlotId) : s.endRunning.slot k =
    if (s.slot k).change.isSome = true then (s.endedSlot k).unstage else s.endedSlot k := by
  rw [State.endRunning_eq]
  cases hc : s.staged with
  | none =>
    have hk : (s.slot k).change = none := by
      cases hk : (s.slot k).change with
      | none => rfl
      | some rc => exact nomatch hc.symm.trans (h.2 k rc hk)
    rw [State.killStaged_slot_of_none (s.jobEnded_staged.trans hc), hk, State.jobEnded_slot h]
    rfl
  | some z =>
    obtain ⟨j, rc⟩ := z
    rw [State.killStaged_of_some (s.jobEnded_staged.trans hc), State.modSlot_slot, State.jobEnded_slot h, State.jobEnded_slot h]
    by_cases hk : k = j
    · rw [if_pos hk, if_pos (by rw [hk, State.staged_change hc]; rfl), hk]
    · rw [if_neg hk, if_neg fun h' => ?_]
      obtain ⟨rc', hrc'⟩ := Option.isSome_iff_exists.mp h'
      cases (h.2 k rc' hrc').symm.trans hc
      exact hk rfl

theorem State.endRunning_runningSlot (h : s.singles) : s.endRunning.runningSlot = none := by
  refine State.runningSlot_eq_none fun k hk => ?_
  rw [(s.endRunning_slot k).1] at hk
  split_ifs at hk with hr
  exact hr (h.1 k hk)

theorem State.Dismissed.congr {t : State} {x y : Port} (h : s.Dismissed x y) (hp : t.plan = s.plan) (hn : t.window.newest = s.window.newest)
    (hf : t.queue.passFloor = s.queue.passFloor) : t.Dismissed x y := by
  obtain ⟨h1, h2, h3⟩ := h
  have hfloor : t.belowFloor = s.belowFloor := funext fun r => by rw [State.belowFloor, State.belowFloor, hf]
  refine ⟨h1, fun q hq => ?_, h3⟩
  rw [hfloor]
  exact h2 q fun h' => hq (by rwa [State.reached, hp, hn])

/-- Both slots are looked at for a JOB_END (R122). -/
theorem State.queueJobEnds_items (s : State) :
    ((s.queueJobEnd .A).queueJobEnd .B).account.queue = s.account.queue ++ (s.endItems .A ++ s.endItems .B) := by
  have hB : (s.queueJobEnd .A).endItems .B = s.endItems .B := by
    have hother : (s.endItems .A).any (Item.isJobEndOf .B) = false := by
      unfold State.endItems
      split_ifs <;> rfl
    unfold State.endItems
    rw [State.queueJobEnd_slot, State.queueJobEnd_holdsRecordOf, State.queueJobEnd_items, List.any_append, hother, Bool.or_false]
  rw [State.queueJobEnd_items, State.queueJobEnd_items, hB, List.append_assoc]

/-- What STOP and QUIT share, from the flush `v` (R68, R118, R119, R122). -/
theorem State.stopNumbering_spec (h : s.singles) :
    let v := s.flush s.firstUnopened
    let t := s.stopNumbering
    (∀ k, t.slot k = v.endRunning.slot k) ∧ t.queue = v.queue ∧ t.window = { s.window with target := none } ∧ t.voids = v.voids ∧
      t.sup = v.sup ∧ (∀ p, s.Dismissed (s.port p) (t.port p)) ∧
      t.account.queue = s.account.queue ++ (v.endRunning.endItems .A ++ v.endRunning.endItems .B) ∧ s.Queued t := by
  intro v t
  have ht : t = (v.endRunning.retakeHeld.queueJobEnd .A).queueJobEnd .B := rfl
  have hpassFloor : v.queue.passFloor = s.queue.passFloor := by rw [show v.queue = _ from s.flush_queue_eq s.firstUnopened]
  have hwindow : v.window = s.window := s.flush_window _
  have hplan : v.plan = s.plan := s.flush_plan _
  have haccount : v.account = s.account := s.flush_account _
  have hport (p : PortId) : v.port p = s.port p := State.flush_port s _ p
  have hidle := State.endRunning_runningSlot (State.singles_flush h s.firstUnopened)
  change v.endRunning.runningSlot = none at hidle
  obtain ⟨hq, hw, hs, ha, hv, hslot, hdis⟩ := State.retakeHeld_idle hidle
  have hitems (k : SlotId) : v.endRunning.retakeHeld.endItems k = v.endRunning.endItems k := by
    unfold State.endItems State.holdsRecordOf
    rw [hslot, hw, ha]
  refine ⟨fun k => ?_, ?_, ?_, ?_, ?_, fun p => ?_, ?_, ?_⟩
  · rw [ht, State.queueJobEnd_slot, State.queueJobEnd_slot, hslot]
  · rw [ht, State.queueJobEnd_queue, State.queueJobEnd_queue, hq, State.endRunning_queue]
  · rw [ht, State.queueJobEnd_window, State.queueJobEnd_window, hw, State.endRunning_window, hwindow]
  · rw [ht, State.queueJobEnd_voids, State.queueJobEnd_voids, hv, State.endRunning_voids]
  · rw [ht, State.queueJobEnd_sup, State.queueJobEnd_sup, hs, State.endRunning_sup]
  · have hd := hdis p
    rw [State.endRunning_port, hport] at hd
    rw [ht, State.queueJobEnd_port, State.queueJobEnd_port]
    exact hd.congr (by rw [State.endRunning_plan, hplan]) (by rw [State.endRunning_window, hwindow])
      (by rw [State.endRunning_queue, hpassFloor])
  · rw [ht, State.queueJobEnds_items, ha, hitems, hitems, State.endRunning_account, haccount]
  · rw [ht]
    refine (State.queued_queueJobEnd _ .A).trans (State.queued_queueJobEnd _ .B) |>.from ?_
    rw [ha, State.endRunning_account, haccount]

/-! ### A staged slot after the flush and the end of its SWAP -/

theorem JobSlot.unstage_eq (j : JobSlot) : j.unstage = { j with
    first := none, final := .unset, change := none, note := .unset, counters := j.unstage.counters
    draw := { j.draw with exhausted := false } } := rfl

/-- A counter of a slot whose SWAP dies: as LDJB gave it, its event mark kept (R118). -/
theorem JobSlot.unstage_counter {j : JobSlot} {a : Nat} {c l : Counter} (hc : j.counters[a]? = some c)
    (hl : (j.rules.counters j.geometry.lanes)[a]? = some l) : j.unstage.counters[a]? = some { l with raised := c.raised } := by
  show (List.zipWith Counter.restore j.counters ((j.rules.counters j.geometry.lanes).map Counter.snap))[a]? = _
  rw [List.getElem?_zipWith, hc, List.getElem?_map, hl]
  rfl

/-- A flush keeps the event marks of the draw state and of each counter that it leaves in place (R26). -/
theorem State.flush_raised (s : State) (q : Nat) (k : SlotId) : ((s.flush q).slot k).draw.raised = (s.slot k).draw.raised ∧
    ∀ (a : Nat) (c : Counter), (s.slot k).counters[a]? = some c → ((s.flush q).slot k).counters.length = (s.slot k).counters.length →
      ∃ c', ((s.flush q).slot k).counters[a]? = some c' ∧ c'.raised = c.raised := by
  cases hb : s.removedBefore q k with
  | none =>
    rw [State.flush_slot_kept hb]
    exact ⟨rfl, fun a c hc _ => ⟨c, hc, rfl⟩⟩
  | some b =>
    rw [State.flush_slot_removed hb]
    refine ⟨rfl, fun a c hc hlen => ?_⟩
    obtain ⟨ha, -⟩ := List.getElem?_eq_some_iff.mp hc
    have hb' : a < b.counters.length := by
      have hz : (List.zipWith Counter.restore (s.slot k).counters b.counters).length = (s.slot k).counters.length := hlen
      rw [List.length_zipWith] at hz
      omega
    exact ⟨_, JobSlot.restore_counter hc (List.getElem?_eq_getElem hb'), rfl⟩

/-- What STOP and QUIT leave of the RUNNING slot. -/
theorem State.stopNumbering_slot_running (h : s.singles) (hk : (s.slot k).state = .running) (hc : (s.slot k).change = none) :
    s.stopNumbering.slot k = { (s.flush s.firstUnopened).slot k with state := .draining, final := s.finalAtStop k, note := .unset } := by
  have hv := s.flush_slot s.firstUnopened k
  obtain ⟨hslot, -⟩ := State.stopNumbering_spec h
  have hfinal : (s.flush s.firstUnopened).finalAtStop k = s.finalAtStop k := by
    unfold State.finalAtStop
    rw [State.flush_window, hv.first]
  rw [hslot, State.endRunning_slot_eq (State.singles_flush h _), hv.change, hc, State.endedSlot, if_pos (hv.state.trans hk), hfinal]
  exact if_neg nofun

/-- What STOP and QUIT leave of a slot that is neither RUNNING nor staged. -/
theorem State.stopNumbering_slot_other (h : s.singles) (hk : (s.slot k).state ≠ .running) (hc : (s.slot k).change = none) :
    s.stopNumbering.slot k = (s.flush s.firstUnopened).slot k := by
  have hv := s.flush_slot s.firstUnopened k
  obtain ⟨hslot, -⟩ := State.stopNumbering_spec h
  rw [hslot, State.endRunning_slot_eq (State.singles_flush h _), hv.change, hc, State.endedSlot, if_neg fun h' => hk (hv.state.symm.trans h')]
  exact if_neg nofun

/-- What STOP and QUIT leave of a staged slot (R118). -/
theorem State.stopNumbering_slot_staged (h : s.singles) (hk : (s.slot k).state ≠ .running) (hc : (s.slot k).change.isSome = true) :
    let v := s.flush s.firstUnopened
    let t := s.stopNumbering
    t.slot k = { v.slot k with
      first := none, final := .unset, change := none, note := .unset, counters := (t.slot k).counters
      draw := { (s.slot k).draw with exhausted := false } } ∧
    ∀ (a : Nat) (c l : Counter), (s.slot k).counters[a]? = some c →
      ((s.slot k).rules.counters (s.slot k).geometry.lanes)[a]? = some l →
      (v.slot k).counters.length = (s.slot k).counters.length → (t.slot k).counters[a]? = some { l with raised := c.raised } := by
  intro v t
  have hv : (s.slot k).Flushed (v.slot k) := s.flush_slot s.firstUnopened k
  obtain ⟨hdraw, hcounters⟩ := s.flush_raised s.firstUnopened k
  have ht : t.slot k = (v.slot k).unstage := by
    obtain ⟨hslot, -⟩ := State.stopNumbering_spec h
    refine (hslot k).trans ?_
    rw [State.endRunning_slot_eq (State.singles_flush h _), if_pos (hv.change ▸ hc), State.endedSlot,
      if_neg fun h' => hk (hv.state.symm.trans h')]
  rw [ht]
  refine ⟨?_, fun a c l ha hl hlen => ?_⟩
  · have hd : ({ (v.slot k).draw with exhausted := false } : DrawState) = { (s.slot k).draw with exhausted := false } := by
      show ({ exhausted := false, raised := (v.slot k).draw.raised } : DrawState) = _
      rw [hdraw]
    rw [← hd]
    exact (v.slot k).unstage_eq
  · obtain ⟨c', hc', hraised⟩ := hcounters a c ha hlen
    rw [← hraised]
    have hrules : (v.slot k).rules = (s.slot k).rules := by rw [hv]
    have hgeometry : (v.slot k).geometry = (s.slot k).geometry := by rw [hv]
    exact JobSlot.unstage_counter hc' (by rw [hrules, hgeometry]; exact hl)

end

/-! ### STOP -/

section
variable {s : State} {i : SlotId}

theorem State.finalAtStop_eq (s : State) (i : SlotId) : s.finalAtStop i = match s.window.newest with
    | some n => if ∃ f, (s.slot i).first = some f ∧ n < f then .empty else .known n
    | none => .empty := by
  unfold State.finalAtStop
  cases s.window.newest with
  | none => rfl
  | some n =>
    dsimp only
    refine if_congr ?_ rfl rfl
    simp only [Option.any_eq_true, decide_eq_true_eq]

/-- A single RUNNING slot with no change of its own. -/
theorem State.singles_of (hi : (s.slot i).state = .running) (ho : (s.slot i.other).state ≠ .running) (hc : (s.slot i).change = none) :
    s.singles := by
  refine ⟨fun k hk => ?_, fun k rc hk => ?_⟩
  · rcases SlotId.eq_or_other i k with rfl | rfl
    · exact State.runningSlot_of hi ho
    · exact absurd hk ho
  · rcases SlotId.eq_or_other i k with rfl | rfl
    · exact nomatch hc.symm.trans hk
    · exact State.staged_of hc hk

end

theorem Final.bytes_of_set (f : Final) : f ≠ .unset → f.bytes = match f with | .known g => 0 :: beBytes 4 g | _ => 1 :: beBytes 4 0 := by
  cases f with
  | unset => exact fun h => absurd rfl h
  | known g => exact fun _ => rfl
  | empty => exact fun _ => rfl

theorem State.finalAtStop_ne (s : State) (i : SlotId) : s.finalAtStop i ≠ .unset := by
  unfold State.finalAtStop
  cases s.window.newest with
  | none => nofun
  | some n =>
    dsimp only
    split_ifs <;> nofun

/-- Settles O34: the flush above newest, the slots that end, and the retakes of a state with no slot RUNNING. -/
theorem stopEndsNumbering : Obligations.StopEndsNumbering := by
  intro i bs s htask hi ho hc v final
  have hsingles := State.singles_of hi ho hc
  have hfinal : s.finalAtStop i = final := s.finalAtStop_eq i
  have hrun : runStop bs s = (.carriedOut (beBytes 1 i.code ++ final.bytes), s.stopNumbering) := by
    unfold runStop
    rw [State.runningSlot_of hi ho, ← hfinal]
  have hspec := State.stopNumbering_spec hsingles
  have hti := State.stopNumbering_slot_running hsingles hi hc
  have hto := State.stopNumbering_slot_other hsingles ho
  have hts := State.stopNumbering_slot_staged hsingles ho
  have hplan := s.stopNumbering_plan
  have hreceiver := s.stopNumbering_receiver
  have hpins := s.stopNumbering_run
  have hpending := s.stopNumbering_pending
  rw [hfinal] at hti
  refine ⟨_, exec_stop htask, ?_⟩
  rw [State.carryOut, hrun]
  generalize s.stopNumbering = t at hspec hti hto hts hplan hreceiver hpins hpending ⊢
  have hsame (k : SlotId) (w : Supervisor) : State.slot { t with sup := w } k = t.slot k := State.slot_congr rfl rfl k
  obtain ⟨hslot, hqueue, hwindow, hvoids, hsup, hports, haccount, hqueued⟩ := hspec
  refine ⟨(hsame _ _).trans hti, fun h => (hsame _ _).trans (hto h), ?_, hqueue, hvoids, hwindow, ?_, ?_, ?_, ?_, hqueued.due, ?_, ?_, ?_⟩
  · rw [hsame]
    exact hts
  · intro q
    refine State.ownerOf_of_no_running ((State.runningSlot_congr (s := v.endRunning) fun k => ?_).trans
      (State.endRunning_runningSlot (State.singles_flush hsingles _))) q
    rw [hsame, hslot]
  · intro p q hl hn answer
    have hreached : ¬ s.reached q.repeatIndex := fun h => by
      rcases State.reached_iff.mp h with h | h
      · exact absurd h (Nat.not_lt.mpr hl)
      · rw [hn] at h
        cases h
    exact (hports p).2.1 q hreached
  · exact fun p => (hports p).2.2
  · rw [haccount, State.endItems_eq, State.endItems_eq, State.endRunning_window, State.flush_window, State.endRunning_account,
      State.flush_account, ← hslot, ← hslot]
    simp only [hsame]
  · have hevents : t.sup.events = v.sup.events := congrArg Supervisor.events hsup
    exact (s.flush_flagsDrop s.firstUnopened).congr rfl hevents Iff.rfl
  · rw [beBytes_one]
    exact congrArg (fun bytes => some (TaskOutcome.carriedOut (BitVec.ofNat 8 i.code :: bytes)))
      (Final.bytes_of_set final (hfinal ▸ s.finalAtStop_ne i))
  · have hsup' := ((s.raises_flush s.firstUnopened).into hsup).carried wordStop
    obtain ⟨more, hmore⟩ := hqueued
    exact State.eq_of_fields hplan rfl rfl rfl rfl hreceiver rfl (by rw [hmore]) (fun p => rfl) (hsup' _) hpins hpending

end Sys2Proof.Machine
end
section
/-! Records aborted in turn (R99 to R102): the records, the tallies, the void list, the ports and the pending queue after all of them. -/

namespace Sys2Proof.Machine

/-! ### Values accounted for (R129, R130) -/

section
variable {s t : State} {x y : Nat}

/-- A value is listed, held by a make-up item, or the list says that it may lack values. -/
def State.accounted (s : State) (x : Nat) : Prop :=
  s.voids.incomplete = true ∨ listed s.voids.ranges x = true ∨ x ∈ s.heldValues

theorem State.accounted.congr (h : s.accounted x) (hv : t.voids = s.voids) (hh : x ∈ s.heldValues → x ∈ t.heldValues) : t.accounted x := by
  unfold State.accounted
  rw [hv]
  exact h.imp_right (.imp_right hh)

/-- An insertion accounts for its value and for every other that was. -/
theorem State.insertValue_accounted (hv : s.voids.ok) (h : s.accounted x ∨ x = y) : (s.insertValue y).accounted x := by
  have hheld : (s.insertValue y).heldValues = s.heldValues := State.insertRange_heldValues s y y
  have hvoids : (s.insertValue y).voids = s.voids.insert (piecesWithout s.heldValues y y) := by rw [State.insertValue, State.insertRange_eq]
  obtain ⟨hwf, hlist⟩ := piecesWithout_spec s.heldValues (Nat.le_refl y)
  obtain ⟨-, hincomplete⟩ := VoidList.insert_fields (ps := piecesWithout s.heldValues y y) hv.2.2.2.1
  have hlisted := VoidList.insert_listed hv.1 hwf x
  unfold State.accounted
  rw [hheld, hvoids, hincomplete, hlisted]
  by_cases hx : x ∈ s.heldValues
  · exact .inr (.inr hx)
  · rcases h with h | rfl
    · rcases h with h | h | h
      · exact .inl (by rw [h, Bool.true_or])
      · exact .inr (.inl (.inl h))
      · exact absurd h hx
    · by_cases hd : listed (s.voids.droppedOf (piecesWithout s.heldValues x x)) x = true
      · refine .inl ?_
        cases hds : s.voids.droppedOf (piecesWithout s.heldValues x x) with
        | nil =>
          rw [hds] at hd
          exact absurd hd (not_listed_nil x)
        | cons d ds => simp
      · exact .inr (.inl (.inr ⟨(hlist x).mpr ⟨Nat.le_refl x, Nat.le_refl x, hx⟩, hd⟩))

theorem State.insertValue_voids_ok (hv : s.voids.ok) (y : Nat) : (s.insertValue y).voids.ok := by
  rw [State.insertValue, State.insertRange_eq]
  exact VoidList.insert_ok hv (piecesWithout_le _ (Nat.le_refl y))

/-- Insertions in turn account for each of their values. -/
theorem State.insertValues_accounted (ys : List Nat) : ∀ {s : State}, s.voids.ok →
    (s.insertValues ys).voids.ok ∧ ∀ x, s.accounted x ∨ x ∈ ys → (s.insertValues ys).accounted x := by
  induction ys with
  | nil => exact fun hv => ⟨hv, fun x h => h.resolve_right List.not_mem_nil⟩
  | cons y ys ih =>
    intro s hv
    obtain ⟨hok, hacc⟩ := ih (State.insertValue_voids_ok hv y)
    refine ⟨hok, fun x h => hacc x ?_⟩
    rcases h with h | h
    · exact .inl (State.insertValue_accounted hv (.inl h))
    · rcases List.mem_cons.mp h with rfl | h
      · exact .inl (State.insertValue_accounted hv (.inr rfl))
      · exact .inr h

/-- What a flush takes back it accounts for (R50, R131). -/
theorem State.flush_accounted (hv : s.voids.ok) (q : Nat) (h : s.accounted x) : (s.flush q).accounted x := by
  have hsource (k : SlotId) : ((s.flush q).slot k).source = (s.slot k).source := by rw [s.flush_slot q k]
  have hheld : (s.flush q).heldValues = (s.keepBelow q).heldValues := by
    rw [State.keepBelow_eq]
    exact State.heldValues_congr rfl (by rw [State.flush_window]) hsource
  have hkeep : s.accounted x → (s.keepBelow q).accounted x ∨ x ∈ s.returned q := by
    rintro (h | h | h)
    · exact .inl (.inl h)
    · exact .inl (.inr (.inl h))
    · rcases State.mem_heldValues.mp h with ⟨d, hd, hm, hx⟩ | ⟨f, hf, hm, hx⟩ | hr
      · by_cases hq : q ≤ d.repeatIndex
        · refine .inr (List.mem_append_left _ (List.mem_flatMap.mpr ⟨d, List.mem_filter.mpr ⟨hd, decide_eq_true hq⟩, hx⟩))
        · refine .inl (.inr (.inr (State.mem_heldValues.mpr (.inl ⟨d, List.mem_filter.mpr ⟨hd, ?_⟩, hm, hx⟩))))
          simp [hq]
      · by_cases hq : q ≤ f.target
        · refine .inr (List.mem_append_right _ (List.mem_flatMap.mpr ⟨f, ?_, hx⟩))
          simp [State.abandoned, hf, hq, Option.filter]
        · refine .inl (.inr (.inr (State.mem_heldValues.mpr (.inr (.inl ⟨f, ?_, hm, hx⟩)))))
          simp [State.keepBelow, hf, hq, Option.filter]
      · exact .inl (.inr (.inr (State.mem_heldValues.mpr (.inr (.inr hr)))))
  have hins := (State.insertValues_accounted (s.returned q) (s := s.keepBelow q) hv).2 x (hkeep h)
  unfold State.accounted at hins ⊢
  have hsame : ((s.keepBelow q).insertValues (s.returned q)).heldValues = (s.keepBelow q).heldValues :=
    State.heldValues_congr (State.insertValues_queue _ _) (by rw [State.insertValues_window]) fun i => by rw [State.insertValues_slot]
  rw [State.flush_voids, hheld, ← State.keepBelow_eq, ← hsame]
  exact hins

end

/-! ### One record aborted -/

section
variable {x : Record}

/-- A record closed ABORTED (R97, R99). -/
def Record.aborted (x : Record) : Record :=
  { x with closure := .aborted, positions := x.positions.map fun p => { p with outcome := if p.entry.value.isSome then .aborted else .blank } }

/-- The numbers of a record, in position order. -/
def Record.numbers (x : Record) : List Nat := x.positions.filterMap fun p => p.entry.value

theorem Record.close_aborted (x : Record) (plan : PlySet) (codes : Bytes) : x.close .aborted plan codes = x.aborted := by
  have hp : x.positions.mapIdx (fun i p => p.settled .aborted plan x.served x.lost (codes.getD i 0)) =
      x.positions.map fun p => { p with outcome := if p.entry.value.isSome then .aborted else .blank } := by
    refine List.ext_getElem (by simp) fun i _ _ => ?_
    rw [List.getElem_mapIdx, List.getElem_map]
    rfl
  rw [Record.close, hp]
  rfl

theorem Record.aborted_aborted (x : Record) : x.aborted.aborted = x.aborted := by
  unfold Record.aborted
  simp

/-- An aborted record voids every number it has (R101). -/
theorem Record.voided_aborted (x : Record) : x.aborted.voided = x.numbers := by
  unfold Record.voided Record.aborted Record.numbers
  rw [List.filterMap_map]
  refine congrArg (fun f => x.positions.filterMap f) (funext fun p => ?_)
  cases hv : p.entry.value <;> simp [PosOutcome.isVoid, hv]

theorem Record.aborted_count (x : Record) (f : PosOutcome → Bool) :
    x.aborted.positions.countP (fun p => p.numbered && f p.outcome) = if f .aborted = true then x.numbered else 0 := by
  unfold Record.aborted Record.numbered
  rw [List.countP_map]
  split_ifs with hf
  · refine List.countP_congr fun p _ => ?_
    cases hv : p.entry.value <;> simp [Position.numbered, hv, hf]
  · refine List.countP_eq_zero.mpr fun p _ => ?_
    cases hv : p.entry.value <;> simp [Position.numbered, hv, hf]

/-- An aborted record counts its numbers void_aborted, and nothing else (R100). -/
theorem Tally.closing_aborted {l : Tally} (h : l.ok) (x : Record) :
    l.closing x.aborted = { l with voidAborted := min (l.voidAborted + x.numbered) 4294967295 } := by
  obtain ⟨-, -, hdelivered, hstation, hreader, hunverified, -⟩ := h
  have stands {n : Nat} (hn : n ≤ max32) : satAdd max32 n 0 = n := Nat.min_eq_left hn
  unfold Tally.closing
  dsimp only
  rw [Record.aborted_count x (fun o => o = .delivered), Record.aborted_count x PosOutcome.isStation,
    Record.aborted_count x PosOutcome.isReader, Record.aborted_count x (fun o => o = .unverified),
    Record.aborted_count x (fun o => o = .aborted)]
  rw [if_neg (by decide), if_neg (by decide), if_neg (by decide), if_neg (by decide), if_pos (by decide), stands hdelivered, stands hstation,
    stands hreader, stands hunverified]
  rfl

theorem Tally.ok_aborted {l : Tally} (h : l.ok) (n : Nat) : Tally.ok { l with voidAborted := min n 4294967295 } := by
  obtain ⟨h1, h2, h3, h4, h5, h6, -, h8⟩ := h
  exact ⟨h1, h2, h3, h4, h5, h6, Nat.min_le_right _ _, h8⟩

end

/-! ### Records aborted in turn -/

/-- What the closures look at is in order. -/
def State.orderly (s : State) : Prop := s.window.ok ∧ s.voids.ok ∧ ∀ i, (s.slot i).tally.ok

/-- The records with those for the repeats of `xs` aborted. -/
def abortIn (xs rs : List Record) : List Record :=
  rs.map fun z => if z.repeatIndex ∈ xs.map Record.repeatIndex then z.aborted else z

/-- The numbered positions of the records of slot `i`. -/
def numberedOf (xs : List Record) (i : SlotId) : Nat := ((xs.filter fun x => x.slot = i).map Record.numbered).sum

/-- The tally of a slot with `n` more positions void_aborted. -/
def Tally.aborting (l : Tally) (n : Nat) : Tally := { l with voidAborted := min (l.voidAborted + n) 4294967295 }

/-- `a` is `u` with the records `xs` aborted in turn. -/
structure State.AbortedTo (u a : State) (xs : List Record) : Prop where
  orderly : a.orderly
  window : a.window = { u.window with records := abortIn xs u.window.records }
  slot : ∀ i, a.slot i = { u.slot i with tally := (u.slot i).tally.aborting (numberedOf xs i) }
  queue : a.queue = u.queue
  items : a.account.queue = u.account.queue ++ xs.map fun x => Item.repeatItem x.repeatIndex
  queued : u.Queued a
  waits : ∀ p q, ((a.port p).slot = .preparing q .waiting ↔ (u.port p).slot = .preparing q .waiting) ∧
    ((a.port p).slot = .held q .waiting ↔ (u.port p).slot = .held q .waiting)
  accounted : ∀ v, (u.accounted v ∨ ∃ x ∈ xs, v ∈ x.numbers) → a.accounted v

section
variable {u a b : State} {xs ys : List Record} {x : Record}

theorem abortIn_nil (rs : List Record) : abortIn [] rs = rs := List.map_id'' (fun _ => if_neg List.not_mem_nil) rs

theorem abortIn_append (xs ys rs : List Record) : abortIn (xs ++ ys) rs = abortIn ys (abortIn xs rs) := by
  unfold abortIn
  rw [List.map_map]
  refine List.map_congr_left fun z _ => ?_
  have hindex : (if z.repeatIndex ∈ xs.map Record.repeatIndex then z.aborted else z).repeatIndex = z.repeatIndex := by split_ifs <;> rfl
  have happend : z.repeatIndex ∈ (xs ++ ys).map Record.repeatIndex ↔
      z.repeatIndex ∈ xs.map Record.repeatIndex ∨ z.repeatIndex ∈ ys.map Record.repeatIndex := by rw [List.map_append, List.mem_append]
  rw [Function.comp_apply, hindex]
  by_cases hx : z.repeatIndex ∈ xs.map Record.repeatIndex
  · rw [if_pos (happend.mpr (.inl hx)), if_pos hx, Record.aborted_aborted, ite_self]
  · rw [if_neg hx]
    exact if_congr (happend.trans (or_iff_right hx)) rfl rfl

theorem abortIn_indices (xs rs : List Record) : (abortIn xs rs).map Record.repeatIndex = rs.map Record.repeatIndex := by
  unfold abortIn
  rw [List.map_map]
  refine List.map_congr_left fun z _ => ?_
  rw [Function.comp_apply]
  split_ifs <;> rfl

theorem numberedOf_append (xs ys : List Record) (i : SlotId) : numberedOf (xs ++ ys) i = numberedOf xs i + numberedOf ys i := by
  unfold numberedOf
  rw [List.filter_append, List.map_append, List.sum_append]

theorem Tally.aborting_zero {l : Tally} (h : l.ok) : l.aborting 0 = l := by
  obtain ⟨-, -, -, -, -, -, habort, -⟩ := h
  have hmin : min l.voidAborted 4294967295 = l.voidAborted := Nat.min_eq_left habort
  unfold Tally.aborting
  rw [Nat.add_zero, hmin]

theorem Tally.aborting_aborting (l : Tally) (m n : Nat) : (l.aborting m).aborting n = l.aborting (m + n) := by
  have h : min (min (l.voidAborted + m) 4294967295 + n) 4294967295 = min (l.voidAborted + (m + n)) 4294967295 := by omega
  unfold Tally.aborting
  dsimp only
  rw [h]

theorem State.AbortedTo.refl (h : u.orderly) : u.AbortedTo u [] := by
  refine ⟨h, ?_, fun i => ?_, rfl, (List.append_nil _).symm, .refl u, fun _ _ => ⟨.rfl, .rfl⟩, fun v hv => hv.resolve_right (by simp)⟩
  · rw [abortIn_nil]
  · rw [show numberedOf [] i = 0 from rfl, Tally.aborting_zero (h.2.2 i)]

theorem State.AbortedTo.trans (h : u.AbortedTo a xs) (k : a.AbortedTo b ys) : u.AbortedTo b (xs ++ ys) := by
  refine ⟨k.orderly, ?_, fun i => ?_, k.queue.trans h.queue, ?_, h.queued.trans k.queued,
    fun p q => ⟨(k.waits p q).1.trans (h.waits p q).1, (k.waits p q).2.trans (h.waits p q).2⟩, fun v hv => k.accounted v ?_⟩
  · rw [k.window, h.window, abortIn_append]
  · rw [k.slot, h.slot, numberedOf_append, ← Tally.aborting_aborting]
  · rw [k.items, h.items, List.map_append, List.append_assoc]
  · rcases hv with hv | ⟨x, hx, hv⟩
    · exact .inl (h.accounted v (.inl hv))
    · rcases List.mem_append.mp hx with hx | hx
      · exact .inl (h.accounted v (.inr ⟨x, hx, hv⟩))
      · exact .inr ⟨x, hx, hv⟩

/-- A closure leaves a waiting request waiting, and makes none wait (R72). -/
theorem ReqSlot.recordCloses_waits (z : ReqSlot) (r : Nat) (clocking : Bool) (q : Request) :
    (z.recordCloses r clocking = .preparing q .waiting ↔ z = .preparing q .waiting) ∧
    (z.recordCloses r clocking = .held q .waiting ↔ z = .held q .waiting) := by
  unfold ReqSlot.recordCloses
  split
  · split_ifs <;> simp
  · split_ifs <;> simp
  · split_ifs <;> simp
  · exact ⟨.rfl, .rfl⟩

/-- One closure (R97 to R102). -/
theorem State.closeRecord_abortedTo (h : u.orderly) (hx : x ∈ u.window.records) (ha : x.closure = .awaiting) :
    u.AbortedTo (u.closeRecord x.repeatIndex .aborted []) [x] := by
  obtain ⟨hw, hv, ht⟩ := h
  have hclose : u.closeRecord x.repeatIndex .aborted [] =
      ((u.settleRecord x.aborted).insertValues x.numbers).enqueue (.repeatItem x.repeatIndex) := by
    rw [State.closeRecord_of (State.record_of_mem hw hx) ha, Record.close_aborted, Record.voided_aborted]
  have hwindow : (u.settleRecord x.aborted).window = { u.window with records := abortIn [x] u.window.records } := by
    rw [State.settleRecord_window]
    refine congrArg (fun rs => { u.window with records := rs }) (List.map_congr_left fun z hz => ?_)
    have hmem : z.repeatIndex ∈ [x].map Record.repeatIndex ↔ z.repeatIndex = x.repeatIndex := by
      rw [List.map_singleton, List.mem_singleton]
    by_cases hi : z.repeatIndex = x.repeatIndex
    · rw [if_pos (hmem.mpr hi), hw.record_unique hz hx hi]
      exact if_pos rfl
    · rw [if_neg fun h => hi (hmem.mp h)]
      exact if_neg hi
  have hslot (i : SlotId) : (u.settleRecord x.aborted).slot i = { u.slot i with tally := (u.slot i).tally.aborting (numberedOf [x] i) } := by
    rw [State.settleRecord_slot]
    by_cases hi : i = x.slot
    · subst hi
      have hn : numberedOf [x] x.slot = x.numbered := by simp [numberedOf]
      rw [hn]
      refine (if_pos rfl).trans ?_
      exact congrArg (fun l => { u.slot x.slot with tally := l }) (Tally.closing_aborted (ht x.slot) x)
    · have hn : numberedOf [x] i = 0 := by simp [numberedOf, Ne.symm hi]
      rw [hn, Tally.aborting_zero (ht i)]
      exact if_neg hi
  have hvoids : (u.settleRecord x.aborted).voids = u.voids := State.settleRecord_voids u _
  obtain ⟨hok, hacc⟩ := State.insertValues_accounted x.numbers (s := u.settleRecord x.aborted) (hvoids ▸ hv)
  have hheld (v : Nat) (h : u.accounted v) : (u.settleRecord x.aborted).accounted v ∨ v ∈ x.numbers := by
    rcases h with h | h | h
    · exact .inl (.inl (hvoids ▸ h))
    · exact .inl (.inr (.inl (hvoids ▸ h)))
    · have hsource (i : SlotId) : ((u.settleRecord x.aborted).slot i).source = (u.slot i).source := by rw [hslot]
      rcases State.mem_heldValues.mp h with ⟨d, hd, hm, hvd⟩ | ⟨f, hf, hm, hvf⟩ | ⟨z, hz, hza, hm, hvz⟩
      · exact .inl (.inr (.inr (State.mem_heldValues.mpr (.inl ⟨d, by rwa [State.settleRecord_queue], by rwa [hsource], hvd⟩))))
      · exact .inl (.inr (.inr (State.mem_heldValues.mpr (.inr (.inl ⟨f, by rwa [State.settleRecord_queue], by rwa [hsource], hvf⟩)))))
      · by_cases hi : z.repeatIndex = x.repeatIndex
        · obtain rfl := hw.record_unique hz hx hi
          exact .inr (List.mem_filterMap.mpr hvz)
        · refine .inl (.inr (.inr (State.mem_heldValues.mpr (.inr (.inr ⟨z, ?_, hza, by rwa [hsource], hvz⟩)))))
          rw [hwindow]
          refine List.mem_map.mpr ⟨z, hz, if_neg ?_⟩
          rwa [List.map_singleton, List.mem_singleton]
  rw [hclose]
  refine ⟨⟨?_, hok, fun i => ?_⟩, ?_, fun i => ?_, ?_, ?_, ?_, fun p q => ?_, fun v hv' => (hacc v ?_).congr rfl id⟩
  · rw [State.enqueue_window, State.insertValues_window, hwindow]
    exact Window.ok_of_records hw rfl (by rw [abortIn_indices])
  · rw [State.enqueue_slot, State.insertValues_slot, hslot]
    exact Tally.ok_aborted (ht i) _
  · rw [State.enqueue_window, State.insertValues_window, hwindow]
  · rw [State.enqueue_slot, State.insertValues_slot, hslot]
  · rw [State.enqueue_queue, State.insertValues_queue, State.settleRecord_queue]
  · show _ ++ _ = _
    rw [State.insertValues_account, State.settleRecord_account]
    rfl
  · exact (State.queued_enqueue _ _).from (by rw [State.insertValues_account, State.settleRecord_account])
  · rw [State.enqueue_port, State.insertValues_port, State.settleRecord_port, Port.recordCloses_eq]
    exact ReqSlot.recordCloses_waits _ _ _ _
  · rcases hv' with hv' | ⟨z, hz, hv'⟩
    · exact hheld v hv'
    · exact .inr (List.mem_singleton.mp hz ▸ hv')

/-- The records `xs` of `u` aborted in turn. -/
def State.abortRecords (u : State) (xs : List Record) : State := xs.foldl (fun t x => t.closeRecord x.repeatIndex .aborted []) u

theorem State.abortAll_eq (u : State) : u.abortAll = u.abortRecords u.awaiting := by
  unfold State.abortAll State.abortRecords
  rw [List.foldl_map]

/-- A record still AWAITING once another has been aborted. -/
theorem State.AbortedTo.mem_of_ne (h : u.AbortedTo a [x]) {y : Record} (hy : y ∈ u.window.records) (hne : y.repeatIndex ≠ x.repeatIndex) :
    y ∈ a.window.records := by
  rw [h.window]
  refine List.mem_map.mpr ⟨y, hy, if_neg ?_⟩
  rwa [List.map_singleton, List.mem_singleton]

theorem State.abortRecords_abortedTo : ∀ {xs : List Record} {u : State}, u.orderly → (xs.Pairwise fun x y => x.repeatIndex < y.repeatIndex) →
    (∀ x ∈ xs, x ∈ u.window.records ∧ x.closure = .awaiting) → u.AbortedTo (u.abortRecords xs) xs
  | [], _, h, _, _ => .refl h
  | x :: xs, u, h, hp, hxs => by
    obtain ⟨hlt, hp⟩ := List.pairwise_cons.mp hp
    obtain ⟨hx, ha⟩ := hxs x List.mem_cons_self
    have hone := State.closeRecord_abortedTo h hx ha
    refine hone.trans (State.abortRecords_abortedTo hone.orderly hp fun y hy => ?_)
    obtain ⟨hyr, hya⟩ := hxs y (List.mem_cons_of_mem x hy)
    exact ⟨hone.mem_of_ne hyr (hlt y hy).ne', hya⟩

/-- One of the closures drops a value that it inserts. -/
def State.abortsDrop (u : State) (xs : List Record) : Prop :=
  ∃ k x, xs[k]? = some x ∧
    let v := u.abortRecords (xs.take k)
    ({ v with window := (v.closeRecord x.repeatIndex .aborted []).window } : State).dropsInserting x.numbers

theorem State.closeRecord_flagsDrop (h : u.orderly) (hx : x ∈ u.window.records) (ha : x.closure = .awaiting) :
    u.FlagsDrop (u.closeRecord x.repeatIndex .aborted [])
      (({ u with window := (u.closeRecord x.repeatIndex .aborted []).window } : State).dropsInserting x.numbers) := by
  obtain ⟨-, -, -, -, ⟨-, hflags⟩, -⟩ := closureTakesEffect x.repeatIndex x .aborted [] u (State.record_of_mem h.1 hx) ha nofun
  rw [← Record.voided_eq, Record.close_aborted, Record.voided_aborted] at hflags
  exact hflags

theorem State.abortRecords_flagsDrop : ∀ {xs : List Record} {u : State}, u.orderly → (xs.Pairwise fun x y => x.repeatIndex < y.repeatIndex) →
    (∀ x ∈ xs, x ∈ u.window.records ∧ x.closure = .awaiting) → u.FlagsDrop (u.abortRecords xs) (u.abortsDrop xs)
  | [], u, _, _, _ => .refl u fun ⟨k, x, hk, _⟩ => nomatch hk
  | x :: xs, u, h, hp, hxs => by
    obtain ⟨hlt, hp⟩ := List.pairwise_cons.mp hp
    obtain ⟨hx, ha⟩ := hxs x List.mem_cons_self
    have hone := State.closeRecord_abortedTo h hx ha
    have hrest := State.abortRecords_flagsDrop hone.orderly hp fun y hy => by
      obtain ⟨hyr, hya⟩ := hxs y (List.mem_cons_of_mem x hy)
      exact ⟨hone.mem_of_ne hyr (hlt y hy).ne', hya⟩
    refine ((State.closeRecord_flagsDrop h hx ha).trans hrest).congr rfl rfl ⟨?_, ?_⟩
    · rintro ⟨k, z, hk, hz⟩
      cases k with
      | zero =>
        cases hk
        exact .inl hz
      | succ k => exact .inr ⟨k, z, hk, hz⟩
    · rintro (hd | ⟨k, z, hk, hz⟩)
      · exact ⟨0, x, rfl, hd⟩
      · exact ⟨k + 1, z, hk, hz⟩

end

end Sys2Proof.Machine
end
section
/-! QUIT (O35: R99, R119): what is left of a closure in progress, the records aborted, then what it shares with STOP. -/

namespace Sys2Proof.Machine

section
variable {s : State}

/-! ### What is left of a closure in progress -/

/-- What was left of a closure in progress is taken: its values, its item and the assembler, and nothing else. -/
theorem State.finishClosing_spec (s : State) (hv : s.voids.ok) :
    s.finishClosing.window = { s.window with closing := none } ∧ s.finishClosing.voids.ok ∧ s.Queued s.finishClosing ∧
      s.FlagsDrop s.finishClosing (∃ c, s.window.closing = some c ∧ s.dropsInserting c.values) := by
  cases hc : s.window.closing with
  | none =>
    have h : s.finishClosing = s := by
      unfold State.finishClosing State.takeInsertions
      rw [hc]
    rw [h]
    refine ⟨?_, hv, .refl s, .refl s fun ⟨c, hc', _⟩ => nomatch hc'⟩
    rw [← hc]
  | some c =>
    have h : s.finishClosing = (s.insertValues c.values).endClosing c.repeatIndex := State.takeInsertions_all hc nofun
    have hend : ((s.insertValues c.values).endClosing c.repeatIndex).window = { s.window with closing := none } ∧
        s.Queued ((s.insertValues c.values).endClosing c.repeatIndex) := by
      have hq : s.Queued (((s.insertValues c.values).setClosing none).enqueue (.repeatItem c.repeatIndex)) :=
        (State.queued_enqueue _ _).from (State.insertValues_account s c.values)
      have hw : (((s.insertValues c.values).setClosing none).enqueue (.repeatItem c.repeatIndex)).window = { s.window with closing := none } :=
        congrArg (fun w => { w with closing := none }) (State.insertValues_window s c.values)
      unfold State.endClosing
      dsimp only
      split_ifs
      · exact ⟨hw, hq.into rfl⟩
      · exact ⟨hw, hq⟩
    rw [h]
    refine ⟨hend.1, ?_, hend.2, (s.insertValues_flagsDrop c.values).congr rfl ?_ ?_⟩
    · rw [State.endClosing_voids]
      exact (State.insertValues_accounted c.values hv).1
    · rw [State.endClosing_sup]
    · simp

/-! ### The state in which numbering stops -/

/-- The AWAITING records of a window in order, aborted: those records and no others. -/
theorem abortIn_awaiting (h : s.window.ok) : abortIn s.awaiting s.window.records =
    s.window.records.map fun x => if x.closure = .awaiting then x.aborted else x := by
  refine List.map_congr_left fun z hz => ?_
  have hmem : z.repeatIndex ∈ s.awaiting.map Record.repeatIndex ↔ z.closure = .awaiting := by
    constructor
    · intro hi
      obtain ⟨y, hy, he⟩ := List.mem_map.mp hi
      obtain ⟨hy, ha⟩ := List.mem_filter.mp hy
      rw [← h.record_unique hy hz he]
      exact of_decide_eq_true ha
    · exact fun ha => List.mem_map_of_mem (List.mem_filter.mpr ⟨hz, decide_eq_true ha⟩)
  exact if_congr hmem rfl rfl

/-- What QUIT leaves before numbering stops: `s` with its AWAITING records aborted, and what was left of a closure in progress taken. -/
structure State.Quits (s a : State) : Prop where
  orderly : a.orderly
  window : a.window = { s.window with closing := none, records := s.window.records.map fun x => if x.closure = .awaiting then x.aborted else x }
  slot : ∀ i, a.slot i = { s.slot i with tally := (s.slot i).tally.aborting (s.openCount i) }
  queue : a.queue = s.queue
  plan : a.plan = s.plan
  receiver : a.receiver = s.finishClosing.receiver
  run : a.run = s.run
  pending : a.pending = s.pending
  items : a.account.queue = s.finishClosing.account.queue ++ s.awaiting.map fun x => Item.repeatItem x.repeatIndex
  queued : s.finishClosing.Queued a
  waits : ∀ p q, ((a.port p).slot = .preparing q .waiting ↔ (s.port p).slot = .preparing q .waiting) ∧
    ((a.port p).slot = .held q .waiting ↔ (s.port p).slot = .held q .waiting)
  accounted : ∀ x ∈ s.awaiting, ∀ v ∈ x.numbers, a.accounted v
  raises : s.Raises a
  flags : s.FlagsDrop a ((∃ c, s.window.closing = some c ∧ s.dropsInserting c.values) ∨ s.finishClosing.abortsDrop s.awaiting)

theorem State.finishClosing_awaiting (s : State) (hv : s.voids.ok) : s.finishClosing.awaiting = s.awaiting := by
  unfold State.awaiting
  rw [(s.finishClosing_spec hv).1]

theorem State.quits (h : s.orderly) : s.Quits s.finishClosing.abortAll := by
  obtain ⟨hw, hv, ht⟩ := h
  obtain ⟨hwindow, hvoids, -, hflags⟩ := s.finishClosing_spec hv
  have hwok : s.finishClosing.window.ok := by
    rw [hwindow]
    exact hw
  have hworderly : s.finishClosing.orderly := ⟨hwok, hvoids, fun i => by
    rw [State.finishClosing_slot]
    exact ht i⟩
  have hasc : s.awaiting.Pairwise fun x y => x.repeatIndex < y.repeatIndex := hw.1.filter _
  have hmem : ∀ x ∈ s.awaiting, x ∈ s.finishClosing.window.records ∧ x.closure = .awaiting := fun x hx => by
    obtain ⟨hx, ha⟩ := List.mem_filter.mp hx
    rw [hwindow]
    exact ⟨hx, of_decide_eq_true ha⟩
  have hall : s.finishClosing.abortAll = s.finishClosing.abortRecords s.awaiting := by
    rw [State.abortAll_eq, s.finishClosing_awaiting hv]
  have habort := State.abortRecords_abortedTo hworderly hasc hmem
  have hdrops := hflags.trans (State.abortRecords_flagsDrop hworderly hasc hmem)
  rw [← hall] at habort hdrops
  refine ⟨habort.orderly, ?_, fun i => ?_, habort.queue.trans s.finishClosing_queue, ?_, ?_, ?_, ?_, habort.items, habort.queued, fun p q => ?_,
    fun x hx v hxv => habort.accounted v (.inr ⟨x, hx, hxv⟩), ?_, hdrops⟩
  · rw [habort.window, hwindow]
    dsimp only
    rw [abortIn_awaiting hw]
  · rw [habort.slot, State.finishClosing_slot]
    rfl
  · rw [State.abortAll_plan, State.finishClosing_plan]
  · rw [State.abortAll_receiver]
  · rw [State.abortAll_run, State.finishClosing_run]
  · rw [State.abortAll_pending, State.finishClosing_pending]
  · have h := habort.waits p q
    rwa [State.finishClosing_port] at h
  · exact (s.raises_finishClosing).trans (State.raises_abortAll _)

end

section
variable {s a : State} {k : SlotId}

theorem State.Quits.singles (h : s.Quits a) (hs : s.slotsOk) : a.singles := by
  have hrunning : a.runningSlot = s.runningSlot := State.runningSlot_congr fun i => by rw [h.slot]
  have hstaged : a.staged = s.staged := State.staged_congr fun i => by rw [h.slot]
  refine ⟨fun k hk => ?_, fun k rc hk => ?_⟩
  · rw [h.slot] at hk
    exact hrunning.trans (hs.running hk)
  · rw [h.slot] at hk
    exact hstaged.trans (hs.staged hk).1

theorem State.Quits.firstUnopened (h : s.Quits a) : a.firstUnopened = s.firstUnopened := by
  unfold State.firstUnopened
  rw [h.window, h.plan]

theorem State.Quits.finalAtStop (h : s.Quits a) (k : SlotId) : a.finalAtStop k = s.finalAtStop k := by
  unfold State.finalAtStop
  rw [h.window, h.slot]

theorem State.Quits.slot_running (h : s.Quits a) (hs : s.slotsOk) (hk : (s.slot k).state = .running) :
    a.stopNumbering.slot k = { (a.flush s.firstUnopened).slot k with state := .draining, final := s.finalAtStop k, note := .unset } := by
  have hc : (s.slot k).change = none := by
    cases hc : (s.slot k).change with
    | none => rfl
    | some rc => exact nomatch (hs.staged hc).2.1.symm.trans hk
  rw [← h.finalAtStop, ← h.firstUnopened]
  exact State.stopNumbering_slot_running (h.singles hs) (by rw [h.slot]; exact hk) (by rw [h.slot]; exact hc)

theorem State.Quits.slot_other (h : s.Quits a) (hs : s.slotsOk) (hk : (s.slot k).state ≠ .running) (hc : (s.slot k).change = none) :
    a.stopNumbering.slot k = (a.flush s.firstUnopened).slot k := by
  rw [← h.firstUnopened]
  exact State.stopNumbering_slot_other (h.singles hs) (by rw [h.slot]; exact hk) (by rw [h.slot]; exact hc)

theorem State.Quits.slot_staged (h : s.Quits a) (hs : s.slotsOk) (hc : (s.slot k).change.isSome = true) :
    let v := a.flush s.firstUnopened
    let t := a.stopNumbering
    t.slot k = { v.slot k with
      first := none, final := .unset, change := none, note := .unset, counters := (t.slot k).counters
      draw := { (s.slot k).draw with exhausted := false } } ∧
    ∀ (n : Nat) (c l : Counter), (s.slot k).counters[n]? = some c →
      ((s.slot k).rules.counters (s.slot k).geometry.lanes)[n]? = some l →
      (v.slot k).counters.length = (s.slot k).counters.length → (t.slot k).counters[n]? = some { l with raised := c.raised } := by
  obtain ⟨rc, hrc⟩ := Option.isSome_iff_exists.mp hc
  have hk : (s.slot k).state ≠ .running := by
    rw [(hs.staged hrc).2.1]
    nofun
  have hspec := State.stopNumbering_slot_staged (k := k) (h.singles hs) (by rw [h.slot]; exact hk) (by rw [h.slot]; exact hc)
  rw [h.firstUnopened] at hspec
  rw [h.slot k] at hspec
  exact hspec

/-- Every slot after QUIT keeps the tally that the closures left, and no change repeat. -/
theorem State.Quits.slot_tally (h : s.Quits a) (hs : s.slotsOk) (k : SlotId) :
    (a.stopNumbering.slot k).tally = (s.slot k).tally.aborting (s.openCount k) := by
  obtain ⟨hslot, -⟩ := State.stopNumbering_spec (h.singles hs)
  rw [hslot, (State.endRunning_slot _ k).2.2, (a.flush_slot _ k).tally, h.slot]

theorem State.Quits.slot_state (h : s.Quits a) (hs : s.slotsOk) (k : SlotId) :
    (a.stopNumbering.slot k).state = if (s.slot k).state = .running then .draining else (s.slot k).state := by
  have hv : ((a.flush s.firstUnopened).slot k).state = (s.slot k).state := by rw [(a.flush_slot _ k).state, h.slot]
  by_cases hk : (s.slot k).state = .running
  · rw [h.slot_running hs hk, if_pos hk]
  · rw [if_neg hk]
    cases hc : (s.slot k).change with
    | none => rw [h.slot_other hs hk hc, hv]
    | some rc =>
      rw [(h.slot_staged hs (by rw [hc]; rfl)).1]
      exact hv

theorem State.Quits.slot_change (h : s.Quits a) (hs : s.slotsOk) (k : SlotId) : (a.stopNumbering.slot k).change = none := by
  have hv : ((a.flush s.firstUnopened).slot k).change = (s.slot k).change := by rw [(a.flush_slot _ k).change, h.slot]
  cases hc : (s.slot k).change with
  | none =>
    by_cases hk : (s.slot k).state = .running
    · rw [h.slot_running hs hk]
      exact hv.trans hc
    · rw [h.slot_other hs hk hc]
      exact hv.trans hc
  | some rc => rw [(h.slot_staged hs (by rw [hc]; rfl)).1]

/-- The numbers of the aborted records are accounted for when QUIT ends. -/
theorem State.Quits.listed (h : s.Quits a) (hs : s.slotsOk) {x : Record} (hx : x ∈ s.awaiting) {v : Nat} (hv : v ∈ x.numbers) :
    a.stopNumbering.accounted v := by
  obtain ⟨hslot, hqueue, hwindow, hvoids, -⟩ := State.stopNumbering_spec (h.singles hs)
  refine (State.flush_accounted h.orderly.2.1 a.firstUnopened (h.accounted x hx v hv)).congr hvoids fun hheld => ?_
  have hsame : a.stopNumbering.heldValues = (a.flush a.firstUnopened).heldValues := by
    refine State.heldValues_congr hqueue (by rw [hwindow, State.flush_window]) fun i => ?_
    rw [hslot, State.endRunning_eq, State.killStaged_proj JobSlot.source (fun _ => rfl)]
    unfold State.jobEnded
    cases (a.flush a.firstUnopened).runningSlot with
    | none => rfl
    | some j =>
      rw [Option.elim_some, State.endJob_slot]
      split_ifs with hi
      · rw [hi]
      · rfl
  rw [hsame]
  exact hheld

/-- The items of QUIT: those of the closures, and each JOB_END that is due (R102, R122). -/
theorem State.Quits.account (h : s.Quits a) (hs : s.slotsOk) :
    let w := s.finishClosing
    let t := a.stopNumbering
    let ends := fun k : SlotId => if (t.slot k).state = .draining ∧ (∀ x ∈ s.window.records, x.slot ≠ k) ∧
        w.account.queue.any (Item.isJobEndOf k) = false then [Item.jobEnd k (t.slot k).endBytes] else []
    t.account.queue = w.account.queue ++ s.awaiting.map (fun x => Item.repeatItem x.repeatIndex) ++ (ends .A ++ ends .B) ∧
      w.Queued t := by
  intro w t ends
  obtain ⟨hslot, -, -, -, -, -, haccount, hqueued⟩ := State.stopNumbering_spec (h.singles hs)
  have hany (k : SlotId) : a.account.queue.any (Item.isJobEndOf k) = w.account.queue.any (Item.isJobEndOf k) := by
    rw [h.items, List.any_append, List.any_map]
    have hnone : s.awaiting.any (Item.isJobEndOf k ∘ fun x => Item.repeatItem x.repeatIndex) = false := List.any_eq_false.mpr fun _ _ => nofun
    rw [hnone, Bool.or_false]
  have hrecords (k : SlotId) : (∀ x ∈ a.window.records, x.slot ≠ k) ↔ ∀ x ∈ s.window.records, x.slot ≠ k := by
    rw [h.window]
    simp only [List.forall_mem_map]
    refine forall₂_congr fun x _ => ?_
    split_ifs <;> rfl
  have hends (k : SlotId) : (a.flush a.firstUnopened).endRunning.endItems k = ends k := by
    rw [State.endItems_eq, ← hslot, State.endRunning_window, State.flush_window, State.endRunning_account, State.flush_account, hany]
    exact if_congr (and_congr_right' (and_congr_left' (hrecords k))) rfl rfl
  refine ⟨?_, h.queued.trans hqueued⟩
  rw [haccount, h.items, hends, hends]

end

/-- Settles O35: what was left of a closure, the closures, and then what QUIT shares with STOP. -/
theorem quitAbortsOpenRecords : Obligations.QuitAbortsOpenRecords := by
  intro bs s htask hin hslots hw hv ht open' w aborted a v numbers
  have hquits : s.Quits a := by
    have h := State.quits ⟨hw, hv, ht⟩
    rwa [State.abortAll_eq, s.finishClosing_awaiting hv] at h
  have hrun : runQuit bs s = (.carriedOut (beBytes 1 open'.length), a.stopNumbering) := by
    unfold runQuit
    rw [if_pos hin, State.abortAll_eq, s.finishClosing_awaiting hv]
    rfl
  have hspec := State.stopNumbering_spec (hquits.singles hslots)
  have hfirst := hquits.firstUnopened
  have hidle := State.endRunning_runningSlot (State.singles_flush (hquits.singles hslots) a.firstUnopened)
  have hrunning := fun k => hquits.slot_running hslots (k := k)
  have hother := fun k => hquits.slot_other hslots (k := k)
  have hstaged := fun k => hquits.slot_staged hslots (k := k)
  have htally := hquits.slot_tally hslots
  have hstate := hquits.slot_state hslots
  have hchange := hquits.slot_change hslots
  have hlisted := fun x (hx : x ∈ s.awaiting) n (hn : n ∈ x.numbers) => hquits.listed hslots hx hn
  obtain ⟨haccount, hqueued⟩ := hquits.account hslots
  have hplan := (a.stopNumbering_plan).trans hquits.plan
  have hreceiver := (a.stopNumbering_receiver).trans hquits.receiver
  have hpins := (a.stopNumbering_run).trans hquits.run
  have hpending := (a.stopNumbering_pending).trans hquits.pending
  refine ⟨_, exec_quit htask, ?_⟩
  rw [State.carryOut, hrun]
  generalize a.stopNumbering = t at hspec hrunning hother hstaged htally hstate hchange hlisted haccount hqueued hplan hreceiver hpins hpending ⊢
  have hsame (k : SlotId) (w : Supervisor) : State.slot { t with sup := w } k = t.slot k := State.slot_congr rfl rfl k
  obtain ⟨hslot, hqueue, hwindow, hvoids, hsup, hports, -, -⟩ := hspec
  have hnewest : a.window.newest = s.window.newest := by rw [hquits.window]
  have hdismissed (p : PortId) : s.Dismissed (a.port p) (t.port p) := (hports p).congr hquits.plan.symm hnewest.symm (by rw [hquits.queue])
  refine ⟨?_, fun i => ?_, fun i hi => ?_, fun i hi => ?_, fun i => ⟨?_, fun hc => ?_⟩, ?_, fun p q hl hn => ?_, fun i => ?_, fun i => ?_,
    fun hi x hx p hp n hn => ?_, ?_, fun q => ?_, ?_, ?_, ?_, ?_, fun i hc => ?_, fun i hc => ?_, ?_, fun p => ?_, hqueued.due, ?_, ?_⟩
  · show t.window.records = _
    rw [hwindow, hquits.window]
    rfl
  · rw [hsame, hstate]
    split_ifs with hi
    · nofun
    · exact hi
  · rw [hsame, hrunning i hi]
    exact ⟨rfl, rfl, s.finalAtStop_eq i⟩
  · rw [hsame, hstate, if_neg hi]
  · rw [hsame, hchange]
  · rw [hsame, (hstaged i hc).1]
    exact ⟨rfl, rfl, rfl⟩
  · refine hqueue.trans ?_
    rw [State.flush_queue_eq, hfirst, hquits.queue]
  · have hreached : ¬ s.reached q.repeatIndex := fun h => by
      rcases State.reached_iff.mp h with h | h
      · exact absurd h (Nat.not_lt.mpr hl)
      · rw [hn] at h
        cases h
    obtain ⟨hprep, hheld⟩ := (hdismissed p).2.1 q hreached
    exact ⟨fun h => congrArg Port.slot (hprep ((hquits.waits p q).1.mpr h)), fun h => congrArg Port.slot (hheld ((hquits.waits p q).2.mpr h))⟩
  · rw [hsame, htally]
    rfl
  · rw [hsame, htally]
    rfl
  · have hx' : n ∈ x.numbers := List.mem_filterMap.mpr ⟨p, hp, hn⟩
    exact (hlisted x hx n hx').resolve_left (by rw [show t.voids.incomplete = false from hi]; nofun)
  · simp only [hsame]
    exact haccount
  · refine State.ownerOf_of_no_running ((State.runningSlot_congr (s := (a.flush a.firstUnopened).endRunning) fun k => ?_).trans hidle) q
    rw [hsame, hslot]
  · exact (congrArg Window.newest hwindow).trans hnewest
  · exact congrArg Window.target hwindow
  · exact (congrArg Window.closing hwindow).trans (by rw [hquits.window])
  · rw [beBytes_one]
    rfl
  · rw [hsame]
    by_cases hi : (s.slot i).state = .running
    · refine ⟨?_, fun h => absurd hi h⟩
      rw [hrunning i hi]
    · rw [hother i hi hc]
      exact ⟨rfl, fun _ => rfl⟩
  · rw [hsame]
    exact hstaged i hc
  · refine hvoids.trans ?_
    rw [hfirst]
  · refine ⟨(hdismissed p).1, fun h => (hdismissed p).2.2 fun q => ⟨fun h' => ?_, fun h' => ?_⟩⟩
    · exact (h q).1 ((hquits.waits p q).1.mp h')
    · exact (h q).2 ((hquits.waits p q).2.mp h')
  · have hevents : t.sup.events = (a.flush a.firstUnopened).sup.events := congrArg Supervisor.events hsup
    exact (hquits.flags.trans (a.flush_flagsDrop a.firstUnopened)).congr rfl hevents (by rw [hfirst, or_assoc]; exact Iff.rfl)
  · have hsup' := ((hquits.raises.trans (a.raises_flush a.firstUnopened)).into hsup).carried wordQuit
    obtain ⟨more, hmore⟩ := (s.finishClosing_spec hv).2.2.1.trans hqueued
    refine State.eq_of_fields hplan rfl rfl rfl ?_ hreceiver rfl (by rw [hmore]) (fun p => rfl) (hsup' _) hpins hpending
    rw [hwindow, hquits.window]

end Sys2Proof.Machine
end
section
/-! RECORD_OPEN (O50: R55, R63, R82, R115 to R117, R120): the record a draft opens as, the report to job control, and what settles then. -/

namespace Sys2Proof.Machine

section
variable {s t : State} {d : Draft} {rest : List Draft} {b : Nat}

/-! ### The record and the state before the report -/

/-- The plies whose ports are LOST (R63). -/
theorem State.lostPlies_bit (s : State) {k : Nat} (hk : k < 6) : s.lostPlies.getLsbD k = true ↔
    ∃ p : PortId, (s.port p).state = .lost ∧ s.plan.plyOf p = some k := by
  have key : ∀ (l : List PortId) (set : PlySet), (l.foldl (fun set p =>
      match (s.port p).state, s.plan.plyOf p with
      | .lost, some k => set ||| plyBit k
      | _, _ => set) set).getLsbD k = true ↔ set.getLsbD k = true ∨ ∃ p ∈ l, (s.port p).state = .lost ∧ s.plan.plyOf p = some k := by
    intro l
    induction l with
    | nil => simp
    | cons p l ih =>
      intro set
      rw [List.foldl_cons, ih]
      split
      · rename_i n hs hn
        rw [BitVec.getLsbD_or, plyBit_getLsbD, decide_eq_true hk, Bool.true_and, Bool.or_eq_true, decide_eq_true_eq]
        simp [hs, hn, or_assoc]
      · rename_i hno
        have hp : ¬ ((s.port p).state = .lost ∧ s.plan.plyOf p = some k) := fun ⟨h1, h2⟩ => hno k h1 h2
        simp [hp]
  refine (key allPorts 0).trans ?_
  simp [mem_allPorts]

theorem Tally.opening_eq (l : Tally) (d : Draft) : l.opening d = { l with
    repeatsOpened := min (l.repeatsOpened + 1) 4294967295
    issued := min (l.issued + (d.entries.filter fun e => e.value.isSome).length) 4294967295
    blank := min (l.blank + (d.entries.filter fun e => e.value.isNone).length) 4294967295
    skipped := min (l.skipped + d.skipped) 4294967295 } := by
  unfold Tally.opening Draft.numbered Draft.blank
  rw [List.countP_eq_length_filter, List.countP_eq_length_filter]
  rfl

/-- The record has joined, and the high mark is compared (R63, R82). -/
theorem State.openedBase_spec (s : State) (d : Draft) (rest : List Draft) :
    let u := s.openedBase d rest
    u.window = { s.window with records := s.window.records ++ [s.openedRecord d], newest := some d.repeatIndex
                               high := decide (s.plan.winHigh ≤ s.window.records.length + 1) } ∧
    u.queue = { s.queue with drafts := rest } ∧ u.account = s.account ∧ u.port = s.port ∧
    u.sup = { s.sup with events := s.sup.events ||| if u.window.high && !s.window.high then 0x004 else 0 } := by
  intro u
  have hu : u = _ := State.checkWindowHigh_eq _
  rw [State.modSlot_window, State.modSlot_sup, State.modSlot_plan] at hu
  have hlen : (s.window.records ++ [s.openedRecord d]).length = s.window.records.length + 1 := List.length_append
  dsimp only at hu
  rw [hlen] at hu
  refine ⟨?_, ?_, ?_, ?_, ?_⟩
  · rw [hu]
  · rw [hu]
    exact State.modSlot_queue _ _ _
  · rw [hu]
    exact State.modSlot_account _ _ _
  · funext p
    rw [hu]
    exact State.modSlot_port _ _ _ _
  · rw [hu]
    dsimp only
    by_cases hw : s.plan.winHigh ≤ s.window.records.length + 1 <;> cases hh : s.window.high <;> simp [hw]

/-! ### The report to job control -/

/-- An opening at `b` puts the staged change into effect (R115, R117). -/
def State.changesAt (s : State) (b : Nat) : Prop := ∃ i j rc, s.runningSlot = some i ∧ s.staged = some (j, rc) ∧
  (rc ≤ b ∨ ((s.slot j).final = .empty ∧ (s.slot i).final = .known b))

theorem State.openingChanges_of (h : s.changesAt b) : s.openingChanges b = s.changeTakesEffect := by
  obtain ⟨i, j, rc, hr, hst, hc⟩ := h
  unfold State.openingChanges
  rw [hst]
  exact if_pos (hc.imp_right fun ⟨he, hf⟩ => ⟨he, by rw [hr, Option.map_some, hf]⟩)

theorem State.openingChanges_of_not (hs : s.slotsOk) (h : ¬ s.changesAt b) : s.openingChanges b = s := by
  unfold State.openingChanges
  cases hst : s.staged with
  | none => rfl
  | some z =>
    obtain ⟨j, rc⟩ := z
    obtain ⟨-, -, -, -, hr, -⟩ := hs.staged_slot hst
    refine if_neg fun hc => h ⟨j.other, j, rc, hr, hst, hc.imp_right fun ⟨he, hf⟩ => ⟨he, ?_⟩⟩
    rw [hr] at hf
    exact Option.some.inj hf

theorem State.openingDrains_same (s : State) (b : Nat) :
    (s.openingDrains b).sup = s.sup ∧ ∀ k, ((s.openingDrains b).slot k).change = (s.slot k).change := by
  unfold State.openingDrains
  split
  · split_ifs
    · refine ⟨State.drain_sup _ _, fun k => ?_⟩
      rw [State.drain_slot]
      split_ifs with hk
      · rw [hk]
      · rfl
    · exact ⟨rfl, fun _ => rfl⟩
  · exact ⟨rfl, fun _ => rfl⟩

theorem State.raise_jobChanged_sup (s : State) : (s.raise .jobChanged).sup = { s.sup with events := s.sup.events ||| 0x100 } := rfl

/-- A change in effect is reported (R116). -/
theorem State.changeTakesEffect_sup {i j : SlotId} {rc : Nat} (hr : s.runningSlot = some i) (hst : s.staged = some (j, rc)) :
    s.changeTakesEffect.sup = { s.sup with events := s.sup.events ||| 0x100 } := by
  unfold State.changeTakesEffect
  rw [hr, hst]
  dsimp only
  rw [State.queueJobEnd_sup, State.queueJobEnd_sup]
  rw [State.raise_jobChanged_sup, State.queueJobStart_sup, State.modSlot_sup, State.modSlot_sup]

/-- With a change in effect no slot is staged. -/
theorem State.changeTakesEffect_change (hs : s.slotsOk) {i j : SlotId} {rc : Nat} (hr : s.runningSlot = some i) (hst : s.staged = some (j, rc))
    (k : SlotId) : (s.changeTakesEffect.slot k).change = none := by
  obtain ⟨-, -, -, -, hr', hn⟩ := hs.staged_slot hst
  obtain rfl : i = j.other := Option.some.inj (hr.symm.trans hr')
  obtain ⟨hi, hj⟩ := State.changeTakesEffect_slot hr hst (SlotId.other_ne j)
  rcases SlotId.eq_or_other j k with rfl | rfl
  · rw [hj]
  · rw [hi]
    exact hn

/-- What a report of an opening does to the change repeats and the event flags. -/
theorem State.reportOpening_change (hs : s.slotsOk) (b : Nat) :
    (s.changesAt b → (∀ k, ((s.reportOpening b).slot k).change = none) ∧
      (s.reportOpening b).sup = { s.sup with events := s.sup.events ||| 0x100 }) ∧
    (¬ s.changesAt b → (∀ k, ((s.reportOpening b).slot k).change = (s.slot k).change) ∧ (s.reportOpening b).sup = s.sup) := by
  obtain ⟨hsup, hchange⟩ := State.openingDrains_same (s.openingChanges b) b
  unfold State.reportOpening
  refine ⟨fun h => ?_, fun h => ?_⟩
  · rw [hsup]
    simp only [hchange]
    rw [State.openingChanges_of h]
    obtain ⟨i, j, rc, hr, hst, -⟩ := h
    exact ⟨State.changeTakesEffect_change hs hr hst, State.changeTakesEffect_sup hr hst⟩
  · rw [hsup]
    simp only [hchange]
    rw [State.openingChanges_of_not hs h]
    exact ⟨fun _ => rfl, rfl⟩

/-! ### The opening whole -/

theorem State.openedBase_jobs (s : State) (d : Draft) (rest : List Draft) : (s.openedBase d rest).runningSlot = s.runningSlot ∧
    (s.openedBase d rest).staged = s.staged ∧ ((s.openedBase d rest).changesAt d.repeatIndex ↔ s.changesAt d.repeatIndex) := by
  have hfinal (k : SlotId) : ((s.openedBase d rest).slot k).final = (s.slot k).final := by rw [State.openedBase_same]
  have hrunning : (s.openedBase d rest).runningSlot = s.runningSlot := State.runningSlot_congr fun k => by rw [State.openedBase_same]
  have hstaged : (s.openedBase d rest).staged = s.staged := State.staged_congr fun k => by rw [State.openedBase_same]
  refine ⟨hrunning, hstaged, ?_⟩
  unfold State.changesAt
  simp only [hrunning, hstaged, hfinal]

theorem State.openedBase_slotsOk (hs : s.slotsOk) (d : Draft) (rest : List Draft) : (s.openedBase d rest).slotsOk := by
  obtain ⟨-, -, haccount, -⟩ := s.openedBase_spec d rest
  have hA := s.openedBase_same d rest .A
  have hB := s.openedBase_same d rest .B
  rw [State.slot_A, State.slot_A] at hA
  rw [State.slot_B, State.slot_B] at hB
  refine ⟨?_, fun k => ?_⟩
  · rw [hA, hB]
    exact hs.1
  · rw [haccount, State.openedBase_same s d rest k, State.openedBase_same s d rest k.other]
    exact hs.2 k

/-- What an opening reports, in the slots and items of `s` (R115 to R117, R120, R122). -/
theorem State.openedReport_spec (hs : s.slotsOk) (d : Draft) (rest : List Draft) :
    let b := d.repeatIndex
    let u := (s.openedBase d rest).reportOpening b
    let ends := fun k : SlotId => if (u.slot k).state = .draining ∧ ∀ y ∈ s.window.records ++ [s.openedRecord d], y.slot ≠ k then
          [Item.jobEnd k (u.slot k).endBytes] else []
    (∀ i j rc, s.runningSlot = some i → s.staged = some (j, rc) →
         let empty := (s.slot j).final = .empty
         (rc ≤ b ∨ (empty ∧ (s.slot i).final = .known b) →
           (u.slot i).state = .draining ∧ (u.slot j).change = none ∧
           (u.slot j).state = (if empty ∨ ((s.slot j).note ≠ .unset ∧ (s.slot j).final = .known b) then .draining else .running) ∧
           u.account.queue = s.account.queue ++ .jobStart j (s.slot j).startBytes :: (if empty then ends j ++ ends i else ends i ++ ends j)) ∧
         (b < rc → ¬ (empty ∧ (s.slot i).final = .known b) →
           (u.slot i).state = .running ∧ (u.slot j).state = .loaded ∧ (u.slot j).change = some rc ∧ u.account = s.account)) ∧
       (∀ i, s.runningSlot = some i → s.staged = none →
         (u.slot i).state = (if (s.slot i).note ≠ .unset ∧ (s.slot i).final = .known b then .draining else .running) ∧
         (u.slot i.other).state = (s.slot i.other).state ∧ u.account.queue = s.account.queue ++ ends i) := by
  intro b u ends
  have hbase := State.openedBase_slotsOk hs d rest
  obtain ⟨hwindow, -, haccount, -⟩ := s.openedBase_spec d rest
  obtain ⟨hrunning, hstaged, -⟩ := s.openedBase_jobs d rest
  have hslot (k : SlotId) := s.openedBase_same d rest k
  have hstate (k : SlotId) : ((s.openedBase d rest).slot k).state = (s.slot k).state := by rw [hslot]
  have hfinal (k : SlotId) : ((s.openedBase d rest).slot k).final = (s.slot k).final := by rw [hslot]
  have hnote (k : SlotId) : ((s.openedBase d rest).slot k).note = (s.slot k).note := by rw [hslot]
  have hchange (k : SlotId) : ((s.openedBase d rest).slot k).change = (s.slot k).change := by rw [hslot]
  have hstart (k : SlotId) : ((s.openedBase d rest).slot k).startBytes = (s.slot k).startBytes := by
    rw [hslot]
    rfl
  have hrecords : (s.openedBase d rest).window.records = s.window.records ++ [s.openedRecord d] := by rw [hwindow]
  obtain ⟨hboth, hone⟩ := (s.openedBase d rest).reportOpening_spec b (fun k hk => (hbase.2 k).2.2.2 hk)
    fun i rc hi => (hbase.staged hi).2.1
  simp only [hrunning, hstaged, hrecords, hfinal, hnote, hstart, haccount, hstate] at hboth hone
  refine ⟨fun i j rc hi hj => ?_, hone⟩
  obtain ⟨hdone, hwaits⟩ := hboth i j rc hi hj
  refine ⟨hdone, fun hlt hn => ?_⟩
  obtain ⟨heq, hloaded, hc⟩ := hwaits hlt hn
  have hu : u = s.openedBase d rest := heq
  rw [hu]
  exact ⟨(hstate i).trans (State.runningSlot_state hi), (hstate j).trans hloaded, hc, haccount⟩

/-- What settling keeps of the state it settles. -/
theorem State.settle_keeps (u : State) : (∀ k, u.settle.slot k = u.slot k) ∧ u.settle.account = u.account ∧
    u.settle.window.records = u.window.records ∧ u.settle.window.newest = u.window.newest ∧ u.settle.window.high = u.window.high ∧
    u.settle.window.closing = u.window.closing ∧ u.settle.queue.drafts = u.queue.drafts ∧
    u.settle.queue.passFloor = u.queue.passFloor :=
  ⟨u.settle_slot, u.settle_account, u.settle_records, u.settle_newest, u.settle_high, by rw [State.settle_window_eq], u.settle_drafts,
    u.settle_passFloor⟩

end

/-- Settles O50: the record, the report to job control, and what settles. -/
theorem recordOpenMakesRecord : Obligations.RecordOpenMakesRecord := by
  intro d rest g s hd hg hb hle hspan hs b l changes
  have hopen : exec .recordOpen s = .next (s.openDraft d rest) := by
    refine congrArg Host.Outcome.next ?_
    unfold State.openNext
    rw [(s.openable_iff d rest).mpr ⟨g, hd, hb, hg, hle, hspan⟩]
  have hreport := State.openedReport_spec hs d rest
  dsimp only at hreport
  obtain ⟨hwindow, hqueue, haccount, hport, hsup⟩ := s.openedBase_spec d rest
  obtain ⟨hchanges, hstays⟩ := State.reportOpening_change (State.openedBase_slotsOk hs d rest) d.repeatIndex
  rw [(s.openedBase_jobs d rest).2.2] at hchanges hstays
  have hsame := (s.openedBase d rest).sameSlots_reportOpening d.repeatIndex
  have hqueued := s.queued_openDraft d rest
  have hraises := s.raises_openDraft d rest
  have hplan := s.openDraft_plan d rest
  have hreceiver := s.openDraft_receiver d rest
  have hpins := s.openDraft_run d rest
  have hpending := s.openDraft_pending d rest
  have hvoids := s.openDraft_voids d rest
  have huq := (State.reportOpening_queue (s.openedBase d rest) d.repeatIndex).trans hqueue
  have huw := (State.reportOpening_window (s.openedBase d rest) d.repeatIndex).trans hwindow
  have hup : ((s.openedBase d rest).reportOpening d.repeatIndex).port = s.port :=
    (funext fun p => State.reportOpening_port _ _ _).trans hport
  rw [State.openDraft_eq] at hqueued hraises hplan hreceiver hpins hpending hvoids
  refine ⟨_, s.openedRecord d, hopen, ?_⟩
  rw [State.openDraft_eq]
  generalize (s.openedBase d rest).reportOpening d.repeatIndex = u at *
  have hsettled := u.settle_settled
  obtain ⟨hts, hta, htr, htn, hth, htc, htd, htf⟩ := u.settle_keeps
  rw [huq, huw, hup] at hsettled
  rw [huw] at htr htn hth htc
  rw [huq] at htd htf
  generalize u.settle = t at *
  have hslot (k : SlotId) : t.slot k = { s.slot k with
      state := (t.slot k).state, change := (t.slot k).change, tally := ((s.openedBase d rest).slot k).tally } := by
    have h := hsame k
    unfold JobSlot.Same at h
    rw [hts]
    refine h.trans ?_
    rw [State.openedBase_same s d rest k]
  have htally (k : SlotId) : (t.slot k).tally = ((s.openedBase d rest).slot k).tally := by rw [hslot]
  refine ⟨htr, ⟨rfl, rfl, rfl, rfl, rfl, fun k hk => s.lostPlies_bit hk⟩, htn, htd, htf, ?_, ?_, hth, ⟨?_, ?_⟩, fun k => ⟨?_, ?_, ?_⟩,
    hqueued.due, ⟨u.sup.events, hsettled, ?_⟩, ?_⟩
  · rw [htally, State.openedBase_slot]
    exact (congrArg JobSlot.tally (if_pos rfl)).trans (Tally.opening_eq l d)
  · rw [htally, State.openedBase_slot, if_neg (SlotId.other_ne _)]
  · intro i j rc hi hj
    rw [htr]
    simp only [hts, hta]
    exact hreport.1 i j rc hi hj
  · intro i hi hj
    rw [htr]
    simp only [hts, hta]
    exact hreport.2 i hi hj
  · rw [htally]
    exact hslot k
  · intro h
    rw [hts]
    exact (hchanges h).1 k
  · intro h
    rw [hts, (hstays h).1 k, State.openedBase_same]
  · rw [hth]
    rw [hwindow] at hsup
    refine ⟨fun h => ?_, fun h => ?_⟩
    · rw [(hchanges h).2, hsup]
    · rw [(hstays h).2, hsup]
  · obtain ⟨more, hmore⟩ := hqueued
    refine State.eq_of_fields hplan rfl rfl ?_ ?_ hreceiver hvoids (by rw [hmore]) (fun p => rfl) hraises.sup_eq hpins hpending
    · dsimp only
      rw [← htf]
    · dsimp only
      rw [← htc]

end Sys2Proof.Machine
end
section
/-! A REQUEST that the window does not answer from what it holds (O44: R54, R62, R64 to R67): the target, a catch-up pass, and what settles. -/

namespace Sys2Proof.Machine

section
variable {s : State} {ps : Vector Port 6} {g : Option Nat}

/-! ### Work that does not look at the ports or the target -/

/-- The state with other ports and another opening target. -/
def State.withRequests (s : State) (ps : Vector Port 6) (g : Option Nat) : State :=
  { s with ports := ps, window := { s.window with target := g } }

theorem State.modSlot_withRequests (s : State) (ps : Vector Port 6) (g : Option Nat) (i : SlotId) (f : JobSlot → JobSlot) :
    (s.withRequests ps g).modSlot i f = (s.modSlot i f).withRequests ps g := by cases i <;> rfl

theorem State.queueJobStart_withRequests (s : State) (ps : Vector Port 6) (g : Option Nat) (i : SlotId) :
    (s.withRequests ps g).queueJobStart i = (s.queueJobStart i).withRequests ps g := rfl

theorem State.raise_withRequests (s : State) (ps : Vector Port 6) (g : Option Nat) (e : Event) :
    (s.withRequests ps g).raise e = (s.raise e).withRequests ps g := rfl

theorem State.queueJobEnd_withRequests (s : State) (ps : Vector Port 6) (g : Option Nat) (i : SlotId) :
    (s.withRequests ps g).queueJobEnd i = (s.queueJobEnd i).withRequests ps g := by
  unfold State.queueJobEnd
  by_cases h : (s.slot i).state = .draining ∧ s.holdsRecordOf i = false ∧ s.account.queue.any (Item.isJobEndOf i) = false
  · rw [if_pos h]
    exact if_pos h
  · rw [if_neg h]
    exact if_neg h

theorem State.changeTakesEffect_withRequests (s : State) (ps : Vector Port 6) (g : Option Nat) :
    (s.withRequests ps g).changeTakesEffect = s.changeTakesEffect.withRequests ps g := by
  unfold State.changeTakesEffect
  rw [show (s.withRequests ps g).runningSlot = s.runningSlot from rfl, show (s.withRequests ps g).staged = s.staged from rfl]
  split
  · dsimp only
    rw [State.modSlot_withRequests, State.modSlot_withRequests, State.queueJobStart_withRequests, State.raise_withRequests,
      State.queueJobEnd_withRequests, State.queueJobEnd_withRequests]
  · rfl

theorem State.reportPass_withRequests (s : State) (ps : Vector Port 6) (g : Option Nat) (f : Nat) :
    (s.withRequests ps g).reportPass f = (s.reportPass f).withRequests ps g := by
  unfold State.reportPass
  rw [show (s.withRequests ps g).staged = s.staged from rfl]
  split
  · split_ifs
    · exact State.changeTakesEffect_withRequests s ps g
    · rfl
  · rfl

theorem State.flush_withRequests (s : State) (ps : Vector Port 6) (g : Option Nat) (q : Nat) :
    (s.withRequests ps g).flush q = (s.flush q).withRequests ps g := by
  have hslot (k : SlotId) : ((s.withRequests ps g).flush q).slot k = (s.flush q).slot k := by
    have hremoved : (s.withRequests ps g).removedBefore q k = s.removedBefore q k := rfl
    cases hb : s.removedBefore q k with
    | none => exact (State.flush_slot_kept (hremoved.trans hb)).trans (State.flush_slot_kept hb).symm
    | some b => exact (State.flush_slot_removed (hremoved.trans hb)).trans (State.flush_slot_removed hb).symm
  have hqueue : ((s.withRequests ps g).flush q).queue = (s.flush q).queue := by
    rw [State.flush_queue_eq, State.flush_queue_eq]
    rfl
  have hdrops : (s.withRequests ps g).flushDrops q ↔ s.flushDrops q := by
    unfold State.flushDrops
    refine State.dropsInserting_congr ?_ ?_ _
    · rfl
    · rfl
  have hevents : ((s.withRequests ps g).flush q).sup.events = (s.flush q).sup.events := by
    obtain ⟨h1, h2⟩ := s.flush_flagsDrop q
    obtain ⟨k1, k2⟩ := (s.withRequests ps g).flush_flagsDrop q
    by_cases hd : s.flushDrops q
    · exact (k1 (hdrops.mpr hd)).trans (h1 hd).symm
    · exact (k2 fun h => hd (hdrops.mp h)).trans (h2 hd).symm
  have hvoids : ((s.withRequests ps g).flush q).voids = (s.flush q).voids := by
    rw [State.flush_voids, State.flush_voids, hqueue]
    exact State.insertValues_voids_congr _ rfl rfl
  have hleft := (s.withRequests ps g).flush_frame q
  have hright := s.flush_frame q
  generalize (s.withRequests ps g).flush q = t at *
  generalize s.flush q = u at *
  have hA : t.slotA = u.slotA := hslot .A
  have hB : t.slotB = u.slotB := hslot .B
  rw [hleft, hA, hB, hqueue, hvoids, hevents]
  conv_rhs => rw [hright]
  rfl

/-! ### A catch-up pass (R54, R65) -/

/-- The state that a pass from the draft base `b` to `f` leaves (R54, R65). -/
def State.passedTo (s : State) (b f : Nat) : State :=
  let w : State := { s.flush b with queue := { (s.flush b).queue with passFloor := some f } }
  if (w.staged.any fun z => z.2 < f) = true then w.changeTakesEffect else w

theorem State.reportPass_eq (w : State) (f : Nat) :
    w.reportPass f = if (w.staged.any fun z => z.2 < f) = true then w.changeTakesEffect else w := by
  unfold State.reportPass
  cases w.staged with
  | none => rfl
  | some z =>
    dsimp only [Option.any_some]
    exact if_congr decide_eq_true_iff.symm rfl rfl

theorem State.passTo_withRequests (s : State) (ps : Vector Port 6) (g : Option Nat) (b f : Nat) :
    (s.withRequests ps g).passTo b f = (s.passedTo b f).withRequests ps g := by
  unfold State.passTo State.passedTo
  dsimp only
  rw [State.flush_withRequests, ← State.reportPass_eq, ← State.reportPass_withRequests]
  rfl

/-- A pass changes neither the window nor the ports, and of the queue it leaves what lies below the base. -/
theorem State.passedTo_keeps (s : State) (b f : Nat) : (s.passedTo b f).window = s.window ∧ (s.passedTo b f).plan = s.plan ∧
    (s.passedTo b f).queue.drafts = s.queue.drafts.filter (fun d => decide (d.repeatIndex < b)) ∧
    (s.passedTo b f).queue.passFloor = some f := by
  unfold State.passedTo
  dsimp only
  rw [← State.reportPass_eq, State.reportPass_window, State.reportPass_plan, State.reportPass_queue]
  refine ⟨State.flush_window s b, State.flush_plan s b, ?_, rfl⟩
  dsimp only
  rw [State.flush_queue_eq]

variable {b r : Nat}

theorem State.catchUp_passes (hr : s.window.records = []) (hb : s.draftBase = some b) (hlt : b < max s.firstUnopened (r - 47)) :
    (s.withRequests ps g).catchUp r = (s.passedTo b (max s.firstUnopened (r - 47))).withRequests ps g := by
  have hr' : (s.withRequests ps g).window.records.isEmpty = true := List.isEmpty_iff.mpr hr
  have hb' : (s.withRequests ps g).draftBase = some b := hb
  unfold State.catchUp
  rw [if_pos hr', hb', ← State.passTo_withRequests]
  exact if_pos hlt

theorem State.catchUp_stays (h : ∀ b, ¬ (s.window.records = [] ∧ s.draftBase = some b ∧ b < max s.firstUnopened (r - 47))) :
    (s.withRequests ps g).catchUp r = s.withRequests ps g := by
  refine State.catchUp_of_noPass ?_
  by_cases hr : s.window.records = []
  · exact .inr fun b hb => Nat.le_of_not_lt fun hlt => h b ⟨hr, hb, hlt⟩
  · exact .inl hr

/-! ### The request itself, once all has settled -/

variable {u : State} {x : Port} {q : Request} (hx : x.slot = .preparing q .waiting)
  (hn : ∀ n, u.window.newest = some n → n < q.repeatIndex) (hf : ∀ f, u.queue.passFloor = some f → f ≤ q.repeatIndex)
include hx hn hf

/-- A request for a repeat above newest and not passed is answered BLANK, held or left waiting (R66, R67). -/
theorem State.concluded_far :
    (u.blankTo q.repeatIndex → u.concluded x = { x with slot := .preparing q (.building (.blank q.repeatIndex)) }) ∧
    (¬ u.blankTo q.repeatIndex → u.spanStops → u.concluded x = { x with slot := .held q .waiting, held := min (x.held + 1) 65535 }) ∧
    (¬ u.blankTo q.repeatIndex → ¬ u.spanStops → u.concluded x = x) := by
  obtain ⟨-, -, hblank, hheld, hstays⟩ := (u.settlesPort_concluded x).1 q hx
  have h1 : ¬ ∃ n, u.window.newest = some n ∧ q.repeatIndex ≤ n := fun ⟨n, h, hle⟩ => absurd (hn n h) (Nat.not_lt.mpr hle)
  have h2 : ¬ u.passed q.repeatIndex := fun ⟨f, h, hlt⟩ => absurd (hf f h) (Nat.not_le.mpr hlt)
  exact ⟨hblank h1 h2, hheld h1 h2, hstays h1 h2⟩

end

section
variable {s u : State} {ps : Vector Port 6} {p : PortId} {q : Request} {r target : Nat}

/-- A REQUEST above newest and not passed joins those that wait (R62). -/
theorem State.takeRequest_far (h : s.inRun = true) (hr : ¬ (r < s.plan.lMax ∨ s.atOrBelowNewest r = true)) (hf : ¬ s.belowFloor r = true) :
    s.takeRequest p q r = (((s.setReqSlot p (.preparing q .waiting)).raiseTarget r).catchUp r).settle := by
  rw [State.takeRequest, if_neg (by rw [h]; nofun), if_neg hr, if_neg hf]

/-- What settles in a state with other requests and another target. -/
theorem State.settle_withRequests (u : State) (ps : Vector Port 6) (target : Option Nat) :
    let t := (u.withRequests ps target).settle
    t.Settled u.queue.fill target (u.withRequests ps target).port u.sup.events ∧
      t = { u with queue := { u.queue with fill := t.queue.fill }, window := { u.window with target := t.window.target }, ports := t.ports
                   sup := { u.sup with events := t.sup.events } } ∧
      ∀ p, t.port p = u.concluded ((u.withRequests ps target).port p) := by
  have hsettled := (u.withRequests ps target).settle_settled
  have heq := (u.withRequests ps target).settle_eq
  have hport := (u.withRequests ps target).settle_port
  generalize (u.withRequests ps target).settle = t at *
  exact ⟨hsettled, heq, hport⟩

end

/-- Settles O44: the request waits, a catch-up pass may be made, and what then waits settles. -/
theorem requestOpensOrHolds : Obligations.RequestOpensOrHolds := by
  intro p body k e s hfetch hactive hply he hf hrun c r hc hr hl hn hfl q x ports start target passes
  let ps := (s.modPort p fun _ => x).ports
  have hnot : ¬ (r < s.plan.lMax ∨ s.atOrBelowNewest r = true) := by
    rw [State.atOrBelowNewest_iff]
    rintro (h | ⟨n, h, hle⟩)
    · exact absurd h (Nat.not_lt.mpr hl)
    · exact absurd (hn n h) (Nat.not_lt.mpr hle)
  have hfloor : ¬ s.belowFloor r = true := by
    rw [State.belowFloor_iff]
    rintro ⟨f, h, hlt⟩
    exact absurd (hfl f h) (Nat.not_le.mpr hlt)
  have htarget : max r (s.window.target.getD 0) = target := by
    show _ = match s.window.target with | some g => max r g | none => r
    cases s.window.target with
    | some g => rfl
    | none => exact Nat.max_zero r
  have hex : exec (.request p (.taken body)) s = .next ((s.withRequests ps (some target)).catchUp r).settle := by
    refine (exec_request_window hfetch hactive hply he hf hc hr).trans (congrArg Host.Outcome.next ?_)
    refine (State.takeRequest_far (s := s.modPort p fun _ => _) hrun hnot hfloor).trans ?_
    rw [State.setReqSlot_modPort, ← htarget]
    rfl
  have hport : (s.withRequests ps (some target)).port = ports := funext fun g => State.modPort_port s p g fun _ => x
  have hpx : ports p = x := if_pos rfl
  have hq : q.repeatIndex = r := rfl
  refine ⟨_, hex, fun b hb => ?_, fun hno => ?_⟩
  · obtain ⟨hrecords, hbase, hlt⟩ := hb
    rw [State.catchUp_passes hrecords hbase hlt]
    intro v w u
    have hu : s.passedTo b (max s.firstUnopened (r - 47)) = u := rfl
    obtain ⟨hwindow, hplan, hdrafts, hpassFloor⟩ := s.passedTo_keeps b (max s.firstUnopened (r - 47))
    rw [hu] at hwindow hplan hdrafts hpassFloor ⊢
    obtain ⟨hsettled, heq, hports⟩ := u.settle_withRequests ps (some target)
    have hport' : (u.withRequests ps (some target)).port = ports := hport
    rw [hport'] at hsettled hports
    generalize (u.withRequests ps (some target)).settle = t at *
    refine ⟨?_, ?_, hsettled, ?_, ?_⟩
    · rw [← hdrafts, heq]
    · refine Eq.trans ?_ hpassFloor
      rw [heq]
    · rw [← hwindow]
      exact heq
    · have hstart : max s.firstUnopened (r - 47) ≤ r := by
        refine max_le ?_ (Nat.sub_le r 47)
        unfold State.firstUnopened
        cases hnew : s.window.newest with
        | none => exact hl
        | some n => exact hn n hnew
      obtain ⟨hblank, -, hstays⟩ := State.concluded_far (u := u) (x := x) (q := q) rfl (hwindow ▸ hn)
        (fun f h => (Option.some.inj (hpassFloor.symm.trans h)) ▸ hstart)
      have hspan : ¬ u.spanStops := by
        rintro ⟨_, y, -, hy, -⟩
        rw [hwindow, hrecords] at hy
        cases hy
      rw [hports, hpx]
      by_cases h : u.blankTo r
      · exact (hblank h).trans (if_pos h).symm
      · exact (hstays h hspan).trans (if_neg h).symm
  · rw [State.catchUp_stays hno]
    obtain ⟨hsettled, heq, hports⟩ := s.settle_withRequests ps (some target)
    rw [hport] at hsettled hports
    generalize (s.withRequests ps (some target)).settle = t at *
    obtain ⟨hblank, hheld, hstays⟩ := State.concluded_far (u := s) (x := x) (q := q) rfl hn hfl
    have hbase : t.draftBase = s.draftBase := by
      rw [heq]
      rfl
    have hpt : t.port p = s.concluded x := by rw [hports, hpx]
    have opens {d : Nat} (hd : s.draftBase = some d) (hdr : d ≤ r) : ¬ s.blankTo r := fun h => absurd (h d hd) (Nat.not_lt.mpr hdr)
    refine ⟨hsettled, heq, ?_, fun h => hpt.trans (hblank h), fun d y hd hdr hy hspan => ?_, fun d hd hdr hy => ?_⟩
    · obtain ⟨-, -, hkeeps, hdrops, -⟩ := hsettled
      by_cases h : s.blankTo target
      · exact (hdrops target rfl (by rwa [State.blankTo, hbase])).trans (if_pos h).symm
      · exact (hkeeps target rfl (by rwa [State.blankTo, hbase])).trans (if_neg h).symm
    · have hp := hpt.trans (hheld (opens hd hdr) ⟨d, y, hd, hy, hspan⟩)
      refine ⟨hp, ?_⟩
      obtain ⟨-, -, -, -, -, -, hevents, -⟩ := hsettled
      rw [hevents ⟨p, q, q, by rw [hpx], by rw [hp]⟩, BitVec.getLsbD_or]
      exact Bool.or_true _
    · refine hpt.trans (hstays (opens hd hdr) ?_)
      rintro ⟨d', y, hd', hy', hspan⟩
      obtain rfl := Option.some.inj (hd.symm.trans hd')
      exact absurd (hy y hy') (Nat.not_lt.mpr hspan)

end Sys2Proof.Machine
end
section
/-! FILL_COMPLETE (O31): the draft a fill makes, what a fill that numbered nothing reports (R45 to R47), and who owns a repeat (R42, R43). -/

namespace Sys2Proof.Machine

section
variable {s t u : State} {f g : Fill} {q b : Nat} {i k : SlotId}

/-! ### Ownership and the draft base (R42, R43) -/

/-- A slot's final repeat lets it own `q`. -/
theorem State.ownedBy_eq_some : s.ownedBy i q = some k ↔ k = i ∧ q ≤ 4294967250 ∧
    match (s.slot k).final with | .unset => True | .known g => q ≤ g | .empty => False := by
  rw [State.ownedBy_iff]
  refine and_congr_right' (and_congr_right' ?_)
  cases (s.slot k).final with
  | unset => exact iff_of_true rfl trivial
  | known g => exact decide_eq_true_iff
  | empty => exact iff_of_false nofun id

/-- A repeat may still open: it is not opened and not passed. -/
theorem State.mayStillOpen_iff (s : State) (c : Nat) : max s.firstUnopened (s.queue.passFloor.getD 0) ≤ c ↔
    (match s.window.newest with | some n => n < c | none => s.plan.lMax ≤ c) ∧ ∀ p, s.queue.passFloor = some p → p ≤ c := by
  rw [max_le_iff]
  refine and_congr ?_ ?_
  · unfold State.firstUnopened
    cases s.window.newest with
    | none => exact Iff.rfl
    | some n => exact Nat.succ_le_iff
  · cases s.queue.passFloor with
    | none => exact iff_of_true (Nat.zero_le c) nofun
    | some p => exact ⟨fun h _ e => Option.some.inj e ▸ h, fun h => h p rfl⟩

theorem State.draftBase_eq_some : s.draftBase = some b ↔
    (max s.firstUnopened (s.queue.passFloor.getD 0) ≤ b ∧ (s.ownerOf b).isSome = true) ∧
      ∀ c, max s.firstUnopened (s.queue.passFloor.getD 0) ≤ c ∧ (s.ownerOf c).isSome = true → b ≤ c := by
  constructor
  · intro h
    obtain ⟨h1, h2, h3⟩ := s.draftBase_spec.1 b h
    exact ⟨⟨h1, h2⟩, fun c ⟨hc, ho⟩ => h3 c hc ho⟩
  · rintro ⟨⟨h1, h2⟩, h3⟩
    refine State.draftBase_eq h1 h2 fun c hc hlt => ?_
    cases ho : s.ownerOf c with
    | none => rfl
    | some j => exact absurd (h3 c ⟨hc, by rw [ho]; rfl⟩) (Nat.not_le.mpr hlt)

theorem State.draftBase_eq_none : s.draftBase = none ↔
    ∀ c, ¬ (max s.firstUnopened (s.queue.passFloor.getD 0) ≤ c ∧ (s.ownerOf c).isSome = true) := by
  constructor
  · rintro h c ⟨hc, ho⟩
    rw [s.draftBase_spec.2 h c hc] at ho
    cases ho
  · intro h
    cases hb : s.draftBase with
    | none => rfl
    | some b =>
      obtain ⟨h1, h2, -⟩ := s.draftBase_spec.1 b hb
      exact absurd ⟨h1, h2⟩ (h b)

/-! ### The next fill (R23, R45) -/

theorem Final.allows_iff (n : Final) (q : Nat) : n.allows q = true ↔ n = .unset ∨ ∃ m, n = .known m ∧ q ≤ m := by
  cases n with
  | unset => exact iff_of_true rfl (.inl rfl)
  | known m => simp [Final.allows]
  | empty => simp [Final.allows]

/-- The fill for `q` that slot `i` would start. -/
def State.fillFor (s : State) (i : SlotId) (q : Nat) : Fill :=
  { slot := i, target := q, before := (s.slot i).before, entries := [], skipped := 0, drawn := [], floor := none }

/-- When a fill starts, and what with. -/
theorem State.nextFill_eq_some : s.nextFill = some g ↔ s.queue.fill = none ∧ s.queue.drafts.length < 4 ∧
    ∃ b, s.draftBase = some b ∧ s.ownerOf (b + s.queue.drafts.length) = some g.slot ∧
      (s.slot g.slot).note.allows (b + s.queue.drafts.length) = true ∧ g = s.fillFor g.slot (b + s.queue.drafts.length) := by
  have room : (s.queue.fill.isSome = true ∨ maxDrafts ≤ s.queue.drafts.length) ↔ ¬ (s.queue.fill = none ∧ s.queue.drafts.length < 4) := by
    cases s.queue.fill with
    | none => simp [maxDrafts]
    | some f => simp
  unfold State.nextFill
  constructor
  · intro h
    by_cases hroom : s.queue.fill = none ∧ s.queue.drafts.length < 4
    · rw [if_neg fun h' => room.mp h' hroom] at h
      cases hb : s.draftBase with
      | none =>
        rw [hb] at h
        cases h
      | some b =>
        rw [hb] at h
        dsimp only at h
        cases ho : s.ownerOf (b + s.queue.drafts.length) with
        | none =>
          rw [ho] at h
          cases h
        | some i =>
          rw [ho] at h
          dsimp only at h
          split_ifs at h with hn
          obtain rfl := Option.some.inj h
          exact ⟨hroom.1, hroom.2, b, rfl, ho, hn, rfl⟩
    · rw [if_pos (room.mpr hroom)] at h
      cases h
  · rintro ⟨hf, hd, b, hb, ho, hn, hg⟩
    rw [if_neg fun h' => room.mp h' ⟨hf, hd⟩, hb]
    dsimp only
    rw [ho]
    dsimp only
    rw [if_pos hn]
    exact congrArg some hg.symm

/-- A fill starts with the before-state of its slot (R23). -/
theorem State.eq_fillFor : g = s.fillFor g.slot q ↔
    g = { slot := g.slot, target := q, before := g.before, entries := [], skipped := 0, drawn := [], floor := none } ∧
      g.before.drawExhausted = (s.slot g.slot).draw.exhausted ∧
      g.before.counters = (s.slot g.slot).counters.map fun c => { v := c.v, o := c.o, exhausted := c.exhausted, domainEnded := c.domainEnded } := by
  constructor
  · intro h
    have hb : g.before = (s.slot g.slot).before := congrArg Fill.before h
    refine ⟨?_, congrArg Before.drawExhausted hb, congrArg Before.counters hb⟩
    rw [hb]
    exact h
  · rintro ⟨h, hd, hc⟩
    have hb : g.before = (s.slot g.slot).before := by
      cases hg : g.before with
      | mk counters drawn =>
        rw [hg] at hd hc
        rw [JobSlot.before, show drawn = _ from hd, show counters = _ from hc]
        rfl
    rw [hb] at h
    exact h

/-! ### A fill that numbered something (R46) -/

theorem JobSlot.allExhausted_iff (j : JobSlot) : j.allExhausted = true ↔
    if j.source = .makeup then j.draw.exhausted = true else ∀ c ∈ j.counters, c.exhausted = true := by
  unfold JobSlot.allExhausted
  cases j.source with
  | makeup => exact Iff.rfl
  | series => exact List.all_eq_true

/-- What a draft made leaves of the slots: the target is the final repeat of a slot that is all exhausted. -/
theorem State.fillMakesDraft_slot (s : State) (f : Fill) (k : SlotId) : (s.fillMakesDraft f).slot k =
    if k = f.slot ∧ (s.slot f.slot).allExhausted = true then { s.slot f.slot with final := .known f.target, note := .known f.target }
    else s.slot k := by
  have hslot (k : SlotId) : State.slot { s with queue := { s.queue with drafts := s.queue.drafts ++ [f.draft] } } k = s.slot k :=
    State.slot_congr rfl rfl k
  unfold State.fillMakesDraft
  dsimp only
  rw [hslot]
  by_cases hx : (s.slot f.slot).allExhausted = true
  · rw [if_pos hx, State.modSlot_slot, hslot, hslot]
    exact if_congr (and_iff_left hx).symm rfl rfl
  · rw [if_neg hx, if_neg fun h => hx h.2, hslot]

theorem State.fillMakesDraft_queue (s : State) (f : Fill) :
    (s.fillMakesDraft f).queue = { s.queue with drafts := s.queue.drafts ++ [f.draft] } := by
  unfold State.fillMakesDraft
  dsimp only
  split_ifs
  · exact State.modSlot_queue _ _ _
  · rfl

/-! ### A fill that numbered nothing (R47) -/

theorem State.emptyFillFinal_eq (s : State) (f : Fill) : s.emptyFillFinal f =
    if (∃ r, (s.slot f.slot).first = some r ∧ r < f.target) ∧
      ((s.slot f.slot).tally.repeatsOpened ≠ 0 ∨ ∃ d ∈ s.queue.drafts, d.slot = f.slot) then .known (f.target - 1) else .empty := by
  unfold State.emptyFillFinal
  refine if_congr ?_ rfl rfl
  simp only [Option.any_eq_true, decide_eq_true_eq, List.any_eq_true, Nat.pos_iff_ne_zero]

/-- The skipped delta joins the slot's draft for the repeat before the target. -/
theorem State.handSkipped_queue (s : State) (f : Fill) : (s.handSkipped f).queue = { s.queue with
    drafts := s.queue.drafts.map fun d =>
      if d.slot = f.slot ∧ d.repeatIndex + 1 = f.target then { d with skipped := d.skipped + f.skipped } else d } := by
  have hprev (d : Draft) : (decide (d.slot = f.slot) && decide (d.repeatIndex + 1 = f.target)) = true ↔
      d.slot = f.slot ∧ d.repeatIndex + 1 = f.target := by
    rw [Bool.and_eq_true, decide_eq_true_iff, decide_eq_true_iff]
  unfold State.handSkipped
  dsimp only
  split_ifs with h
  · exact congrArg (fun ds => { s.queue with drafts := ds }) (List.map_congr_left fun d _ => if_congr (hprev d) rfl rfl)
  · rw [State.modSlot_queue]
    refine congrArg (fun ds => { s.queue with drafts := ds }) ((List.map_congr_left fun d hd => ?_).trans (List.map_id _)).symm
    exact if_neg fun hp => h (List.any_eq_true.mpr ⟨d, hd, (hprev d).mpr hp⟩)

/-- With no such draft it joins the tally. -/
theorem State.handSkipped_slot (s : State) (f : Fill) (k : SlotId) :
    ((∃ d ∈ s.queue.drafts, d.slot = f.slot ∧ d.repeatIndex + 1 = f.target) → (s.handSkipped f).slot k = s.slot k) ∧
    ((¬ ∃ d ∈ s.queue.drafts, d.slot = f.slot ∧ d.repeatIndex + 1 = f.target) → (s.handSkipped f).slot k =
      if k = f.slot then { s.slot f.slot with tally := { (s.slot f.slot).tally with
        skipped := min ((s.slot f.slot).tally.skipped + f.skipped) 4294967295 } } else s.slot k) := by
  have hany : (s.queue.drafts.any fun d => decide (d.slot = f.slot) && decide (d.repeatIndex + 1 = f.target)) = true ↔
      ∃ d ∈ s.queue.drafts, d.slot = f.slot ∧ d.repeatIndex + 1 = f.target := by
    simp only [List.any_eq_true, Bool.and_eq_true, decide_eq_true_eq]
  unfold State.handSkipped
  dsimp only
  refine ⟨fun h => ?_, fun h => ?_⟩
  · rw [if_pos (hany.mpr h)]
    exact State.slot_congr rfl rfl k
  · rw [if_neg fun h' => h (hany.mp h'), State.modSlot_slot]
    rfl

/-- What a fill that numbered nothing leaves before its report (R47). -/
def State.foundNothing (s : State) (f : Fill) : State :=
  ((s.setFill none).modSlot f.slot fun j => { j with final := (s.setFill none).emptyFillFinal f, note := (s.setFill none).emptyFillFinal f }).handSkipped f

/-- The final repeat of the slot is past: at or below newest, passed, or EMPTY (R117, R120). -/
theorem State.finalPast_iff (v : State) (k : SlotId) : v.finalPast k = true ↔ match (v.slot k).final with
    | .unset => False
    | .known g => (∃ n, v.window.newest = some n ∧ g ≤ n) ∨ v.passed g
    | .empty => True := by
  unfold State.finalPast
  cases (v.slot k).final with
  | unset => exact iff_of_false nofun id
  | known g => rw [Bool.or_eq_true, State.atOrBelowNewest_iff, ← State.passed_iff]
  | empty => exact iff_of_true rfl trivial

/-- What the report does (R117, R120). -/
theorem State.reportExhausted_cases (v : State) (i : SlotId) :
    (v.staged = none → (v.slot i).state = .running → v.finalPast i = true → v.reportExhausted i = v.drain i) ∧
    (v.staged = none → ((v.slot i).state ≠ .running ∨ ¬ v.finalPast i = true) → v.reportExhausted i = v) ∧
    ∀ j rc, v.staged = some (j, rc) →
      ((j = i ∧ (v.slot i).final = .empty ∧ ∃ k, v.runningSlot = some k ∧ v.finalPast k = true) → v.reportExhausted i = v.changeTakesEffect) ∧
      (¬ (j = i ∧ (v.slot i).final = .empty ∧ ∃ k, v.runningSlot = some k ∧ v.finalPast k = true) → v.reportExhausted i = v) := by
  unfold State.reportExhausted
  refine ⟨fun h hr hp => ?_, fun h hno => ?_, fun j rc h => ?_⟩
  · rw [h]
    exact if_pos ⟨hr, hp⟩
  · rw [h]
    exact if_neg fun ⟨hr, hp⟩ => hno.elim (fun h' => h' hr) fun h' => h' hp
  · have hcond : (i = j ∧ (v.slot j).final = .empty ∧ (v.runningSlot.any fun k => v.finalPast k) = true) ↔
        (j = i ∧ (v.slot i).final = .empty ∧ ∃ k, v.runningSlot = some k ∧ v.finalPast k = true) := by
      rw [Option.any_eq_true]
      constructor
      · rintro ⟨rfl, h1, h2⟩
        exact ⟨rfl, h1, h2⟩
      · rintro ⟨rfl, h1, h2⟩
        exact ⟨rfl, h1, h2⟩
    rw [h]
    exact ⟨fun h' => if_pos (hcond.mpr h'), fun h' => if_neg fun h'' => h' (hcond.mp h'')⟩

theorem exec_fillComplete (hf : s.queue.fill = some f) (hfull : (s.slot f.slot).positions ≤ f.entries.length) :
    ((∃ e ∈ f.entries, e.value.isSome = true) → exec .fillComplete s = .next ((s.setFill none).fillMakesDraft f).settle) ∧
    ((∀ e ∈ f.entries, e.value = none) → exec .fillComplete s = .next ((s.foundNothing f).reportExhausted f.slot).settle) := by
  have hex : exec .fillComplete s = execFillComplete s := rfl
  rw [hex, execFillComplete, hf]
  dsimp only
  rw [if_neg (Nat.not_lt.mpr hfull)]
  refine ⟨fun h => if_pos (List.any_eq_true.mpr h), fun h => if_neg fun h' => ?_⟩
  obtain ⟨e, he, hs⟩ := List.any_eq_true.mp h'
  rw [h e he] at hs
  cases hs

end

/-- A fill that numbered something: its draft, the exhaustion it may set, and what settles. -/
theorem fillComplete_numbered {s : State} {f : Fill} (hf : s.queue.fill = some f) (hfull : (s.slot f.slot).positions ≤ f.entries.length)
    (hnum : ∃ e ∈ f.entries, e.value.isSome = true) : ∃ t, exec .fillComplete s = .next t ∧
      t.queue.drafts = s.queue.drafts ++ [f.draft] ∧
      ((s.slot f.slot).allExhausted = true → t.slot f.slot = { s.slot f.slot with final := .known f.target, note := .known f.target }) ∧
      (¬ (s.slot f.slot).allExhausted = true → t.slot f.slot = s.slot f.slot) ∧ t.slot f.slot.other = s.slot f.slot.other ∧
      t.Settled none s.window.target s.port s.sup.events ∧
      t = { s with slotA := t.slotA, slotB := t.slotB, queue := { s.queue with drafts := t.queue.drafts, fill := t.queue.fill },
                   window := { s.window with target := t.window.target }, ports := t.ports, sup := { s.sup with events := t.sup.events } } := by
  refine ⟨_, (exec_fillComplete hf hfull).1 hnum, ?_⟩
  have hslot := State.fillMakesDraft_slot (s.setFill none) f
  have hqueue := State.fillMakesDraft_queue (s.setFill none) f
  have hwindow := State.fillMakesDraft_window (s.setFill none) f
  have hport : ((s.setFill none).fillMakesDraft f).port = s.port := funext fun p => State.fillMakesDraft_port (s.setFill none) f p
  have hsup := State.fillMakesDraft_sup (s.setFill none) f
  have hplan := State.fillMakesDraft_plan (s.setFill none) f
  have hreceiver := State.fillMakesDraft_receiver (s.setFill none) f
  have hvoids := State.fillMakesDraft_voids (s.setFill none) f
  have haccount := State.fillMakesDraft_account (s.setFill none) f
  have hpins := State.fillMakesDraft_run (s.setFill none) f
  have hpending := State.fillMakesDraft_pending (s.setFill none) f
  have hslot' (k : SlotId) : (s.setFill none).slot k = s.slot k := State.slot_congr rfl rfl k
  simp only [hslot'] at hslot
  change _ = s.window at hwindow
  change _ = s.sup at hsup
  generalize (s.setFill none).fillMakesDraft f = u at *
  have hsettled := u.settle_settled
  have heq := u.settle_eq
  have hts := u.settle_slot
  generalize u.settle = t at *
  rw [hqueue, hwindow, hport, hsup] at hsettled
  refine ⟨?_, fun h => ?_, fun h => ?_, ?_, hsettled, ?_⟩
  · rw [heq, hqueue]
    rfl
  · rw [hts, hslot, if_pos ⟨rfl, h⟩]
  · rw [hts, hslot, if_neg fun h' => h h'.2]
  · rw [hts, hslot, if_neg fun h' => SlotId.other_ne _ h'.1]
  · refine State.eq_of_fields ?_ rfl rfl ?_ ?_ ?_ ?_ ?_ (fun p => rfl) ?_ ?_ ?_
    · rw [heq]
      exact hplan
    · rw [heq, hqueue]
      rfl
    · rw [heq, hwindow]
    · rw [heq]
      exact hreceiver
    · rw [heq]
      exact hvoids
    · rw [heq]
      exact haccount
    · rw [heq, hsup]
    · rw [heq]
      exact hpins
    · rw [heq]
      exact hpending

/-- A fill that numbered nothing: what it leaves before its report. -/
theorem State.foundNothing_spec (s : State) (f : Fill) :
    let j := s.slot f.slot
    let final : Final := if (∃ r, j.first = some r ∧ r < f.target) ∧ (j.tally.repeatsOpened ≠ 0 ∨ ∃ d ∈ s.queue.drafts, d.slot = f.slot) then
      .known (f.target - 1) else .empty
    let j' := fun tally : Tally => { j with final, note := final, tally }
    let v := s.foundNothing f
    v.slot f.slot.other = s.slot f.slot.other ∧
    v = { s with slotA := v.slotA, slotB := v.slotB, queue := { s.queue with
         fill := none
         drafts := s.queue.drafts.map (fun d =>
           if d.slot = f.slot ∧ d.repeatIndex + 1 = f.target then { d with skipped := d.skipped + f.skipped } else d) } } ∧
    ((∃ d ∈ s.queue.drafts, d.slot = f.slot ∧ d.repeatIndex + 1 = f.target) → v.slot f.slot = j' j.tally) ∧
    ((¬ ∃ d ∈ s.queue.drafts, d.slot = f.slot ∧ d.repeatIndex + 1 = f.target) →
      v.slot f.slot = j' { j.tally with skipped := min (j.tally.skipped + f.skipped) 4294967295 }) ∧
    (v.slot f.slot).final = final := by
  intro j final j' v
  have hs0 (k : SlotId) : (s.setFill none).slot k = s.slot k := State.slot_congr rfl rfl k
  have hfinal : (s.setFill none).emptyFillFinal f = final := by
    rw [State.emptyFillFinal_eq, hs0]
    rfl
  have hv : v = ((s.setFill none).modSlot f.slot fun j => { j with final := final, note := final }).handSkipped f := by
    rw [← hfinal]
    rfl
  have hmod (k : SlotId) : (((s.setFill none).modSlot f.slot fun j => { j with final := final, note := final }).slot k) =
      if k = f.slot then j' j.tally else s.slot k := by
    rw [State.modSlot_slot, hs0, hs0]
  have hq : ((s.setFill none).modSlot f.slot fun j => { j with final := final, note := final }).queue = { s.queue with fill := none } :=
    State.modSlot_queue _ _ _
  have hskipped := State.handSkipped_slot ((s.setFill none).modSlot f.slot fun j => { j with final := final, note := final }) f
  have hqueue := State.handSkipped_queue ((s.setFill none).modSlot f.slot fun j => { j with final := final, note := final }) f
  have hframe : v = { s with slotA := v.slotA, slotB := v.slotB, queue := v.queue } := by
    rw [hv]
    exact State.eq_of_fields (by simp) rfl rfl rfl (by simp) (by simp) (by simp) (by simp) (fun p => by simp; rfl) (by simp) (by simp) (by simp)
  rw [← hv] at hskipped hqueue
  rw [hq] at hqueue
  have hdrafts : ((s.setFill none).modSlot f.slot fun j => { j with final := final, note := final }).queue.drafts = s.queue.drafts := by rw [hq]
  simp only [hdrafts, hmod] at hskipped
  have hself := (hskipped f.slot)
  have hother := (hskipped f.slot.other)
  simp only [if_true, if_neg (SlotId.other_ne f.slot)] at hself hother
  have hslots : (v.slot f.slot).final = final := by
    by_cases h : ∃ d ∈ s.queue.drafts, d.slot = f.slot ∧ d.repeatIndex + 1 = f.target
    · rw [hself.1 h]
    · rw [hself.2 h]
  refine ⟨?_, ?_, hself.1, hself.2, hslots⟩
  · by_cases h : ∃ d ∈ s.queue.drafts, d.slot = f.slot ∧ d.repeatIndex + 1 = f.target
    · exact hother.1 h
    · exact hother.2 h
  · rw [← hqueue]
    exact hframe

/-- What settles after a report: the next fill, the target, the ports and the event flags, beside what the report changed. -/
theorem State.settle_reported {s v u : State} (hw : v.window = s.window) (hp : v.port = s.port) (hs : v.sup = s.sup) (hf : v.queue.fill = none)
    {i : SlotId} (hu : u = v.reportExhausted i) : u.settle.Settled none s.window.target s.port u.sup.events ∧
      u.settle = { u with queue := { u.queue with fill := u.settle.queue.fill }, window := { s.window with target := u.settle.window.target },
                          ports := u.settle.ports, sup := { s.sup with events := u.settle.sup.events } } := by
  have hwindow : u.window = s.window := by rw [hu, State.reportExhausted_window, hw]
  have hqueue : u.queue.fill = none := by rw [hu, State.reportExhausted_queue, hf]
  have hport : u.port = s.port := by
    rw [← hp, hu]
    exact funext fun p => State.reportExhausted_port _ _ p
  have hsup : u.sup = { s.sup with events := u.sup.events } := by
    rw [← hs, hu]
    exact (State.raises_reportExhausted v i).sup_eq
  have hsettled := u.settle_settled
  have heq := u.settle_eq
  generalize u.settle = t at *
  rw [hwindow, hqueue, hport] at hsettled
  refine ⟨hsettled, ?_⟩
  rw [hwindow, hsup] at heq
  exact heq

/-- Settles O31: a fill that numbered something, one that numbered nothing, the next fill, and ownership. -/
theorem fillCompletes : Obligations.FillCompletes := by
  refine ⟨?_, ?_, fun s g => ?_, ?_⟩
  · intro f s hf hfull hnum allOut
    obtain ⟨t, hex, hdrafts, hout, hin, hother, hsettled, hframe⟩ := fillComplete_numbered hf hfull hnum
    have hall := JobSlot.allExhausted_iff (s.slot f.slot)
    exact ⟨t, hex, hdrafts, fun h => hout (hall.mpr h), fun h => hin fun h' => h (hall.mp h'), hother, hsettled, hframe⟩
  · intro f s hf hfull hnone j prev final j'
    obtain ⟨hother, hframe, hprev, hno, hfinal⟩ := s.foundNothing_spec f
    obtain ⟨hdrains, hstands, hchange⟩ := (s.foundNothing f).reportExhausted_cases f.slot
    have hwindow : (s.foundNothing f).window = s.window := by rw [hframe]
    have hport : (s.foundNothing f).port = s.port := funext (State.port_congr (by rw [hframe]))
    have hsup : (s.foundNothing f).sup = s.sup := by rw [hframe]
    have hfill : (s.foundNothing f).queue.fill = none := by rw [hframe]
    obtain ⟨hsettled, heq⟩ := State.settle_reported hwindow hport hsup hfill rfl (i := f.slot)
    have hpast := (s.foundNothing f).finalPast_iff
    simp only [hwindow] at hpast
    refine ⟨_, (s.foundNothing f).reportExhausted f.slot, s.foundNothing f, (exec_fillComplete hf hfull).2 hnone, hother, hframe, hprev, hno, ?_,
      hsettled, heq⟩
    intro past
    refine ⟨fun h1 h2 h3 => hdrains h1 h2 ((hpast _).mpr h3), fun h1 h2 => hstands h1 (h2.imp_right fun h h' => h ((hpast _).mp h')),
      fun i rc h => ⟨fun ⟨h1, h2, k, hk, h3⟩ => (hchange i rc h).1 ⟨h1, hfinal.trans h2, k, hk, (hpast k).mpr h3⟩, fun hn => (hchange i rc h).2 ?_⟩⟩
    rintro ⟨h1, h2, k, hk, h3⟩
    exact hn ⟨h1, hfinal.symm.trans h2, k, hk, (hpast k).mp h3⟩
  · rw [State.nextFill_eq_some]
    refine and_congr_right' (and_congr_right' (exists_congr fun b => and_congr_right' (and_congr_right' ?_)))
    exact and_congr (Final.allows_iff _ _) State.eq_fillFor
  · intro s q b mayOwn eligible
    have heligible (c : Nat) : eligible c ↔ max s.firstUnopened (s.queue.passFloor.getD 0) ≤ c ∧ (s.ownerOf c).isSome = true :=
      ((and_congr_left' (s.mayStillOpen_iff c)).trans and_assoc).symm
    refine ⟨fun h => State.ownerOf_of_no_running (State.runningSlot_eq_none h) q, fun i k hi ho hc => ⟨fun hoc => ?_, fun rc hoc => ?_⟩, ?_, ?_⟩
    · have howner : s.ownerOf q = s.ownedBy i q := by
        unfold State.ownerOf
        rw [State.runningSlot_of hi ho, State.staged_none hc hoc]
      rw [howner]
      exact State.ownedBy_eq_some
    · have howner : s.ownerOf q = s.ownedBy (if rc ≤ q then i.other else i) q := by
        unfold State.ownerOf
        rw [State.runningSlot_of hi ho, State.staged_of hc hoc]
        dsimp only
        split_ifs <;> rfl
      rw [howner]
      exact State.ownedBy_eq_some
    · simp only [heligible]
      exact State.draftBase_eq_some
    · simp only [heligible]
      exact State.draftBase_eq_none

end Sys2Proof.Machine
end
